-- ==== Sys2Proof/Word.lean ====
section
/-!
DEFINITION. The word types of the block (00_scope.md R9, 10_state.md R21, 20_memory.md R76).
-/
namespace Sys2Proof

/-- One pixel: "4-bit half of a byte; one pixel in this format" (R9, R13). -/
abbrev Nibble := BitVec 4

/-- One byte: two packed pixels, or one byte of a packet, an asset or the bus (R9). -/
abbrev Byte := BitVec 8

/-- A word is 16 bits: every register and operand unless its rule says otherwise (R9, R21). -/
abbrev Word := BitVec 16

/-- An Asset Store address, 32 bits (R76). -/
abbrev Addr := BitVec 32

end Sys2Proof
end

