-- ==== Sys2Proof/Syntax.lean ====
section
/-!
DEFINITION. The commands: one constructor per row of spec/opcode_table.json (30_encoding.md R96), with the
flags and operands of its row. Operands are the raw 16-bit words of the packet; how each is read (s16, u16,
colour, kind, ctrl) is Machine/Operands.lean.
-/
namespace Sys2Proof

/-- The mode flag `M` (R91). -/
inductive Mode where
  /-- `M = 0`: "writes into the in-memory grid". -/
  | buffered
  /-- `M = 1`: "streams bytes immediately to the Bus Transport". -/
  | direct
deriving DecidableEq, Repr

/-- The justification flag `J` (R91); the value 3 is reserved and has no constructor. -/
inductive Justify where
  | left
  | center
  | right
deriving DecidableEq, Repr

/-- The twenty commands of R96. -/
inductive Instr where
  /-- `INIT width, height` (R120). -/
  | init (width height : Word)
  /-- `SET_TEXT_BOUNDS min_x, max_x` (R123). -/
  | setTextBounds (minX maxX : Word)
  /-- `SET_DISPLAY_WINDOW min_y, max_y` (R124). -/
  | setDisplayWindow (minY maxY : Word)
  /-- `CLEAR` (R125). -/
  | clear
  /-- `FILL color` (R126). -/
  | fill (color : Word)
  /-- `FLUSH_WINDOW x, y, w, h` (R128). -/
  | flushWindow (x y w h : Word)
  /-- `FLUSH_FULL` (R252). -/
  | flushFull
  /-- `SET_CTRL ctrl` (R132). -/
  | setCtrl (ctrl : Word)
  /-- `SET_CURSOR x, y` (R133). -/
  | setCursor (x y : Word)
  /-- `WRITE_HLINE.m x, y, n, pixels`; `payload` is the `ceil(n / 2)` payload bytes (R94, R150). -/
  | writeHline (m : Mode) (x y n : Word) (payload : List Byte)
  /-- `DRAW_RECT.m x, y, w, h, color` (R160). -/
  | drawRect (m : Mode) (x y w h color : Word)
  /-- `DRAW_IMAGE.m x, y, file_id` (R165). -/
  | drawImage (m : Mode) (x y fileId : Word)
  /-- `SELECT_FONT font_id` (R181). -/
  | selectFont (fontId : Word)
  /-- `GLYPH_LOOKUP codepoint` (R186). -/
  | glyphLookup (codepoint : Word)
  /-- `MEASURE codepoint` (R189). -/
  | measure (codepoint : Word)
  /-- `DRAW_GLYPH.m x, y, codepoint` (R191). -/
  | drawGlyph (m : Mode) (x y codepoint : Word)
  /-- `PUT_CHAR.m codepoint` (R196). -/
  | putChar (m : Mode) (codepoint : Word)
  /-- `PUT_STRING.m n, characters` (R95, R198). -/
  | putString (m : Mode) (n : Word) (chars : List Word)
  /-- `PUT_STRING_XY.m.j x, y, n, characters` (R95, R200). -/
  | putStringXy (m : Mode) (j : Justify) (x y n : Word) (chars : List Word)
  /-- `LOAD_TRANSITION kind` (R250). -/
  | loadTransition (kind : Word)
deriving DecidableEq, Repr

end Sys2Proof
end

