-- ==== Sys2Proof/WellFormed.lean ====
section
/-!
DEFINITION. Which terms of `Instr` are packets: a payload has exactly the length its count operand `n` announces
(30_encoding.md R93 to R95). Every other operand is a 16-bit word and any word is an operand.
-/
namespace Sys2Proof

/-- A command term is well formed when its payload is as long as `n` says: `ceil(n / 2)` bytes of pixels (R94),
`n` codepoints (R95). -/
def Instr.wellFormed : Instr → Bool
  | .writeHline _ _ _ n payload => payload.length == (n.toNat + 1) / 2
  | .putString _ n chars => chars.length == n.toNat
  | .putStringXy _ _ _ _ n chars => chars.length == n.toNat
  | .init _ _ => true
  | .setTextBounds _ _ => true
  | .setDisplayWindow _ _ => true
  | .clear => true
  | .fill _ => true
  | .flushWindow _ _ _ _ => true
  | .flushFull => true
  | .setCtrl _ => true
  | .setCursor _ _ => true
  | .drawRect _ _ _ _ _ _ => true
  | .drawImage _ _ _ _ => true
  | .selectFont _ => true
  | .glyphLookup _ => true
  | .measure _ => true
  | .drawGlyph _ _ _ _ => true
  | .putChar _ _ => true
  | .loadTransition _ => true

end Sys2Proof
end

