-- ==== Sys2Proof/Decode.lean ====
section
/-!
DEFINITION. The packet decoder and encoder (30_encoding.md): opcode map R96, header match R97, reserved headers
R100 to R102, operands R92, formats and lengths R93, payloads R94 and R95.
-/
namespace Sys2Proof

/-- The packet formats of R93. -/
inductive Format where
  | z | a1 | a2 | a3 | a4 | a5 | vp | vs | vx
deriving DecidableEq, Repr

/-- How many 16-bit operands follow the header (R93). -/
def Format.operands : Format → Nat
  | .z => 0 | .a1 => 1 | .a2 => 2 | .a3 => 3 | .a4 => 4 | .a5 => 5 | .vp => 3 | .vs => 1 | .vx => 3

/-- How many payload bytes follow the operands, the last of which is `n` (R93). -/
def Format.payloadBytes (n : Nat) : Format → Nat
  | .vp => (n + 1) / 2
  | .vs => 2 * n
  | .vx => 2 * n
  | _ => 0

/-- Packet length in bytes: `2 + 2 * (number of operands) + (payload bytes)` (R93). -/
def Format.packetBytes (f : Format) (n : Nat) : Nat :=
  2 + 2 * f.operands + f.payloadBytes n

/-- The opcodes, one per row of R96, in the table's order. -/
inductive Opcode where
  | init | setTextBounds | setDisplayWindow | clear | fill | flushWindow | flushFull | setCtrl | setCursor
  | writeHline | drawRect | drawImage
  | selectFont | glyphLookup | measure | drawGlyph | putChar | putString | putStringXy
  | loadTransition
deriving DecidableEq, Repr

/-- The rows of R96, in order. -/
def opcodes : List Opcode :=
  [.init, .setTextBounds, .setDisplayWindow, .clear, .fill, .flushWindow, .flushFull, .setCtrl, .setCursor,
   .writeHline, .drawRect, .drawImage,
   .selectFont, .glyphLookup, .measure, .drawGlyph, .putChar, .putString, .putStringXy,
   .loadTransition]

/-- The opcode byte `OP` (R96). -/
def Opcode.code : Opcode → Byte
  | .init => 0x01#8
  | .setTextBounds => 0x02#8
  | .setDisplayWindow => 0x03#8
  | .clear => 0x04#8
  | .fill => 0x05#8
  | .flushWindow => 0x06#8
  | .flushFull => 0x07#8
  | .setCtrl => 0x08#8
  | .setCursor => 0x09#8
  | .writeHline => 0x10#8
  | .drawRect => 0x11#8
  | .drawImage => 0x12#8
  | .selectFont => 0x20#8
  | .glyphLookup => 0x21#8
  | .measure => 0x22#8
  | .drawGlyph => 0x23#8
  | .putChar => 0x24#8
  | .putString => 0x25#8
  | .putStringXy => 0x26#8
  | .loadTransition => 0x30#8

/-- The header bits a row fixes (R97): all of them, all but `M`, or all but `M` and `J`. -/
def Opcode.mask : Opcode → Word
  | .writeHline | .drawRect | .drawImage | .drawGlyph | .putChar | .putString => 0xFEFF#16
  | .putStringXy => 0xF8FF#16
  | .init | .setTextBounds | .setDisplayWindow | .clear | .fill | .flushWindow | .flushFull | .setCtrl
  | .setCursor | .selectFont | .glyphLookup | .measure | .loadTransition => 0xFFFF#16

/-- The format column of R96. -/
def Opcode.format : Opcode → Format
  | .clear | .flushFull => .z
  | .fill | .setCtrl | .selectFont | .glyphLookup | .measure | .putChar | .loadTransition => .a1
  | .init | .setTextBounds | .setDisplayWindow | .setCursor => .a2
  | .drawImage | .drawGlyph => .a3
  | .flushWindow => .a4
  | .drawRect => .a5
  | .writeHline => .vp
  | .putString => .vs
  | .putStringXy => .vx

/-- `le16(b0, b1) = b0 + 256 * b1`: the first byte is the less significant (R10, R92). -/
def le16 (b0 b1 : Byte) : Word := b1 ++ b0

/-- The two bytes of an operand in port order, low byte first (R92). -/
def wordBytes (w : Word) : List Byte := [w.extractLsb' 0 8, w.extractLsb' 8 8]

/-- `HDR = OP | (FL << 8)` (R91). -/
def headerWord (op fl : Byte) : Word := le16 op fl

/-- `HDR[8] = M` (R91). -/
def headerMode (hdr : Word) : Mode := if hdr.getLsbD 8 then .direct else .buffered

/-- `HDR[10:9] = J`, none for the reserved value 3 (R91). -/
def headerJustify (hdr : Word) : Option Justify :=
  match hdr.getLsbD 10, hdr.getLsbD 9 with
  | false, false => some .left
  | false, true => some .center
  | true, false => some .right
  | true, true => none

/-- Why a header is illegal (R100, R101). -/
inductive IllegalHeader where
  /-- `OP` is not in the table of R96 (R100). -/
  | reservedOpcode
  /-- A flag bit is set that the opcode's row does not list: `FL[7:3]`, `M` or `J` (R101). -/
  | reservedFlags
  /-- `J = 3` on PUT_STRING_XY (R101). -/
  | reservedJustification
deriving DecidableEq, Repr

/-- A legal header's content. -/
structure Header where
  op : Opcode
  m  : Mode
  j  : Justify
deriving DecidableEq, Repr

/-- Header decoding on the two header bytes alone (R97, R100, R101, R276 (1)). -/
def decodeHeader (hdr : Word) : Except IllegalHeader Header :=
  match opcodes.find? fun o => o.code == hdr.extractLsb' 0 8 with
  | none => .error .reservedOpcode
  | some op =>
    if hdr &&& op.mask = op.code.setWidth 16 then
      match headerJustify hdr with
      | some j => .ok { op := op, m := headerMode hdr, j := j }
      | none => .error .reservedJustification
    else .error .reservedFlags

/-- Take one operand from the port (R92). -/
def readWord : List Byte → Option (Word × List Byte)
  | b0 :: b1 :: rest => some (le16 b0 b1, rest)
  | _ => none

/-- Take `n` 16-bit words from the port: the codepoints of a string payload (R95). -/
def readWords : Nat → List Byte → Option (List Word × List Byte)
  | 0, bs => some ([], bs)
  | n + 1, bs =>
    match readWord bs with
    | none => none
    | some (w, rest) =>
      match readWords n rest with
      | none => none
      | some (ws, rest') => some (w :: ws, rest')

/-- Take `n` bytes from the port: the payload of a pixel packet (R94). -/
def readBytes (n : Nat) (bs : List Byte) : Option (List Byte × List Byte) :=
  if n ≤ bs.length then some (bs.take n, bs.drop n) else none

/-- The operands and payload of a packet with a legal header; none while bytes are missing (R92 to R96). -/
def decodeBody (h : Header) (bs : List Byte) : Option (Instr × List Byte) :=
  match h.op with
  | .init => do
    let (w, bs) ← readWord bs
    let (ht, bs) ← readWord bs
    some (.init w ht, bs)
  | .setTextBounds => do
    let (a, bs) ← readWord bs
    let (b, bs) ← readWord bs
    some (.setTextBounds a b, bs)
  | .setDisplayWindow => do
    let (a, bs) ← readWord bs
    let (b, bs) ← readWord bs
    some (.setDisplayWindow a b, bs)
  | .clear => some (.clear, bs)
  | .fill => do
    let (c, bs) ← readWord bs
    some (.fill c, bs)
  | .flushWindow => do
    let (x, bs) ← readWord bs
    let (y, bs) ← readWord bs
    let (w, bs) ← readWord bs
    let (ht, bs) ← readWord bs
    some (.flushWindow x y w ht, bs)
  | .flushFull => some (.flushFull, bs)
  | .setCtrl => do
    let (c, bs) ← readWord bs
    some (.setCtrl c, bs)
  | .setCursor => do
    let (x, bs) ← readWord bs
    let (y, bs) ← readWord bs
    some (.setCursor x y, bs)
  | .writeHline => do
    let (x, bs) ← readWord bs
    let (y, bs) ← readWord bs
    let (n, bs) ← readWord bs
    let (px, bs) ← readBytes ((n.toNat + 1) / 2) bs
    some (.writeHline h.m x y n px, bs)
  | .drawRect => do
    let (x, bs) ← readWord bs
    let (y, bs) ← readWord bs
    let (w, bs) ← readWord bs
    let (ht, bs) ← readWord bs
    let (c, bs) ← readWord bs
    some (.drawRect h.m x y w ht c, bs)
  | .drawImage => do
    let (x, bs) ← readWord bs
    let (y, bs) ← readWord bs
    let (f, bs) ← readWord bs
    some (.drawImage h.m x y f, bs)
  | .selectFont => do
    let (f, bs) ← readWord bs
    some (.selectFont f, bs)
  | .glyphLookup => do
    let (c, bs) ← readWord bs
    some (.glyphLookup c, bs)
  | .measure => do
    let (c, bs) ← readWord bs
    some (.measure c, bs)
  | .drawGlyph => do
    let (x, bs) ← readWord bs
    let (y, bs) ← readWord bs
    let (c, bs) ← readWord bs
    some (.drawGlyph h.m x y c, bs)
  | .putChar => do
    let (c, bs) ← readWord bs
    some (.putChar h.m c, bs)
  | .putString => do
    let (n, bs) ← readWord bs
    let (cs, bs) ← readWords n.toNat bs
    some (.putString h.m n cs, bs)
  | .putStringXy => do
    let (x, bs) ← readWord bs
    let (y, bs) ← readWord bs
    let (n, bs) ← readWord bs
    let (cs, bs) ← readWords n.toNat bs
    some (.putStringXy h.m h.j x y n cs, bs)
  | .loadTransition => do
    let (k, bs) ← readWord bs
    some (.loadTransition k, bs)

/-- What the front of a byte stream is. -/
inductive Decoded where
  /-- A whole packet, and the bytes after it. -/
  | packet (i : Instr) (rest : List Byte)
  /-- An illegal header: the reason, the header word, and the bytes after the two header bytes (R102, R104). -/
  | illegal (why : IllegalHeader) (hdr : Word) (rest : List Byte)
  /-- Fewer bytes than the packet needs (R301). -/
  | incomplete
deriving DecidableEq, Repr

/-- The decoder: total on any bytes (R97, R99, R276 (1) and (2)). -/
def decode : List Byte → Decoded
  | op :: fl :: rest =>
    match decodeHeader (headerWord op fl) with
    | .error why => .illegal why (headerWord op fl) rest
    | .ok h =>
      match decodeBody h rest with
      | some (i, rest') => .packet i rest'
      | none => .incomplete
  | _ => .incomplete

/-- The opcode of a command (R96). -/
def Instr.opcode : Instr → Opcode
  | .init _ _ => .init
  | .setTextBounds _ _ => .setTextBounds
  | .setDisplayWindow _ _ => .setDisplayWindow
  | .clear => .clear
  | .fill _ => .fill
  | .flushWindow _ _ _ _ => .flushWindow
  | .flushFull => .flushFull
  | .setCtrl _ => .setCtrl
  | .setCursor _ _ => .setCursor
  | .writeHline _ _ _ _ _ => .writeHline
  | .drawRect _ _ _ _ _ _ => .drawRect
  | .drawImage _ _ _ _ => .drawImage
  | .selectFont _ => .selectFont
  | .glyphLookup _ => .glyphLookup
  | .measure _ => .measure
  | .drawGlyph _ _ _ _ => .drawGlyph
  | .putChar _ _ => .putChar
  | .putString _ _ _ => .putString
  | .putStringXy _ _ _ _ _ _ => .putStringXy
  | .loadTransition _ => .loadTransition

/-- The mode flag a command carries; buffered where its row has no `M` (R91). -/
def Instr.mode : Instr → Mode
  | .writeHline m _ _ _ _ => m
  | .drawRect m _ _ _ _ _ => m
  | .drawImage m _ _ _ => m
  | .drawGlyph m _ _ _ => m
  | .putChar m _ => m
  | .putString m _ _ => m
  | .putStringXy m _ _ _ _ _ => m
  | .init _ _ | .setTextBounds _ _ | .setDisplayWindow _ _ | .clear | .fill _ | .flushWindow _ _ _ _
  | .flushFull | .setCtrl _ | .setCursor _ _ | .selectFont _ | .glyphLookup _ | .measure _
  | .loadTransition _ => .buffered

/-- The justification flag a command carries; left where its row has no `J` (R91). -/
def Instr.justify : Instr → Justify
  | .putStringXy _ j _ _ _ _ => j
  | .init _ _ | .setTextBounds _ _ | .setDisplayWindow _ _ | .clear | .fill _ | .flushWindow _ _ _ _
  | .flushFull | .setCtrl _ | .setCursor _ _ | .writeHline _ _ _ _ _ | .drawRect _ _ _ _ _ _
  | .drawImage _ _ _ _ | .selectFont _ | .glyphLookup _ | .measure _ | .drawGlyph _ _ _ _ | .putChar _ _
  | .putString _ _ _ | .loadTransition _ => .left

/-- The flags byte `FL` (R91). -/
def flagsByte : Mode → Justify → Byte
  | .buffered, .left => 0x00#8
  | .direct, .left => 0x01#8
  | .buffered, .center => 0x02#8
  | .direct, .center => 0x03#8
  | .buffered, .right => 0x04#8
  | .direct, .right => 0x05#8

/-- The operand words of a command in the order of R96. -/
def Instr.operands : Instr → List Word
  | .init w h => [w, h]
  | .setTextBounds a b => [a, b]
  | .setDisplayWindow a b => [a, b]
  | .clear => []
  | .fill c => [c]
  | .flushWindow x y w h => [x, y, w, h]
  | .flushFull => []
  | .setCtrl c => [c]
  | .setCursor x y => [x, y]
  | .writeHline _ x y n _ => [x, y, n]
  | .drawRect _ x y w h c => [x, y, w, h, c]
  | .drawImage _ x y f => [x, y, f]
  | .selectFont f => [f]
  | .glyphLookup c => [c]
  | .measure c => [c]
  | .drawGlyph _ x y c => [x, y, c]
  | .putChar _ c => [c]
  | .putString _ n _ => [n]
  | .putStringXy _ _ x y n _ => [x, y, n]
  | .loadTransition k => [k]

/-- The payload bytes of a command (R94, R95). -/
def Instr.payload : Instr → List Byte
  | .writeHline _ _ _ _ px => px
  | .putString _ _ cs => cs.flatMap wordBytes
  | .putStringXy _ _ _ _ _ cs => cs.flatMap wordBytes
  | .init _ _ | .setTextBounds _ _ | .setDisplayWindow _ _ | .clear | .fill _ | .flushWindow _ _ _ _
  | .flushFull | .setCtrl _ | .setCursor _ _ | .drawRect _ _ _ _ _ _ | .drawImage _ _ _ _ | .selectFont _
  | .glyphLookup _ | .measure _ | .drawGlyph _ _ _ _ | .putChar _ _ | .loadTransition _ => []

/-- The encoder: the packet of a command (R90 to R95). -/
def encode (i : Instr) : List Byte :=
  i.opcode.code :: flagsByte i.mode i.justify :: (i.operands.flatMap wordBytes ++ i.payload)

/-- Byte `k` of a table word: bit 0 of the word is the least significant bit of the packet's first byte, and
every bit at or above `nbits` is 0. -/
def tableByte (nbits w k : Nat) : Byte := BitVec.ofNat 8 ((w % 2 ^ nbits) >>> (8 * k))

/-- How many bytes the packet of a table word has: the two header bytes alone for an illegal header, else the
length of its format with the count operand `n` of the word (R93, R104). -/
def tableLength (nbits w : Nat) : Nat :=
  match decodeHeader (headerWord (tableByte nbits w 0) (tableByte nbits w 1)) with
  | .error _ => 2
  | .ok h =>
    let k := 2 * h.op.format.operands
    h.op.format.packetBytes (le16 (tableByte nbits w k) (tableByte nbits w (k + 1))).toNat

/-- The packet of a table word, in port order. -/
def tableBytes (nbits w : Nat) : List Byte :=
  (List.range (tableLength nbits w)).map (tableByte nbits w)

/-- The command the decoder reads from a table word; none where the header is illegal. -/
def decodeTableWord (nbits w : Nat) : Option Instr :=
  match decode (tableBytes nbits w) with
  | .packet i _ => some i
  | .illegal _ _ _ => none
  | .incomplete => none

end Sys2Proof
end

