-- ==== Sys2Proof/Config.lean ====
section
/-!
DEFINITION. What an implementation fixes (00_scope.md R7) and the free values: constants without a body,
about which nothing can be proved, for every value the spec leaves unspecified.
-/
namespace Sys2Proof

/-- One power-up tuple: an opcode and its payload, whose length is `payload_length` (R71). -/
structure PwrTuple where
  opcode  : Byte
  payload : List Byte
deriving DecidableEq, Repr

/-- One row of the table of `DISP_ADDR_CMDS`: the command bytes that point the display's write pointer at
`(row, col)` (R7, R79). -/
structure AddrCmd where
  row   : Nat
  col   : Nat
  bytes : List Byte
deriving DecidableEq, Repr

/-- Compressed pixel data at asset address `base`, given by the pixels its decompressor yields, in order
(R7 `PIXEL_STREAM`, R70). -/
structure DecodedStream where
  base   : Nat
  pixels : List Nibble
deriving DecidableEq, Repr

/-- One entry of the Asset Store's directory: `get_file_address(fileId, assetType) = addr` (R76). -/
structure DirEntry where
  fileId    : Word
  assetType : Nat
  addr      : Addr
deriving DecidableEq, Repr

/-- The configuration record `Cfg` of R7, one field per parameter, as plain data. Parameters that are
functions (`PIXEL_STREAM`, `DISP_ADDR_CMDS`) are held as tables: notes/assumptions/3.md and 4.md. -/
structure Cfg where
  /-- `W_MAX`, the largest width INIT accepts. -/
  wMax : Nat
  /-- `H_MAX`, the largest height INIT accepts. -/
  hMax : Nat
  /-- `NI`, the capacity of the font interval table. -/
  ni : Nat
  /-- `LINE_CAP`, the line-staging buffer's capacity in pixels. -/
  lineCap : Nat
  /-- `STR_CAP`, the longest string a packet may carry, in codepoints. -/
  strCap : Nat
  /-- `FS_CHUNK`, the size in bytes of each full-screen staging buffer. -/
  fsChunk : Nat
  /-- `HAS_FB`, frame-buffer presence. -/
  hasFb : Bool
  /-- `HAS_DMA`, Bulk Transfer Channel presence. -/
  hasDma : Bool
  /-- `ASSET_LE`, multi-byte asset fields are little-endian (decided true, kept switchable). -/
  assetLe : Bool
  /-- `GLYPH_OFFSET_SIGNED`, glyph offsets are two's-complement bytes. -/
  glyphOffsetSigned : Bool
  /-- `FLUSH_GROWS`, FLUSH_WINDOW grows the width when it moves an odd start column down. -/
  flushGrows : Bool
  /-- `PIXEL_STREAM`: the data addresses whose pixel data is compressed, each with its decoded pixels; all
  other data is uncompressed (R70). -/
  decodedStreams : List DecodedStream
  /-- `PWRSEQ`, the display power-up sequence (R71). -/
  pwrSeq : List PwrTuple
  /-- `PWR_PAYLOAD_IS_DATA`, power-up payload bytes go out with the data strobe (R121). -/
  pwrPayloadIsData : Bool
  /-- `SETTLE_DELAY`, in a unit the spec does not give. -/
  settleDelay : Nat
  /-- `VWIPE_ROW_DELAY`, in a unit the spec does not give. -/
  vwipeRowDelay : Nat
  /-- `DIV_BYTE`, the packed byte of a wipe's divider. -/
  divByte : Byte
  /-- `DMA_DEST`, the `dest_addr` passed to `start_transfer`. -/
  dmaDest : Nat
  /-- `DMA_TRIG`, the `trigger_id` passed to `start_transfer`. -/
  dmaTrig : Nat
  /-- `TYPE_FONT`, an asset-type code. -/
  typeFont : Nat
  /-- `TYPE_BITMAP`, an asset-type code. -/
  typeBitmap : Nat
  /-- `DISP_ADDR_CMDS`, a table of the positions whose addressing takes command bytes. -/
  dispAddrCmds : List AddrCmd
deriving DecidableEq, Repr, Inhabited

/-- What R7 and R71 say a configuration satisfies: positive capacities, an even `W_MAX`, payload lengths that
fit a byte. -/
def Cfg.wf (c : Cfg) : Bool :=
  decide (0 < c.wMax) && decide (c.wMax % 2 = 0) && decide (0 < c.hMax) && decide (0 < c.ni) &&
  decide (1 ≤ c.lineCap) && decide (0 < c.strCap) && decide (0 < c.fsChunk) &&
  c.pwrSeq.all fun t => decide (t.payload.length ≤ 255)

/-- The size in bytes of each staging buffer, `max(FS_CHUNK, W_MAX / 2)` (R34). -/
def Cfg.stageSize (c : Cfg) : Nat := max c.fsChunk (c.wMax / 2)

/-- FREE VALUE (notes/assumptions/1.md): the configuration of the part that is reset. -/
opaque Config.cfg : Cfg

/-- FREE VALUE (notes/assumptions/2.md): the Asset Store's directory at reset. -/
opaque Config.assetDir : List DirEntry

/-- FREE VALUE (notes/assumptions/2.md): the byte at an asset address that no listed asset occupies (R77, U6). -/
opaque Config.assetFree (addr : Nat) : Byte

/-- FREE VALUE (notes/assumptions/9.md): an FB byte with no listed value (R38, U3). -/
opaque Config.fbFree (epoch off : Nat) : Byte

/-- FREE VALUE (notes/assumptions/9.md): the column of a SHADOW entry with no listed value (R38, U3). -/
opaque Config.shadowColFree (epoch row : Nat) : Word

/-- FREE VALUE (notes/assumptions/9.md): the byte of a SHADOW entry with no listed value (R38, U3). -/
opaque Config.shadowByteFree (epoch row : Nat) : Byte

/-- FREE VALUE (notes/assumptions/9.md, 10.md): a DISP byte with no listed value (R38, R121, U4). -/
opaque Config.dispFree (epoch off : Nat) : Byte

/-- FREE VALUE (notes/assumptions/30.md): the row of the display's write pointer after a command that reset ended
(R291). -/
opaque Config.wpRowFree (epoch : Nat) : Nat

/-- FREE VALUE (notes/assumptions/30.md): the byte column of the display's write pointer after a command that reset
ended (R291). -/
opaque Config.wpColFree (epoch : Nat) : Nat

/-- FREE VALUE (notes/assumptions/32.md): a byte of `DISP` that a transfer which never completes was to write; the
occasion is the number of events before (R75, R304, U10). -/
opaque Config.hungDispFree (occasion off : Nat) : Byte

/-- FREE VALUE (notes/assumptions/32.md): the row of the display's write pointer while a transfer never completes (R75,
R304). -/
opaque Config.hungRowFree (occasion : Nat) : Nat

/-- FREE VALUE (notes/assumptions/32.md): the byte column of the display's write pointer while a transfer never completes
(R75, R304). -/
opaque Config.hungColFree (occasion : Nat) : Nat

/-- FREE VALUE (notes/assumptions/3.md): pixel `k` of the compressed data at `base`, past the decoded pixels the
configuration lists. -/
opaque Config.streamFree (base k : Nat) : Nibble

/-- FREE VALUE (notes/assumptions/16.md): what the `occasion`-th read of readback number `n` returns while the
engine is busy (R37, R300, U5). -/
opaque Config.busyReadFree (occasion n : Nat) : Word

end Sys2Proof
end

