-- ==== Sys2Proof/Machine/State.lean ====
section
/-!
DEFINITION. The machine's state, as plain data: every register and memory of 10_state.md and 20_memory.md, the
host's side of the command port, the event trace, and the parameters of a run (00_scope.md R16). Reset values are
10_state.md R38.
-/
namespace Sys2Proof.Machine

/-- The command sequencer's state `SEQ` (R20). -/
inductive Seq where
  /-- Waiting for the first byte of a packet. -/
  | idle
  /-- A packet has begun and is not finished. -/
  | busy
  /-- An illegal header was taken; only reset leaves this state (R104). -/
  | halted
deriving DecidableEq, Repr

/-- The values of `STATUS.CODE` (R270). Values 0x0A to 0xFE are never produced and have no constructor. -/
inductive Code where
  | ok
  | errNotInit
  | errGeometry
  | errNotFound
  | errNoFont
  | notRenderable
  | errLayoutStop
  | errTooWide
  | errOperand
  | errUnsupported
  | errIllegal
deriving DecidableEq, Repr

/-- The pending transition tag `TRANS` (R28). The value 7 is never held and has no constructor. -/
inductive Transition where
  | none
  | wipeLr
  | wipeRl
  | wipeTb
  | wipeBt
  | irisIn
  | irisOut
deriving DecidableEq, Repr

/-- One shadow entry `{col, byte}` (R30). -/
structure ShadowEntry where
  col  : Word
  byte : Byte
deriving DecidableEq, Repr

/-- One interval slot `{start, end}` (R33). -/
structure Interval where
  first : Word
  last  : Word
deriving DecidableEq, Repr

/-- An unused slot: "unused slots sentinel `0xFFFF`" (R33, R38). -/
def Interval.unused : Interval := { first := 0xFFFF#16, last := 0xFFFF#16 }

/-- A byte memory: (address, byte) pairs with strictly rising addresses (20_memory.md R60). An address that is not
listed holds no value of its own: what reading it gives is a free value of the space that holds it
(notes/assumptions/2.md, 9.md). -/
abbrev Memory := List Host.Cell

/-- Where the bytes of a bulk transfer come from (R75, R240): a byte offset of `FB`, or a staging buffer from its
first byte. -/
inductive XferSource where
  | fb (off : Nat)
  | stage (k : Nat)
deriving DecidableEq, Repr

/-- The output events of R78, and the model's own mark of a reset. -/
inductive Event where
  /-- One `send_command` per byte. -/
  | busCmd (bytes : List Byte)
  /-- `send_data`. -/
  | busData (bytes : List Byte)
  /-- `start_transfer(dest, src, len, trig)`. -/
  | dmaStart (dest : Nat) (src : XferSource) (len trig : Nat)
  /-- The engine saw `poll_and_clear_complete()` return true. -/
  | dmaDone
  /-- A fixed delay. -/
  | delay (duration : Nat)
  /-- One power-up tuple. -/
  | pwrTuple (opcode : Byte) (payload : List Byte)
  /-- The model's own: a reset has cleared the guard, and the bus discipline starts anew (R291;
  notes/assumptions/14.md). -/
  | reset
deriving DecidableEq, Repr

/-- Where a command stood when it began to poll for a transfer that the channel never completes (R82, R304): all that a
command with a bulk transfer may have changed by then, as it was at that poll. -/
structure Hang where
  shadow   : List ShadowEntry
  stage0   : List Byte
  stage1   : List Byte
  line     : List Nibble
  disp     : Memory
  wpRow    : Nat
  wpCol    : Nat
  curX     : Word
  curY     : Word
  maxTextX : Word
  trace    : List Event
deriving DecidableEq, Repr

/-- The state of one instance of the block (R16, R39). -/
structure State where
  /-- `SEQ` (R20). -/
  seq : Seq
  /-- The bytes of the packet in progress that the engine has taken (R20, R301). -/
  rx : List Byte
  /-- The bytes the host offers on the command port, not taken yet (R90; notes/assumptions/5.md). -/
  port : List Byte
  /-- The reset input (R290, R291). The host raises it; the reset it causes takes it back
  (notes/assumptions/8.md). -/
  resetPin : Bool
  /-- The reset input during the next command: it comes when that command has emitted so many events (R291;
  notes/assumptions/30.md). -/
  resetAt : Option Nat
  /-- The Bulk Transfer Channel's own failing: how many events the trace holds from when on it reports no completion;
  none for a channel that completes every transfer (R304, U12; notes/assumptions/32.md). -/
  hangAt : Option Nat
  /-- `STATUS.CODE` (R23). -/
  code : Code
  /-- `RES0` (R22). -/
  res0 : Word
  /-- `RES1` (R22). -/
  res1 : Word
  /-- `RES2` (R22). -/
  res2 : Word
  /-- `RES3` (R22). -/
  res3 : Word
  /-- `INITED` (R24). -/
  inited : Bool
  /-- `GEOM_W`, unsigned (R24). -/
  geomW : Word
  /-- `GEOM_H`, unsigned (R24). -/
  geomH : Word
  /-- `MIN_TEXT_X`, signed (R25). -/
  minTextX : Word
  /-- `MAX_TEXT_X`, signed (R25). -/
  maxTextX : Word
  /-- `MIN_DISP_Y`, signed (R25). -/
  minDispY : Word
  /-- `MAX_DISP_Y`, signed (R25). -/
  maxDispY : Word
  /-- `CUR_X`, signed (R26). -/
  curX : Word
  /-- `CUR_Y`, signed (R26). -/
  curY : Word
  /-- `CTRL` (R27). -/
  ctrl : Word
  /-- `TRANS` (R28). -/
  trans : Transition
  /-- `FONT_SEL` (R32). -/
  fontSel : Bool
  /-- `QMARK` (R32, R182). -/
  qmark : Bool
  /-- `FONT_BASE` (R32). -/
  fontBase : Addr
  /-- `FONT_GH` (R32). -/
  fontGh : Byte
  /-- `FONT_TOTAL` (R32). -/
  fontTotal : Word
  /-- `FONT_DESC` (R32). -/
  fontDesc : Word
  /-- `IV` (R33). -/
  iv : List Interval
  /-- `FB`, by linear offset `y * BPR + b` (R29). -/
  fb : Memory
  /-- `SHADOW`, entry `y` for row `y` (R30). -/
  shadow : List ShadowEntry
  /-- `XFER_BUSY` (R34, R221). -/
  xferBusy : Bool
  /-- A transfer that a reset found in flight and the platform has not stopped: the Bulk Transfer Channel's own
  state, which the engine does not see (R291, U10; notes/assumptions/30.md). -/
  stray : Bool
  /-- The engine polls, within a command, for a transfer that the channel never completes (R17, R304). -/
  hung : Bool
  /-- Where the command in progress began to poll for such a transfer; none between steps (R82, R304;
  notes/assumptions/32.md). -/
  stuck : Option Hang
  /-- `STAGE[0]`: the bytes filled into it by the command in progress (R34). -/
  stage0 : List Byte
  /-- `STAGE[1]`: the bytes filled into it by the command in progress (R34). -/
  stage1 : List Byte
  /-- `LINE`: the pixels staged in it by the command in progress (R34). -/
  line : List Nibble
  /-- `DISP`, by linear offset `y * BPR + b` (R35). -/
  disp : Memory
  /-- `WP.row` (R79). -/
  wpRow : Nat
  /-- `WP.bytecol` (R79). -/
  wpCol : Nat
  /-- The output event trace, oldest event first (R78). -/
  trace : List Event
  /-- The model's own counter: which free values the unlisted bytes of `FB`, `SHADOW` and `DISP` are
  (notes/assumptions/9.md, 10.md). -/
  epoch : Nat
  /-- The configuration record (R7, R16), read only. -/
  cfg : Cfg
  /-- The Asset Store's bytes `ASSET` (R76), read only. -/
  asset : Memory
  /-- The Asset Store's directory `AssetAddr` (R76), read only. -/
  assetDir : List DirEntry
deriving DecidableEq, Repr

/-- Why a step has no next state. No instruction's meaning raises one. -/
inductive Fault where
  /-- Raised by the step of an engine in `HALTED` with the reset input low: "a stuck state that only reset
  leaves" (R17, R104, U1). Safe: the model stops where the hardware does nothing more. -/
  | halted
  /-- Raised by the step of an engine that finds a command while a transfer from before a reset is still in flight:
  the platform must stop it "before the first command after reset, otherwise behaviour is outside the spec" (R291,
  U10). Safe: the model stops where the spec says nothing. -/
  | strayTransfer
deriving DecidableEq, Repr

/-- Why an instruction has no meaning. -/
inductive Refusal where
  /-- Raised by no arm of exec: every row of the opcode table has its meaning. Safe. -/
  | notModelled (mnemonic : String)
deriving DecidableEq, Repr

/-- The machine right after reset (R38, R290). The configuration and the directory are the opaque constants of
Config; memories the spec calls unspecified list nothing; `wpRow`, `wpCol`, `epoch`, `trace`, `port`, `resetPin`,
`resetAt`, `hangAt`, `stray`, `hung` and `stuck` are the model's choices (notes/assumptions/6.md, 8.md to 11.md, 14.md,
30.md, 32.md). -/
def State.reset : State where
  seq := .idle
  rx := []
  port := []
  resetPin := false
  resetAt := Option.none
  hangAt := Option.none
  code := .ok
  res0 := 0#16
  res1 := 0#16
  res2 := 0#16
  res3 := 0#16
  inited := false
  geomW := 0#16
  geomH := 0#16
  minTextX := 0#16
  maxTextX := 0#16
  minDispY := 0#16
  maxDispY := 0#16
  curX := 0#16
  curY := 0#16
  ctrl := 0#16
  trans := .none
  fontSel := false
  qmark := false
  fontBase := 0#32
  fontGh := 0#8
  fontTotal := 0#16
  fontDesc := 0#16
  iv := List.replicate Config.cfg.ni Interval.unused
  fb := []
  shadow := []
  xferBusy := false
  stray := false
  hung := false
  stuck := Option.none
  stage0 := []
  stage1 := []
  line := []
  disp := []
  wpRow := 0
  wpCol := 0
  trace := []
  epoch := 0
  cfg := Config.cfg
  asset := []
  assetDir := Config.assetDir

end Sys2Proof.Machine
end

