-- ==== Sys2Proof/Machine/Operands.lean ====
section
/-!
DEFINITION. How operands, packed pixels and multi-byte asset fields are read, and how an integer is written to a
register (00_scope.md R9, R10; 10_state.md R21; 20_memory.md R62 to R64; 30_encoding.md R92, R94).
-/
namespace Sys2Proof.Machine

/-- `s16`: the operand as a two's-complement integer (R92). -/
def s16 (w : Word) : Int := w.toInt

/-- `u16`: the operand as an unsigned integer (R92). -/
def u16 (w : Word) : Nat := w.toNat

/-- A write of an integer to a 16-bit register stores it modulo 2^16 (R21). -/
def reg16 (v : Int) : Word := BitVec.ofInt 16 v

/-- `hi(b) = b[7:4]`, the even-column pixel (R9, R62). -/
def hiNib (b : Byte) : Nibble := b.extractLsb' 4 4

/-- `lo(b) = b[3:0]`, the odd-column pixel (R9, R62). -/
def loNib (b : Byte) : Nibble := b.extractLsb' 0 4

/-- `pack(p, q) = (p << 4) | q` (R9, R63). -/
def pack (p q : Nibble) : Byte := p ++ q

/-- `merge_hi(b, p)`: replace the even-column pixel (R63). -/
def mergeHi (b : Byte) (p : Nibble) : Byte := pack p (loNib b)

/-- `merge_lo(b, q)`: replace the odd-column pixel (R63). -/
def mergeLo (b : Byte) (q : Nibble) : Byte := pack (hiNib b) q

/-- The pixel a packed byte holds for a column (or stream index) of the parity of `k` (R62). -/
def nibbleAt (b : Byte) (k : Nat) : Nibble := if k % 2 = 0 then hiNib b else loNib b

/-- The byte with the pixel of the parity of `k` replaced, its neighbour kept (R63 `SetPix`). -/
def mergeAt (b : Byte) (k : Nat) (p : Nibble) : Byte := if k % 2 = 0 then mergeHi b p else mergeLo b p

/-- `color[3:0]`; bits 15:4 are ignored (R92, R126, R160). -/
def colour (w : Word) : Nibble := w.setWidth 4

/-- The byte of two pixels of one colour, `c | (c << 4)` (R126). -/
def colourByte (c : Nibble) : Byte := pack c c

/-- `ctrl[15:5] != 0`: a reserved operand value of SET_CTRL (R103, R132). -/
def ctrlReserved (w : Word) : Bool := decide (w >>> 5 ≠ 0#16)

/-- The transition a `kind` operand names; none for the reserved values 7 and above (R28, R103, R250). -/
def transitionOf (kind : Word) : Option Transition :=
  match kind.toNat with
  | 0 => some .none
  | 1 => some .wipeLr
  | 2 => some .wipeRl
  | 3 => some .wipeTb
  | 4 => some .wipeBt
  | 5 => some .irisIn
  | 6 => some .irisOut
  | _ => Option.none

/-- The number of a transition tag (R28). -/
def Transition.number : Transition → Word
  | .none => 0#16
  | .wipeLr => 1#16
  | .wipeRl => 2#16
  | .wipeTb => 3#16
  | .wipeBt => 4#16
  | .irisIn => 5#16
  | .irisOut => 6#16

/-- The `n` pixels of a pixel payload: pixel `i` is the nibble of parity `i` of payload byte `i >> 1` (R94). A byte
missing from the payload of an ill-formed term counts as 0 (notes/assumptions/19.md). -/
def payloadPixels (n : Nat) (payload : List Byte) : List Nibble :=
  (List.range n).map fun i => nibbleAt (payload.getD (i / 2) 0#8) i

/-- A two-byte asset field from its bytes in address order (R64, `ASSET_LE`). -/
def assetWord (le : Bool) (b0 b1 : Byte) : Word := if le then b1 ++ b0 else b0 ++ b1

/-- A four-byte asset field from its bytes in address order (R64, `ASSET_LE`). -/
def assetLong (le : Bool) (b0 b1 b2 b3 : Byte) : BitVec 32 :=
  if le then b3 ++ b2 ++ b1 ++ b0 else b0 ++ b1 ++ b2 ++ b3

/-- `off8(v)`: a glyph offset byte, signed or unsigned by `GLYPH_OFFSET_SIGNED` (R188). -/
def offset8 (signed : Bool) (b : Byte) : Int := if signed then b.toInt else (b.toNat : Int)

/-- The fallback glyph `'?'` (R183). -/
def questionMark : Word := 0x003F#16

/-- `'\n'` (R183). -/
def lineFeed : Word := 0x000A#16

/-- `'\r'` (R183). -/
def carriageReturn : Word := 0x000D#16

/-- The sentinel of a glyph-index entry, "not individually described" (R69, R187). -/
def indexSentinel : Word := 0xFFFF#16

/-- The sentinel of a `bitmap_offset`, a space glyph (R69, R188). -/
def spaceSentinel : BitVec 32 := 0xFFFFFFFF#32

/-- `clamp(v, a, b) = min(max(v, a), b)` (R10). -/
def clamp (v a b : Int) : Int := min (max v a) b

/-- `v mod 2`, 0 or 1 also for negative `v` (R10). -/
def mod2 (v : Int) : Int := v % 2

end Sys2Proof.Machine
end

