-- ==== Sys2Proof/Machine/Flags.lean ====
section
/-!
DEFINITION. The policy flags of `CTRL` (10_state.md R27), the status codes' numbers (60_exceptions.md R270) and the
`STATUS` word (10_state.md R23).
-/
namespace Sys2Proof.Machine

/-- `CTRL[0] = WRAP` (R27). -/
def State.wrap (s : State) : Bool := s.ctrl.getLsbD 0

/-- `CTRL[1] = LF` (R27). -/
def State.lf (s : State) : Bool := s.ctrl.getLsbD 1

/-- `CTRL[2] = CR` (R27). -/
def State.cr (s : State) : Bool := s.ctrl.getLsbD 2

/-- `CTRL[3] = PARTIAL_X` (R27). -/
def State.partialX (s : State) : Bool := s.ctrl.getLsbD 3

/-- `CTRL[4] = PARTIAL_Y` (R27). -/
def State.partialY (s : State) : Bool := s.ctrl.getLsbD 4

/-- The numbers of the status codes (R270). -/
def Code.number : Code → Byte
  | .ok => 0x00#8
  | .errNotInit => 0x01#8
  | .errGeometry => 0x02#8
  | .errNotFound => 0x03#8
  | .errNoFont => 0x04#8
  | .notRenderable => 0x05#8
  | .errLayoutStop => 0x06#8
  | .errTooWide => 0x07#8
  | .errOperand => 0x08#8
  | .errUnsupported => 0x09#8
  | .errIllegal => 0xFF#8

/-- A Boolean as one bit. -/
def flagBit (b : Bool) : BitVec 1 := if b then 1#1 else 0#1

/-- The `STATUS` register: bits 15:12 zero, 11 XFER_BUSY, 10 INITED, 9 HALTED, 8 BUSY, 7:0 CODE (R23). -/
def State.status (s : State) : Word :=
  0#4 ++ flagBit s.xferBusy ++ flagBit s.inited ++ flagBit (s.seq == .halted) ++ flagBit (s.seq == .busy) ++
    s.code.number

end Sys2Proof.Machine
end

