-- ==== Sys2Proof/Machine/Ops.lean ====
section
/-!
DEFINITION. The named operations over memories and registers: byte memories, the framebuffer, the shadow cache, the
Asset Store port, the display-write primitives and the one barrier, the end of a command and its failure (what this
hardware has where another takes an exception, 60_exceptions.md R271), the common checks, the sequencer's moves and
reset.
-/
namespace Sys2Proof.Machine

/-- What exec and step answer. -/
abbrev Result := Host.Outcome State Fault Refusal

/-! ### Byte memories -/

/-- What an unlisted address holds: no value (R38; notes/assumptions/9.md). -/
def Memory.unlisted : Option Byte := none

/-- The listed byte at an address. -/
def Memory.read : Memory → Nat → Option Byte
  | [], _ => Memory.unlisted
  | (b, v) :: m, a => if a = b then some v else Memory.read m a

/-- Store a byte at an address, keeping the addresses strictly rising. -/
def Memory.write : Memory → Nat → Byte → Memory
  | [], a, v => [(a, v)]
  | (b, w) :: m, a, v =>
    if a < b then (a, v) :: (b, w) :: m
    else if a = b then (a, v) :: m
    else (b, w) :: Memory.write m a v

/-- The memory of `n` bytes from address 0, every one `v`. -/
def Memory.filled (n : Nat) (v : Byte) : Memory := (List.range n).map fun a => (a, v)

/-- Every listed address is above `lo` and the addresses rise strictly. -/
def Memory.rising : Nat → Memory → Bool
  | _, [] => true
  | lo, (a, _) :: m => decide (lo ≤ a) && Memory.rising (a + 1) m

/-- The canonical form: addresses strictly rising, and no entry equal to what an unlisted address holds (no entry
is, since an unlisted address holds no value). -/
def Memory.wf (m : Memory) : Bool :=
  Memory.rising 0 m && m.all fun c => some c.2 != Memory.unlisted

/-- The addresses a memory lists. -/
def Memory.addresses (m : Memory) : List Nat := m.map Prod.fst

/-! ### Geometry and the framebuffer -/

/-- `W` (R8, R24). -/
def State.width (s : State) : Nat := s.geomW.toNat

/-- `H` (R8, R24). -/
def State.height (s : State) : Nat := s.geomH.toNat

/-- `BPR = W / 2` (R8). -/
def State.bpr (s : State) : Nat := s.width / 2

/-- The linear offset of byte `(y, b)` in `FB` and in `DISP` (R29, R67). -/
def State.offset (s : State) (y b : Nat) : Nat := y * s.bpr + b

/-- The `FB` byte at a linear offset; unspecified where nothing is listed (R38, U3). -/
def State.fbAt (s : State) (off : Nat) : Byte := (Memory.read s.fb off).getD (Config.fbFree s.epoch off)

/-- `FB[y][b]` (R29). -/
def State.fbByte (s : State) (y b : Nat) : Byte := s.fbAt (s.offset y b)

/-- `GetPix(FB, x, y)` (R63). -/
def State.fbPixel (s : State) (x y : Nat) : Nibble := nibbleAt (s.fbByte y (x / 2)) x

/-- `SetPix(FB, x, y, p)`: a read-modify-write of one byte (R63, R66). -/
def State.setPix (s : State) (x y : Nat) (p : Nibble) : State :=
  { s with fb := Memory.write s.fb (s.offset y (x / 2)) (mergeAt (s.fbByte y (x / 2)) x p) }

/-- The `DISP` byte at a linear offset; unspecified where nothing was sent since reset or INIT (R35, R38, U4). -/
def State.dispAt (s : State) (off : Nat) : Byte := (Memory.read s.disp off).getD (Config.dispFree s.epoch off)

/-- `DISP[y][b]` (R35). -/
def State.dispByte (s : State) (y b : Nat) : Byte := s.dispAt (s.offset y b)

/-- `GetPix(DISP, x, y)`: the pixel the screen shows (R63). -/
def State.dispPixel (s : State) (x y : Nat) : Nibble := nibbleAt (s.dispByte y (x / 2)) x

/-! ### The shadow row cache -/

/-- `SHADOW[y]`; unspecified where no entry is held (R30, R38, U3). -/
def State.shadowAt (s : State) (y : Nat) : ShadowEntry :=
  (s.shadow[y]?).getD { col := Config.shadowColFree s.epoch y, byte := Config.shadowByteFree s.epoch y }

/-- `ShadowNib(y, b, HI)` (R31). -/
def State.shadowHi (s : State) (y b : Nat) : Nibble :=
  if (s.shadowAt y).col.toNat = b then hiNib (s.shadowAt y).byte else 0#4

/-- `ShadowNib(y, b, LO)` (R31). -/
def State.shadowLo (s : State) (y b : Nat) : Nibble :=
  if (s.shadowAt y).col.toNat = b then loNib (s.shadowAt y).byte else 0#4

/-- `SHADOW[y] <- {col = b, byte = v}` (R30). -/
def State.storeShadow (s : State) (y b : Nat) (v : Byte) : State :=
  { s with shadow := s.shadow.set y { col := reg16 b, byte := v } }

/-- The emptied cache: `H` entries `{col = 0, byte = 0x00}` (R30, R120, R125). -/
def emptyShadow (h : Nat) : List ShadowEntry := List.replicate h { col := 0#16, byte := 0x00#8 }

/-! ### The Asset Store port -/

/-- `AssetAddr(id, type)`, none for `NOT_FOUND` (R76, R77). -/
def State.assetAddr (s : State) (id : Word) (assetType : Nat) : Option Addr :=
  (s.assetDir.find? fun e => e.fileId == id && e.assetType == assetType).map DirEntry.addr

/-- `ASSET[addr]`; any value where no listed asset byte lies, and past the 32-bit address space (R76, R77, U6). -/
def State.assetByte (s : State) (addr : Nat) : Byte :=
  if addr < 2 ^ 32 then (Memory.read s.asset addr).getD (Config.assetFree addr) else Config.assetFree addr

/-- A two-byte asset field (R64). -/
def State.assetField16 (s : State) (addr : Nat) : Word :=
  assetWord s.cfg.assetLe (s.assetByte addr) (s.assetByte (addr + 1))

/-- A four-byte asset field (R64). -/
def State.assetField32 (s : State) (addr : Nat) : BitVec 32 :=
  assetLong s.cfg.assetLe (s.assetByte addr) (s.assetByte (addr + 1)) (s.assetByte (addr + 2))
    (s.assetByte (addr + 3))

/-- `PIXEL_STREAM(p, k)`: pixel `k` of the pixel data at asset address `p`, uncompressed unless the configuration
lists decoded pixels for `p` (R7, R70; notes/assumptions/3.md). -/
def State.pixelStream (s : State) (p k : Nat) : Nibble :=
  match s.cfg.decodedStreams.find? fun d => d.base == p with
  | some d => (d.pixels[k]?).getD (Config.streamFree p k)
  | none => nibbleAt (s.assetByte (p + k / 2)) k

/-- `n` pixels of a stream from pixel `k0`: what is staged in `LINE` for one row (R166). -/
def State.streamRow (s : State) (p k0 n : Nat) : List Nibble :=
  (List.range n).map fun i => s.pixelStream p (k0 + i)

/-! ### Events, the display's write pointer, the Bulk Transfer Channel -/

/-- `emit E` (R11, R78). -/
def State.emit (s : State) (e : Event) : State := { s with trace := s.trace ++ [e] }

/-- `DISP_ADDR_CMDS(row, col)` (R7, R79; notes/assumptions/4.md). -/
def addrCmds (c : Cfg) (row col : Nat) : List Byte :=
  match c.dispAddrCmds.find? fun a => a.row == row && a.col == col with
  | some a => a.bytes
  | none => []

/-- `DispAddr(y, b)`: point the display's write pointer (R79). -/
def State.dispAddr (s : State) (y b : Nat) : State :=
  { s.emit (.busCmd (addrCmds s.cfg y b)) with wpRow := y, wpCol := b }

/-- One data byte reaches the display: stored at `WP`, which advances by one byte column and wraps to the next row
(R79). -/
def State.sendByte (s : State) (v : Byte) : State :=
  { s with
    disp := Memory.write s.disp (s.offset s.wpRow s.wpCol) v
    wpRow := if s.wpCol + 1 = s.bpr then s.wpRow + 1 else s.wpRow
    wpCol := if s.wpCol + 1 = s.bpr then 0 else s.wpCol + 1 }

/-- Data bytes reach the display in order (R79). -/
def State.sendBytes (s : State) (bytes : List Byte) : State := bytes.foldl State.sendByte s

/-- The channel reports no completion any more (R304, U12). -/
def State.channelDead (s : State) : Bool :=
  match s.hangAt with
  | none => false
  | some m => decide (m ≤ s.trace.length)

/-- How many bytes the transfer in flight copies: nothing is emitted after its start until it completes (R81, R225). -/
def State.inFlight (s : State) : Nat :=
  match s.trace.getLast? with
  | some (.dmaStart _ _ len _) => len
  | _ => 0

/-- `DISP` while the transfer in flight has not completed: its bytes, which stand right before the write pointer, have any
value, landed or not; every other byte is what completed writes left there (R75, R79, R82; notes/assumptions/32.md). -/
def State.dispInFlight (s : State) : Memory :=
  let stop := s.offset s.wpRow s.wpCol
  s.disp.map fun c =>
    if stop ≤ c.1 + s.inFlight ∧ c.1 < stop then (c.1, Config.hungDispFree s.trace.length c.1) else c

/-- Where the command in progress stands at a poll that is never answered (R82, R304). -/
def State.polling (s : State) : Hang where
  shadow := s.shadow
  stage0 := s.stage0
  stage1 := s.stage1
  line := s.line
  disp := s.dispInFlight
  wpRow := Config.hungRowFree s.trace.length
  wpCol := Config.hungColFree s.trace.length
  curX := s.curX
  curY := s.curY
  maxTextX := s.maxTextX
  trace := s.trace

/-- `DmaWait()`: the one barrier (R82): with a transfer in flight the event of its completion and `XFER_BUSY <- 0`, else
nothing. A channel that completes the transfer reports so at the first poll (notes/assumptions/12.md). With one that never
does, the command ends here, in an endless poll: what it has done is kept in `stuck`, from which `State.outcome` takes the
machine's state; the rest of the command is then of no effect (R304; notes/assumptions/32.md). -/
def State.dmaWait (s : State) : State :=
  { s with
    xferBusy := false
    trace := if s.xferBusy then s.trace ++ [.dmaDone] else s.trace
    stuck := if s.xferBusy && s.channelDead then some (s.stuck.getD s.polling) else s.stuck }

/-- `STAGE[k]`: buffer 0 or 1 (R34). -/
def State.stage (s : State) (k : Nat) : List Byte := if k = 0 then s.stage0 else s.stage1

/-- What a scratch memory holds once its first places are filled with `new`: behind them, what it held before.
DEDUCED (notes/assumptions/34.md): R230, R233 and R166 assign the places of one chunk or row and say nothing of those
behind it, which therefore keep what an earlier fill of the same command left (R80). A place that no fill of the command
has assigned is unspecified (R34), and nothing is held for it (notes/assumptions/13.md). -/
def overlay {α : Type} (new old : List α) : List α := new ++ old.drop new.length

/-- Fill the first bytes of staging buffer `k`, which holds `max(FS_CHUNK, W_MAX / 2)` bytes (R34, R223, R230, R233); the
bytes behind them stay, as `overlay` says. No command of a sound state fills in more than the buffer holds
(notes/assumptions/13.md). -/
def State.setStage (s : State) (k : Nat) (bytes : List Byte) : State :=
  { s with
    stage0 := if k = 0 then overlay (bytes.take s.cfg.stageSize) s.stage0 else s.stage0
    stage1 := if k = 0 then s.stage1 else overlay (bytes.take s.cfg.stageSize) s.stage1 }

/-- Stage pixels in the first places of `LINE` (R34, R150, R166, R233); those behind them stay, as `overlay` says. -/
def State.setLine (s : State) (pix : List Nibble) : State := { s with line := overlay pix s.line }

/-- The end of a command that may fill `STAGE` or `LINE`: between commands their contents are unspecified, and nothing is
held (R34; notes/assumptions/13.md). -/
def State.clearScratch (s : State) : State := { s with stage0 := [], stage1 := [], line := [] }

/-- The `len` bytes a transfer copies (R75). -/
def State.sourceBytes (s : State) (src : XferSource) (len : Nat) : List Byte :=
  match src with
  | .fb off => (List.range len).map fun i => s.fbAt (off + i)
  | .stage k => (s.stage k).take len

/-- `start_transfer`: the event, the guard, and the whole copy applied at the start (R75, R79, R221). -/
def State.bulkStart (s : State) (src : XferSource) (len : Nat) : State :=
  ({ s.emit (.dmaStart s.cfg.dmaDest src len s.cfg.dmaTrig) with xferBusy := true }).sendBytes
    (s.sourceBytes src len)

/-- `BusWriteRun(y, b, bytes)` (R79). -/
def State.busWriteRun (s : State) (y b : Nat) (bytes : List Byte) : State :=
  ((s.dmaWait.dispAddr y b).emit (.busData bytes)).sendBytes bytes

/-- `BulkWriteRun(y, b, src, len)` (R79). -/
def State.bulkWriteRun (s : State) (y b : Nat) (src : XferSource) (len : Nat) : State :=
  (s.dmaWait.dispAddr y b).bulkStart src len

/-- `BulkContinue(src, len)`: a transfer from the current write pointer (R222). -/
def State.bulkContinue (s : State) (src : XferSource) (len : Nat) : State :=
  s.dmaWait.bulkStart src len

/-- `XferRun(y, b, src, len)`: flushes and transitions (R79, R258). -/
def State.xferRun (s : State) (y b : Nat) (src : XferSource) (len : Nat) : State :=
  if s.cfg.hasDma then s.bulkWriteRun y b src len else s.busWriteRun y b (s.sourceBytes src len)

/-- Which line a bus byte is sent with (R72, R73). -/
inductive Strobe where
  | command
  | data
deriving DecidableEq, Repr

/-- The bytes an event puts on the Bus Transport, each with its strobe (R72, R73, R78, R121); the bytes of a bulk
transfer go through the other channel. -/
def Event.busBytes (c : Cfg) : Event → List (Strobe × Byte)
  | .busCmd bytes => bytes.map fun b => (.command, b)
  | .busData bytes => bytes.map fun b => (.data, b)
  | .pwrTuple op payload =>
    (.command, op) :: payload.map fun b => (if c.pwrPayloadIsData then .data else .command, b)
  | .dmaStart _ _ _ _ => []
  | .dmaDone => []
  | .delay _ => []
  | .reset => []

/-! ### The end of a command -/

/-- A command ends: `STATUS.CODE` and all four result registers are written and the sequencer returns to `IDLE`
(R20, R22, R271). -/
def State.endCommand (s : State) (c : Code) (r0 r1 r2 r3 : Word) : State :=
  { s with code := c, res0 := r0, res1 := r1, res2 := r2, res3 := r3, seq := .idle }

/-- `done` (R11). -/
def done (s : State) (r0 r1 r2 r3 : Word) : Result := .next (s.endCommand .ok r0 r1 r2 r3)

/-- `fail CODE` with the result registers its rule sets (R11, R271). -/
def failWith (c : Code) (s : State) (r0 r1 r2 r3 : Word) : Result := .next (s.endCommand c r0 r1 r2 r3)

/-- `RES[0..3] <- 0; fail CODE` (R271). -/
def failZero (c : Code) (s : State) : Result := failWith c s 0#16 0#16 0#16 0#16

/-- A buffered draw on a part without a framebuffer (R275). -/
def State.lacksFb (s : State) (m : Mode) : Bool := m == .buffered && !s.cfg.hasFb

/-! ### The sequencer, the command port and reset -/

/-- The whole packet has been taken from the port and its command executes (R20, R99). -/
def State.takePacket (s : State) (rest : List Byte) : State := { s with seq := .busy, rx := [], port := rest }

/-- Not all bytes of the next packet are there: the engine takes those that are and waits for the rest, in `BUSY` once
it has a first byte (R20, R301, U11). -/
def State.waitForBytes (s : State) : State :=
  { s with
    seq := if (s.rx ++ s.port).isEmpty then .idle else .busy
    rx := s.rx ++ s.port
    port := [] }

/-- An illegal header: its two bytes are consumed and the engine halts (R104). -/
def State.haltIllegal (s : State) (hdr : Word) (rest : List Byte) : State :=
  { s with
    seq := .halted, rx := [], port := rest
    code := .errIllegal, res0 := hdr, res1 := 0#16, res2 := 0#16, res3 := 0#16 }

/-- Reset takes effect (R290, R291): every register at its value of R38, the memories unspecified, the packet in
progress abandoned. The host's bytes, the display's write pointer, the channel with a transfer in flight, the events
already recorded and the parameters of the run are not the block's registers and stay: a transfer in flight is from then
on a stray one, since the channel's contract has no cancel operation.
DESIGN CHOICE (notes/assumptions/8.md): the reset takes the reset input back, so that raising it is one reset; the spec
does not say how long the input stays active. A host that holds it raises it again between steps. -/
def State.applyReset (s : State) : State :=
  { State.reset with
    port := s.port
    iv := List.replicate s.cfg.ni Interval.unused
    wpRow := s.wpRow
    wpCol := s.wpCol
    stray := s.stray || s.xferBusy
    hangAt := s.hangAt
    trace := s.trace ++ [.reset]
    epoch := s.epoch + 1
    cfg := s.cfg
    asset := s.asset
    assetDir := s.assetDir }

/-! ### The bus discipline and a reset during a command -/

/-- The guard after an event, from the guard before it; none where the event breaks the discipline: no transfer starts
and no byte or delay is emitted while a transfer is in flight, and only a transfer in flight completes (R81 (a), (c),
(d), R221, R225). A reset clears the guard (R291). -/
def busEvent : Bool → Event → Option Bool
  | false, .busCmd _ => some false
  | false, .busData _ => some false
  | false, .dmaStart _ _ _ _ => some true
  | false, .dmaDone => none
  | false, .delay _ => some false
  | false, .pwrTuple _ _ => some false
  | true, .busCmd _ => none
  | true, .busData _ => none
  | true, .dmaStart _ _ _ _ => none
  | true, .dmaDone => some false
  | true, .delay _ => none
  | true, .pwrTuple _ _ => none
  | _, .reset => some false

/-- The guard after a sequence of events; none where one of them breaks the discipline (R81, R225). -/
def busRun (b : Bool) (es : List Event) : Option Bool :=
  es.foldl (fun o e => o.bind fun g => busEvent g e) (some b)

/-- Reset cuts a command short (R291). `s` is the state the command begins in, `t` the one it would have left, `n` the
events it has emitted when reset comes. What it did to `FB`, `SHADOW` and `DISP` is unspecified after reset in any case;
of its other effects the events remain, a transfer that is in flight stays so, and the display's write pointer stands at
an unstated place (notes/assumptions/30.md). -/
def State.abandon (s t : State) (n : Nat) : State :=
  let es := t.trace.take (s.trace.length + n)
  { ({ s with trace := es, xferBusy := busRun false es == some true }).applyReset with
    wpRow := Config.wpRowFree (s.epoch + 1)
    wpCol := Config.wpColFree (s.epoch + 1) }

/-! ### What comes of a command -/

/-- The event starts a bulk transfer. -/
def Event.isStart : Event → Bool
  | .dmaStart _ _ _ _ => true
  | .busCmd _ | .busData _ | .dmaDone | .delay _ | .pwrTuple _ _ | .reset => false

/-- A command that never ends (R17, R82, R304, U12): the engine polls in `DmaWait()` for a transfer the channel never
completes, with `STATUS.BUSY` and `XFER_BUSY` at 1. `s` is the state the command began in, and `h` where it stands: what
it did up to that poll is done, in program order (R80), and nothing after it. Only reset leaves such a state. -/
def State.hangs (s : State) (h : Hang) : State :=
  { s with
    seq := .busy, hung := true, xferBusy := true
    shadow := h.shadow, stage0 := h.stage0, stage1 := h.stage1, line := h.line
    disp := h.disp, wpRow := h.wpRow, wpCol := h.wpCol
    curX := h.curX, curY := h.curY, maxTextX := h.maxTextX, trace := h.trace }

/-- Where a command that begins in `s` and, were every transfer completed, ends in `t` polls for ever; none where it does
not, as with a channel that completes every transfer (R304). -/
def State.hangOf (s t : State) : Option Hang :=
  match s.hangAt with
  | none => none
  | some _ => t.stuck

/-- What comes of a command that begins in `s` and, were every transfer completed, ends in `t`: its end, or reset or the
endless poll, whichever comes first (R17, R291, R304). -/
def State.outcome (s t : State) : State :=
  match s.hangOf t, s.resetAt with
  | none, none => t
  | none, some n => s.abandon t n
  | some h, none => s.hangs h
  | some h, some n => if s.trace.length + n ≤ h.trace.length then s.abandon t n else s.hangs h

end Sys2Proof.Machine
end

