-- ==== Sys2Proof/Machine/Fetch.lean ====
section
/-!
DEFINITION. What the sequencer finds at the front of the command port (10_state.md R20, 30_encoding.md R90), and how a
table word is put there.
-/
namespace Sys2Proof.Machine

/-- The front of the command stream: the bytes already taken, then those still on the port (R20, R90). -/
def State.fetch (s : State) : Decoded := decode (s.rx ++ s.port)

/-- The state with exactly these bytes before an idle engine whose reset input is low and stays low, with a channel that
completes its transfers and has none left in flight. -/
def State.offer (s : State) (bytes : List Byte) : State :=
  { s with
    seq := .idle, rx := [], port := bytes, resetPin := false, resetAt := none, hangAt := none
    xferBusy := false, stray := false, hung := false, stuck := none }

end Sys2Proof.Machine
end

