-- ==== Sys2Proof/Machine/Raster.lean ====
section
/-!
DEFINITION. The line primitive and its clipping (41_rasterizer.md section 1 and 2): `MapCol`, `RowVisible`, the
buffered line, runs, the direct line, `HLine`.
-/
namespace Sys2Proof.Machine

/-- The column a source pixel aimed at column `c` lands on, before the margin: on screen as it is, off screen
wrapped once when `WRAP = 1` (R151). -/
def State.wrapCol (s : State) (c : Int) : Option Int :=
  if 0 ≤ c ∧ c < s.width then some c
  else if s.wrap ∧ c < 0 then some (c + s.width)
  else if s.wrap ∧ c ≥ s.width then some (c - s.width)
  else none

/-- `MapCol(c)` (R151). -/
def State.mapCol (s : State) (c : Int) : Option Nat :=
  match s.wrapCol c with
  | none => none
  | some c1 =>
    if c1 < 0 ∨ c1 ≥ s.width then none
    else if c1 ≥ s16 s.maxTextX then none
    else some c1.toNat

/-- `RowVisible(y)` (R154). -/
def State.rowVisible (s : State) (y : Int) : Bool :=
  decide (s16 s.minDispY ≤ y) && decide (y < s16 s.maxDispY)

/-- `HLineBuf(x, y, n, pix)`: the pixels in ascending order, each by `SetPix`; the count of pixels written (R152). -/
def hLineBuf (y : Nat) : List Nibble → Int → State → State × Nat
  | [], _, s => (s, 0)
  | p :: ps, x, s =>
    match s.mapCol x with
    | none => hLineBuf y ps (x + 1) s
    | some d =>
      let r := hLineBuf y ps (x + 1) (s.setPix d y p)
      (r.1, r.2 + 1)

/-- A run: source pixels that land on consecutive destination columns from `col` on (R14, R155). -/
structure Run where
  col : Nat
  pix : List Nibble
deriving DecidableEq, Repr

/-- The runs of a line, in the order of their first source pixel (R155): pixels `i` and `i + 1` share a run exactly
when both land and the second lands on the next column. -/
def State.runs (s : State) : List Nibble → Int → List Run
  | [], _ => []
  | p :: ps, x =>
    match s.mapCol x with
    | none => s.runs ps (x + 1)
    | some d =>
      match s.mapCol (x + 1), s.runs ps (x + 1) with
      | some d', r :: rs =>
        if d' = d + 1 then { col := d, pix := p :: r.pix } :: rs
        else { col := d, pix := [p] } :: r :: rs
      | _, rs => { col := d, pix := [p] } :: rs

/-- The byte a direct run sends for byte column `b`: covered nibbles from the run, a missing one from the shadow
cache (R156). -/
def State.runByte (s : State) (y : Nat) (r : Run) (b : Nat) : Byte :=
  let e := 2 * b
  let o := 2 * b + 1
  let ph := if r.col ≤ e ∧ e < r.col + r.pix.length then r.pix.getD (e - r.col) 0#4 else s.shadowHi y b
  let pl := if r.col ≤ o ∧ o < r.col + r.pix.length then r.pix.getD (o - r.col) 0#4 else s.shadowLo y b
  pack ph pl

/-- One byte of a direct run: sent as a data byte, then recorded in the row's shadow entry (R156). -/
def streamByte (y : Nat) (r : Run) (s : State) (b : Nat) : State :=
  let v := s.runByte y r b
  ((s.emit (.busData [v])).sendByte v).storeShadow y b v

/-- The byte columns `b_first .. b_last` of a run (R156). -/
def Run.byteCols (r : Run) : List Nat :=
  (List.range ((r.col + r.pix.length - 1) / 2 + 1 - r.col / 2)).map fun i => r.col / 2 + i

/-- `StreamRun(y, d0, m, p)` (R156). -/
def streamRun (y : Nat) (s : State) (r : Run) : State :=
  r.byteCols.foldl (streamByte y r) (s.dmaWait.dispAddr y (r.col / 2))

/-- How many pixels the runs of a line hold. -/
def runsCount (rs : List Run) : Nat := (rs.map fun r => r.pix.length).sum

/-- `HLineDirect(x, y, n, pix)` (R156). -/
def hLineDirect (y : Nat) (pix : List Nibble) (x : Int) (s : State) : State × Nat :=
  ((s.runs pix x).foldl (streamRun y) s, runsCount (s.runs pix x))

/-- `HLine(x, y, n, pix, M)`: the pixels written (R157). -/
def hLine (m : Mode) (x y : Int) (pix : List Nibble) (s : State) : State × Nat :=
  if s.rowVisible y then
    match m with
    | .buffered => hLineBuf y.toNat pix x s
    | .direct => hLineDirect y.toNat pix x s
  else (s, 0)

/-- `HLine` for rows `y .. y + h - 1` from the top, one pixel row for all; the pixels written (R160). -/
def hLineRows (m : Mode) (x y : Int) (pix : List Nibble) (h : Nat) (s : State) : State × Nat :=
  (List.range h).foldl
    (fun (acc : State × Nat) (r : Nat) =>
      let t := hLine m x (y + (r : Int)) pix acc.1
      (t.1, acc.2 + t.2))
    (s, 0)

end Sys2Proof.Machine
end

