-- ==== Sys2Proof/Machine/Streamer.lean ====
section
/-!
DEFINITION. The bitmap blit and its three strategies (41_rasterizer.md R166, R167; 43_dma_streamer.md R230, R233).
-/
namespace Sys2Proof.Machine

/-- The blit strategies of R165: full-screen fast path, aligned double-buffered path, generic path. -/
inductive Strategy where
  | fullScreen
  | aligned
  | generic
deriving DecidableEq, Repr

/-- The strategy code DRAW_IMAGE reports (R165). -/
def Strategy.number : Strategy → Word
  | .fullScreen => 1#16
  | .aligned => 2#16
  | .generic => 3#16

/-- `SelectStrategy(x, y, bw, bh, M)` (R167). DEDUCED (notes/assumptions/31.md): an image of no rows takes strategy 3,
as R169 says, where R167's pseudocode has no test of `bh`. -/
def State.selectStrategy (s : State) (x y : Int) (bw bh : Nat) (m : Mode) : Strategy :=
  if m = .direct ∧ s.cfg.hasDma = true ∧ x = 0 ∧ y = 0 ∧ bw = s.width ∧ bh = s.height ∧
      s16 s.minDispY = 0 ∧ s16 s.maxDispY = s.height ∧ s16 s.maxTextX = s.width then .fullScreen
  else if m = .direct ∧ s.cfg.hasDma = true ∧ bw > 0 ∧ bh > 0 ∧ bw % 2 = 0 ∧ mod2 x = 0 ∧
      mod2 (s16 s.maxTextX) = 0 ∧ x ≥ 0 ∧ (x + bw ≤ s.width ∨ s.wrap = false) then .aligned
  else .generic

/-- One row of the generic strategy: its pixels are consumed into `LINE`, then drawn (R166). -/
def blitGenericRow (x y : Int) (bw p : Nat) (m : Mode) (s : State) (r : Nat) : State :=
  let s1 := s.setLine (s.streamRow p (r * bw) bw)
  (hLine m x (y + r) (s1.line.take bw) s1).1

/-- `BlitGeneric(x, y, bw, bh, p, M)`, strategy 3 (R166). -/
def blitGeneric (x y : Int) (bw bh p : Nat) (m : Mode) (s : State) : State :=
  (List.range bh).foldl (blitGenericRow x y bw p m) s

/-- Screen byte number `q` of a full-screen stream: stream pixels `2q` and `2q + 1` (R230). -/
def State.screenByte (s : State) (p q : Nat) : Byte := pack (s.pixelStream p (2 * q)) (s.pixelStream p (2 * q + 1))

/-- The length of chunk `c` of a full-screen stream (R230). -/
def State.chunkLength (s : State) (c : Nat) : Nat := min s.cfg.fsChunk (s.height * s.bpr - c * s.cfg.fsChunk)

/-- `Fill(k, c)`: decode chunk `c` into staging buffer `k` (R230). Behind a shorter chunk the buffer keeps its bytes
(notes/assumptions/34.md). -/
def fillStage (p k : Nat) (s : State) (c : Nat) : State :=
  s.setStage k ((List.range (s.chunkLength c)).map fun j => s.screenByte p (c * s.cfg.fsChunk + j))

/-- One chunk of the full-screen path: its transfer starts, then the next chunk is filled into the other buffer
(R230). -/
def fullScreenChunk (p nch : Nat) (s : State) (c : Nat) : State :=
  let s1 :=
    if c = 0 then s.bulkWriteRun 0 0 (.stage 0) (s.chunkLength c)
    else s.bulkContinue (.stage (c % 2)) (s.chunkLength c)
  if c + 1 < nch then fillStage p ((c + 1) % 2) s1 (c + 1) else s1

/-- How many chunks a screen takes, `ceil(total / FS_CHUNK)` (R230). -/
def State.chunkCount (s : State) : Nat := (s.height * s.bpr + s.cfg.fsChunk - 1) / s.cfg.fsChunk

/-- `BlitFullScreen(p)`, strategy 1 (R230). -/
def blitFullScreen (p : Nat) (s : State) : State :=
  let s1 := ((List.range s.chunkCount).foldl (fullScreenChunk p s.chunkCount) (fillStage p 0 s 0)).dmaWait
  (List.range s.height).foldl
    (fun t yy => t.storeShadow yy (t.bpr - 1)
      (pack (t.pixelStream p (yy * t.width + t.width - 2)) (t.pixelStream p (yy * t.width + t.width - 1))))
    s1

/-- The exclusive end of the visible columns of an aligned row (R233). -/
def State.alignedEnd (s : State) (x : Int) (bw : Nat) : Int := min (min (x + bw) (s16 s.maxTextX)) s.width

/-- Whole bytes per row of the aligned path (R233). -/
def State.alignedBytes (s : State) (x : Int) (bw : Nat) : Nat := ((s.alignedEnd x bw - x) / 2).toNat

/-- One row of the aligned path; the second component is the staging buffer to fill next (R233). DEDUCED
(notes/assumptions/33.md): the shadow entry is stored while the row's transfer is in flight, as R233's pseudocode has it,
where R81 (d) lists only asset reads and writes to the other staging buffer or `LINE`. -/
def blitAlignedRow (x y : Int) (bw p : Nat) (acc : State × Nat) (r : Nat) : State × Nat :=
  let s1 := acc.1.setLine (acc.1.streamRow p (r * bw) bw)
  let k := acc.2
  let nb := s1.alignedBytes x bw
  if s1.rowVisible (y + r) ∧ nb > 0 then
    let s2 := s1.setStage k ((List.range nb).map fun j =>
      pack (s1.line.getD (2 * j) 0#4) (s1.line.getD (2 * j + 1) 0#4))
    let s3 := s2.bulkWriteRun (y + r).toNat (x / 2).toNat (.stage k) nb
    (s3.storeShadow (y + r).toNat ((x / 2).toNat + nb - 1) ((s3.stage k).getD (nb - 1) 0#8), 1 - k)
  else (s1, k)

/-- `BlitAligned(x, y, bw, bh, p)`, strategy 2 (R233). -/
def blitAligned (x y : Int) (bw bh p : Nat) (s : State) : State :=
  ((List.range bh).foldl (blitAlignedRow x y bw p) (s, 0)).1

/-- The pixels of a blit drawn by a given strategy (R166). -/
def blitBy (st : Strategy) (x y : Int) (bw bh p : Nat) (m : Mode) (s : State) : State :=
  match st with
  | .fullScreen => blitFullScreen p s
  | .aligned => blitAligned x y bw bh p s
  | .generic => blitGeneric x y bw bh p m s

/-- `BlitStream(x, y, bw, bh, p, M)`: the state after it and the strategy that ran (R166). What it staged stays until the
command's end, through the glyphs of a string (R80; notes/assumptions/13.md, 34.md). -/
def blitStream (x y : Int) (bw bh p : Nat) (m : Mode) (s : State) : State × Strategy :=
  let st := s.selectStrategy x y bw bh m
  ((blitBy st x y bw bh p m s).dmaWait, st)

end Sys2Proof.Machine
end

