-- ==== Sys2Proof/Machine/FontOps.lean ====
section
/-!
DEFINITION. The font and glyph pipeline's internal functions (42_font_glyph.md): interval scan, glyph resolution,
glyph records, measuring, drawing one glyph, one layout step, strings.
-/
namespace Sys2Proof.Machine

/-- The scan of `IntervalIndex` from running offset `off` (R184). -/
def intervalScan : List Interval → Nat → Word → Option Nat
  | [], _, _ => none
  | i :: is, off, cp =>
    if i.first = 0xFFFF#16 then intervalScan is off cp
    else if i.first.toNat ≤ cp.toNat ∧ cp.toNat ≤ i.last.toNat then some (off + (cp.toNat - i.first.toNat))
    else if i.last.toNat ≥ i.first.toNat then intervalScan is (off + (i.last.toNat - i.first.toNat + 1)) cp
    else intervalScan is off cp

/-- `IntervalIndex(cp)`: the described index, or none (R184). -/
def State.intervalIndex (s : State) (cp : Word) : Option Nat := intervalScan s.iv 0 cp

/-- `IDX_OFF = 5 + 4 NI` (R69). -/
def State.idxOff (s : State) : Nat := 5 + 4 * s.cfg.ni

/-- `REC_OFF = IDX_OFF + 2 desc` (R69). -/
def State.recOff (s : State) : Nat := s.idxOff + 2 * s.fontDesc.toNat

/-- `BIT_OFF = REC_OFF + 8 total` (R69). -/
def State.bitOff (s : State) : Nat := s.recOff + 8 * s.fontTotal.toNat

/-- `IndexEntry(d)` (R187). -/
def State.indexEntry (s : State) (d : Nat) : Word :=
  if d ≥ s.fontDesc.toNat then indexSentinel else s.assetField16 (s.fontBase.toNat + s.idxOff + 2 * d)

/-- Path B of `ResolveGlyph`: the entry of `'?'` in place of a sentinel entry (R185). With `QMARK = 1` and no
interval for `'?'`, which no run reaches, there is no glyph (notes/assumptions/20.md). -/
def State.resolveSentinel (s : State) : Option (Nat × Word) :=
  if !s.qmark then none
  else
    match s.intervalIndex questionMark with
    | none => none
    | some d => if s.indexEntry d = indexSentinel then none else some (d, s.indexEntry d)

/-- From a described index to its record, with path B (R185). -/
def State.resolveIndex (s : State) (d : Nat) : Option (Nat × Word) :=
  if s.indexEntry d = indexSentinel then s.resolveSentinel else some (d, s.indexEntry d)

/-- Path A of `ResolveGlyph`: the described index of the codepoint, or that of `'?'` (R185). -/
def State.describedIndex (s : State) (cp : Word) : Option Nat :=
  match s.intervalIndex cp with
  | some d => some d
  | none => if !s.qmark then none else s.intervalIndex questionMark

/-- `ResolveGlyph(cp)`: described index and record number, or none, "not renderable" (R185). -/
def State.resolveGlyph (s : State) (cp : Word) : Option (Nat × Word) :=
  match s.describedIndex cp with
  | none => none
  | some d =>
    match s.resolveIndex d with
    | none => none
    | some (d', g) => if g.toNat ≥ s.fontTotal.toNat then none else some (d', g)

/-- A glyph record (R69, R188). -/
structure Glyph where
  width  : Nat
  height : Nat
  xo     : Int
  yo     : Int
  boff   : BitVec 32
deriving DecidableEq, Repr

/-- `GlyphRec(g)` (R188). -/
def State.glyphRec (s : State) (g : Word) : Glyph :=
  let a := s.fontBase.toNat + s.recOff + 8 * g.toNat
  { width := (s.assetByte a).toNat
    height := (s.assetByte (a + 1)).toNat
    xo := offset8 s.cfg.glyphOffsetSigned (s.assetByte (a + 2))
    yo := offset8 s.cfg.glyphOffsetSigned (s.assetByte (a + 3))
    boff := s.assetField32 (a + 4) }

/-- A space glyph (R188). -/
def Glyph.isSpace (g : Glyph) : Bool := decide (g.boff = spaceSentinel)

/-- The advance DRAW_GLYPH returns, `width + x_offset + 1` (R191). -/
def Glyph.advance (g : Glyph) : Int := g.width + g.xo + 1

/-- What `Measure` returns (R189). -/
structure Metrics where
  adv : Int
  rh  : Int
deriving DecidableEq, Repr

/-- The measure of a glyph record: of a space glyph its width and no rows, else the drawn advance and the rows from
the draw origin (R189). -/
def Glyph.metrics (g : Glyph) : Metrics :=
  if g.isSpace then { adv := g.width, rh := 0 } else { adv := g.advance, rh := g.yo + g.height }

/-- `Measure(cp)` (R189). -/
def State.measure (s : State) (cp : Word) : Option Metrics :=
  (s.resolveGlyph cp).map fun r => (s.glyphRec r.2).metrics

/-- What `DrawGlyph` returns beside the state: the code and the advance (R191). -/
structure Drawn where
  state : State
  code  : Code
  adv   : Int

/-- `DrawGlyph(x, y, cp, M)` (R191, R192). -/
def drawGlyphAt (m : Mode) (x y : Int) (cp : Word) (s : State) : Drawn :=
  match s.resolveGlyph cp with
  | none => { state := s, code := .notRenderable, adv := 0 }
  | some (_, g) =>
    let rec_ := s.glyphRec g
    if rec_.isSpace then { state := s, code := .ok, adv := rec_.advance }
    else if rec_.width > s.cfg.lineCap then { state := s, code := .errTooWide, adv := 0 }
    else
      { state := (blitStream (x + rec_.xo) (y + rec_.yo) rec_.width rec_.height
          (s.fontBase.toNat + s.bitOff + rec_.boff.toNat) m s).1
        code := .ok
        adv := rec_.advance }

/-- `CUR_Y <- CUR_Y + FONT_GH; CUR_X <- 0`: the line-feed action (R193). -/
def State.newLine (s : State) : State :=
  { s with curY := reg16 (s16 s.curY + s.fontGh.toNat), curX := 0#16 }

/-- A layout step's outcome: PRINTED or STOPPED (R193). -/
inductive Layout where
  | printed
  | stopped
deriving DecidableEq, Repr

/-- The right-bound check of a layout step: the state to draw from, or none where layout stops (R193). -/
def State.checkRight (s : State) (mt : Metrics) : Option State :=
  if s16 s.curX + mt.adv > s16 s.maxTextX then
    if s.lf then some s.newLine
    else if s.partialX = true ∧ s16 s.curX < s16 s.maxTextX then some s
    else none
  else some s

/-- The bottom check of a layout step: whether the glyph may be drawn (R193). -/
def State.checkBottom (s : State) (mt : Metrics) : Bool :=
  decide (s16 s.curY + mt.rh ≤ s16 s.maxDispY) || s.partialY

/-- Draw at the cursor and move it by the drawn advance (R193). -/
def State.emitGlyph (s : State) (m : Mode) (cp : Word) : State :=
  let d := drawGlyphAt m (s16 s.curX) (s16 s.curY) cp s
  { d.state with curX := reg16 (s16 d.state.curX + d.adv) }

/-- `PutCharCore(cp, M)` (R193, R197). -/
def putCharCore (m : Mode) (cp : Word) (s : State) : State × Layout :=
  if cp = lineFeed ∧ s.lf = true then (s.newLine, .printed)
  else if cp = carriageReturn ∧ s.cr = true then ({ s with curX := 0#16 }, .printed)
  else
    match s.measure cp with
    | none => (s, .printed)
    | some mt =>
      match s.checkRight mt with
      | none => (s, .stopped)
      | some s1 => if s1.checkBottom mt then (s1.emitGlyph m cp, .printed) else (s1, .stopped)

/-- `EmitString(n, cps, M)`: the state and the count of characters printed before the first stop (R198). -/
def emitString (m : Mode) : List Word → State → State × Nat
  | [], s => (s, 0)
  | cp :: cps, s =>
    match putCharCore m cp s with
    | (s1, .stopped) => (s1, 0)
    | (s1, .printed) =>
      let t := emitString m cps s1
      (t.1, t.2 + 1)

/-- `CharWidth(cp)` (R199). -/
def State.charWidth (s : State) (cp : Word) : Int :=
  if (cp = lineFeed ∧ s.lf = true) ∨ (cp = carriageReturn ∧ s.cr = true) then 0
  else
    match s.measure cp with
    | none => 0
    | some mt => mt.adv

/-- `StringWidth(n, cps)` (R199). -/
def State.stringWidth (s : State) (cps : List Word) : Int := (cps.map s.charWidth).sum

/-- The start column a justification computes from the anchor and the measured width (R200). -/
def justifiedStart (j : Justify) (x tw : Int) : Int :=
  match j with
  | .left => x
  | .center => x - tw / 2
  | .right => x - tw

/-- The right text bound during a justified string: narrowed to the anchor for RIGHT, else as it was (R200). -/
def justifiedBound (j : Justify) (x saved : Int) : Int :=
  match j with
  | .left => saved
  | .center => saved
  | .right => clamp x 0 saved

end Sys2Proof.Machine
end

