-- ==== Sys2Proof/Machine/Font.lean ====
section
/-!
DEFINITION. The font and glyph commands (42_font_glyph.md).
-/
namespace Sys2Proof.Machine

/-- Slot `i` of a font asset's interval table (R69, R181). -/
def State.fontSlot (s : State) (a i : Nat) : Interval :=
  { first := s.assetField16 (a + 5 + 4 * i), last := s.assetField16 (a + 7 + 4 * i) }

/-- The header and interval table of the font at `a` become the selected font's (R181, R182). -/
def State.loadFont (s : State) (a : Addr) : State :=
  let s1 :=
    { s with
      fontBase := a
      fontGh := s.assetByte a.toNat
      fontTotal := s.assetField16 (a.toNat + 1)
      fontDesc := s.assetField16 (a.toNat + 3)
      iv := (List.range s.cfg.ni).map (s.fontSlot a.toNat)
      fontSel := true }
  { s1 with qmark := (s1.intervalIndex questionMark).isSome }

/-- SELECT_FONT (R181). -/
def execSelectFont (fontId : Word) (s : State) : Result :=
  if !s.inited then failZero .errNotInit s
  else
    match s.assetAddr fontId s.cfg.typeFont with
    | none => failZero .errNotFound s
    | some a =>
      let t := s.loadFont a
      done t (t.fontGh.setWidth 16) t.fontTotal t.fontDesc (if t.qmark then 1#16 else 0#16)

/-- GLYPH_LOOKUP (R186). -/
def execGlyphLookup (codepoint : Word) (s : State) : Result :=
  if !s.inited then failZero .errNotInit s
  else if !s.fontSel then failZero .errNoFont s
  else
    match s.resolveGlyph codepoint with
    | none => failZero .notRenderable s
    | some (d, g) => done s (reg16 d) g (if s.intervalIndex codepoint = some d then 0#16 else 1#16) 0#16

/-- MEASURE (R189). -/
def execMeasure (codepoint : Word) (s : State) : Result :=
  if !s.inited then failZero .errNotInit s
  else if !s.fontSel then failZero .errNoFont s
  else
    match s.measure codepoint with
    | none => failZero .notRenderable s
    | some mt => done s (reg16 mt.adv) (reg16 mt.rh) 0#16 0#16

/-- DRAW_GLYPH (R191). Where it fails it has changed nothing (R272). -/
def execDrawGlyph (m : Mode) (x y codepoint : Word) (s : State) : Result :=
  if !s.inited then failZero .errNotInit s
  else if s.lacksFb m then failZero .errUnsupported s
  else if !s.fontSel then failZero .errNoFont s
  else
    let d := drawGlyphAt m (s16 x) (s16 y) codepoint s
    let t := if d.code = .ok then d.state.clearScratch else s
    .next (t.endCommand d.code (reg16 d.adv) 0#16 0#16 0#16)

/-- The code of a layout command: `OK` when everything was printed (R196, R198, R200). -/
def layoutCode (all : Bool) : Code := if all then .ok else .errLayoutStop

/-- PUT_CHAR (R196). -/
def execPutChar (m : Mode) (codepoint : Word) (s : State) : Result :=
  if !s.inited then failZero .errNotInit s
  else if s.lacksFb m then failZero .errUnsupported s
  else if !s.fontSel then failZero .errNoFont s
  else
    let t := putCharCore m codepoint s
    let printed := t.2 == .printed
    .next (t.1.clearScratch.endCommand (layoutCode printed) (if printed then 1#16 else 0#16) t.1.curX t.1.curY 0#16)

/-- PUT_STRING (R198). -/
def execPutString (m : Mode) (n : Word) (chars : List Word) (s : State) : Result :=
  if !s.inited then failZero .errNotInit s
  else if s.lacksFb m then failZero .errUnsupported s
  else if u16 n > s.cfg.strCap then failZero .errOperand s
  else if !s.fontSel then failZero .errNoFont s
  else
    let t := emitString m chars s
    .next (t.1.clearScratch.endCommand (layoutCode (t.2 == u16 n)) (reg16 t.2) t.1.curX t.1.curY 0#16)

/-- PUT_STRING_XY (R200). -/
def execPutStringXy (m : Mode) (j : Justify) (x y n : Word) (chars : List Word) (s : State) : Result :=
  if !s.inited then failZero .errNotInit s
  else if s.lacksFb m then failZero .errUnsupported s
  else if u16 n > s.cfg.strCap then failZero .errOperand s
  else if !s.fontSel then failZero .errNoFont s
  else
    let tw := s.stringWidth chars
    let sx := max (justifiedStart j (s16 x) tw) (s16 s.minTextX)
    let s1 :=
      { s with
        maxTextX := reg16 (justifiedBound j (s16 x) (s16 s.maxTextX))
        curX := reg16 sx
        curY := y }
    let t := emitString m chars s1
    let s2 := { t.1.clearScratch with maxTextX := s.maxTextX }
    .next (s2.endCommand (layoutCode (t.2 == u16 n)) (reg16 t.2) s2.curX s2.curY (reg16 tw))

end Sys2Proof.Machine
end

