-- ==== Sys2Proof/Machine/Manager.lean ====
section
/-!
DEFINITION. The Framebuffer Manager's commands (40_framebuffer_manager.md), but for FLUSH_FULL
(Machine/Transition.lean).
-/
namespace Sys2Proof.Machine

/-- What INIT accepts (R120): non-zero dimensions, an even width, both within capacity. -/
def geometryBad (c : Cfg) (w h : Word) : Bool :=
  decide (w.toNat = 0) || decide (h.toNat = 0) || decide (w.toNat % 2 = 1) || decide (w.toNat > c.wMax) ||
    decide (h.toNat > c.hMax)

/-- `PowerUp()`: the tuples, the settle delay, and `DISP` unspecified from then on (R121; notes/assumptions/10.md). -/
def State.powerUp (s : State) : State :=
  let s1 := (s.cfg.pwrSeq.foldl (fun t p => t.emit (.pwrTuple p.opcode p.payload)) s).emit (.delay s.cfg.settleDelay)
  { s1 with disp := [], epoch := s1.epoch + 1 }

/-- Zero the pixel storage, when there is one, and empty the shadow cache (R120, R125). -/
def State.zeroStorage (s : State) : State :=
  { s with
    fb := if s.cfg.hasFb then Memory.filled (s.height * s.bpr) 0x00#8 else s.fb
    shadow := emptyShadow s.height }

/-- INIT (R120). -/
def execInit (width height : Word) (s : State) : Result :=
  if geometryBad s.cfg width height then failZero .errGeometry s
  else
    let s1 := s.powerUp
    let s2 := { s1 with geomW := width, geomH := height, inited := true }
    let s3 := s2.zeroStorage
    let s4 :=
      { s3 with
        minTextX := 0#16, maxTextX := reg16 s3.width, minDispY := 0#16, maxDispY := reg16 s3.height
        curX := 0#16, curY := 0#16 }
    done s4 width height 0#16 0#16

/-- SET_TEXT_BOUNDS (R123). -/
def execSetTextBounds (minX maxX : Word) (s : State) : Result :=
  if !s.inited then failZero .errNotInit s
  else
    let lo := reg16 (clamp (s16 minX) 0 (s.width - 1))
    let hi := reg16 (clamp (s16 maxX) 0 s.width)
    done { s with minTextX := lo, maxTextX := hi } lo hi 0#16 0#16

/-- SET_DISPLAY_WINDOW (R124). -/
def execSetDisplayWindow (minY maxY : Word) (s : State) : Result :=
  if !s.inited then failZero .errNotInit s
  else
    let lo := reg16 (clamp (s16 minY) 0 (s.height - 1))
    let hi := reg16 (clamp (s16 maxY) 0 s.height)
    done { s with minDispY := lo, maxDispY := hi } lo hi 0#16 0#16

/-- CLEAR (R125). -/
def execClear (s : State) : Result :=
  if !s.inited then failZero .errNotInit s
  else done { s.zeroStorage with curX := 0#16, curY := 0#16 } 0#16 0#16 0#16 0#16

/-- FILL (R126). -/
def execFill (color : Word) (s : State) : Result :=
  if !s.inited then failZero .errNotInit s
  else if !s.cfg.hasFb then failZero .errUnsupported s
  else
    let v := colourByte (colour color)
    done { s with fb := Memory.filled (s.height * s.bpr) v } (v.setWidth 16) 0#16 0#16 0#16

/-- The flush rectangle `(xa, xb, ya, yb)` (R127). -/
structure Rect where
  xa : Int
  xb : Int
  ya : Int
  yb : Int
deriving DecidableEq, Repr

/-- `FlushRect(x, y, w, h)` (R127). -/
def State.flushRect (s : State) (x y : Int) (w h : Nat) : Rect :=
  let g : Int := if s.cfg.flushGrows ∧ mod2 x = 1 then 1 else 0
  let x0 := x - mod2 x
  let w0 := (w + g) + mod2 (w + g)
  { xa := max x0 0, xb := min (x0 + w0) s.width, ya := max y 0, yb := min (y + h) s.height }

/-- The rectangle holds no byte (R127). -/
def Rect.isEmpty (r : Rect) : Bool := decide (r.xa ≥ r.xb) || decide (r.ya ≥ r.yb)

/-- The row transfers of FLUSH_WINDOW, rows ascending (R128). -/
def State.flushRows (s : State) (r : Rect) : State :=
  (List.range (r.yb - r.ya).toNat).foldl
    (fun t i =>
      let row := r.ya.toNat + i
      t.xferRun row (r.xa / 2).toNat (.fb (t.offset row (r.xa / 2).toNat)) ((r.xb - r.xa) / 2).toNat)
    s

/-- FLUSH_WINDOW (R128). -/
def execFlushWindow (x y w h : Word) (s : State) : Result :=
  if !s.inited then failZero .errNotInit s
  else if !s.cfg.hasFb then failZero .errUnsupported s
  else
    let r := s.flushRect (s16 x) (s16 y) (u16 w) (u16 h)
    if r.isEmpty then done s 0#16 0#16 0#16 0#16
    else
      done (s.flushRows r).dmaWait (reg16 r.xa) (reg16 r.ya) (reg16 (r.xb - r.xa)) (reg16 (r.yb - r.ya))

/-- SET_CTRL (R132). -/
def execSetCtrl (ctrl : Word) (s : State) : Result :=
  if !s.inited then failZero .errNotInit s
  else if ctrlReserved ctrl then failZero .errOperand s
  else done { s with ctrl := ctrl } ctrl 0#16 0#16 0#16

/-- SET_CURSOR (R133). -/
def execSetCursor (x y : Word) (s : State) : Result :=
  if !s.inited then failZero .errNotInit s
  else done { s with curX := x, curY := y } x y 0#16 0#16

end Sys2Proof.Machine
end

