-- ==== Sys2Proof/Machine/Rasterizer.lean ====
section
/-!
DEFINITION. The rasterizer's commands: WRITE_HLINE, DRAW_RECT, DRAW_IMAGE (41_rasterizer.md sections 3 to 5).
-/
namespace Sys2Proof.Machine

/-- WRITE_HLINE (R150). The payload is staged in `LINE`. -/
def execWriteHline (m : Mode) (x y n : Word) (payload : List Byte) (s : State) : Result :=
  if !s.inited then failZero .errNotInit s
  else if s.lacksFb m then failZero .errUnsupported s
  else if u16 n > s.cfg.lineCap then failZero .errTooWide s
  else
    let s1 := s.setLine (payloadPixels (u16 n) payload)
    let t := hLine m (s16 x) (s16 y) (s1.line.take (u16 n)) s1
    done t.1.dmaWait.clearScratch (reg16 t.2) 0#16 0#16 0#16

/-- DRAW_RECT (R160). -/
def execDrawRect (m : Mode) (x y w h color : Word) (s : State) : Result :=
  if !s.inited then failZero .errNotInit s
  else if s.lacksFb m then failZero .errUnsupported s
  else
    let t := hLineRows m (s16 x) (s16 y) (List.replicate (u16 w) (colour color)) (u16 h) s
    done t.1.dmaWait (reg16 t.2) (reg16 ((t.2 : Int) / 2 ^ 16)) 0#16 0#16

/-- DRAW_IMAGE (R165, R70). -/
def execDrawImage (m : Mode) (x y fileId : Word) (s : State) : Result :=
  if !s.inited then failZero .errNotInit s
  else if s.lacksFb m then failZero .errUnsupported s
  else
    match s.assetAddr fileId s.cfg.typeBitmap with
    | none => failZero .errNotFound s
    | some a =>
      let bw := s.assetField16 a.toNat
      let bh := s.assetField16 (a.toNat + 2)
      if u16 bw > s.cfg.lineCap then failWith .errTooWide s bw bh 0#16 0#16
      else
        let t := blitStream (s16 x) (s16 y) (u16 bw) (u16 bh) (a.toNat + 8) m s
        done t.1.clearScratch bw bh t.2.number 0#16

end Sys2Proof.Machine
end

