-- ==== Sys2Proof/Machine/Transition.lean ====
section
/-!
DEFINITION. The display transition engine: LOAD_TRANSITION, FLUSH_FULL and the seven algorithms (44_transition.md).
-/
namespace Sys2Proof.Machine

/-- *none*: one transfer of the whole buffer (R253). -/
def flushNone (s : State) : State := s.xferRun 0 0 (.fb (s.offset 0 0)) (s.height * s.bpr)

/-- Send byte column `c` of `FB`, every row from the top (R254, R257). -/
def State.sendColumn (s : State) (c : Nat) : State :=
  (List.range s.height).foldl (fun t yy => t.xferRun yy c (.fb (t.offset yy c)) 1) s

/-- Send the divider byte to byte column `c`, every row from the top (R254). -/
def State.sendDividerColumn (s : State) (c : Nat) : State :=
  (List.range s.height).foldl (fun t yy => t.xferRun yy c (.stage 0) 1) s

/-- Divider staging: `STAGE[0]` holds `DIV_BYTE` for a whole row (R255). -/
def State.stageDivider (s : State) : State := s.setStage 0 (List.replicate s.bpr s.cfg.divByte)

/-- One step of a horizontal wipe: a byte column is revealed, then the divider is drawn one column further in the
sweep direction (R254). -/
def hWipeStep (forward : Bool) (s : State) (i : Nat) : State :=
  let c := if forward then i else s.bpr - 1 - i
  let s1 := s.sendColumn c
  let dcol : Int := if forward then (c : Int) + 1 else (c : Int) - 1
  if 0 ≤ dcol ∧ dcol < s1.bpr then s1.sendDividerColumn dcol.toNat else s1

/-- `HWipe(dir)`, forward for left to right (R254). -/
def hWipe (forward : Bool) (s : State) : State :=
  (List.range s.bpr).foldl (hWipeStep forward) s.stageDivider

/-- One step of a vertical wipe: a row is revealed, the divider row drawn two rows further in the sweep direction,
then the per-row delay (R256). -/
def vWipeStep (downward : Bool) (s : State) (i : Nat) : State :=
  let r := if downward then i else s.height - 1 - i
  let s1 := s.xferRun r 0 (.fb (s.offset r 0)) s.bpr
  let drow : Int := if downward then (r : Int) + 2 else (r : Int) - 2
  let s2 := if 0 ≤ drow ∧ drow < s1.height then s1.xferRun drow.toNat 0 (.stage 0) s1.bpr else s1
  s2.dmaWait.emit (.delay s.cfg.vwipeRowDelay)

/-- `VWipe(dir)`, downward for top to bottom (R256). -/
def vWipe (downward : Bool) (s : State) : State :=
  (List.range s.height).foldl (vWipeStep downward) s.stageDivider

/-- The number of iris steps, `ceil(BPR / 2)` (R257). -/
def State.irisSteps (s : State) : Nat := (s.bpr + 1) / 2

/-- One iris step: the pair of byte columns at an offset from the centre, or the one centre column (R257). -/
def irisStep (outward : Bool) (s : State) (t : Nat) : State :=
  let k := if outward then t else s.irisSteps - 1 - t
  let cl := s.irisSteps - 1 - k
  let cr := s.bpr / 2 + k
  let s1 := s.sendColumn cl
  if cr ≠ cl then s1.sendColumn cr else s1

/-- `Iris(sense)` (R257). -/
def iris (outward : Bool) (s : State) : State :=
  (List.range s.irisSteps).foldl (irisStep outward) s

/-- The algorithm of a transition tag (R252). -/
def runTransition (t : Transition) (s : State) : State :=
  match t with
  | .none => flushNone s
  | .wipeLr => hWipe true s
  | .wipeRl => hWipe false s
  | .wipeTb => vWipe true s
  | .wipeBt => vWipe false s
  | .irisIn => iris false s
  | .irisOut => iris true s

/-- FLUSH_FULL (R252). -/
def execFlushFull (s : State) : Result :=
  if !s.inited then failZero .errNotInit s
  else if !s.cfg.hasFb then failZero .errUnsupported s
  else
    let s1 := (runTransition s.trans s).dmaWait.clearScratch
    done { s1 with trans := .none } s.trans.number 0#16 0#16 0#16

/-- LOAD_TRANSITION (R250). -/
def execLoadTransition (kind : Word) (s : State) : Result :=
  if !s.inited then failZero .errNotInit s
  else
    match transitionOf kind with
    | Option.none => failZero .errOperand s
    | some t => done { s with trans := t } kind s.trans.number 0#16 0#16

end Sys2Proof.Machine
end

