-- ==== Sys2Proof/Machine/Dispatch.lean ====
section
/-!
DEFINITION. The meaning of each command, one arm per constructor of Instr (30_encoding.md R96).
-/
namespace Sys2Proof.Machine

def exec (i : Instr) (s : State) : Host.Outcome State Fault Refusal :=
  match i with
  | .init width height => Sys2Proof.Machine.execInit width height s
  | .setTextBounds minX maxX => Sys2Proof.Machine.execSetTextBounds minX maxX s
  | .setDisplayWindow minY maxY => Sys2Proof.Machine.execSetDisplayWindow minY maxY s
  | .clear => Sys2Proof.Machine.execClear s
  | .fill color => Sys2Proof.Machine.execFill color s
  | .flushWindow x y w h => Sys2Proof.Machine.execFlushWindow x y w h s
  | .flushFull => Sys2Proof.Machine.execFlushFull s
  | .setCtrl ctrl => Sys2Proof.Machine.execSetCtrl ctrl s
  | .setCursor x y => Sys2Proof.Machine.execSetCursor x y s
  | .writeHline m x y n payload => Sys2Proof.Machine.execWriteHline m x y n payload s
  | .drawRect m x y w h color => Sys2Proof.Machine.execDrawRect m x y w h color s
  | .drawImage m x y fileId => Sys2Proof.Machine.execDrawImage m x y fileId s
  | .selectFont fontId => Sys2Proof.Machine.execSelectFont fontId s
  | .glyphLookup codepoint => Sys2Proof.Machine.execGlyphLookup codepoint s
  | .measure codepoint => Sys2Proof.Machine.execMeasure codepoint s
  | .drawGlyph m x y codepoint => Sys2Proof.Machine.execDrawGlyph m x y codepoint s
  | .putChar m codepoint => Sys2Proof.Machine.execPutChar m codepoint s
  | .putString m n chars => Sys2Proof.Machine.execPutString m n chars s
  | .putStringXy m j x y n chars => Sys2Proof.Machine.execPutStringXy m j x y n chars s
  | .loadTransition kind => Sys2Proof.Machine.execLoadTransition kind s

end Sys2Proof.Machine
end

