-- ==== Sys2Proof/Machine/Sequencer.lean ====
section
/-!
DEFINITION. How the sequencer runs a command: to its end, until reset comes, or for ever (00_scope.md R17, 10_state.md
R20, 70_reset_and_hazards.md R291, R304).
-/
namespace Sys2Proof.Machine

/-- The command of a packet executes, with what reset and the channel make of it (R17, R20, R291, R304;
notes/assumptions/30.md, 32.md). -/
def State.runCommand (s : State) (i : Instr) : Result :=
  match exec i s with
  | .next t => .next (s.outcome t)
  | .fault f => .fault f
  | .refused r => .refused r

end Sys2Proof.Machine
end

