-- ==== Sys2Proof/Machine/Step.lean ====
section
/-!
DEFINITION. One step of the machine (10_state.md R20): reset when the reset input is high; no step in HALTED; another poll,
for ever, of an engine whose transfer never completes; else the next packet is taken whole and its command executes, an
illegal header halts the engine, and with bytes missing the engine waits.
-/
namespace Sys2Proof.Machine

/-- One step (R17, R20, R90, R99, R104, R290, R301, R304; notes/assumptions/5.md). -/
def step (s : State) : Host.Outcome State Fault Refusal :=
  if s.resetPin then .next s.applyReset
  else if s.hung then .next s
  else
    match s.seq with
    | .halted => .fault .halted
    | .idle | .busy =>
      match s.fetch with
      | .packet i rest => if s.stray then .fault .strayTransfer else (s.takePacket rest).runCommand i
      | .illegal _ hdr rest => .next (s.haltIllegal hdr rest)
      | .incomplete => .next s.waitForBytes

/-- `s` with the packet of a table word next on the command port, before an idle engine
(notes/assumptions/6.md). -/
def State.withFetchWord (s : State) (nbits w : Nat) : State := s.offer (tableBytes nbits w)

end Sys2Proof.Machine
end

