-- ==== Sys2Proof/Machine/Readback.lean ====
section
/-!
DEFINITION. The host's readback port (10_state.md R37, 70_reset_and_hazards.md R300). A read has no side effect: it is
a function of the state.
-/
namespace Sys2Proof.Machine

/-- `FONT_STAT`: bit 0 FONT_SEL, bit 1 QMARK (R37). -/
def State.fontStat (s : State) : Word := 0#14 ++ flagBit s.qmark ++ flagBit s.fontSel

/-- The numbers of the register table below the interval table (R37). -/
def State.readRegister (s : State) (n : Nat) : Word :=
  match n with
  | 0x00 => s.status
  | 0x01 => s.res0
  | 0x02 => s.res1
  | 0x03 => s.res2
  | 0x04 => s.res3
  | 0x05 => s.geomW
  | 0x06 => s.geomH
  | 0x07 => s.minTextX
  | 0x08 => s.maxTextX
  | 0x09 => s.minDispY
  | 0x0A => s.maxDispY
  | 0x0B => s.curX
  | 0x0C => s.curY
  | 0x0D => s.ctrl &&& 0x001F#16
  | 0x0E => s.trans.number
  | 0x0F => s.fontStat
  | 0x10 => s.fontGh.setWidth 16
  | 0x11 => s.fontTotal
  | 0x12 => s.fontDesc
  | 0x13 => s.fontBase.extractLsb' 0 16
  | 0x14 => s.fontBase.extractLsb' 16 16
  | _ => 0#16

/-- `IV[i].start` at `0x20 + 2i`, `IV[i].end` at `0x21 + 2i`, for `i < NI` (R37). -/
def State.readInterval (s : State) (n : Nat) : Word :=
  let i := (n - 0x20) / 2
  if i < s.cfg.ni then
    let e := s.iv.getD i Interval.unused
    if n % 2 = 0 then e.first else e.last
  else 0#16

/-- The number is that of a byte of `FB`: its offset is below `0x4000`, and there is a framebuffer with that byte
(R37). -/
def State.holdsFb (s : State) (n : Nat) : Bool :=
  s.cfg.hasFb && decide (0x8000 ≤ n ∧ n < 0xC000 ∧ n - 0x8000 < s.height * s.bpr)

/-- `FB[y][b]` at `0x8000 + y * BPR + b` (R37). -/
def State.readFb (s : State) (n : Nat) : Word := (s.fbAt (n - 0x8000)).setWidth 16

/-- The number is that of a shadow entry's column or byte (R37). -/
def State.holdsShadow (s : State) (n : Nat) : Bool := decide (0xC000 ≤ n ∧ (n - 0xC000) / 2 < s.height)

/-- `SHADOW[y]` at `0xC000 + 2y` (col) and `0xC001 + 2y` (byte) (R37). -/
def State.readShadow (s : State) (n : Nat) : Word :=
  let e := s.shadowAt ((n - 0xC000) / 2)
  if n % 2 = 0 then e.col else e.byte.setWidth 16

/-- What number `n` holds when the engine is not busy (R37). DESIGN CHOICE (notes/assumptions/16.md): a number that R37
gives both to `FB` or `SHADOW` and to a very long interval table reads as `FB` or `SHADOW`. -/
def State.readNumber (s : State) (n : Nat) : Word :=
  if n < 0x20 then s.readRegister n
  else if s.holdsFb n then s.readFb n
  else if s.holdsShadow n then s.readShadow n
  else s.readInterval n

/-- The readback port: while the engine is busy only `STATUS` is meaningful and any other read returns an unspecified
value, a free value of the read's occasion and number (R37, R300, U5). -/
def State.readback (s : State) (occasion : Nat) (n : Word) : Word :=
  if s.seq = .busy ∧ n ≠ 0#16 then Config.busyReadFree occasion n.toNat else s.readNumber n.toNat

end Sys2Proof.Machine
end

