-- ==== Sys2Proof/Safety.lean ====
section
/-!
DEFINITION. The terms in which claims are stated: the invariant of the machine (40_framebuffer_manager.md R122 and the
rules its fields cite), what a run can reach, and the state differences a draw is allowed.
-/
namespace Sys2Proof

/-- A part whose screen fits the signed 16-bit window registers (R21, R25; notes/assumptions/26.md). -/
def Cfg.fits (c : Cfg) : Prop := c.wMax ≤ 32767 ∧ c.hMax ≤ 32767

end Sys2Proof

namespace Sys2Proof.Machine

/-! ### The invariant -/

/-- The geometry is one INIT accepts (R24, R120). -/
def State.geometryOk (s : State) : Prop :=
  0 < s.width ∧ s.width % 2 = 0 ∧ s.width ≤ s.cfg.wMax ∧ 0 < s.height ∧ s.height ≤ s.cfg.hMax

/-- The window invariant (R25, R122). -/
def State.windowOk (s : State) : Prop :=
  0 ≤ s16 s.minTextX ∧ s16 s.minTextX ≤ (s.width : Int) - 1 ∧
    0 ≤ s16 s.maxTextX ∧ s16 s.maxTextX ≤ s.width ∧
    0 ≤ s16 s.minDispY ∧ s16 s.minDispY ≤ (s.height : Int) - 1 ∧
    0 ≤ s16 s.maxDispY ∧ s16 s.maxDispY ≤ s.height

/-- `SHADOW` has one entry per row, each at a byte column of the screen (R30). -/
def State.shadowOk (s : State) : Prop :=
  s.shadow.length = s.height ∧ ∀ e ∈ s.shadow, e.col.toNat < s.bpr

/-- What holds of the registers and the memories whenever a command begins or ends, in every state a run reaches. -/
structure State.Sound (s : State) : Prop where
  /-- The geometry is one INIT accepts (R24). -/
  geometry : s.inited = true → s.geometryOk
  /-- The window invariant (R122). -/
  window : s.inited = true → s.windowOk
  /-- `CTRL[15:5]` read as 0 (R27). -/
  ctrlBits : ctrlReserved s.ctrl = false
  /-- `QMARK = 1` exactly when a font is selected in which `'?'` falls inside a described interval (R182). -/
  question : s.qmark = (s.fontSel && (s.intervalIndex questionMark).isSome)
  /-- `IV` has `NI` entries (R33). -/
  intervals : s.iv.length = s.cfg.ni
  /-- `FB`, where there is one, has `H * BPR` bytes (R29). -/
  fbBytes : s.inited = true → s.cfg.hasFb = true → Memory.addresses s.fb = List.range (s.height * s.bpr)
  /-- `FB` is in canonical form. -/
  fbWf : Memory.wf s.fb = true
  /-- `DISP` is in canonical form. -/
  dispWf : Memory.wf s.disp = true
  /-- No byte was ever sent past the last row (R79). -/
  dispRange : ∀ a ∈ Memory.addresses s.disp, a < s.height * s.bpr
  /-- `ASSET` is in canonical form, within 32-bit addresses (R76). -/
  assetWf : Memory.wf s.asset = true
  /-- `SHADOW` has `H` entries (R30). -/
  shadowRows : s.inited = true → s.shadowOk
  /-- `XFER_BUSY = 0` between commands (R224). -/
  quiet : s.xferBusy = false
  /-- Nothing is held in the scratch memories between commands (R34). -/
  scratch : s.stage0 = [] ∧ s.stage1 = [] ∧ s.line = []
  /-- The event trace keeps the bus discipline (R81, R225). -/
  bus : busRun false s.trace = some false

/-- What holds between steps, in every state a run reaches. -/
structure State.Inv (s : State) : Prop where
  /-- What holds whenever a command begins or ends holds between commands. -/
  sound : s.hung = false → s.Sound
  /-- In an engine that polls for ever it would hold with the transfer complete and what is staged dropped (R304). -/
  hangSound : s.hung = true → s.dmaWait.clearScratch.Sound
  /-- A transfer is in flight only in an engine that polls for it for ever (R224, R304). -/
  guard : s.xferBusy = s.hung
  /-- No command is in progress between steps but one that polls for ever, whose state is the poll's. -/
  unstuck : s.stuck = none
  /-- `SEQ = BUSY` between steps means that a packet has begun, or that its command never ends (R20, R301, R304). -/
  busyRx : s.seq = .busy ↔ s.rx ≠ [] ∨ s.hung = true
  /-- The bytes taken so far are not yet a packet (R301). -/
  rxIncomplete : decode s.rx = .incomplete
  /-- `ERR_ILLEGAL` is the code of a halted engine and of no other (R104, R270). -/
  haltedCode : s.code = .errIllegal ↔ s.seq = .halted

/-- A state in which every command but INIT passes the check `ERR_NOT_INIT` (R274). -/
def State.Ready (s : State) : Prop := s.Sound ∧ s.inited = true

/-- Nothing keeps a step from taking the next packet and running its command to the end: no reset comes before or during
the command, no transfer from before a reset is in flight, the channel completes every transfer, and the engine is
neither halted nor hung. -/
def State.Undisturbed (s : State) : Prop :=
  s.resetPin = false ∧ s.resetAt = none ∧ s.hangAt = none ∧ s.stray = false ∧ s.hung = false ∧ s.seq ≠ .halted

/-! ### The endless poll -/

/-- The channel reports no completion to a poll that comes after so many events (R304, U12). -/
def State.deadAt (s : State) (n : Nat) : Prop := ∃ m, s.hangAt = some m ∧ m ≤ n

/-- Event number `j` of the trace starts a bulk transfer. -/
def State.startsAt (s : State) (j : Nat) : Prop := ∃ e, s.trace[j]? = some e ∧ e.isStart = true

/-- What `stuck` says inside a command whose events begin at number `n` of the trace: the poll for the first of its
transfers that the channel never completes, with the events up to that transfer's start; none while there is no such
transfer, but for one in flight that has not been polled for (R82, R304). -/
def State.Recorded (n : Nat) (s : State) : Prop :=
  n ≤ s.trace.length ∧ (s.xferBusy = true → n < s.trace.length) ∧
    (s.stuck = none → ∀ j, n ≤ j → s.startsAt j → s.deadAt (j + 1) → s.xferBusy = true ∧ j + 1 = s.trace.length) ∧
    ∀ h, s.stuck = some h →
      ∃ j, n ≤ j ∧ s.startsAt j ∧ s.deadAt (j + 1) ∧ h.trace = s.trace.take (j + 1) ∧
        ∀ k, n ≤ k → k < j → s.startsAt k → ¬s.deadAt (k + 1)

/-! ### Runs -/

/-- A part with a given configuration and Asset Store, right after reset (R38). -/
def State.boot (c : Cfg) (asset : Memory) (dir : List DirEntry) : State :=
  { State.reset with
    cfg := c, asset := asset, assetDir := dir, iv := List.replicate c.ni Interval.unused }

/-- What a run from `s0` reaches when the host may offer bytes and reset the block, the channel may fail, and the
platform may stop a stray transfer. -/
inductive Reachable (s0 : State) : State → Prop where
  | start : Reachable s0 s0
  | step {s t : State} : Reachable s0 s → Sys2Proof.Machine.step s = .next t → Reachable s0 t
  | offer {s : State} (bytes : List Byte) : Reachable s0 s → Reachable s0 { s with port := s.port ++ bytes }
  | pin {s : State} (b : Bool) : Reachable s0 s → Reachable s0 { s with resetPin := b }
  /-- Reset will come during the next command, when it has emitted so many events (R291). -/
  | pinDuring {s : State} (n : Option Nat) : Reachable s0 s → Reachable s0 { s with resetAt := n }
  /-- The channel will report no completion from so many events of the trace on (R304, U12). -/
  | hangs {s : State} (n : Option Nat) : Reachable s0 s → Reachable s0 { s with hangAt := n }
  /-- The platform stops a transfer that a reset found in flight (R291, U10). -/
  | drain {s : State} : Reachable s0 s → Reachable s0 { s with stray := false }

/-! ### Lines in closed form -/

/-- The part of a line that lands shifted by `shift` columns, as one run: its destination columns are those of the line
that lie on the screen and left of the margin (R151, R155). -/
def State.segment (s : State) (pix : List Nibble) (x shift : Int) : Run :=
  let lo := max (x + shift) 0
  let hi := min (x + shift + pix.length) (min (s.width : Int) (s16 s.maxTextX))
  { col := lo.toNat, pix := (pix.drop (lo - (x + shift)).toNat).take (hi - lo).toNat }

/-- The byte a run sends for byte column `b`, from the state before the run: a nibble the run does not cover comes from
the row's shadow entry in the first byte column and is 0 in a later one, where that entry already holds the byte
column before (R31, R156). -/
def State.sentByte (s : State) (y : Nat) (r : Run) (b : Nat) : Byte :=
  let e := 2 * b
  let o := 2 * b + 1
  pack
    (if r.col ≤ e ∧ e < r.col + r.pix.length then r.pix.getD (e - r.col) 0#4
      else if b = r.col / 2 then s.shadowHi y b else 0#4)
    (if r.col ≤ o ∧ o < r.col + r.pix.length then r.pix.getD (o - r.col) 0#4
      else if b = r.col / 2 then s.shadowLo y b else 0#4)

/-- The bytes of a run, in the order they are sent (R156). -/
def State.sentBytes (s : State) (y : Nat) (r : Run) : List Byte := r.byteCols.map (s.sentByte y r)

/-- A direct drawing row by row, `rows r` the pixels of its row `r`: in each visible row the runs of its pixels are
streamed in order (R155, R156, R157). -/
def directRows (x y : Int) (rows : Nat → List Nibble) (h : Nat) (s : State) : State :=
  (List.range h).foldl
    (fun (t : State) (r : Nat) =>
      if s.rowVisible (y + r) then (s.runs (rows r) x).foldl (streamRun (y + r).toNat) t else t)
    s

/-- The events of one run of bytes of a transition: the addressing command, then one bulk transfer or, without the Bulk
Transfer Channel, one bus run (R79, R258). -/
def State.runEvents (s : State) (y b : Nat) (src : XferSource) (bytes : List Byte) : List Event :=
  .busCmd (addrCmds s.cfg y b) ::
    if s.cfg.hasDma then [.dmaStart s.cfg.dmaDest src bytes.length s.cfg.dmaTrig, .dmaDone] else [.busData bytes]

/-- The events of sending `n` bytes of `FB` from byte `(y, b)` on (R79, R258). -/
def State.fbRunEvents (s : State) (y b n : Nat) : List Event :=
  s.runEvents y b (.fb (s.offset y b)) ((List.range n).map fun j => s.fbAt (s.offset y b + j))

/-- The events of sending `n` divider bytes to byte `(y, b)` and on (R255, R258). -/
def State.dividerEvents (s : State) (y b n : Nat) : List Event :=
  s.runEvents y b (.stage 0) (List.replicate n s.cfg.divByte)

/-- The events of sending byte column `c` of `FB`, every row from the top (R254, R257). -/
def State.columnEvents (s : State) (c : Nat) : List Event :=
  (List.range s.height).flatMap fun yy => s.fbRunEvents yy c 1

/-- The events of a horizontal wipe (R254): each step reveals a byte column and draws the divider in the next. -/
def State.hWipeEvents (s : State) (forward : Bool) : List Event :=
  let at_ := fun i : Nat => if forward then i else s.bpr - 1 - i
  (List.range s.bpr).flatMap fun i =>
    s.columnEvents (at_ i) ++
      if i + 1 < s.bpr then (List.range s.height).flatMap fun yy => s.dividerEvents yy (at_ (i + 1)) 1 else []

/-- The events of a vertical wipe (R256): each step reveals a row, draws the divider two rows on and waits. -/
def State.vWipeEvents (s : State) (downward : Bool) : List Event :=
  let at_ := fun i : Nat => if downward then i else s.height - 1 - i
  (List.range s.height).flatMap fun i =>
    s.fbRunEvents (at_ i) 0 s.bpr ++
      (if i + 2 < s.height then s.dividerEvents (at_ (i + 2)) 0 s.bpr else []) ++ [.delay s.cfg.vwipeRowDelay]

/-- How far a byte column lies from the centre of the screen, in byte columns on its side (R257). -/
def State.fromCentre (s : State) (b : Nat) : Nat :=
  if b < (s.bpr + 1) / 2 then (s.bpr + 1) / 2 - 1 - b else b - s.bpr / 2

/-- The events of an iris (R257): each step sends the left and the right byte column at one distance from the centre, or
the one centre column. -/
def State.irisEvents (s : State) (outward : Bool) : List Event :=
  let steps := (s.bpr + 1) / 2
  (List.range steps).flatMap fun i =>
    let k := if outward then i else steps - 1 - i
    s.columnEvents (steps - 1 - k) ++
      if s.bpr / 2 + k ≠ steps - 1 - k then s.columnEvents (s.bpr / 2 + k) else []

/-- The bus traffic of a flush of the whole buffer through a transition (R252 to R258). -/
def State.transitionEvents (s : State) : Transition → List Event
  | .none => s.fbRunEvents 0 0 (s.height * s.bpr)
  | .wipeLr => s.hWipeEvents true
  | .wipeRl => s.hWipeEvents false
  | .wipeTb => s.vWipeEvents true
  | .wipeBt => s.vWipeEvents false
  | .irisIn => s.irisEvents false
  | .irisOut => s.irisEvents true

/-- The registers right after reset (R38), and the memories with unspecified contents (R290). -/
def State.AtReset (t : State) : Prop :=
  t.seq = .idle ∧ t.rx = [] ∧ t.code = .ok ∧
    t.res0 = 0 ∧ t.res1 = 0 ∧ t.res2 = 0 ∧ t.res3 = 0 ∧ t.inited = false ∧ t.geomW = 0 ∧ t.geomH = 0 ∧
    t.minTextX = 0 ∧ t.maxTextX = 0 ∧ t.minDispY = 0 ∧ t.maxDispY = 0 ∧ t.curX = 0 ∧ t.curY = 0 ∧
    t.ctrl = 0 ∧ t.trans = .none ∧ t.fontSel = false ∧ t.qmark = false ∧ t.fontBase = 0 ∧ t.fontGh = 0 ∧
    t.fontTotal = 0 ∧ t.fontDesc = 0 ∧ t.xferBusy = false ∧
    t.iv = List.replicate t.cfg.ni { first := 0xFFFF, last := 0xFFFF } ∧
    (∀ off : Nat, t.fbAt off = Config.fbFree t.epoch off ∧ t.dispAt off = Config.dispFree t.epoch off) ∧
    ∀ y : Nat, (t.shadowAt y).col = Config.shadowColFree t.epoch y ∧
      (t.shadowAt y).byte = Config.shadowByteFree t.epoch y

/-! ### What a command may change -/

/-- `s` with the state a buffered draw may write taken from `t`: `FB` (R61). -/
def State.withFbOf (s t : State) : State := { s with fb := t.fb }

/-- `s` with the state a display write may change taken from `t`: `DISP`, the write pointer, the guard, the trace,
and the model's own record of an endless poll (R61, R79, R304). -/
def State.withDispOf (s t : State) : State :=
  { s with
    disp := t.disp, wpRow := t.wpRow, wpCol := t.wpCol, xferBusy := t.xferBusy, trace := t.trace
    stuck := t.stuck }

/-- `s` with the state a direct draw may change taken from `t`: that of a display write, and `SHADOW` (R61). -/
def State.withDirectOf (s t : State) : State :=
  { s with
    disp := t.disp, wpRow := t.wpRow, wpCol := t.wpCol, xferBusy := t.xferBusy, trace := t.trace
    shadow := t.shadow, stuck := t.stuck }

/-- `s` with the scratch memories of `t` (R34). -/
def State.withScratchOf (s t : State) : State :=
  { s with stage0 := t.stage0, stage1 := t.stage1, line := t.line }

/-- `s` with the state a draw of mode `m` may change taken from `t` (R61). -/
def State.withDrawOf (m : Mode) (s t : State) : State :=
  match m with
  | .buffered => s.withFbOf t
  | .direct => s.withDirectOf t

/-- `s` with the state a layout step of mode `m` may change taken from `t`: that of a draw, and the cursor (R193). -/
def State.withLayoutOf (m : Mode) (s t : State) : State :=
  { s.withDrawOf m t with curX := t.curX, curY := t.curY }

/-! ### Events and sequences of commands -/

/-- The event is a fixed delay. -/
def Event.isDelay : Event → Bool
  | .delay _ => true
  | .busCmd _ | .busData _ | .dmaStart _ _ _ _ | .dmaDone | .pwrTuple _ _ | .reset => false

/-- The event belongs to a bulk transfer. -/
def Event.isBulk : Event → Bool
  | .dmaStart _ _ _ _ | .dmaDone => true
  | .busCmd _ | .busData _ | .delay _ | .pwrTuple _ _ | .reset => false

/-- Commands executed one after the other; none where one of them has no next state. -/
def execAll : List Instr → State → Option State
  | [], s => some s
  | i :: is, s =>
    match exec i s with
    | .next t => execAll is t
    | .fault _ => none
    | .refused _ => none

/-! ### Fonts -/

/-- An interval slot in use that contains a codepoint, both ends inclusive (R184). -/
def Interval.contains (e : Interval) (cp : Word) : Prop :=
  e.first ≠ 0xFFFF#16 ∧ e.first.toNat ≤ cp.toNat ∧ cp.toNat ≤ e.last.toNat

/-- The length of an interval: 0 for an unused slot and for one that ends before it starts (R184). -/
def Interval.length (e : Interval) : Nat :=
  if e.first = 0xFFFF#16 then 0 else e.last.toNat + 1 - e.first.toNat

end Sys2Proof.Machine

namespace Sys2Proof

open Machine

/-! ### Groups of commands -/

/-- The seven drawing commands, whose rows list the flag `M` (R61, R96). -/
def drawingOpcodes : List Opcode :=
  [.writeHline, .drawRect, .drawImage, .drawGlyph, .putChar, .putString, .putStringXy]

/-- The commands that need a selected font (R180). -/
def fontOpcodes : List Opcode := [.glyphLookup, .measure, .drawGlyph, .putChar, .putString, .putStringXy]

/-- The command needs a framebuffer (R275). -/
def Instr.needsFb (i : Instr) : Prop :=
  i.opcode ∈ [Opcode.fill, .flushWindow, .flushFull] ∨ (i.opcode ∈ drawingOpcodes ∧ i.mode = .buffered)

/-- The command carries a string longer than the part accepts (R103). -/
def Instr.tooLong (c : Cfg) : Instr → Prop
  | .putString _ n _ => c.strCap < n.toNat
  | .putStringXy _ _ _ _ n _ => c.strCap < n.toNat
  | _ => False

/-- The codes a command may end with besides `OK` and `ERR_NOT_INIT` (R277). -/
def Instr.ownCodes (i : Instr) : List Code :=
  let fb : List Code := if i.mode = .buffered then [.errUnsupported] else []
  match i.opcode with
  | .init => [.errGeometry]
  | .setTextBounds | .setDisplayWindow | .clear | .setCursor => []
  | .fill | .flushWindow | .flushFull => [.errUnsupported]
  | .setCtrl | .loadTransition => [.errOperand]
  | .writeHline => .errTooWide :: fb
  | .drawRect => fb
  | .drawImage => .errNotFound :: .errTooWide :: fb
  | .selectFont => [.errNotFound]
  | .glyphLookup | .measure => [.errNoFont, .notRenderable]
  | .drawGlyph => .errNoFont :: .notRenderable :: .errTooWide :: fb
  | .putChar => .errNoFont :: .errLayoutStop :: fb
  | .putString | .putStringXy => .errOperand :: .errNoFont :: .errLayoutStop :: fb

end Sys2Proof
end

