-- ==== Sys2Proof/Certificates/Slice0/Obligations.lean ====
section
/-!
DEFINITION. The statements for the provers. Each docstring names the rules of spec/ that its statement formalises.
A command is stated at `exec i s`, for a state `s` that is `Ready` (an INIT has succeeded, the invariant holds) where its
effect is meant; what it changes is given as a record equation, so that every field not named keeps its value.
-/
section

open Sys2Proof Sys2Proof.Machine

/-! ### The encoding -/

/-- Every well-formed command is read back from its packet, whatever follows it on the port (R90 to R97). -/
def Obligations.DecodeEncode : Prop :=
  ∀ (i : Instr) (rest : List Byte), i.wellFormed = true → decode (encode i ++ rest) = .packet i rest

/-- What the decoder accepts is a well-formed command, and the bytes it took are that command's packet: no bit of a packet
is dropped (R91 to R97, R101). -/
def Obligations.EncodeDecode : Prop :=
  ∀ (bs : List Byte) (i : Instr) (rest : List Byte), decode bs = .packet i rest →
    i.wellFormed = true ∧ bs = encode i ++ rest

/-- The total lengths of R93's table, and that the decoder takes exactly so many bytes. -/
def Obligations.PacketLengths : Prop :=
  (∀ i : Instr, i.wellFormed = true →
    (encode i).length =
      match i with
      | .clear | .flushFull => 2
      | .fill _ | .setCtrl _ | .selectFont _ | .glyphLookup _ | .measure _ | .putChar _ _ | .loadTransition _ => 4
      | .init _ _ | .setTextBounds _ _ | .setDisplayWindow _ _ | .setCursor _ _ => 6
      | .drawImage _ _ _ _ | .drawGlyph _ _ _ _ => 8
      | .flushWindow _ _ _ _ => 10
      | .drawRect _ _ _ _ _ _ => 12
      | .writeHline _ _ _ n _ => 8 + (n.toNat + 1) / 2
      | .putString _ n _ => 4 + 2 * n.toNat
      | .putStringXy _ _ _ _ n _ => 8 + 2 * n.toNat) ∧
    ∀ (bs : List Byte) (i : Instr) (rest : List Byte), decode bs = .packet i rest →
      bs.length = (encode i).length + rest.length

/-- The header rows of R97: match and mask of each opcode, no two rows match one header, and a header is legal exactly when
it matches a row and its justification is not 3. -/
def Obligations.HeaderRows : Prop :=
  opcodes.map (fun o => (o.code.toNat, o.mask.toNat)) =
      [(0x01, 0xFFFF), (0x02, 0xFFFF), (0x03, 0xFFFF), (0x04, 0xFFFF), (0x05, 0xFFFF), (0x06, 0xFFFF), (0x07, 0xFFFF),
       (0x08, 0xFFFF), (0x09, 0xFFFF), (0x10, 0xFEFF), (0x11, 0xFEFF), (0x12, 0xFEFF), (0x20, 0xFFFF), (0x21, 0xFFFF),
       (0x22, 0xFFFF), (0x23, 0xFEFF), (0x24, 0xFEFF), (0x25, 0xFEFF), (0x26, 0xF8FF), (0x30, 0xFFFF)] ∧
    (∀ o : Opcode, o ∈ opcodes) ∧
    (∀ (hdr : Word) (o o' : Opcode), hdr &&& o.mask = o.code.setWidth 16 → hdr &&& o'.mask = o'.code.setWidth 16 →
      o = o') ∧
    ∀ (hdr : Word) (h : Header), decodeHeader hdr = .ok h ↔
      hdr &&& h.op.mask = h.op.code.setWidth 16 ∧ h.m = headerMode hdr ∧ headerJustify hdr = some h.j

/-- The illegal headers are the reserved opcodes of R100 and the reserved flag patterns of R101, and no others (R102). -/
def Obligations.ReservedHeaders : Prop :=
  ∀ op fl : Byte,
    (∃ why, decodeHeader (headerWord op fl) = .error why) ↔
      (op.toNat = 0x00 ∨ (0x0A ≤ op.toNat ∧ op.toNat ≤ 0x0F) ∨ (0x13 ≤ op.toNat ∧ op.toNat ≤ 0x1F) ∨
        (0x27 ≤ op.toNat ∧ op.toNat ≤ 0x2F) ∨ 0x31 ≤ op.toNat) ∨
      8 ≤ fl.toNat ∨
      (fl.toNat % 2 = 1 ∧ op.toNat ∉ [0x10, 0x11, 0x12, 0x23, 0x24, 0x25, 0x26]) ∨
      (fl.toNat / 2 % 4 ≠ 0 ∧ op.toNat ≠ 0x26) ∨
      (fl.toNat / 2 % 4 = 3 ∧ op.toNat = 0x26)

/-- Packets written out byte by byte from the tables of R91 to R96, one or more of every unit. -/
def Obligations.WordsDecode : Prop :=
  decode [0x01, 0x00, 0x00, 0x01, 0x40, 0x00] = .packet (.init 256 64) [] ∧
    decode [0x06, 0x00, 0xFD, 0xFF, 0x00, 0x00, 0x06, 0x00, 0x05, 0x00] = .packet (.flushWindow 0xFFFD 0 6 5) [] ∧
    decode [0x10, 0x00, 0x01, 0x00, 0x00, 0x00, 0x03, 0x00, 0xAB, 0xC0] =
      .packet (.writeHline .buffered 1 0 3 [0xAB, 0xC0]) [] ∧
    decode [0x11, 0x01, 0x01, 0x00, 0x00, 0x00, 0x02, 0x00, 0x02, 0x00, 0x0F, 0x00, 0x04] =
      .packet (.drawRect .direct 1 0 2 2 15) [0x04] ∧
    decode [0x26, 0x05, 0x08, 0x00, 0x00, 0x00, 0x01, 0x00, 0x41, 0x00] =
      .packet (.putStringXy .direct .right 8 0 1 [0x41]) [] ∧
    decode [0x30, 0x00, 0x05, 0x00] = .packet (.loadTransition 5) []

/-! ### The sequencer -/

/-- A whole packet at the front of the stream is taken and its command executes; taking it changes nothing but the
sequencer's state and the two byte streams (R20, R99). What happens where reset comes during the command, or a transfer
from before a reset is still in flight, is in `ResetValues`; a channel that never completes a transfer is in
`EveryCommandCompletes`. -/
def Obligations.StepRunsDecoded : Prop :=
  ∀ (s : State) (i : Instr) (rest : List Byte), s.Undisturbed → decode (s.rx ++ s.port) = .packet i rest →
    i.wellFormed = true ∧ step s = exec i { s with seq := .busy, rx := [], port := rest }

/-- An illegal header halts the engine, and only reset leaves that state (R104, R102). The second clause is the model's
form of a stuck state (notes/assumptions/7.md): no step, whatever the host offers; the readback port still works. -/
def Obligations.IllegalHeaderHalts : Prop :=
  ∀ (s : State) (op fl : Byte) (rest : List Byte) (why : IllegalHeader), s.resetPin = false → s.hung = false →
    s.seq ≠ .halted → s.rx ++ s.port = op :: fl :: rest → decodeHeader (headerWord op fl) = .error why →
    ∃ t : State, step s = .next t ∧
      t = { s with
        seq := .halted, rx := [], port := rest, code := .errIllegal
        res0 := BitVec.ofNat 16 (op.toNat + 256 * fl.toNat), res1 := 0, res2 := 0, res3 := 0 } ∧
      t.code.number = 0xFF ∧
      (∀ bytes : List Byte, step { t with port := t.port ++ bytes } = .fault .halted) ∧
      (∀ (occasion : Nat) (n : Word), t.readback occasion n = t.readNumber n.toNat) ∧
      step { t with resetPin := true } = .next t.applyReset

/-- With bytes of the packet missing the engine takes those that are there and waits, in `BUSY` once it has a first byte;
nothing else changes (R20, R301; one step for the bytes at hand is the model's form, notes/assumptions/5.md). -/
def Obligations.WaitsForPacket : Prop :=
  ∀ s : State, s.resetPin = false → s.hung = false → s.seq ≠ .halted → decode (s.rx ++ s.port) = .incomplete →
    step s = .next { s with
      seq := if s.rx ++ s.port = [] then .idle else .busy, rx := s.rx ++ s.port, port := [] }

/-- Reset puts every register at its value of R38 and leaves the memories unspecified, in any state (R290), and also
during a command (R291), of which the events it has emitted remain. That the run's parameters, the host's bytes, the
display's pointer between commands and the events stay, a transfer in flight with them, and that the reset takes the
reset input back, is the model's choice (notes/assumptions/8.md, 32.md); so are the form of a reset during a command, and
the fault of a command that comes while a transfer from before the reset is still in flight, where the spec says nothing
(U10; notes/assumptions/30.md). -/
def Obligations.ResetValues : Prop :=
  (∀ s : State, s.resetPin = true →
    ∃ t : State, step s = .next t ∧ t.AtReset ∧ t.port = s.port ∧ t.trace = s.trace ++ [.reset] ∧
      t.wpRow = s.wpRow ∧ t.wpCol = s.wpCol ∧ t.stray = (s.stray || s.xferBusy) ∧ t.hung = false ∧ t.stuck = none ∧
      t.resetPin = false ∧ t.resetAt = none ∧ t.hangAt = s.hangAt ∧
      t.cfg = s.cfg ∧ t.asset = s.asset ∧ t.assetDir = s.assetDir) ∧
  ∀ (s : State) (i : Instr) (rest : List Byte), s.resetPin = false → s.hung = false → s.seq ≠ .halted →
    decode (s.rx ++ s.port) = .packet i rest →
    (s.stray = false →
      ∃ u : State, exec i { s with seq := .busy, rx := [], port := rest } = .next u ∧
        ∀ n : Nat, s.resetAt = some n → (∀ h : Hang, s.hangOf u = some h → s.trace.length + n ≤ h.trace.length) →
          ∃ t : State, step s = .next t ∧
            let es := u.trace.take (s.trace.length + n)
            t.AtReset ∧ t.port = rest ∧ t.trace = es ++ [.reset] ∧ (t.stray = true ↔ busRun false es = some true) ∧
              t.hung = false ∧ t.stuck = none ∧ t.resetPin = false ∧ t.resetAt = none ∧ t.hangAt = s.hangAt ∧
              t.cfg = s.cfg ∧ t.asset = s.asset ∧ t.assetDir = s.assetDir) ∧
      (s.stray = true → step s = .fault .strayTransfer)

/-- The invariant holds right after reset, for every configuration and Asset Store (R38). -/
def Obligations.InvAtReset : Prop :=
  State.reset.Inv ∧
    ∀ (c : Cfg) (asset : Memory) (dir : List DirEntry), Memory.wf asset = true → (State.boot c asset dir).Inv

/-- Every step keeps the invariant: window and geometry (R24, R25, R122), `CTRL` (R27), the font state (R33, R182), the
sizes and the canonical form of the memories (R29, R30, R35), `XFER_BUSY = 0` between commands (R224), the bus discipline
(R81, R225), the sequencer (R20, R104); a step may be a reset, also one during a command (R290, R291), and one of a
command that never ends, with its transfer in flight (R304). -/
def Obligations.StepKeepsInv : Prop :=
  ∀ s t : State, s.cfg.fits → s.Inv → step s = .next t → t.Inv

/-- The invariant holds in every state a run reaches, whatever the host offers, whenever reset comes and whichever transfer
never completes, and the configuration and the Asset Store are constant for the whole run (R16, R76, R122). -/
def Obligations.ReachableStates : Prop :=
  ∀ (c : Cfg) (asset : Memory) (dir : List DirEntry) (s : State), c.fits → Memory.wf asset = true →
    Reachable (State.boot c asset dir) s → s.Inv ∧ s.cfg = c ∧ s.asset = asset ∧ s.assetDir = dir

/-- Every command completes, from every state, and returns the sequencer to `IDLE` without touching the port (R20, R271);
from a sound state it leaves no transfer in flight (R224). So it is with a channel that completes every transfer (R304).
With one that from some event on reports no completion, the command polls for ever for the first transfer it started that
is not reported complete: all it did before that poll is done (R80, R82), `h` says where it stands, `STATUS.BUSY` and
`XFER_BUSY` are 1 whatever the host offers, and only reset leaves that state (R17, R304, U12; the form of such a channel
is the model's choice, notes/assumptions/32.md). A command with no such transfer is not touched by it. What `h` holds
beside the events is said twice: for each command, what it cannot have changed by then and the divider a wipe has staged
(R255); and for every state `v` in which `DmaWait` is called, the barrier alone records it, the first time, with all that
`v` holds but the bytes in flight, and a transfer, a bus run, a chunk of the full-screen path and a row of the aligned
path call it in the state their pseudocode gives (R79, R156, R222, R230, R233). -/
def Obligations.EveryCommandCompletes : Prop :=
  (∀ (i : Instr) (s : State), ∃ t : State, exec i s = .next t ∧ t.seq = .idle ∧ t.rx = s.rx ∧ t.port = s.port ∧
    t.resetPin = s.resetPin ∧ t.resetAt = s.resetAt ∧ t.hangAt = s.hangAt ∧ t.stray = s.stray ∧ t.hung = s.hung ∧
    (s.Sound → t.xferBusy = false)) ∧
  (∀ (s u : State) (i : Instr) (rest : List Byte), s.Sound → s.stuck = none → s.resetPin = false → s.hung = false →
    s.stray = false → s.seq ≠ .halted → decode (s.rx ++ s.port) = .packet i rest →
    exec i { s with seq := .busy, rx := [], port := rest } = .next u →
    (u.stuck = none → s.resetAt = none → step s = .next u) ∧
      (u.stuck = none ↔ ∀ j : Nat, s.trace.length ≤ j → u.startsAt j → ¬s.deadAt (j + 1)) ∧
      ∀ h : Hang, u.stuck = some h →
        (∃ j : Nat, s.trace.length ≤ j ∧ u.startsAt j ∧ s.deadAt (j + 1) ∧ h.trace = u.trace.take (j + 1) ∧
          ∀ k : Nat, s.trace.length ≤ k → k < j → u.startsAt k → ¬s.deadAt (k + 1)) ∧
        ((∀ n : Nat, s.resetAt = some n → h.trace.length < s.trace.length + n) →
          ∃ t : State, step s = .next t ∧
            t = { s with
              seq := .busy, rx := [], port := rest, hung := true, xferBusy := true
              shadow := h.shadow, stage0 := h.stage0, stage1 := h.stage1, line := h.line
              disp := h.disp, wpRow := h.wpRow, wpCol := h.wpCol
              curX := h.curX, curY := h.curY, maxTextX := h.maxTextX, trace := h.trace } ∧
            (∀ bytes : List Byte, step { t with port := t.port ++ bytes } = .next { t with port := t.port ++ bytes }) ∧
            ∃ v : State, step { t with resetPin := true } = .next v ∧ v.AtReset ∧ v.stray = true) ∧
        (i.opcode ∈ [Opcode.flushWindow, .flushFull] ∨
          (i.opcode ∈ [Opcode.drawImage, .drawGlyph, .putChar, .putString, .putStringXy] ∧ i.mode = .direct)) ∧
        (i.opcode ∈ [Opcode.flushWindow, .flushFull] → h.shadow = s.shadow ∧ h.stage1 = [] ∧ h.line = [] ∧
          h.stage0 = if i.opcode = .flushFull ∧ s.trans ∈ [Transition.wipeLr, .wipeRl, .wipeTb, .wipeBt] then
            List.replicate s.bpr s.cfg.divByte else []) ∧
        (i.opcode ∈ [Opcode.flushWindow, .flushFull, .drawImage, .drawGlyph] → h.curX = s.curX ∧ h.curY = s.curY) ∧
        h.maxTextX = match i with
          | .putStringXy _ .right x _ _ _ => reg16 (clamp (s16 x) 0 (s16 s.maxTextX))
          | _ => s.maxTextX) ∧
  ∀ v : State,
    (v.xferBusy = true → v.deadAt v.trace.length → v.stuck = none →
      ∃ h : Hang, v.dmaWait.stuck = some h ∧ h.trace = v.trace ∧ h.shadow = v.shadow ∧ h.stage0 = v.stage0 ∧
        h.stage1 = v.stage1 ∧ h.line = v.line ∧ h.curX = v.curX ∧ h.curY = v.curY ∧ h.maxTextX = v.maxTextX ∧
        ∀ (dest trig : Nat) (src : XferSource) (len off : Nat),
          v.trace.getLast? = some (.dmaStart dest src len trig) →
          off + len < v.offset v.wpRow v.wpCol ∨ v.offset v.wpRow v.wpCol ≤ off →
          Memory.read h.disp off = Memory.read v.disp off) ∧
      (v.xferBusy = false ∨ ¬v.deadAt v.trace.length ∨ v.stuck ≠ none → v.dmaWait.stuck = v.stuck) ∧
      (∀ (y b len : Nat) (src : XferSource) (bytes : List Byte) (r : Run),
        (v.bulkWriteRun y b src len).stuck = v.dmaWait.stuck ∧ (v.bulkContinue src len).stuck = v.dmaWait.stuck ∧
          (v.busWriteRun y b bytes).stuck = v.dmaWait.stuck ∧ (v.xferRun y b src len).stuck = v.dmaWait.stuck ∧
          (streamRun y v r).stuck = v.dmaWait.stuck) ∧
      (∀ p n c : Nat, (fullScreenChunk p n v c).stuck = v.dmaWait.stuck) ∧
      ∀ (x y : Int) (bw p k r : Nat),
        let row := (List.range bw).map fun i => v.pixelStream p (r * bw + i)
        let nb := v.alignedBytes x bw
        (blitAlignedRow x y bw p (v, k) r).1.stuck =
          if v.rowVisible (y + r) = true ∧ 0 < nb then
            ((v.setLine row).setStage k ((List.range nb).map fun j =>
              pack (row.getD (2 * j) 0) (row.getD (2 * j + 1) 0))).dmaWait.stuck
          else v.stuck

/-! ### The bus -/

/-- In the events of a command a bulk transfer completes before anything else happens on the bus: a `DmaStart` is followed
at once by its `DmaDone`, and a `DmaDone` comes at once after a `DmaStart` (R81 (a), (c), R221, R225). -/
def Obligations.BusDiscipline : Prop :=
  ∀ (i : Instr) (s t : State), s.Sound → exec i s = .next t →
    ∃ es : List Event, t.trace = s.trace ++ es ∧
      (∀ k dest src len trig, es[k]? = some (.dmaStart dest src len trig) → es[k + 1]? = some .dmaDone) ∧
      ∀ k, es[k]? = some .dmaDone → ∃ j dest src len trig, k = j + 1 ∧ es[j]? = some (.dmaStart dest src len trig)

/-- Without the Bulk Transfer Channel no bulk transfer ever starts (R226). -/
def Obligations.WithoutBulkChannel : Prop :=
  ∀ (i : Instr) (s t : State), s.Sound → s.cfg.hasDma = false → exec i s = .next t →
    ∃ es : List Event, t.trace = s.trace ++ es ∧ ∀ e ∈ es, e.isBulk = false

/-- Which commands may change which state (R24 to R28, R30, R32, R33, R61, R76, R85, R251, R306, R307). -/
def Obligations.Writers : Prop :=
  ∀ (i : Instr) (s t : State), s.Sound → exec i s = .next t →
    (t.cfg = s.cfg ∧ t.asset = s.asset ∧ t.assetDir = s.assetDir) ∧
      (i.opcode ≠ .init → t.inited = s.inited ∧ t.geomW = s.geomW ∧ t.geomH = s.geomH ∧ t.epoch = s.epoch) ∧
      (i.opcode ∉ [Opcode.init, .setTextBounds] → t.minTextX = s.minTextX ∧ t.maxTextX = s.maxTextX) ∧
      (i.opcode ∉ [Opcode.init, .setDisplayWindow] → t.minDispY = s.minDispY ∧ t.maxDispY = s.maxDispY) ∧
      (i.opcode ∉ [Opcode.init, .clear, .setCursor, .putChar, .putString, .putStringXy] →
        t.curX = s.curX ∧ t.curY = s.curY) ∧
      (i.opcode ≠ .setCtrl → t.ctrl = s.ctrl) ∧
      (i.opcode ∉ [Opcode.flushFull, .loadTransition] → t.trans = s.trans) ∧
      (i.opcode ≠ .selectFont →
        t.fontSel = s.fontSel ∧ t.qmark = s.qmark ∧ t.fontBase = s.fontBase ∧ t.fontGh = s.fontGh ∧
          t.fontTotal = s.fontTotal ∧ t.fontDesc = s.fontDesc ∧ t.iv = s.iv) ∧
      (i.opcode ∉ [Opcode.init, .clear, .fill] → ¬(i.opcode ∈ drawingOpcodes ∧ i.mode = .buffered) → t.fb = s.fb) ∧
      (i.opcode ∉ [Opcode.init, .clear] → ¬(i.opcode ∈ drawingOpcodes ∧ i.mode = .direct) → t.shadow = s.shadow) ∧
      (i.opcode ∉ [Opcode.init, .flushWindow, .flushFull] → ¬(i.opcode ∈ drawingOpcodes ∧ i.mode = .direct) →
        t.disp = s.disp ∧ t.wpRow = s.wpRow ∧ t.wpCol = s.wpCol ∧ t.trace = s.trace)

/-! ### Failures -/

/-- Before a successful INIT every other command fails with `ERR_NOT_INIT`, after its packet has been consumed, and
changes nothing else (R274, R272). -/
def Obligations.NotInitialised : Prop :=
  ∀ (i : Instr) (s : State), s.inited = false → i.opcode ≠ .init →
    exec i s = .next (s.endCommand .errNotInit 0 0 0 0) ∧
      ∀ rest : List Byte, s.Undisturbed → decode (s.rx ++ s.port) = .packet i rest →
        step s = .next ({ s with rx := [], port := rest }.endCommand .errNotInit 0 0 0 0)

/-- A command that fails with any code but `ERR_LAYOUT_STOP` has changed nothing but `CODE` and `RES0` to `RES3`, and has
emitted no event (R272). -/
def Obligations.FailureAtomicity : Prop :=
  ∀ (i : Instr) (s t : State), exec i s = .next t → t.code ≠ .ok → t.code ≠ .errLayoutStop →
    t = s.endCommand t.code t.res0 t.res1 t.res2 t.res3

/-- Without a framebuffer the commands that need one fail, CLEAR is not refused, and no direct form is (R275). -/
def Obligations.WithoutFramebuffer : Prop :=
  ∀ s : State, s.inited = true → s.cfg.hasFb = false →
    (∀ i : Instr, i.needsFb → exec i s = .next (s.endCommand .errUnsupported 0 0 0 0)) ∧
      exec .clear s = .next ({ s with
        shadow := List.replicate s.height { col := 0, byte := 0 }, curX := 0, curY := 0 }.endCommand .ok 0 0 0 0) ∧
      ∀ (i : Instr) (t : State), ¬i.needsFb → exec i s = .next t → t.code ≠ .errUnsupported

/-- With no font selected every font command that passes the earlier checks fails with `ERR_NO_FONT` and changes nothing
else (R180, R276). -/
def Obligations.NoFontSelected : Prop :=
  ∀ (i : Instr) (s : State), s.inited = true → s.fontSel = false → i.opcode ∈ fontOpcodes →
    (i.needsFb → s.cfg.hasFb = true) → ¬i.tooLong s.cfg →
    exec i s = .next (s.endCommand .errNoFont 0 0 0 0)

/-- Reserved operand values (R103): the packet is read whole, the command fails and changes nothing else; the upper bits of
a colour are ignored, not reserved. -/
def Obligations.ReservedOperands : Prop :=
  (∀ (i : Instr) (rest : List Byte),
    i.opcode ∈ [Opcode.loadTransition, .setCtrl, .putString, .putStringXy, .writeHline] → i.wellFormed = true →
    decode (encode i ++ rest) = .packet i rest) ∧
    ∀ s : State, s.inited = true →
      (∀ kind : Word, 7 ≤ kind.toNat → exec (.loadTransition kind) s = .next (s.endCommand .errOperand 0 0 0 0)) ∧
      (∀ ctrl : Word, 32 ≤ ctrl.toNat → exec (.setCtrl ctrl) s = .next (s.endCommand .errOperand 0 0 0 0)) ∧
      (∀ i : Instr, i.tooLong s.cfg → (i.needsFb → s.cfg.hasFb = true) →
        exec i s = .next (s.endCommand .errOperand 0 0 0 0)) ∧
      (∀ (m : Mode) (x y n : Word) (payload : List Byte), (m = .buffered → s.cfg.hasFb = true) →
        s.cfg.lineCap < n.toNat → exec (.writeHline m x y n payload) s = .next (s.endCommand .errTooWide 0 0 0 0)) ∧
      (∀ color : Word, exec (.fill color) s = exec (.fill (color &&& 15)) s) ∧
      ∀ (m : Mode) (x y w h color : Word), exec (.drawRect m x y w h color) s = exec (.drawRect m x y w h (color &&& 15)) s

/-- The codes each command can end with (R277), `ERR_NOT_INIT` only before an INIT and never from INIT (R274). -/
def Obligations.CodesByCommand : Prop :=
  ∀ (i : Instr) (s t : State), exec i s = .next t →
    t.code = .ok ∨ (t.code = .errNotInit ∧ s.inited = false ∧ i.opcode ≠ .init) ∨ t.code ∈ i.ownCodes

/-! ### The Framebuffer Manager -/

/-- INIT (R120, R121): on a geometry it accepts, everything it writes, the power-up events, and `DISP` unspecified from then
on; on any other geometry, failure. The model's choices: the form of the unspecified `DISP`, with no byte listed and a
free value of a new epoch (notes/assumptions/10.md), the byte list of `FB` replaced whole (notes/assumptions/18.md), and
the display's write pointer kept (notes/assumptions/11.md). -/
def Obligations.InitCommand : Prop :=
  ∀ (s : State) (w h : Word),
    let legal := w.toNat ≠ 0 ∧ h.toNat ≠ 0 ∧ w.toNat % 2 = 0 ∧ w.toNat ≤ s.cfg.wMax ∧ h.toNat ≤ s.cfg.hMax
    (legal →
      ∃ t : State, exec (.init w h) s = .next (t.endCommand .ok w h 0 0) ∧
        t = { s with
          geomW := w, geomH := h, inited := true
          fb := if s.cfg.hasFb then Memory.filled (h.toNat * (w.toNat / 2)) 0 else s.fb
          shadow := List.replicate h.toNat { col := 0, byte := 0 }
          minTextX := 0, maxTextX := w, minDispY := 0, maxDispY := h, curX := 0, curY := 0
          disp := [], epoch := s.epoch + 1
          trace := s.trace ++ s.cfg.pwrSeq.map (fun p => Event.pwrTuple p.opcode p.payload) ++
            [.delay s.cfg.settleDelay] } ∧
        (s.cfg.hasFb = true → ∀ y b, y < h.toNat → b < w.toNat / 2 → t.fbByte y b = 0) ∧
        (∀ (op : Byte) (payload : List Byte), (Event.pwrTuple op payload).busBytes s.cfg =
          (.command, op) :: payload.map fun v => (if s.cfg.pwrPayloadIsData then .data else .command, v)) ∧
        ∀ off, t.dispAt off = Config.dispFree (s.epoch + 1) off) ∧
      (¬legal → exec (.init w h) s = .next (s.endCommand .errGeometry 0 0 0 0))

/-- SET_TEXT_BOUNDS and SET_DISPLAY_WINDOW store their arguments clamped to the screen (R123, R124). -/
def Obligations.WindowCommands : Prop :=
  ∀ (s : State) (a b : Word), s.Ready → s.cfg.fits →
    (∃ lo hi : Word, exec (.setTextBounds a b) s = .next ({ s with minTextX := lo, maxTextX := hi }.endCommand .ok lo hi 0 0) ∧
      s16 lo = clamp (s16 a) 0 (s.width - 1) ∧ s16 hi = clamp (s16 b) 0 s.width) ∧
      ∃ lo hi : Word,
        exec (.setDisplayWindow a b) s = .next ({ s with minDispY := lo, maxDispY := hi }.endCommand .ok lo hi 0 0) ∧
        s16 lo = clamp (s16 a) 0 (s.height - 1) ∧ s16 hi = clamp (s16 b) 0 s.height

/-- CLEAR (R125): zero storage, an empty shadow cache, the cursor at the origin, nothing else. FILL (R126): every
framebuffer byte is the colour's two nibbles, nothing else changes. That exactly the `H * BPR` bytes of the current
geometry are listed then is the model's choice (notes/assumptions/18.md). -/
def Obligations.ClearAndFill : Prop :=
  ∀ s : State, s.inited = true →
    (∃ t : State, exec .clear s = .next (t.endCommand .ok 0 0 0 0) ∧
      t = { s with fb := t.fb, shadow := List.replicate s.height { col := 0, byte := 0 }, curX := 0, curY := 0 } ∧
      (s.cfg.hasFb = true → Memory.addresses t.fb = List.range (s.height * s.bpr)) ∧
      (s.cfg.hasFb = true → ∀ y b, y < s.height → b < s.bpr → t.fbByte y b = 0) ∧
      (s.cfg.hasFb = false → t.fb = s.fb) ∧
      ∀ y b, y < s.height → t.shadowHi y b = 0 ∧ t.shadowLo y b = 0) ∧
      (s.cfg.hasFb = true → ∀ color : Word,
        ∃ t : State, exec (.fill color) s = .next (t.endCommand .ok (BitVec.ofNat 16 (17 * (color.toNat % 16))) 0 0 0) ∧
          t = s.withFbOf t ∧ Memory.addresses t.fb = List.range (s.height * s.bpr) ∧
          (∀ y b, y < s.height → b < s.bpr → (t.fbByte y b).toNat = 17 * (color.toNat % 16)) ∧
          (s.width % 2 = 0 → ∀ x y, x < s.width → y < s.height →
            t.fbPixel x y = BitVec.ofNat 4 (color.toNat % 16))) ∧
      (s.cfg.hasFb = false → ∀ color : Word, exec (.fill color) s = .next (s.endCommand .errUnsupported 0 0 0 0))

/-- The flush rectangle (R127): start rounded down and width rounded up to even, then clipped to the screen; with
`FLUSH_GROWS` it contains every requested column that is on the screen. -/
def Obligations.FlushRectangle : Prop :=
  ∀ (s : State) (x y : Int) (w h : Nat), s.width % 2 = 0 →
    let r := s.flushRect x y w h
    let g : Int := if s.cfg.flushGrows = true ∧ x % 2 = 1 then 1 else 0
    r.xa = max (2 * (x / 2)) 0 ∧ r.xb = min (2 * (x / 2) + 2 * ((w + g + 1) / 2)) s.width ∧
      r.ya = max y 0 ∧ r.yb = min (y + h) s.height ∧ r.xa % 2 = 0 ∧ r.xb % 2 = 0 ∧
      (r.isEmpty = true ↔ r.xb ≤ r.xa ∨ r.yb ≤ r.ya) ∧
      (s.cfg.flushGrows = true → ∀ c : Int, x ≤ c → c < x + w → 0 ≤ c → c < s.width → r.xa ≤ c ∧ c < r.xb)

/-- FLUSH_WINDOW (R128): the display shows the framebuffer in the flush rectangle and what it showed elsewhere; only the
display side changes; one transfer a row; an empty rectangle is a no-op. -/
def Obligations.FlushWindowCommand : Prop :=
  ∀ (s : State) (x y w h : Word), s.Ready →
    let r := s.flushRect (s16 x) (s16 y) w.toNat h.toNat
    let b0 := (r.xa / 2).toNat
    let nb := ((r.xb - r.xa) / 2).toNat
    (s.cfg.hasFb = false → exec (.flushWindow x y w h) s = .next (s.endCommand .errUnsupported 0 0 0 0)) ∧
      (s.cfg.hasFb = true → r.isEmpty = true → exec (.flushWindow x y w h) s = .next (s.endCommand .ok 0 0 0 0)) ∧
      (s.cfg.hasFb = true → r.isEmpty = false →
        ∃ t : State, exec (.flushWindow x y w h) s =
            .next (t.endCommand .ok (reg16 r.xa) (reg16 r.ya) (reg16 (r.xb - r.xa)) (reg16 (r.yb - r.ya))) ∧
          t = s.withDispOf t ∧ t.xferBusy = false ∧
          (∀ y b : Nat, r.ya ≤ y → (y : Int) < r.yb → r.xa ≤ 2 * (b : Int) → 2 * (b : Int) < r.xb →
            t.dispByte y b = s.fbByte y b) ∧
          (t.trace = s.trace ++ (List.range (r.yb - r.ya).toNat).flatMap fun i =>
            Event.busCmd (addrCmds s.cfg (r.ya.toNat + i) b0) ::
              if s.cfg.hasDma then
                [.dmaStart s.cfg.dmaDest (.fb (s.offset (r.ya.toNat + i) b0)) nb s.cfg.dmaTrig, .dmaDone]
              else [.busData ((List.range nb).map fun j => s.fbByte (r.ya.toNat + i) (b0 + j))]) ∧
          ∀ off : Nat, (∀ y b : Nat, r.ya ≤ y → (y : Int) < r.yb → r.xa ≤ 2 * (b : Int) → 2 * (b : Int) < r.xb →
            off ≠ s.offset y b) → t.dispAt off = s.dispAt off)

/-- SET_CTRL (R132) and SET_CURSOR (R133): one register each, and the five policy flags are the bits of `CTRL` (R27). -/
def Obligations.CtrlAndCursor : Prop :=
  ∀ s : State, s.inited = true →
    (∀ ctrl : Word, ctrl.toNat < 32 →
      ∃ t : State, exec (.setCtrl ctrl) s = .next (t.endCommand .ok ctrl 0 0 0) ∧ t = { s with ctrl := ctrl } ∧
        (t.wrap = true ↔ ctrl.toNat % 2 = 1) ∧ (t.lf = true ↔ ctrl.toNat / 2 % 2 = 1) ∧
        (t.cr = true ↔ ctrl.toNat / 4 % 2 = 1) ∧ (t.partialX = true ↔ ctrl.toNat / 8 % 2 = 1) ∧
        (t.partialY = true ↔ ctrl.toNat / 16 % 2 = 1)) ∧
      (∀ ctrl : Word, 32 ≤ ctrl.toNat → exec (.setCtrl ctrl) s = .next (s.endCommand .errOperand 0 0 0 0)) ∧
      ∀ x y : Word, exec (.setCursor x y) s = .next ({ s with curX := x, curY := y }.endCommand .ok x y 0 0)

/-! ### Clipping, pixels, lines -/

/-- Clipping. `MapCol` (R151): a pixel lands where it is aimed, or one screen width beside it with `WRAP = 1`, and only left
of the margin and on the screen. `RowVisible` (R154); a line in a row that is not visible writes nothing (R157). -/
def Obligations.Clipping : Prop :=
  ∀ s : State,
    (∀ (c : Int) (d : Nat), s.mapCol c = some d ↔
      d < s.width ∧ (d : Int) < s16 s.maxTextX ∧
        (c = d ∨ (s.wrap = true ∧ (c = d - s.width ∨ c = d + s.width)))) ∧
      ∀ y : Int, (s.rowVisible y = true ↔ s16 s.minDispY ≤ y ∧ y < s16 s.maxDispY) ∧
        (s.windowOk → s.rowVisible y = true → 0 ≤ y ∧ y < s.height) ∧
        (s.rowVisible y = false → ∀ (m : Mode) (x : Int) (pix : List Nibble), hLine m x y pix s = (s, 0))

/-- The packing helpers and their laws (R62, R63): a pixel write changes that pixel and no other. -/
def Obligations.PixelHelpers : Prop :=
  (∀ (b : Byte) (p q : Nibble), pack p q = p.setWidth 8 <<< 4 ||| q.setWidth 8 ∧ pack (hiNib b) (loNib b) = b ∧
    hiNib (pack p q) = p ∧ loNib (pack p q) = q ∧ hiNib b = b.extractLsb' 4 4 ∧ loNib b = b.extractLsb' 0 4 ∧
    mergeHi b p = pack p (loNib b) ∧ mergeLo b q = pack (hiNib b) q) ∧
    ∀ (s : State) (x y : Nat) (p : Nibble), s.width % 2 = 0 → x < s.width →
      s.setPix x y p = s.withFbOf (s.setPix x y p) ∧
      (s.fbPixel x y = if x % 2 = 0 then hiNib (s.fbByte y (x / 2)) else loNib (s.fbByte y (x / 2))) ∧
      (s.setPix x y p).fbPixel x y = p ∧
      (∀ x' y', x' < s.width → ¬(x' = x ∧ y' = y) → (s.setPix x y p).fbPixel x' y' = s.fbPixel x' y') ∧
      ∀ off, off ≠ s.offset y (x / 2) → (s.setPix x y p).fbAt off = s.fbAt off

/-- WRITE_HLINE in buffered mode (R150, R152): the last source pixel aimed at a column wins, every other pixel and byte of
the framebuffer keeps its value, and nothing but the framebuffer changes: `LINE` holds nothing before and after
(notes/assumptions/13.md). -/
def Obligations.WriteHlineBuffered : Prop :=
  ∀ (s : State) (x y n : Word) (payload : List Byte), s.Ready → s.cfg.hasFb = true → n.toNat ≤ s.cfg.lineCap →
    payload.length = (n.toNat + 1) / 2 →
    (s.rowVisible (s16 y) = false → exec (.writeHline .buffered x y n payload) s = .next (s.endCommand .ok 0 0 0 0)) ∧
      (s.rowVisible (s16 y) = true →
        ∃ t : State, exec (.writeHline .buffered x y n payload) s = .next (t.endCommand .ok
            (BitVec.ofNat 16 ((List.range n.toNat).countP fun i : Nat => (s.mapCol (s16 x + i)).isSome)) 0 0 0) ∧
          t = s.withFbOf t ∧
          (∀ i d : Nat, i < n.toNat → s.mapCol (s16 x + i) = some d →
            (∀ j : Nat, i < j → j < n.toNat → s.mapCol (s16 x + j) ≠ some d) →
            t.fbPixel d (s16 y).toNat = nibbleAt (payload.getD (i / 2) 0) i) ∧
          (∀ d y' : Nat, d < s.width →
            ((y' : Int) ≠ s16 y ∨ ∀ i : Nat, i < n.toNat → s.mapCol (s16 x + i) ≠ some d) →
            t.fbPixel d y' = s.fbPixel d y') ∧
          ∀ off : Nat, (∀ i d : Nat, i < n.toNat → s.mapCol (s16 x + i) = some d →
            off ≠ s.offset (s16 y).toNat (d / 2)) → t.fbAt off = s.fbAt off)

/-- A buffered line leaves what the same pixels written one by one leave: `n` packets `DRAW_PIXEL` in ascending order
(R106, R152, property S1). The premise keeps every column a 16-bit operand. -/
def Obligations.LineEqualsSinglePixels : Prop :=
  ∀ (s : State) (x y n : Word) (payload : List Byte), s.Ready → s.cfg.hasFb = true → n.toNat ≤ s.cfg.lineCap →
    payload.length = (n.toNat + 1) / 2 → s16 x + n.toNat ≤ 32768 →
    ∃ t u : State, exec (.writeHline .buffered x y n payload) s = .next t ∧
      execAll ((List.range n.toNat).map fun i : Nat =>
        Instr.writeHline .buffered (reg16 (s16 x + i)) y 1 [pack (nibbleAt (payload.getD (i / 2) 0) i) 0]) s = some u ∧
      u.endCommand .ok 0 0 0 0 = t.endCommand .ok 0 0 0 0

/-- The byte-building form of the buffered line (R153), for a run of pixels that lands on consecutive columns from `d0`;
`src j` is the packed source byte of pixels `2j` and `2j + 1`. -/
def Obligations.ByteBuildingForm : Prop :=
  ∀ (s : State) (y d0 : Nat) (pix : List Nibble), s.geometryOk → d0 + pix.length ≤ s.width →
    ((d0 + pix.length : Nat) : Int) ≤ s16 s.maxTextX →
    let t := (hLineBuf y pix d0 s).1
    let src := fun j : Nat => pack (pix.getD (2 * j) 0) (pix.getD (2 * j + 1) 0)
    let m := pix.length
    let b0 := d0 / 2
    (d0 % 2 = 1 → 0 < m →
      t.fbByte y b0 = mergeLo (s.fbByte y b0) (hiNib (src 0)) ∧
      (∀ j, 1 ≤ j → 2 * j < m → t.fbByte y (b0 + j) = pack (loNib (src (j - 1))) (hiNib (src j))) ∧
      (m % 2 = 0 → t.fbByte y (b0 + m / 2) = mergeHi (s.fbByte y (b0 + m / 2)) (loNib (src (m / 2 - 1))))) ∧
      (d0 % 2 = 0 →
        (∀ j, j < m / 2 → t.fbByte y (b0 + j) = src j) ∧
        (m % 2 = 1 →
          t.fbByte y (b0 + (m - 1) / 2) = mergeHi (s.fbByte y (b0 + (m - 1) / 2)) (hiNib (src ((m - 1) / 2)))))

/-- The runs of a line (R155): without wrap at most one; with wrap the part wrapped to the right edge, the part on the
screen, and the part wrapped to column 0, in this order, each where it has a pixel. -/
def Obligations.RunsOfLine : Prop :=
  ∀ (s : State) (pix : List Nibble) (x : Int), 0 < s.width →
    s.runs pix x =
      (if s.wrap then [s.segment pix x s.width, s.segment pix x 0, s.segment pix x (-s.width)]
        else [s.segment pix x 0]).filter fun r => !r.pix.isEmpty

/-- One direct run (R156): the addressing command, the bytes it sends with the half bytes completed from the shadow cache
(R31), the shadow entry it leaves; the rest of the screen and of the cache stay. -/
def Obligations.DirectRun : Prop :=
  ∀ (s : State) (y : Nat) (r : Run), s.Ready → y < s.height → r.pix ≠ [] → r.col + r.pix.length ≤ s.width →
    let t := streamRun y s r
    let first := r.col / 2
    let last := (r.col + r.pix.length - 1) / 2
    t = s.withDirectOf t ∧ t.xferBusy = false ∧
      t.trace = s.trace ++ .busCmd (addrCmds s.cfg y first) ::
        (List.range (last + 1 - first)).map (fun k => Event.busData [s.sentByte y r (first + k)]) ∧
      (∀ b, first ≤ b → b ≤ last → t.dispByte y b = s.sentByte y r b) ∧
      (∀ off, (∀ b, first ≤ b → b ≤ last → off ≠ s.offset y b) → t.dispAt off = s.dispAt off) ∧
      t.shadow = s.shadow.set y { col := BitVec.ofNat 16 last, byte := s.sentByte y r last }

/-- WRITE_HLINE in direct mode (R150, R156): the runs of the line in order; the framebuffer and every other row of the
screen and of the cache stay. A line of one run sends exactly that run's bytes. `LINE` holds nothing before and after
(notes/assumptions/13.md). -/
def Obligations.WriteHlineDirect : Prop :=
  ∀ (s : State) (x y n : Word) (payload : List Byte), s.Ready → n.toNat ≤ s.cfg.lineCap →
    payload.length = (n.toNat + 1) / 2 →
    let rs := s.runs (payloadPixels n.toNat payload) (s16 x)
    (s.rowVisible (s16 y) = false → exec (.writeHline .direct x y n payload) s = .next (s.endCommand .ok 0 0 0 0)) ∧
      (s.rowVisible (s16 y) = true →
        ∃ t : State, exec (.writeHline .direct x y n payload) s = .next (t.endCommand .ok
            (BitVec.ofNat 16 ((List.range n.toNat).countP fun i : Nat => (s.mapCol (s16 x + i)).isSome)) 0 0 0) ∧
          t = rs.foldl (streamRun (s16 y).toNat) s ∧ t = s.withDirectOf t ∧ t.xferBusy = false ∧
          (∀ y' : Nat, (y' : Int) ≠ s16 y → t.shadow[y']? = s.shadow[y']?) ∧
          (∀ off : Nat, (∀ r ∈ rs, ∀ b ∈ r.byteCols, off ≠ s.offset (s16 y).toNat b) → t.dispAt off = s.dispAt off) ∧
          ∀ r, rs = [r] → ∀ b ∈ r.byteCols, t.dispByte (s16 y).toNat b = s.sentByte (s16 y).toNat r b)

/-! ### Rectangles and images -/

/-- DRAW_RECT in buffered mode (R160): the pixels of the rectangle that land show the colour, every other pixel and byte of
the framebuffer stays, nothing else changes, and the 32-bit count is returned. -/
def Obligations.DrawRectBuffered : Prop :=
  ∀ (s : State) (x y w h color : Word), s.Ready → s.cfg.hasFb = true →
    let inside := fun (d : Nat) (y' : Int) => s.rowVisible y' = true ∧ s16 y ≤ y' ∧ y' < s16 y + h.toNat ∧
      ∃ i : Nat, i < w.toNat ∧ s.mapCol (s16 x + i) = some d
    let cnt := ((List.range h.toNat).countP fun r : Nat => s.rowVisible (s16 y + r)) *
      ((List.range w.toNat).countP fun i : Nat => (s.mapCol (s16 x + i)).isSome)
    ∃ t : State, exec (.drawRect .buffered x y w h color) s =
        .next (t.endCommand .ok (BitVec.ofNat 16 cnt) (BitVec.ofNat 16 (cnt / 65536)) 0 0) ∧
      t = s.withFbOf t ∧
      (∀ d y' : Nat, inside d y' → t.fbPixel d y' = BitVec.ofNat 4 (color.toNat % 16)) ∧
      (∀ d y' : Nat, d < s.width → ¬inside d y' → t.fbPixel d y' = s.fbPixel d y') ∧
      ∀ off : Nat, (∀ d y' : Nat, inside d y' → off ≠ s.offset y' (d / 2)) → t.fbAt off = s.fbAt off

/-- DRAW_RECT in direct mode (R160, R156): in each visible row of the rectangle the runs of its pixels are streamed in
order, with wrap or without, which gives the display and the rows' shadow entries (`DirectRun` says what one run leaves);
the display side alone changes, only in bytes that hold a pixel of the rectangle, and only those rows' shadow entries;
without wrap every pixel of the rectangle that lands shows the colour. -/
def Obligations.DrawRectDirect : Prop :=
  ∀ (s : State) (x y w h color : Word), s.Ready →
    let inside := fun (d : Nat) (y' : Int) => s.rowVisible y' = true ∧ s16 y ≤ y' ∧ y' < s16 y + h.toNat ∧
      ∃ i : Nat, i < w.toNat ∧ s.mapCol (s16 x + i) = some d
    let cnt := ((List.range h.toNat).countP fun r : Nat => s.rowVisible (s16 y + r)) *
      ((List.range w.toNat).countP fun i : Nat => (s.mapCol (s16 x + i)).isSome)
    ∃ t : State, exec (.drawRect .direct x y w h color) s =
        .next (t.endCommand .ok (BitVec.ofNat 16 cnt) (BitVec.ofNat 16 (cnt / 65536)) 0 0) ∧
      t = directRows (s16 x) (s16 y) (fun _ => List.replicate w.toNat (BitVec.ofNat 4 (color.toNat % 16))) h.toNat s ∧
      t = s.withDirectOf t ∧ t.xferBusy = false ∧
      (s.wrap = false → ∀ d y' : Nat, inside d y' → t.dispPixel d y' = BitVec.ofNat 4 (color.toNat % 16)) ∧
      (∀ off : Nat, (∀ d y' : Nat, inside d y' → off ≠ s.offset y' (d / 2)) → t.dispAt off = s.dispAt off) ∧
      ∀ y' : Nat, (∀ d : Nat, ¬inside d y') → t.shadow[y']? = s.shadow[y']?

/-- `SelectStrategy` (R167) in the terms of the registers; buffered mode and empty images, of no columns or of no rows,
always take strategy 3 (R169). For an image of no rows R167's pseudocode, which does not test `bh`, gives 2 on aligned
operands; the model follows R169 (notes/assumptions/31.md). -/
def Obligations.StrategySelection : Prop :=
  ∀ (s : State) (x y : Int) (bw bh : Nat) (m : Mode),
    let full := m = .direct ∧ s.cfg.hasDma = true ∧ x = 0 ∧ y = 0 ∧ bw = s.geomW.toNat ∧ bh = s.geomH.toNat ∧
      s.minDispY.toInt = 0 ∧ s.maxDispY.toInt = s.geomH.toNat ∧ s.maxTextX.toInt = s.geomW.toNat
    let even := m = .direct ∧ s.cfg.hasDma = true ∧ 0 < bw ∧ 0 < bh ∧ bw % 2 = 0 ∧ x % 2 = 0 ∧ s.maxTextX.toInt % 2 = 0 ∧
      0 ≤ x ∧ (x + bw ≤ s.geomW.toNat ∨ s.ctrl.getLsbD 0 = false)
    ((s.selectStrategy x y bw bh m).number = 1 ↔ full) ∧
      ((s.selectStrategy x y bw bh m).number = 2 ↔ ¬full ∧ even) ∧
      ((s.selectStrategy x y bw bh m).number = 3 ↔ ¬full ∧ ¬even) ∧
      (m = .buffered → (s.selectStrategy x y bw bh m).number = 3) ∧
      (s.geometryOk → bw = 0 ∨ bh = 0 → (s.selectStrategy x y bw bh m).number = 3)

/-- DRAW_IMAGE (R165): a missing asset, a bitmap too wide, and the drawing of one that fits, which changes what a draw of
its mode may change and reports the strategy. In direct mode the generic strategy streams, in each visible row, the runs
of the row's pixels in order (R166), which gives the display and the shadow entries (`DirectRun`). That the scratch
memories are emptied at the command's end is the model's choice (notes/assumptions/13.md). -/
def Obligations.DrawImageCommand : Prop :=
  ∀ (s : State) (m : Mode) (x y fileId : Word), s.Ready → (m = .buffered → s.cfg.hasFb = true) →
    (s.assetAddr fileId s.cfg.typeBitmap = none →
      exec (.drawImage m x y fileId) s = .next (s.endCommand .errNotFound 0 0 0 0)) ∧
      ∀ a : Addr, s.assetAddr fileId s.cfg.typeBitmap = some a →
        let bw := s.assetField16 a.toNat
        let bh := s.assetField16 (a.toNat + 2)
        (s.cfg.lineCap < bw.toNat → exec (.drawImage m x y fileId) s = .next (s.endCommand .errTooWide bw bh 0 0)) ∧
          (bw.toNat ≤ s.cfg.lineCap →
            let st := s.selectStrategy (s16 x) (s16 y) bw.toNat bh.toNat m
            ∃ t : State, exec (.drawImage m x y fileId) s = .next (t.endCommand .ok bw bh st.number 0) ∧
              t = (blitBy st (s16 x) (s16 y) bw.toNat bh.toNat (a.toNat + 8) m s).dmaWait.clearScratch ∧
              (m = .direct → st = .generic →
                t = directRows (s16 x) (s16 y)
                  (fun r => (List.range bw.toNat).map fun i => s.pixelStream (a.toNat + 8) (r * bw.toNat + i))
                  bh.toNat s) ∧
              t = s.withDrawOf m t ∧ t.xferBusy = false)

/-- The pixels of a buffered image (R166, R70): pixel `(r, i)` of the stream lands in row `y + r` where the line primitive
puts it; every other pixel and byte of the framebuffer stays. The scratch memories hold nothing before and after
(notes/assumptions/13.md). -/
def Obligations.DrawImageBuffered : Prop :=
  ∀ (s : State) (x y fileId : Word) (a : Addr), s.Ready → s.cfg.hasFb = true →
    s.assetAddr fileId s.cfg.typeBitmap = some a →
    let bw := (s.assetField16 a.toNat).toNat
    let bh := (s.assetField16 (a.toNat + 2)).toNat
    bw ≤ s.cfg.lineCap →
    let lands := fun (r i d : Nat) (y' : Int) => r < bh ∧ i < bw ∧ y' = s16 y + r ∧ s.rowVisible y' = true ∧
      s.mapCol (s16 x + i) = some d
    ∃ t : State, exec (.drawImage .buffered x y fileId) s =
        .next (t.endCommand .ok (BitVec.ofNat 16 bw) (BitVec.ofNat 16 bh) 3 0) ∧
      t = s.withFbOf t ∧
      (∀ r i d y' : Nat, lands r i d y' → (∀ j : Nat, i < j → j < bw → s.mapCol (s16 x + j) ≠ some d) →
        t.fbPixel d y' = s.pixelStream (a.toNat + 8) (r * bw + i)) ∧
      (∀ d y' : Nat, d < s.width → (∀ r i : Nat, ¬lands r i d y') → t.fbPixel d y' = s.fbPixel d y') ∧
      ∀ off : Nat, (∀ r i d y' : Nat, lands r i d y' → off ≠ s.offset y' (d / 2)) → t.fbAt off = s.fbAt off

/-- Strategy equivalence (R168, R236, R237): a blit leaves exactly what the generic strategy leaves, but for the events,
and with them for where an endless poll would be, and for the scratch memories, which the command's end empties
(notes/assumptions/13.md). -/
def Obligations.StrategyEquivalence : Prop :=
  ∀ (s : State) (x y : Int) (bw bh p : Nat) (m : Mode), s.Ready → 0 < s.cfg.fsChunk →
    let t := (blitStream x y bw bh p m s).1.clearScratch
    let g := (blitGeneric x y bw bh p m s).dmaWait.clearScratch
    t = { g with trace := t.trace, stuck := t.stuck } ∧ t.fb = g.fb ∧ t.disp = g.disp ∧ t.shadow = g.shadow

/-- DRAW_IMAGE on the full-screen path (R230, R231): the whole screen, the cache, and the bus traffic, one addressing
command and then one bulk transfer a chunk from the two staging buffers in turn. The scratch memories hold nothing before
and after (notes/assumptions/13.md). -/
def Obligations.FullScreenImage : Prop :=
  ∀ (s : State) (x y fileId : Word) (a : Addr), s.Ready → 0 < s.cfg.fsChunk →
    s.assetAddr fileId s.cfg.typeBitmap = some a →
    let bw := (s.assetField16 a.toNat).toNat
    let bh := (s.assetField16 (a.toNat + 2)).toNat
    bw ≤ s.cfg.lineCap → s.selectStrategy (s16 x) (s16 y) bw bh .direct = .fullScreen →
    let p := a.toNat + 8
    let total := s.height * s.bpr
    let lastByte := fun yy : Nat =>
      pack (s.pixelStream p (yy * s.width + s.width - 2)) (s.pixelStream p (yy * s.width + s.width - 1))
    ∃ t : State, exec (.drawImage .direct x y fileId) s =
        .next (t.endCommand .ok (BitVec.ofNat 16 bw) (BitVec.ofNat 16 bh) 1 0) ∧
      t = s.withDirectOf t ∧ t.xferBusy = false ∧
      (∀ yy b : Nat, yy < s.height → b < s.bpr → t.dispByte yy b =
        pack (s.pixelStream p (yy * s.width + 2 * b)) (s.pixelStream p (yy * s.width + 2 * b + 1))) ∧
      (∀ off : Nat, total ≤ off → t.dispAt off = s.dispAt off) ∧
      t.shadow = (List.range s.height).map (fun yy => { col := BitVec.ofNat 16 (s.bpr - 1), byte := lastByte yy }) ∧
      t.trace = s.trace ++ .busCmd (addrCmds s.cfg 0 0) ::
        (List.range ((total + s.cfg.fsChunk - 1) / s.cfg.fsChunk)).flatMap fun c =>
          [Event.dmaStart s.cfg.dmaDest (.stage (c % 2)) (min s.cfg.fsChunk (total - c * s.cfg.fsChunk)) s.cfg.dmaTrig,
            .dmaDone]

/-- DRAW_IMAGE on the aligned path (R233, R234): in each visible row the whole bytes left of the margin and the screen edge;
the rest of the screen and of the cache stay; the bus traffic is, for each visible row, one addressing command and one
bulk transfer, from the two staging buffers in turn. The scratch memories hold nothing before and after
(notes/assumptions/13.md). -/
def Obligations.AlignedImage : Prop :=
  ∀ (s : State) (x y fileId : Word) (a : Addr), s.Ready → s.assetAddr fileId s.cfg.typeBitmap = some a →
    let bw := (s.assetField16 a.toNat).toNat
    let bh := (s.assetField16 (a.toNat + 2)).toNat
    bw ≤ s.cfg.lineCap → s.selectStrategy (s16 x) (s16 y) bw bh .direct = .aligned →
    let p := a.toNat + 8
    let nb := ((min (min (s16 x + bw) (s16 s.maxTextX)) s.width - s16 x) / 2).toNat
    let b0 := (s16 x / 2).toNat
    let sent := fun (r j : Nat) => pack (s.pixelStream p (r * bw + 2 * j)) (s.pixelStream p (r * bw + (2 * j + 1)))
    ∃ t : State, exec (.drawImage .direct x y fileId) s =
        .next (t.endCommand .ok (BitVec.ofNat 16 bw) (BitVec.ofNat 16 bh) 2 0) ∧
      t = s.withDirectOf t ∧ t.xferBusy = false ∧
      (∀ r j y' : Nat, r < bh → (y' : Int) = s16 y + r → s.rowVisible y' = true → j < nb →
        t.dispByte y' (b0 + j) = sent r j) ∧
      (∀ off : Nat, (∀ r j y' : Nat, r < bh → (y' : Int) = s16 y + r → s.rowVisible y' = true → j < nb →
        off ≠ s.offset y' (b0 + j)) → t.dispAt off = s.dispAt off) ∧
      (t.trace = s.trace ++
        ((List.range bh).filter fun r : Nat => s.rowVisible (s16 y + r) && decide (0 < nb)).zipIdx.flatMap fun q =>
          [.busCmd (addrCmds s.cfg (s16 y + q.1).toNat b0),
            .dmaStart s.cfg.dmaDest (.stage (q.2 % 2)) nb s.cfg.dmaTrig, .dmaDone]) ∧
      (∀ r y' : Nat, r < bh → (y' : Int) = s16 y + r → s.rowVisible y' = true → 0 < nb →
        t.shadow[y']? = some { col := BitVec.ofNat 16 (b0 + nb - 1), byte := sent r (nb - 1) }) ∧
      ∀ y' : Nat, ((∀ r : Nat, r < bh → (y' : Int) ≠ s16 y + r) ∨ s.rowVisible y' = false ∨ nb = 0) →
        t.shadow[y']? = s.shadow[y']?

/-! ### Fonts and glyphs -/

/-- SELECT_FONT (R181, R182, R64): the header and the interval table of the asset, and the fallback flag. That a field
with `ASSET_LE` false has its more significant byte first is read from R64 by inference (notes/assumptions/25.md). -/
def Obligations.SelectFontCommand : Prop :=
  ∀ (s : State) (fontId : Word), s.inited = true →
    (s.assetAddr fontId s.cfg.typeFont = none →
      exec (.selectFont fontId) s = .next (s.endCommand .errNotFound 0 0 0 0)) ∧
      ∀ a : Addr, s.assetAddr fontId s.cfg.typeFont = some a →
        let byte := fun k : Nat => (s.assetByte (a.toNat + k)).toNat
        let field := fun k : Nat => if s.cfg.assetLe then byte k + 256 * byte (k + 1) else 256 * byte k + byte (k + 1)
        ∃ t : State, exec (.selectFont fontId) s = .next (t.endCommand .ok (BitVec.ofNat 16 (byte 0)) t.fontTotal t.fontDesc
            (if t.qmark then 1 else 0)) ∧
          t = { s with
            fontSel := true, fontBase := a, qmark := t.qmark, fontGh := t.fontGh, fontTotal := t.fontTotal
            fontDesc := t.fontDesc, iv := t.iv } ∧
          t.fontGh.toNat = byte 0 ∧ t.fontTotal.toNat = field 1 ∧ t.fontDesc.toNat = field 3 ∧
          t.iv = (List.range s.cfg.ni).map (fun i =>
            { first := BitVec.ofNat 16 (field (5 + 4 * i)), last := BitVec.ofNat 16 (field (7 + 4 * i)) }) ∧
          (t.qmark = true ↔ ∃ e ∈ t.iv, e.contains 0x003F)

/-- The interval scan (R184): the first interval that contains the codepoint, offset by the lengths of those before it. -/
def Obligations.IntervalScan : Prop :=
  ∀ (s : State) (cp : Word) (d : Nat),
    s.intervalIndex cp = some d ↔
      ∃ i e, s.iv[i]? = some e ∧ e.contains cp ∧ (∀ j e', j < i → s.iv[j]? = some e' → ¬e'.contains cp) ∧
        d = ((s.iv.take i).map fun e => e.length).sum + (cp.toNat - e.first.toNat)

/-- Glyph resolution (R185, R187): a described glyph, path A (no interval) and path B (a sentinel entry), which both give
what looking up `'?'` gives where the fallback is supported and nothing where it is not. -/
def Obligations.GlyphResolution : Prop :=
  ∀ (s : State) (cp : Word), s.Sound →
    (∀ d, s.fontDesc.toNat ≤ d → s.indexEntry d = 0xFFFF) ∧
      (∀ d, d < s.fontDesc.toNat → s.indexEntry d = s.assetField16 (s.fontBase.toNat + (5 + 4 * s.cfg.ni) + 2 * d)) ∧
      (∀ d, s.intervalIndex cp = some d → s.indexEntry d ≠ 0xFFFF →
        s.resolveGlyph cp =
          if (s.indexEntry d).toNat < s.fontTotal.toNat then some (d, s.indexEntry d) else none) ∧
      (s.intervalIndex cp = none → s.resolveGlyph cp = if s.qmark then s.resolveGlyph 0x003F else none) ∧
      (∀ d, s.intervalIndex cp = some d → s.indexEntry d = 0xFFFF →
        s.resolveGlyph cp = if s.qmark then s.resolveGlyph 0x003F else none) ∧
      ∀ d, s.intervalIndex 0x003F = some d → s.indexEntry d = 0xFFFF → s.resolveGlyph 0x003F = none

/-- GLYPH_LOOKUP (R186) changes nothing but the results. -/
def Obligations.GlyphLookupCommand : Prop :=
  ∀ (s : State) (cp : Word), s.inited = true → s.fontSel = true →
    (s.resolveGlyph cp = none → exec (.glyphLookup cp) s = .next (s.endCommand .notRenderable 0 0 0 0)) ∧
      ∀ d g, s.resolveGlyph cp = some (d, g) →
        exec (.glyphLookup cp) s = .next (s.endCommand .ok (BitVec.ofNat 16 d) g
          (if s.intervalIndex cp = some d then 0 else 1) 0)

/-- MEASURE (R188, R189): advance and height from the glyph record, with its space glyph case; nothing but the results
changes. -/
def Obligations.MeasureCommand : Prop :=
  ∀ (s : State) (cp : Word), s.inited = true → s.fontSel = true →
    (s.resolveGlyph cp = none → exec (.measure cp) s = .next (s.endCommand .notRenderable 0 0 0 0)) ∧
      ∀ d g, s.resolveGlyph cp = some (d, g) →
        let a := s.fontBase.toNat + (5 + 4 * s.cfg.ni + 2 * s.fontDesc.toNat) + 8 * g.toNat
        let off := fun b : Byte => if s.cfg.glyphOffsetSigned then b.toInt else (b.toNat : Int)
        let space := s.assetField32 (a + 4) = 0xFFFFFFFF
        exec (.measure cp) s = .next (s.endCommand .ok
          (if space then BitVec.ofNat 16 (s.assetByte a).toNat
            else BitVec.ofInt 16 ((s.assetByte a).toNat + off (s.assetByte (a + 2)) + 1))
          (if space then 0 else BitVec.ofInt 16 (off (s.assetByte (a + 3)) + (s.assetByte (a + 1)).toNat)) 0 0)

/-- DRAW_GLYPH (R191, R192): no glyph, a space, a glyph too wide, and the blit of one that fits, at the shifted origin; the
cursor and everything but the draw's own memory stay, and that too for a glyph of no columns or no rows. In buffered mode
pixel `(k, i)` of the glyph lands in row `y + y_offset + k` where the line primitive puts it, and every other pixel and
byte of the framebuffer stays (R166). In direct mode the generic strategy streams, in each visible row, the runs of the
row's pixels in order (R166). That the scratch memories are emptied at the end of a drawing is the model's choice
(notes/assumptions/13.md). -/
def Obligations.DrawGlyphCommand : Prop :=
  ∀ (s : State) (m : Mode) (x y cp : Word), s.Ready → (m = .buffered → s.cfg.hasFb = true) → s.fontSel = true →
    (s.resolveGlyph cp = none → exec (.drawGlyph m x y cp) s = .next (s.endCommand .notRenderable 0 0 0 0)) ∧
      ∀ d g, s.resolveGlyph cp = some (d, g) →
        let r := s.glyphRec g
        let adv := BitVec.ofInt 16 (r.width + r.xo + 1)
        let data := s.fontBase.toNat + (5 + 4 * s.cfg.ni + 2 * s.fontDesc.toNat + 8 * s.fontTotal.toNat) + r.boff.toNat
        (r.boff = 0xFFFFFFFF → exec (.drawGlyph m x y cp) s = .next (s.endCommand .ok adv 0 0 0)) ∧
          (r.boff ≠ 0xFFFFFFFF → s.cfg.lineCap < r.width →
            exec (.drawGlyph m x y cp) s = .next (s.endCommand .errTooWide 0 0 0 0)) ∧
          (r.boff ≠ 0xFFFFFFFF → r.width ≤ s.cfg.lineCap →
            ∃ t : State, exec (.drawGlyph m x y cp) s = .next (t.endCommand .ok adv 0 0 0) ∧
              t = (blitStream (s16 x + r.xo) (s16 y + r.yo) r.width r.height data m s).1.clearScratch ∧
              (r.width = 0 ∨ r.height = 0 → t = s) ∧
              (m = .buffered →
                let lands := fun (k i d : Nat) (y' : Int) => k < r.height ∧ i < r.width ∧ y' = s16 y + r.yo + k ∧
                  s.rowVisible y' = true ∧ s.mapCol (s16 x + r.xo + i) = some d
                (∀ k i d y' : Nat, lands k i d y' →
                  (∀ j : Nat, i < j → j < r.width → s.mapCol (s16 x + r.xo + j) ≠ some d) →
                  t.fbPixel d y' = s.pixelStream data (k * r.width + i)) ∧
                  (∀ d y' : Nat, d < s.width → (∀ k i : Nat, ¬lands k i d y') → t.fbPixel d y' = s.fbPixel d y') ∧
                  ∀ off : Nat, (∀ k i d y' : Nat, lands k i d y' → off ≠ s.offset y' (d / 2)) →
                    t.fbAt off = s.fbAt off) ∧
              (m = .direct → s.selectStrategy (s16 x + r.xo) (s16 y + r.yo) r.width r.height m = .generic →
                t = directRows (s16 x + r.xo) (s16 y + r.yo)
                  (fun k => (List.range r.width).map fun i => s.pixelStream data (k * r.width + i)) r.height s) ∧
              t = s.withDrawOf m t ∧ t.xferBusy = false)

/-- PUT_CHAR (R193, R196, R197), case by case: line feed, carriage return, an unrenderable character, the two stops, and
the glyph drawn at the cursor or, after a wrap, at the start of the next line. That the scratch memories are emptied at the
command's end is the model's choice (notes/assumptions/13.md). -/
def Obligations.PutCharCommand : Prop :=
  ∀ (s : State) (m : Mode) (cp : Word), s.Ready → (m = .buffered → s.cfg.hasFb = true) → s.fontSel = true →
    let down := reg16 (s16 s.curY + s.fontGh.toNat)
    let nextLine := { s with curX := 0, curY := down }
    let isLf := cp = 0x000A ∧ s.lf = true
    let isCr := cp = 0x000D ∧ s.cr = true
    (isLf → exec (.putChar m cp) s = .next (nextLine.endCommand .ok 1 0 down 0)) ∧
      (isCr → exec (.putChar m cp) s = .next ({ s with curX := 0 }.endCommand .ok 1 0 s.curY 0)) ∧
      (¬isLf → ¬isCr → s.measure cp = none →
        exec (.putChar m cp) s = .next (s.endCommand .ok 1 s.curX s.curY 0)) ∧
      ∀ mt : Metrics, ¬isLf → ¬isCr → s.measure cp = some mt →
        let wide := s16 s.maxTextX < s16 s.curX + mt.adv
        let room := s.partialX = true ∧ s16 s.curX < s16 s.maxTextX
        let u := if wide ∧ s.lf = true then nextLine else s
        (wide → s.lf = false → ¬room → exec (.putChar m cp) s = .next (s.endCommand .errLayoutStop 0 s.curX s.curY 0)) ∧
          ((wide → s.lf = true ∨ room) → s16 s.maxDispY < s16 u.curY + mt.rh → s.partialY = false →
            exec (.putChar m cp) s = .next (u.endCommand .errLayoutStop 0 u.curX u.curY 0)) ∧
          ((wide → s.lf = true ∨ room) → (s16 u.curY + mt.rh ≤ s16 s.maxDispY ∨ s.partialY = true) →
            let dr := drawGlyphAt m (s16 u.curX) (s16 u.curY) cp u
            let x' := reg16 (s16 u.curX + dr.adv)
            ∃ t : State, exec (.putChar m cp) s = .next (t.endCommand .ok 1 x' u.curY 0) ∧
              t = { dr.state.clearScratch with curX := x' } ∧ t = { u.withDrawOf m t with curX := x' } ∧ t.xferBusy = false)

/-- PUT_STRING (R197, R198): one layout step a character until the first that stops, and the count of those before it. At
its end the scratch memories are emptied (the model's choice, notes/assumptions/13.md). -/
def Obligations.PutStringCommand : Prop :=
  ∀ (s : State) (m : Mode) (n : Word) (chars : List Word), s.Ready → (m = .buffered → s.cfg.hasFb = true) →
    s.fontSel = true → chars.length = n.toNat →
    (s.cfg.strCap < n.toNat → exec (.putString m n chars) s = .next (s.endCommand .errOperand 0 0 0 0)) ∧
    (n.toNat ≤ s.cfg.strCap → ∃ (t : State) (cnt : Nat) (us : Nat → State),
      exec (.putString m n chars) s =
        .next (t.endCommand (if cnt = n.toNat then .ok else .errLayoutStop) (BitVec.ofNat 16 cnt) t.curX t.curY 0) ∧
      cnt ≤ n.toNat ∧ us 0 = s ∧
      (∀ (k : Nat) (cp : Word), k < cnt → chars[k]? = some cp → putCharCore m cp (us k) = (us (k + 1), .printed)) ∧
      (cnt = n.toNat → t = (us cnt).clearScratch) ∧
      (∀ cp : Word, cnt < n.toNat → chars[cnt]? = some cp →
        ∃ v : State, putCharCore m cp (us cnt) = (v, .stopped) ∧ t = v.clearScratch) ∧
      t = s.withLayoutOf m t ∧ t.xferBusy = false)

/-- PUT_STRING_XY (R199, R200): the start from the anchor and the measured width, never left of `MIN_TEXT_X`; the right
bound narrowed for RIGHT alone and restored; the string laid out as by PUT_STRING from there. That the scratch memories are
emptied at the command's end is the model's choice (notes/assumptions/13.md). -/
def Obligations.PutStringXyCommand : Prop :=
  ∀ (s : State) (m : Mode) (j : Justify) (x y n : Word) (chars : List Word), s.Ready →
    (m = .buffered → s.cfg.hasFb = true) → s.fontSel = true → chars.length = n.toNat →
    let tw : Int := (chars.map fun cp =>
      if (cp = 0x000A ∧ s.lf = true) ∨ (cp = 0x000D ∧ s.cr = true) then 0 else ((s.measure cp).map Metrics.adv).getD 0).sum
    let start : Int := match j with
      | .left => s16 x
      | .center => s16 x - tw / 2
      | .right => s16 x - tw
    (s.cfg.strCap < n.toNat → exec (.putStringXy m j x y n chars) s = .next (s.endCommand .errOperand 0 0 0 0)) ∧
    (n.toNat ≤ s.cfg.strCap → ∃ (t : State) (cnt : Nat) (us : Nat → State),
      exec (.putStringXy m j x y n chars) s = .next ({ t with maxTextX := s.maxTextX }.endCommand
        (if cnt = n.toNat then .ok else .errLayoutStop) (BitVec.ofNat 16 cnt) t.curX t.curY (BitVec.ofInt 16 tw)) ∧
      cnt ≤ n.toNat ∧
      us 0 = { s with
        curX := reg16 (max start (s16 s.minTextX)), curY := y
        maxTextX := if j = .right then reg16 (clamp (s16 x) 0 (s16 s.maxTextX)) else s.maxTextX } ∧
      (∀ (k : Nat) (cp : Word), k < cnt → chars[k]? = some cp → putCharCore m cp (us k) = (us (k + 1), .printed)) ∧
      (cnt = n.toNat → t = (us cnt).clearScratch) ∧
      (∀ cp : Word, cnt < n.toNat → chars[cnt]? = some cp →
        ∃ v : State, putCharCore m cp (us cnt) = (v, .stopped) ∧ t = v.clearScratch) ∧
      t = (us 0).withLayoutOf m t ∧ t.xferBusy = false)

/-- A string wider than the room, with line feed and partial drawing off, stops early: fewer characters are printed than
the string has (R193, R198, property S4 with the premises of 90_conflicts.md C9). -/
def Obligations.WideStringStops : Prop :=
  ∀ (s t : State) (m : Mode) (n : Word) (chars : List Word), s.Ready → (m = .buffered → s.cfg.hasFb = true) →
    s.fontSel = true → n.toNat ≤ s.cfg.strCap → chars.length = n.toNat → s.width ≤ 32256 →
    s.lf = false → s.cr = false → s.partialX = false →
    s16 s.minTextX ≤ s16 s.curX → s16 s.curX ≤ 32256 → s16 s.minTextX ≤ s16 s.maxTextX →
    (∀ cp ∈ chars, ∀ d g, s.resolveGlyph cp = some (d, g) →
      (s.glyphRec g).width ≤ s.cfg.lineCap ∧ 0 ≤ (s.glyphRec g).metrics.adv ∧
        (s.glyphRec g).metrics.adv ≤ (s.glyphRec g).advance) →
    s16 s.maxTextX - s16 s.minTextX < s.stringWidth chars →
    exec (.putString m n chars) s = .next t →
    t.code = .errLayoutStop ∧ t.res0.toNat < n.toNat

/-! ### Transitions -/

/-- LOAD_TRANSITION (R250): the tag, the tag it replaces, and nothing else. -/
def Obligations.LoadTransitionCommand : Prop :=
  ∀ (s : State) (kind : Word), s.inited = true →
    (kind.toNat ≤ 6 →
      ∃ t : State, exec (.loadTransition kind) s = .next (t.endCommand .ok kind s.trans.number 0 0) ∧
        t = { s with trans := t.trans } ∧ t.trans.number = kind) ∧
      (7 ≤ kind.toNat → exec (.loadTransition kind) s = .next (s.endCommand .errOperand 0 0 0 0))

/-- FLUSH_FULL (R252): whatever the pending transition, the screen ends showing exactly the framebuffer, the tag is
consumed, and nothing but the display side changes; the bus traffic is that of the transition's algorithm, transfer by
transfer (R253 to R258). That the divider bytes staged by a wipe are emptied at the command's end is the model's choice
(notes/assumptions/13.md). -/
def Obligations.FlushFullCommand : Prop :=
  ∀ s : State, s.Ready →
    (s.cfg.hasFb = false → exec .flushFull s = .next (s.endCommand .errUnsupported 0 0 0 0)) ∧
    (s.cfg.hasFb = true →
    ∃ t : State, exec .flushFull s = .next ({ t with trans := .none }.endCommand .ok s.trans.number 0 0 0) ∧
      t = (runTransition s.trans s).dmaWait.clearScratch ∧ t = s.withDispOf t ∧ t.xferBusy = false ∧
      t.trace = s.trace ++ s.transitionEvents s.trans ∧
      (∀ y b : Nat, y < s.height → b < s.bpr → t.dispByte y b = s.fbByte y b) ∧
      ∀ off : Nat, s.height * s.bpr ≤ off → t.dispAt off = s.dispAt off)

/-- Only the vertical wipes are paced: one delay per row, `H` in all, and no delay in any other flush (R254, R256, R257). -/
def Obligations.TransitionDelays : Prop :=
  ∀ s t : State, s.Ready → s.cfg.hasFb = true → exec .flushFull s = .next t →
    ∃ es : List Event, t.trace = s.trace ++ es ∧
      es.filter Event.isDelay =
        List.replicate (if s.trans = .wipeTb ∨ s.trans = .wipeBt then s.height else 0) (.delay s.cfg.vwipeRowDelay)

/-- The frames of the wipes and of the iris, after step `k` of each. Horizontal (R254, R255): the byte columns swept show
the framebuffer, the next one in the sweep direction the divider. Vertical (R256): the rows swept show the framebuffer, and
the divider stands in the row two further on and, drawn one step before, in the row one further on. Iris (R257): the byte
columns up to the step's distance from the centre, or from there outwards, show the framebuffer. Every other byte shows
what it showed before. -/
def Obligations.TransitionFrames : Prop :=
  ∀ (s : State) (dir : Bool) (k y b : Nat), s.Ready → y < s.height → b < s.bpr →
    (k < s.bpr →
      let t := (List.range (k + 1)).foldl (hWipeStep dir) s.stageDivider
      let turn := if dir then b else s.bpr - 1 - b
      t.dispByte y b = if turn ≤ k then s.fbByte y b else if turn = k + 1 then s.cfg.divByte else s.dispByte y b) ∧
    (k < s.height →
      let t := (List.range (k + 1)).foldl (vWipeStep dir) s.stageDivider
      let turn := if dir then y else s.height - 1 - y
      t.dispByte y b =
        if turn ≤ k then s.fbByte y b
        else if turn = k + 2 ∨ (turn = k + 1 ∧ 0 < k) then s.cfg.divByte
        else s.dispByte y b) ∧
    (k < (s.bpr + 1) / 2 →
      let t := (List.range (k + 1)).foldl (irisStep dir) s
      t.dispByte y b =
        if (if dir then s.fromCentre b ≤ k else (s.bpr + 1) / 2 - 1 - k ≤ s.fromCentre b) then s.fbByte y b
        else s.dispByte y b)

/-! ### Readback -/

/-- The readback port (R37, R23): every number of the table, the interval table, `FB` and `SHADOW`, zero elsewhere, while
the engine is not busy; and while it is busy, `STATUS`. The model's choices (notes/assumptions/16.md): a number that R37
gives both to `FB` or `SHADOW` and to a very long interval table reads as `FB` or `SHADOW`, and without a framebuffer no
number is one of `FB`. -/
def Obligations.ReadbackPort : Prop :=
  ∀ (s : State) (occasion : Nat),
    let memory := fun n : Nat =>
      (s.cfg.hasFb = true ∧ 0x8000 ≤ n ∧ n < 0xC000 ∧ n < 0x8000 + s.height * s.bpr) ∨
        (0xC000 ≤ n ∧ n < 0xC000 + 2 * s.height)
    s.readback occasion 0 = s.status ∧
      s.status.toNat = s.code.number.toNat + (if s.seq = .busy then 256 else 0) + (if s.seq = .halted then 512 else 0) +
        (if s.inited then 1024 else 0) + (if s.xferBusy then 2048 else 0) ∧
      (s.seq ≠ .busy →
        [1, 2, 3, 4, 5, 6, 7, 8, 9, 10, 11, 12].map (s.readback occasion) =
            [s.res0, s.res1, s.res2, s.res3, s.geomW, s.geomH, s.minTextX, s.maxTextX, s.minDispY, s.maxDispY, s.curX,
             s.curY] ∧
          (ctrlReserved s.ctrl = false → s.readback occasion 0x0D = s.ctrl) ∧
          s.readback occasion 0x0E = s.trans.number ∧
          (s.readback occasion 0x0F).toNat = (if s.fontSel then 1 else 0) + (if s.qmark then 2 else 0) ∧
          (s.readback occasion 0x10).toNat = s.fontGh.toNat ∧ s.readback occasion 0x11 = s.fontTotal ∧
          s.readback occasion 0x12 = s.fontDesc ∧
          (s.readback occasion 0x13).toNat + 65536 * (s.readback occasion 0x14).toNat = s.fontBase.toNat ∧
          (∀ i e, i < s.cfg.ni → s.iv[i]? = some e →
            (0x20 + 2 * i < 65536 → ¬memory (0x20 + 2 * i) →
              s.readback occasion (BitVec.ofNat 16 (0x20 + 2 * i)) = e.first) ∧
            (0x21 + 2 * i < 65536 → ¬memory (0x21 + 2 * i) →
              s.readback occasion (BitVec.ofNat 16 (0x21 + 2 * i)) = e.last)) ∧
          (∀ y b, s.cfg.hasFb = true → y < s.height → b < s.bpr → s.offset y b < 0x4000 →
            (s.readback occasion (BitVec.ofNat 16 (0x8000 + s.offset y b))).toNat = (s.fbByte y b).toNat) ∧
          (∀ y, y < s.height → 2 * y + 1 < 0x4000 →
            s.readback occasion (BitVec.ofNat 16 (0xC000 + 2 * y)) = (s.shadowAt y).col ∧
            (s.readback occasion (BitVec.ofNat 16 (0xC001 + 2 * y))).toNat = (s.shadowAt y).byte.toNat) ∧
          (∀ n : Word, (0x15 ≤ n.toNat ∧ n.toNat < 0x20) ∨ (0x20 + 2 * s.cfg.ni ≤ n.toNat ∧ ¬memory n.toNat) → s.readback occasion n = 0))

end
end

