-- ==== Sys2Proof/Laws/Memory.lean ====
section
/-!
SUPPORT. Laws of byte memories: read after write, the canonical form, filled memories.
-/
namespace Sys2Proof.Machine

/-- What a write does to every read: the written byte at its address, every other address as before. -/
theorem Memory.read_write (m : Memory) (a b : Nat) (v : Byte) :
    Memory.read (Memory.write m a v) b = if b = a then some v else Memory.read m b := by
  induction m with
  | nil => simp [Memory.write, Memory.read]
  | cons c m ih =>
    obtain ⟨k, w⟩ := c
    simp only [Memory.write]
    split
    · simp [Memory.read]
    · split
      · subst_vars
        by_cases h : b = k <;> simp [Memory.read, h]
      · rename_i h1 h2
        simp only [Memory.read, ih]
        by_cases hb : b = k
        · subst hb
          simp [Ne.symm h2]
        · simp [hb]

theorem Memory.read_write_same (m : Memory) (a : Nat) (v : Byte) :
    Memory.read (Memory.write m a v) a = some v := by
  simp [Memory.read_write]

theorem Memory.read_write_other (m : Memory) {a b : Nat} (v : Byte) (h : b ≠ a) :
    Memory.read (Memory.write m a v) b = Memory.read m b := by
  simp [Memory.read_write, h]

/-- No listed entry equals what an unlisted address holds, whatever the memory. -/
theorem Memory.wf_iff_rising (m : Memory) : Memory.wf m = Memory.rising 0 m := by
  simp [Memory.wf, Memory.unlisted]

theorem Memory.rising_mono {m : Memory} {lo lo' : Nat} (h : lo' ≤ lo) (hm : Memory.rising lo m = true) :
    Memory.rising lo' m = true := by
  cases m with
  | nil => rfl
  | cons c m =>
    simp only [Memory.rising, Bool.and_eq_true, decide_eq_true_eq] at hm ⊢
    exact ⟨by omega, hm.2⟩

theorem Memory.rising_write {m : Memory} {lo a : Nat} (v : Byte) (hlo : lo ≤ a)
    (hm : Memory.rising lo m = true) : Memory.rising lo (Memory.write m a v) = true := by
  induction m generalizing lo with
  | nil => simp [Memory.write, Memory.rising, hlo]
  | cons c m ih =>
    obtain ⟨k, w⟩ := c
    simp only [Memory.rising, Bool.and_eq_true, decide_eq_true_eq] at hm
    simp only [Memory.write]
    split
    · rename_i h
      simp only [Memory.rising, Bool.and_eq_true, decide_eq_true_eq]
      exact ⟨hlo, by omega, hm.2⟩
    · split
      · subst_vars
        simp only [Memory.rising, Bool.and_eq_true, decide_eq_true_eq]
        exact hm
      · simp only [Memory.rising, Bool.and_eq_true, decide_eq_true_eq]
        exact ⟨hm.1, ih (by omega) hm.2⟩

/-- A write keeps the canonical form. -/
theorem Memory.wf_write {m : Memory} (a : Nat) (v : Byte) (h : Memory.wf m = true) :
    Memory.wf (Memory.write m a v) = true := by
  rw [Memory.wf_iff_rising] at h ⊢
  exact Memory.rising_write v (Nat.zero_le a) h

@[simp] theorem Memory.wf_nil : Memory.wf [] = true := rfl

@[simp] theorem Memory.read_nil (a : Nat) : Memory.read [] a = none := rfl

/-- A listed address is one that reads as a byte. -/
theorem Memory.mem_addresses_iff (m : Memory) (a : Nat) :
    a ∈ Memory.addresses m ↔ (Memory.read m a).isSome = true := by
  induction m with
  | nil => simp [Memory.addresses]
  | cons c m ih =>
    obtain ⟨k, w⟩ := c
    simp only [Memory.addresses, List.map_cons, List.mem_cons, Memory.read] at ih ⊢
    by_cases h : a = k <;> simp [h, ih]

/-- A write to an address that is listed leaves the list of addresses as it was, in a rising memory. -/
theorem Memory.addresses_write_listed {m : Memory} {lo a : Nat} (v : Byte)
    (hm : Memory.rising lo m = true) (ha : a ∈ Memory.addresses m) :
    Memory.addresses (Memory.write m a v) = Memory.addresses m := by
  induction m generalizing lo with
  | nil => simp [Memory.addresses] at ha
  | cons c m ih =>
    obtain ⟨k, w⟩ := c
    simp only [Memory.rising, Bool.and_eq_true, decide_eq_true_eq] at hm
    have key : ∀ (m : Memory) (lo b : Nat), Memory.rising lo m = true → b ∈ Memory.addresses m → lo ≤ b := by
      intro m
      induction m with
      | nil => intro lo b _ hb; simp [Memory.addresses] at hb
      | cons c m ih =>
        obtain ⟨k, w⟩ := c
        intro lo b h hb
        simp only [Memory.rising, Bool.and_eq_true, decide_eq_true_eq] at h
        simp only [Memory.addresses, List.map_cons, List.mem_cons] at hb
        rcases hb with rfl | hb
        · exact h.1
        · have := ih (k + 1) b h.2 hb
          omega
    simp only [Memory.write]
    simp only [Memory.addresses, List.map_cons, List.mem_cons] at ha
    split
    · rename_i hlt
      rcases ha with rfl | ha
      · omega
      · have := key m (k + 1) a hm.2 ha
        omega
    · split
      · subst_vars
        rfl
      · rename_i hne
        rcases ha with rfl | ha
        · exact absurd rfl hne
        · simp only [Memory.addresses, List.map_cons]
          congr 1
          exact ih hm.2 ha

/-- A filled memory lists exactly the addresses below its size. -/
@[simp] theorem Memory.addresses_filled (n : Nat) (v : Byte) :
    Memory.addresses (Memory.filled n v) = List.range n := by
  simp [Memory.addresses, Memory.filled, Function.comp_def]

/-- Reading a filled memory. -/
theorem Memory.read_filled (n a : Nat) (v : Byte) :
    Memory.read (Memory.filled n v) a = if a < n then some v else none := by
  have key : ∀ l : List Nat, Memory.read (l.map fun a => (a, v)) a = if a ∈ l then some v else none := by
    intro l
    induction l with
    | nil => simp
    | cons b l ih =>
      by_cases h : a = b <;> simp [Memory.read, h, ih]
  simp [Memory.filled, key]

/-- A memory that lists a range of addresses rises. -/
theorem Memory.rising_of_addresses {m : Memory} {lo n : Nat}
    (h : Memory.addresses m = List.range' lo n) : Memory.rising lo m = true := by
  induction m generalizing lo n with
  | nil => rfl
  | cons c m ih =>
    obtain ⟨k, w⟩ := c
    cases n with
    | zero => simp [Memory.addresses] at h
    | succ n =>
      rw [List.range'_succ] at h
      simp only [Memory.addresses, List.map_cons, List.cons.injEq] at h
      obtain ⟨rfl, h⟩ := h
      simp only [Memory.rising, Bool.and_eq_true, decide_eq_true_eq]
      exact ⟨le_refl _, ih h⟩

theorem Memory.wf_of_addresses {m : Memory} {n : Nat} (h : Memory.addresses m = List.range n) :
    Memory.wf m = true := by
  rw [Memory.wf_iff_rising]
  exact Memory.rising_of_addresses (n := n) (by rw [h, List.range_eq_range'])

@[simp] theorem Memory.wf_filled (n : Nat) (v : Byte) : Memory.wf (Memory.filled n v) = true :=
  Memory.wf_of_addresses (Memory.addresses_filled n v)

/-- The canonical form of a memory is that of its addresses. -/
theorem Memory.wf_congr {m m' : Memory} (h : Memory.addresses m' = Memory.addresses m) :
    Memory.wf m' = true ↔ Memory.wf m = true := by
  have key : ∀ (m m' : Memory), Memory.addresses m' = Memory.addresses m →
      ∀ lo, Memory.rising lo m' = Memory.rising lo m := by
    intro m
    induction m with
    | nil =>
      intro m' h lo
      cases m' with
      | nil => rfl
      | cons c m' => simp [Memory.addresses] at h
    | cons c m ih =>
      intro m' h lo
      cases m' with
      | nil => simp [Memory.addresses] at h
      | cons c' m' =>
        obtain ⟨a, v⟩ := c
        obtain ⟨a', v'⟩ := c'
        simp only [Memory.addresses, List.map_cons, List.cons.injEq] at h
        obtain ⟨rfl, h⟩ := h
        simp only [Memory.rising, ih m' h]
  rw [Memory.wf_iff_rising, Memory.wf_iff_rising, key m m' h]

end Sys2Proof.Machine
end

