-- ==== Sys2Proof/Laws/State.lean ====
section
/-!
SUPPORT. One lemma per field of State per named update: what the update writes, and that every other field stays.
-/
namespace Sys2Proof.Machine

section Updates

variable (s : State)

/-! ### setPix -/

@[simp] theorem State.setPix_seq (x y : Nat) (p : Nibble) :
    (s.setPix x y p).seq = s.seq := rfl
@[simp] theorem State.setPix_rx (x y : Nat) (p : Nibble) :
    (s.setPix x y p).rx = s.rx := rfl
@[simp] theorem State.setPix_port (x y : Nat) (p : Nibble) :
    (s.setPix x y p).port = s.port := rfl
@[simp] theorem State.setPix_resetPin (x y : Nat) (p : Nibble) :
    (s.setPix x y p).resetPin = s.resetPin := rfl
@[simp] theorem State.setPix_resetAt (x y : Nat) (p : Nibble) :
    (s.setPix x y p).resetAt = s.resetAt := rfl
@[simp] theorem State.setPix_hangAt (x y : Nat) (p : Nibble) :
    (s.setPix x y p).hangAt = s.hangAt := rfl
@[simp] theorem State.setPix_code (x y : Nat) (p : Nibble) :
    (s.setPix x y p).code = s.code := rfl
@[simp] theorem State.setPix_res0 (x y : Nat) (p : Nibble) :
    (s.setPix x y p).res0 = s.res0 := rfl
@[simp] theorem State.setPix_res1 (x y : Nat) (p : Nibble) :
    (s.setPix x y p).res1 = s.res1 := rfl
@[simp] theorem State.setPix_res2 (x y : Nat) (p : Nibble) :
    (s.setPix x y p).res2 = s.res2 := rfl
@[simp] theorem State.setPix_res3 (x y : Nat) (p : Nibble) :
    (s.setPix x y p).res3 = s.res3 := rfl
@[simp] theorem State.setPix_inited (x y : Nat) (p : Nibble) :
    (s.setPix x y p).inited = s.inited := rfl
@[simp] theorem State.setPix_geomW (x y : Nat) (p : Nibble) :
    (s.setPix x y p).geomW = s.geomW := rfl
@[simp] theorem State.setPix_geomH (x y : Nat) (p : Nibble) :
    (s.setPix x y p).geomH = s.geomH := rfl
@[simp] theorem State.setPix_minTextX (x y : Nat) (p : Nibble) :
    (s.setPix x y p).minTextX = s.minTextX := rfl
@[simp] theorem State.setPix_maxTextX (x y : Nat) (p : Nibble) :
    (s.setPix x y p).maxTextX = s.maxTextX := rfl
@[simp] theorem State.setPix_minDispY (x y : Nat) (p : Nibble) :
    (s.setPix x y p).minDispY = s.minDispY := rfl
@[simp] theorem State.setPix_maxDispY (x y : Nat) (p : Nibble) :
    (s.setPix x y p).maxDispY = s.maxDispY := rfl
@[simp] theorem State.setPix_curX (x y : Nat) (p : Nibble) :
    (s.setPix x y p).curX = s.curX := rfl
@[simp] theorem State.setPix_curY (x y : Nat) (p : Nibble) :
    (s.setPix x y p).curY = s.curY := rfl
@[simp] theorem State.setPix_ctrl (x y : Nat) (p : Nibble) :
    (s.setPix x y p).ctrl = s.ctrl := rfl
@[simp] theorem State.setPix_trans (x y : Nat) (p : Nibble) :
    (s.setPix x y p).trans = s.trans := rfl
@[simp] theorem State.setPix_fontSel (x y : Nat) (p : Nibble) :
    (s.setPix x y p).fontSel = s.fontSel := rfl
@[simp] theorem State.setPix_qmark (x y : Nat) (p : Nibble) :
    (s.setPix x y p).qmark = s.qmark := rfl
@[simp] theorem State.setPix_fontBase (x y : Nat) (p : Nibble) :
    (s.setPix x y p).fontBase = s.fontBase := rfl
@[simp] theorem State.setPix_fontGh (x y : Nat) (p : Nibble) :
    (s.setPix x y p).fontGh = s.fontGh := rfl
@[simp] theorem State.setPix_fontTotal (x y : Nat) (p : Nibble) :
    (s.setPix x y p).fontTotal = s.fontTotal := rfl
@[simp] theorem State.setPix_fontDesc (x y : Nat) (p : Nibble) :
    (s.setPix x y p).fontDesc = s.fontDesc := rfl
@[simp] theorem State.setPix_iv (x y : Nat) (p : Nibble) :
    (s.setPix x y p).iv = s.iv := rfl
@[simp] theorem State.setPix_fb (x y : Nat) (p : Nibble) :
    (s.setPix x y p).fb = Memory.write s.fb (s.offset y (x / 2)) (mergeAt (s.fbByte y (x / 2)) x p) := rfl
@[simp] theorem State.setPix_shadow (x y : Nat) (p : Nibble) :
    (s.setPix x y p).shadow = s.shadow := rfl
@[simp] theorem State.setPix_xferBusy (x y : Nat) (p : Nibble) :
    (s.setPix x y p).xferBusy = s.xferBusy := rfl
@[simp] theorem State.setPix_stray (x y : Nat) (p : Nibble) :
    (s.setPix x y p).stray = s.stray := rfl
@[simp] theorem State.setPix_hung (x y : Nat) (p : Nibble) :
    (s.setPix x y p).hung = s.hung := rfl
@[simp] theorem State.setPix_stuck (x y : Nat) (p : Nibble) :
    (s.setPix x y p).stuck = s.stuck := rfl
@[simp] theorem State.setPix_stage0 (x y : Nat) (p : Nibble) :
    (s.setPix x y p).stage0 = s.stage0 := rfl
@[simp] theorem State.setPix_stage1 (x y : Nat) (p : Nibble) :
    (s.setPix x y p).stage1 = s.stage1 := rfl
@[simp] theorem State.setPix_line (x y : Nat) (p : Nibble) :
    (s.setPix x y p).line = s.line := rfl
@[simp] theorem State.setPix_disp (x y : Nat) (p : Nibble) :
    (s.setPix x y p).disp = s.disp := rfl
@[simp] theorem State.setPix_wpRow (x y : Nat) (p : Nibble) :
    (s.setPix x y p).wpRow = s.wpRow := rfl
@[simp] theorem State.setPix_wpCol (x y : Nat) (p : Nibble) :
    (s.setPix x y p).wpCol = s.wpCol := rfl
@[simp] theorem State.setPix_trace (x y : Nat) (p : Nibble) :
    (s.setPix x y p).trace = s.trace := rfl
@[simp] theorem State.setPix_epoch (x y : Nat) (p : Nibble) :
    (s.setPix x y p).epoch = s.epoch := rfl
@[simp] theorem State.setPix_cfg (x y : Nat) (p : Nibble) :
    (s.setPix x y p).cfg = s.cfg := rfl
@[simp] theorem State.setPix_asset (x y : Nat) (p : Nibble) :
    (s.setPix x y p).asset = s.asset := rfl
@[simp] theorem State.setPix_assetDir (x y : Nat) (p : Nibble) :
    (s.setPix x y p).assetDir = s.assetDir := rfl

/-! ### storeShadow -/

@[simp] theorem State.storeShadow_seq (y b : Nat) (v : Byte) :
    (s.storeShadow y b v).seq = s.seq := rfl
@[simp] theorem State.storeShadow_rx (y b : Nat) (v : Byte) :
    (s.storeShadow y b v).rx = s.rx := rfl
@[simp] theorem State.storeShadow_port (y b : Nat) (v : Byte) :
    (s.storeShadow y b v).port = s.port := rfl
@[simp] theorem State.storeShadow_resetPin (y b : Nat) (v : Byte) :
    (s.storeShadow y b v).resetPin = s.resetPin := rfl
@[simp] theorem State.storeShadow_resetAt (y b : Nat) (v : Byte) :
    (s.storeShadow y b v).resetAt = s.resetAt := rfl
@[simp] theorem State.storeShadow_hangAt (y b : Nat) (v : Byte) :
    (s.storeShadow y b v).hangAt = s.hangAt := rfl
@[simp] theorem State.storeShadow_code (y b : Nat) (v : Byte) :
    (s.storeShadow y b v).code = s.code := rfl
@[simp] theorem State.storeShadow_res0 (y b : Nat) (v : Byte) :
    (s.storeShadow y b v).res0 = s.res0 := rfl
@[simp] theorem State.storeShadow_res1 (y b : Nat) (v : Byte) :
    (s.storeShadow y b v).res1 = s.res1 := rfl
@[simp] theorem State.storeShadow_res2 (y b : Nat) (v : Byte) :
    (s.storeShadow y b v).res2 = s.res2 := rfl
@[simp] theorem State.storeShadow_res3 (y b : Nat) (v : Byte) :
    (s.storeShadow y b v).res3 = s.res3 := rfl
@[simp] theorem State.storeShadow_inited (y b : Nat) (v : Byte) :
    (s.storeShadow y b v).inited = s.inited := rfl
@[simp] theorem State.storeShadow_geomW (y b : Nat) (v : Byte) :
    (s.storeShadow y b v).geomW = s.geomW := rfl
@[simp] theorem State.storeShadow_geomH (y b : Nat) (v : Byte) :
    (s.storeShadow y b v).geomH = s.geomH := rfl
@[simp] theorem State.storeShadow_minTextX (y b : Nat) (v : Byte) :
    (s.storeShadow y b v).minTextX = s.minTextX := rfl
@[simp] theorem State.storeShadow_maxTextX (y b : Nat) (v : Byte) :
    (s.storeShadow y b v).maxTextX = s.maxTextX := rfl
@[simp] theorem State.storeShadow_minDispY (y b : Nat) (v : Byte) :
    (s.storeShadow y b v).minDispY = s.minDispY := rfl
@[simp] theorem State.storeShadow_maxDispY (y b : Nat) (v : Byte) :
    (s.storeShadow y b v).maxDispY = s.maxDispY := rfl
@[simp] theorem State.storeShadow_curX (y b : Nat) (v : Byte) :
    (s.storeShadow y b v).curX = s.curX := rfl
@[simp] theorem State.storeShadow_curY (y b : Nat) (v : Byte) :
    (s.storeShadow y b v).curY = s.curY := rfl
@[simp] theorem State.storeShadow_ctrl (y b : Nat) (v : Byte) :
    (s.storeShadow y b v).ctrl = s.ctrl := rfl
@[simp] theorem State.storeShadow_trans (y b : Nat) (v : Byte) :
    (s.storeShadow y b v).trans = s.trans := rfl
@[simp] theorem State.storeShadow_fontSel (y b : Nat) (v : Byte) :
    (s.storeShadow y b v).fontSel = s.fontSel := rfl
@[simp] theorem State.storeShadow_qmark (y b : Nat) (v : Byte) :
    (s.storeShadow y b v).qmark = s.qmark := rfl
@[simp] theorem State.storeShadow_fontBase (y b : Nat) (v : Byte) :
    (s.storeShadow y b v).fontBase = s.fontBase := rfl
@[simp] theorem State.storeShadow_fontGh (y b : Nat) (v : Byte) :
    (s.storeShadow y b v).fontGh = s.fontGh := rfl
@[simp] theorem State.storeShadow_fontTotal (y b : Nat) (v : Byte) :
    (s.storeShadow y b v).fontTotal = s.fontTotal := rfl
@[simp] theorem State.storeShadow_fontDesc (y b : Nat) (v : Byte) :
    (s.storeShadow y b v).fontDesc = s.fontDesc := rfl
@[simp] theorem State.storeShadow_iv (y b : Nat) (v : Byte) :
    (s.storeShadow y b v).iv = s.iv := rfl
@[simp] theorem State.storeShadow_fb (y b : Nat) (v : Byte) :
    (s.storeShadow y b v).fb = s.fb := rfl
@[simp] theorem State.storeShadow_shadow (y b : Nat) (v : Byte) :
    (s.storeShadow y b v).shadow = s.shadow.set y { col := reg16 b, byte := v } := rfl
@[simp] theorem State.storeShadow_xferBusy (y b : Nat) (v : Byte) :
    (s.storeShadow y b v).xferBusy = s.xferBusy := rfl
@[simp] theorem State.storeShadow_stray (y b : Nat) (v : Byte) :
    (s.storeShadow y b v).stray = s.stray := rfl
@[simp] theorem State.storeShadow_hung (y b : Nat) (v : Byte) :
    (s.storeShadow y b v).hung = s.hung := rfl
@[simp] theorem State.storeShadow_stuck (y b : Nat) (v : Byte) :
    (s.storeShadow y b v).stuck = s.stuck := rfl
@[simp] theorem State.storeShadow_stage0 (y b : Nat) (v : Byte) :
    (s.storeShadow y b v).stage0 = s.stage0 := rfl
@[simp] theorem State.storeShadow_stage1 (y b : Nat) (v : Byte) :
    (s.storeShadow y b v).stage1 = s.stage1 := rfl
@[simp] theorem State.storeShadow_line (y b : Nat) (v : Byte) :
    (s.storeShadow y b v).line = s.line := rfl
@[simp] theorem State.storeShadow_disp (y b : Nat) (v : Byte) :
    (s.storeShadow y b v).disp = s.disp := rfl
@[simp] theorem State.storeShadow_wpRow (y b : Nat) (v : Byte) :
    (s.storeShadow y b v).wpRow = s.wpRow := rfl
@[simp] theorem State.storeShadow_wpCol (y b : Nat) (v : Byte) :
    (s.storeShadow y b v).wpCol = s.wpCol := rfl
@[simp] theorem State.storeShadow_trace (y b : Nat) (v : Byte) :
    (s.storeShadow y b v).trace = s.trace := rfl
@[simp] theorem State.storeShadow_epoch (y b : Nat) (v : Byte) :
    (s.storeShadow y b v).epoch = s.epoch := rfl
@[simp] theorem State.storeShadow_cfg (y b : Nat) (v : Byte) :
    (s.storeShadow y b v).cfg = s.cfg := rfl
@[simp] theorem State.storeShadow_asset (y b : Nat) (v : Byte) :
    (s.storeShadow y b v).asset = s.asset := rfl
@[simp] theorem State.storeShadow_assetDir (y b : Nat) (v : Byte) :
    (s.storeShadow y b v).assetDir = s.assetDir := rfl

/-! ### emit -/

@[simp] theorem State.emit_seq (e : Event) :
    (s.emit e).seq = s.seq := rfl
@[simp] theorem State.emit_rx (e : Event) :
    (s.emit e).rx = s.rx := rfl
@[simp] theorem State.emit_port (e : Event) :
    (s.emit e).port = s.port := rfl
@[simp] theorem State.emit_resetPin (e : Event) :
    (s.emit e).resetPin = s.resetPin := rfl
@[simp] theorem State.emit_resetAt (e : Event) :
    (s.emit e).resetAt = s.resetAt := rfl
@[simp] theorem State.emit_hangAt (e : Event) :
    (s.emit e).hangAt = s.hangAt := rfl
@[simp] theorem State.emit_code (e : Event) :
    (s.emit e).code = s.code := rfl
@[simp] theorem State.emit_res0 (e : Event) :
    (s.emit e).res0 = s.res0 := rfl
@[simp] theorem State.emit_res1 (e : Event) :
    (s.emit e).res1 = s.res1 := rfl
@[simp] theorem State.emit_res2 (e : Event) :
    (s.emit e).res2 = s.res2 := rfl
@[simp] theorem State.emit_res3 (e : Event) :
    (s.emit e).res3 = s.res3 := rfl
@[simp] theorem State.emit_inited (e : Event) :
    (s.emit e).inited = s.inited := rfl
@[simp] theorem State.emit_geomW (e : Event) :
    (s.emit e).geomW = s.geomW := rfl
@[simp] theorem State.emit_geomH (e : Event) :
    (s.emit e).geomH = s.geomH := rfl
@[simp] theorem State.emit_minTextX (e : Event) :
    (s.emit e).minTextX = s.minTextX := rfl
@[simp] theorem State.emit_maxTextX (e : Event) :
    (s.emit e).maxTextX = s.maxTextX := rfl
@[simp] theorem State.emit_minDispY (e : Event) :
    (s.emit e).minDispY = s.minDispY := rfl
@[simp] theorem State.emit_maxDispY (e : Event) :
    (s.emit e).maxDispY = s.maxDispY := rfl
@[simp] theorem State.emit_curX (e : Event) :
    (s.emit e).curX = s.curX := rfl
@[simp] theorem State.emit_curY (e : Event) :
    (s.emit e).curY = s.curY := rfl
@[simp] theorem State.emit_ctrl (e : Event) :
    (s.emit e).ctrl = s.ctrl := rfl
@[simp] theorem State.emit_trans (e : Event) :
    (s.emit e).trans = s.trans := rfl
@[simp] theorem State.emit_fontSel (e : Event) :
    (s.emit e).fontSel = s.fontSel := rfl
@[simp] theorem State.emit_qmark (e : Event) :
    (s.emit e).qmark = s.qmark := rfl
@[simp] theorem State.emit_fontBase (e : Event) :
    (s.emit e).fontBase = s.fontBase := rfl
@[simp] theorem State.emit_fontGh (e : Event) :
    (s.emit e).fontGh = s.fontGh := rfl
@[simp] theorem State.emit_fontTotal (e : Event) :
    (s.emit e).fontTotal = s.fontTotal := rfl
@[simp] theorem State.emit_fontDesc (e : Event) :
    (s.emit e).fontDesc = s.fontDesc := rfl
@[simp] theorem State.emit_iv (e : Event) :
    (s.emit e).iv = s.iv := rfl
@[simp] theorem State.emit_fb (e : Event) :
    (s.emit e).fb = s.fb := rfl
@[simp] theorem State.emit_shadow (e : Event) :
    (s.emit e).shadow = s.shadow := rfl
@[simp] theorem State.emit_xferBusy (e : Event) :
    (s.emit e).xferBusy = s.xferBusy := rfl
@[simp] theorem State.emit_stray (e : Event) :
    (s.emit e).stray = s.stray := rfl
@[simp] theorem State.emit_hung (e : Event) :
    (s.emit e).hung = s.hung := rfl
@[simp] theorem State.emit_stuck (e : Event) :
    (s.emit e).stuck = s.stuck := rfl
@[simp] theorem State.emit_stage0 (e : Event) :
    (s.emit e).stage0 = s.stage0 := rfl
@[simp] theorem State.emit_stage1 (e : Event) :
    (s.emit e).stage1 = s.stage1 := rfl
@[simp] theorem State.emit_line (e : Event) :
    (s.emit e).line = s.line := rfl
@[simp] theorem State.emit_disp (e : Event) :
    (s.emit e).disp = s.disp := rfl
@[simp] theorem State.emit_wpRow (e : Event) :
    (s.emit e).wpRow = s.wpRow := rfl
@[simp] theorem State.emit_wpCol (e : Event) :
    (s.emit e).wpCol = s.wpCol := rfl
@[simp] theorem State.emit_trace (e : Event) :
    (s.emit e).trace = s.trace ++ [e] := rfl
@[simp] theorem State.emit_epoch (e : Event) :
    (s.emit e).epoch = s.epoch := rfl
@[simp] theorem State.emit_cfg (e : Event) :
    (s.emit e).cfg = s.cfg := rfl
@[simp] theorem State.emit_asset (e : Event) :
    (s.emit e).asset = s.asset := rfl
@[simp] theorem State.emit_assetDir (e : Event) :
    (s.emit e).assetDir = s.assetDir := rfl

/-! ### dispAddr -/

@[simp] theorem State.dispAddr_seq (y b : Nat) :
    (s.dispAddr y b).seq = s.seq := rfl
@[simp] theorem State.dispAddr_rx (y b : Nat) :
    (s.dispAddr y b).rx = s.rx := rfl
@[simp] theorem State.dispAddr_port (y b : Nat) :
    (s.dispAddr y b).port = s.port := rfl
@[simp] theorem State.dispAddr_resetPin (y b : Nat) :
    (s.dispAddr y b).resetPin = s.resetPin := rfl
@[simp] theorem State.dispAddr_resetAt (y b : Nat) :
    (s.dispAddr y b).resetAt = s.resetAt := rfl
@[simp] theorem State.dispAddr_hangAt (y b : Nat) :
    (s.dispAddr y b).hangAt = s.hangAt := rfl
@[simp] theorem State.dispAddr_code (y b : Nat) :
    (s.dispAddr y b).code = s.code := rfl
@[simp] theorem State.dispAddr_res0 (y b : Nat) :
    (s.dispAddr y b).res0 = s.res0 := rfl
@[simp] theorem State.dispAddr_res1 (y b : Nat) :
    (s.dispAddr y b).res1 = s.res1 := rfl
@[simp] theorem State.dispAddr_res2 (y b : Nat) :
    (s.dispAddr y b).res2 = s.res2 := rfl
@[simp] theorem State.dispAddr_res3 (y b : Nat) :
    (s.dispAddr y b).res3 = s.res3 := rfl
@[simp] theorem State.dispAddr_inited (y b : Nat) :
    (s.dispAddr y b).inited = s.inited := rfl
@[simp] theorem State.dispAddr_geomW (y b : Nat) :
    (s.dispAddr y b).geomW = s.geomW := rfl
@[simp] theorem State.dispAddr_geomH (y b : Nat) :
    (s.dispAddr y b).geomH = s.geomH := rfl
@[simp] theorem State.dispAddr_minTextX (y b : Nat) :
    (s.dispAddr y b).minTextX = s.minTextX := rfl
@[simp] theorem State.dispAddr_maxTextX (y b : Nat) :
    (s.dispAddr y b).maxTextX = s.maxTextX := rfl
@[simp] theorem State.dispAddr_minDispY (y b : Nat) :
    (s.dispAddr y b).minDispY = s.minDispY := rfl
@[simp] theorem State.dispAddr_maxDispY (y b : Nat) :
    (s.dispAddr y b).maxDispY = s.maxDispY := rfl
@[simp] theorem State.dispAddr_curX (y b : Nat) :
    (s.dispAddr y b).curX = s.curX := rfl
@[simp] theorem State.dispAddr_curY (y b : Nat) :
    (s.dispAddr y b).curY = s.curY := rfl
@[simp] theorem State.dispAddr_ctrl (y b : Nat) :
    (s.dispAddr y b).ctrl = s.ctrl := rfl
@[simp] theorem State.dispAddr_trans (y b : Nat) :
    (s.dispAddr y b).trans = s.trans := rfl
@[simp] theorem State.dispAddr_fontSel (y b : Nat) :
    (s.dispAddr y b).fontSel = s.fontSel := rfl
@[simp] theorem State.dispAddr_qmark (y b : Nat) :
    (s.dispAddr y b).qmark = s.qmark := rfl
@[simp] theorem State.dispAddr_fontBase (y b : Nat) :
    (s.dispAddr y b).fontBase = s.fontBase := rfl
@[simp] theorem State.dispAddr_fontGh (y b : Nat) :
    (s.dispAddr y b).fontGh = s.fontGh := rfl
@[simp] theorem State.dispAddr_fontTotal (y b : Nat) :
    (s.dispAddr y b).fontTotal = s.fontTotal := rfl
@[simp] theorem State.dispAddr_fontDesc (y b : Nat) :
    (s.dispAddr y b).fontDesc = s.fontDesc := rfl
@[simp] theorem State.dispAddr_iv (y b : Nat) :
    (s.dispAddr y b).iv = s.iv := rfl
@[simp] theorem State.dispAddr_fb (y b : Nat) :
    (s.dispAddr y b).fb = s.fb := rfl
@[simp] theorem State.dispAddr_shadow (y b : Nat) :
    (s.dispAddr y b).shadow = s.shadow := rfl
@[simp] theorem State.dispAddr_xferBusy (y b : Nat) :
    (s.dispAddr y b).xferBusy = s.xferBusy := rfl
@[simp] theorem State.dispAddr_stray (y b : Nat) :
    (s.dispAddr y b).stray = s.stray := rfl
@[simp] theorem State.dispAddr_hung (y b : Nat) :
    (s.dispAddr y b).hung = s.hung := rfl
@[simp] theorem State.dispAddr_stuck (y b : Nat) :
    (s.dispAddr y b).stuck = s.stuck := rfl
@[simp] theorem State.dispAddr_stage0 (y b : Nat) :
    (s.dispAddr y b).stage0 = s.stage0 := rfl
@[simp] theorem State.dispAddr_stage1 (y b : Nat) :
    (s.dispAddr y b).stage1 = s.stage1 := rfl
@[simp] theorem State.dispAddr_line (y b : Nat) :
    (s.dispAddr y b).line = s.line := rfl
@[simp] theorem State.dispAddr_disp (y b : Nat) :
    (s.dispAddr y b).disp = s.disp := rfl
@[simp] theorem State.dispAddr_wpRow (y b : Nat) :
    (s.dispAddr y b).wpRow = y := rfl
@[simp] theorem State.dispAddr_wpCol (y b : Nat) :
    (s.dispAddr y b).wpCol = b := rfl
@[simp] theorem State.dispAddr_trace (y b : Nat) :
    (s.dispAddr y b).trace = s.trace ++ [.busCmd (addrCmds s.cfg y b)] := rfl
@[simp] theorem State.dispAddr_epoch (y b : Nat) :
    (s.dispAddr y b).epoch = s.epoch := rfl
@[simp] theorem State.dispAddr_cfg (y b : Nat) :
    (s.dispAddr y b).cfg = s.cfg := rfl
@[simp] theorem State.dispAddr_asset (y b : Nat) :
    (s.dispAddr y b).asset = s.asset := rfl
@[simp] theorem State.dispAddr_assetDir (y b : Nat) :
    (s.dispAddr y b).assetDir = s.assetDir := rfl

/-! ### sendByte -/

@[simp] theorem State.sendByte_seq (v : Byte) :
    (s.sendByte v).seq = s.seq := rfl
@[simp] theorem State.sendByte_rx (v : Byte) :
    (s.sendByte v).rx = s.rx := rfl
@[simp] theorem State.sendByte_port (v : Byte) :
    (s.sendByte v).port = s.port := rfl
@[simp] theorem State.sendByte_resetPin (v : Byte) :
    (s.sendByte v).resetPin = s.resetPin := rfl
@[simp] theorem State.sendByte_resetAt (v : Byte) :
    (s.sendByte v).resetAt = s.resetAt := rfl
@[simp] theorem State.sendByte_hangAt (v : Byte) :
    (s.sendByte v).hangAt = s.hangAt := rfl
@[simp] theorem State.sendByte_code (v : Byte) :
    (s.sendByte v).code = s.code := rfl
@[simp] theorem State.sendByte_res0 (v : Byte) :
    (s.sendByte v).res0 = s.res0 := rfl
@[simp] theorem State.sendByte_res1 (v : Byte) :
    (s.sendByte v).res1 = s.res1 := rfl
@[simp] theorem State.sendByte_res2 (v : Byte) :
    (s.sendByte v).res2 = s.res2 := rfl
@[simp] theorem State.sendByte_res3 (v : Byte) :
    (s.sendByte v).res3 = s.res3 := rfl
@[simp] theorem State.sendByte_inited (v : Byte) :
    (s.sendByte v).inited = s.inited := rfl
@[simp] theorem State.sendByte_geomW (v : Byte) :
    (s.sendByte v).geomW = s.geomW := rfl
@[simp] theorem State.sendByte_geomH (v : Byte) :
    (s.sendByte v).geomH = s.geomH := rfl
@[simp] theorem State.sendByte_minTextX (v : Byte) :
    (s.sendByte v).minTextX = s.minTextX := rfl
@[simp] theorem State.sendByte_maxTextX (v : Byte) :
    (s.sendByte v).maxTextX = s.maxTextX := rfl
@[simp] theorem State.sendByte_minDispY (v : Byte) :
    (s.sendByte v).minDispY = s.minDispY := rfl
@[simp] theorem State.sendByte_maxDispY (v : Byte) :
    (s.sendByte v).maxDispY = s.maxDispY := rfl
@[simp] theorem State.sendByte_curX (v : Byte) :
    (s.sendByte v).curX = s.curX := rfl
@[simp] theorem State.sendByte_curY (v : Byte) :
    (s.sendByte v).curY = s.curY := rfl
@[simp] theorem State.sendByte_ctrl (v : Byte) :
    (s.sendByte v).ctrl = s.ctrl := rfl
@[simp] theorem State.sendByte_trans (v : Byte) :
    (s.sendByte v).trans = s.trans := rfl
@[simp] theorem State.sendByte_fontSel (v : Byte) :
    (s.sendByte v).fontSel = s.fontSel := rfl
@[simp] theorem State.sendByte_qmark (v : Byte) :
    (s.sendByte v).qmark = s.qmark := rfl
@[simp] theorem State.sendByte_fontBase (v : Byte) :
    (s.sendByte v).fontBase = s.fontBase := rfl
@[simp] theorem State.sendByte_fontGh (v : Byte) :
    (s.sendByte v).fontGh = s.fontGh := rfl
@[simp] theorem State.sendByte_fontTotal (v : Byte) :
    (s.sendByte v).fontTotal = s.fontTotal := rfl
@[simp] theorem State.sendByte_fontDesc (v : Byte) :
    (s.sendByte v).fontDesc = s.fontDesc := rfl
@[simp] theorem State.sendByte_iv (v : Byte) :
    (s.sendByte v).iv = s.iv := rfl
@[simp] theorem State.sendByte_fb (v : Byte) :
    (s.sendByte v).fb = s.fb := rfl
@[simp] theorem State.sendByte_shadow (v : Byte) :
    (s.sendByte v).shadow = s.shadow := rfl
@[simp] theorem State.sendByte_xferBusy (v : Byte) :
    (s.sendByte v).xferBusy = s.xferBusy := rfl
@[simp] theorem State.sendByte_stray (v : Byte) :
    (s.sendByte v).stray = s.stray := rfl
@[simp] theorem State.sendByte_hung (v : Byte) :
    (s.sendByte v).hung = s.hung := rfl
@[simp] theorem State.sendByte_stuck (v : Byte) :
    (s.sendByte v).stuck = s.stuck := rfl
@[simp] theorem State.sendByte_stage0 (v : Byte) :
    (s.sendByte v).stage0 = s.stage0 := rfl
@[simp] theorem State.sendByte_stage1 (v : Byte) :
    (s.sendByte v).stage1 = s.stage1 := rfl
@[simp] theorem State.sendByte_line (v : Byte) :
    (s.sendByte v).line = s.line := rfl
@[simp] theorem State.sendByte_disp (v : Byte) :
    (s.sendByte v).disp = Memory.write s.disp (s.offset s.wpRow s.wpCol) v := rfl
@[simp] theorem State.sendByte_wpRow (v : Byte) :
    (s.sendByte v).wpRow = if s.wpCol + 1 = s.bpr then s.wpRow + 1 else s.wpRow := rfl
@[simp] theorem State.sendByte_wpCol (v : Byte) :
    (s.sendByte v).wpCol = if s.wpCol + 1 = s.bpr then 0 else s.wpCol + 1 := rfl
@[simp] theorem State.sendByte_trace (v : Byte) :
    (s.sendByte v).trace = s.trace := rfl
@[simp] theorem State.sendByte_epoch (v : Byte) :
    (s.sendByte v).epoch = s.epoch := rfl
@[simp] theorem State.sendByte_cfg (v : Byte) :
    (s.sendByte v).cfg = s.cfg := rfl
@[simp] theorem State.sendByte_asset (v : Byte) :
    (s.sendByte v).asset = s.asset := rfl
@[simp] theorem State.sendByte_assetDir (v : Byte) :
    (s.sendByte v).assetDir = s.assetDir := rfl

/-! ### setLine -/

@[simp] theorem State.setLine_seq (pix : List Nibble) :
    (s.setLine pix).seq = s.seq := rfl
@[simp] theorem State.setLine_rx (pix : List Nibble) :
    (s.setLine pix).rx = s.rx := rfl
@[simp] theorem State.setLine_port (pix : List Nibble) :
    (s.setLine pix).port = s.port := rfl
@[simp] theorem State.setLine_resetPin (pix : List Nibble) :
    (s.setLine pix).resetPin = s.resetPin := rfl
@[simp] theorem State.setLine_resetAt (pix : List Nibble) :
    (s.setLine pix).resetAt = s.resetAt := rfl
@[simp] theorem State.setLine_hangAt (pix : List Nibble) :
    (s.setLine pix).hangAt = s.hangAt := rfl
@[simp] theorem State.setLine_code (pix : List Nibble) :
    (s.setLine pix).code = s.code := rfl
@[simp] theorem State.setLine_res0 (pix : List Nibble) :
    (s.setLine pix).res0 = s.res0 := rfl
@[simp] theorem State.setLine_res1 (pix : List Nibble) :
    (s.setLine pix).res1 = s.res1 := rfl
@[simp] theorem State.setLine_res2 (pix : List Nibble) :
    (s.setLine pix).res2 = s.res2 := rfl
@[simp] theorem State.setLine_res3 (pix : List Nibble) :
    (s.setLine pix).res3 = s.res3 := rfl
@[simp] theorem State.setLine_inited (pix : List Nibble) :
    (s.setLine pix).inited = s.inited := rfl
@[simp] theorem State.setLine_geomW (pix : List Nibble) :
    (s.setLine pix).geomW = s.geomW := rfl
@[simp] theorem State.setLine_geomH (pix : List Nibble) :
    (s.setLine pix).geomH = s.geomH := rfl
@[simp] theorem State.setLine_minTextX (pix : List Nibble) :
    (s.setLine pix).minTextX = s.minTextX := rfl
@[simp] theorem State.setLine_maxTextX (pix : List Nibble) :
    (s.setLine pix).maxTextX = s.maxTextX := rfl
@[simp] theorem State.setLine_minDispY (pix : List Nibble) :
    (s.setLine pix).minDispY = s.minDispY := rfl
@[simp] theorem State.setLine_maxDispY (pix : List Nibble) :
    (s.setLine pix).maxDispY = s.maxDispY := rfl
@[simp] theorem State.setLine_curX (pix : List Nibble) :
    (s.setLine pix).curX = s.curX := rfl
@[simp] theorem State.setLine_curY (pix : List Nibble) :
    (s.setLine pix).curY = s.curY := rfl
@[simp] theorem State.setLine_ctrl (pix : List Nibble) :
    (s.setLine pix).ctrl = s.ctrl := rfl
@[simp] theorem State.setLine_trans (pix : List Nibble) :
    (s.setLine pix).trans = s.trans := rfl
@[simp] theorem State.setLine_fontSel (pix : List Nibble) :
    (s.setLine pix).fontSel = s.fontSel := rfl
@[simp] theorem State.setLine_qmark (pix : List Nibble) :
    (s.setLine pix).qmark = s.qmark := rfl
@[simp] theorem State.setLine_fontBase (pix : List Nibble) :
    (s.setLine pix).fontBase = s.fontBase := rfl
@[simp] theorem State.setLine_fontGh (pix : List Nibble) :
    (s.setLine pix).fontGh = s.fontGh := rfl
@[simp] theorem State.setLine_fontTotal (pix : List Nibble) :
    (s.setLine pix).fontTotal = s.fontTotal := rfl
@[simp] theorem State.setLine_fontDesc (pix : List Nibble) :
    (s.setLine pix).fontDesc = s.fontDesc := rfl
@[simp] theorem State.setLine_iv (pix : List Nibble) :
    (s.setLine pix).iv = s.iv := rfl
@[simp] theorem State.setLine_fb (pix : List Nibble) :
    (s.setLine pix).fb = s.fb := rfl
@[simp] theorem State.setLine_shadow (pix : List Nibble) :
    (s.setLine pix).shadow = s.shadow := rfl
@[simp] theorem State.setLine_xferBusy (pix : List Nibble) :
    (s.setLine pix).xferBusy = s.xferBusy := rfl
@[simp] theorem State.setLine_stray (pix : List Nibble) :
    (s.setLine pix).stray = s.stray := rfl
@[simp] theorem State.setLine_hung (pix : List Nibble) :
    (s.setLine pix).hung = s.hung := rfl
@[simp] theorem State.setLine_stuck (pix : List Nibble) :
    (s.setLine pix).stuck = s.stuck := rfl
@[simp] theorem State.setLine_stage0 (pix : List Nibble) :
    (s.setLine pix).stage0 = s.stage0 := rfl
@[simp] theorem State.setLine_stage1 (pix : List Nibble) :
    (s.setLine pix).stage1 = s.stage1 := rfl
@[simp] theorem State.setLine_line (pix : List Nibble) :
    (s.setLine pix).line = overlay pix s.line := rfl
@[simp] theorem State.setLine_disp (pix : List Nibble) :
    (s.setLine pix).disp = s.disp := rfl
@[simp] theorem State.setLine_wpRow (pix : List Nibble) :
    (s.setLine pix).wpRow = s.wpRow := rfl
@[simp] theorem State.setLine_wpCol (pix : List Nibble) :
    (s.setLine pix).wpCol = s.wpCol := rfl
@[simp] theorem State.setLine_trace (pix : List Nibble) :
    (s.setLine pix).trace = s.trace := rfl
@[simp] theorem State.setLine_epoch (pix : List Nibble) :
    (s.setLine pix).epoch = s.epoch := rfl
@[simp] theorem State.setLine_cfg (pix : List Nibble) :
    (s.setLine pix).cfg = s.cfg := rfl
@[simp] theorem State.setLine_asset (pix : List Nibble) :
    (s.setLine pix).asset = s.asset := rfl
@[simp] theorem State.setLine_assetDir (pix : List Nibble) :
    (s.setLine pix).assetDir = s.assetDir := rfl

/-! ### clearScratch -/

@[simp] theorem State.clearScratch_seq :
    (s.clearScratch).seq = s.seq := rfl
@[simp] theorem State.clearScratch_rx :
    (s.clearScratch).rx = s.rx := rfl
@[simp] theorem State.clearScratch_port :
    (s.clearScratch).port = s.port := rfl
@[simp] theorem State.clearScratch_resetPin :
    (s.clearScratch).resetPin = s.resetPin := rfl
@[simp] theorem State.clearScratch_resetAt :
    (s.clearScratch).resetAt = s.resetAt := rfl
@[simp] theorem State.clearScratch_hangAt :
    (s.clearScratch).hangAt = s.hangAt := rfl
@[simp] theorem State.clearScratch_code :
    (s.clearScratch).code = s.code := rfl
@[simp] theorem State.clearScratch_res0 :
    (s.clearScratch).res0 = s.res0 := rfl
@[simp] theorem State.clearScratch_res1 :
    (s.clearScratch).res1 = s.res1 := rfl
@[simp] theorem State.clearScratch_res2 :
    (s.clearScratch).res2 = s.res2 := rfl
@[simp] theorem State.clearScratch_res3 :
    (s.clearScratch).res3 = s.res3 := rfl
@[simp] theorem State.clearScratch_inited :
    (s.clearScratch).inited = s.inited := rfl
@[simp] theorem State.clearScratch_geomW :
    (s.clearScratch).geomW = s.geomW := rfl
@[simp] theorem State.clearScratch_geomH :
    (s.clearScratch).geomH = s.geomH := rfl
@[simp] theorem State.clearScratch_minTextX :
    (s.clearScratch).minTextX = s.minTextX := rfl
@[simp] theorem State.clearScratch_maxTextX :
    (s.clearScratch).maxTextX = s.maxTextX := rfl
@[simp] theorem State.clearScratch_minDispY :
    (s.clearScratch).minDispY = s.minDispY := rfl
@[simp] theorem State.clearScratch_maxDispY :
    (s.clearScratch).maxDispY = s.maxDispY := rfl
@[simp] theorem State.clearScratch_curX :
    (s.clearScratch).curX = s.curX := rfl
@[simp] theorem State.clearScratch_curY :
    (s.clearScratch).curY = s.curY := rfl
@[simp] theorem State.clearScratch_ctrl :
    (s.clearScratch).ctrl = s.ctrl := rfl
@[simp] theorem State.clearScratch_trans :
    (s.clearScratch).trans = s.trans := rfl
@[simp] theorem State.clearScratch_fontSel :
    (s.clearScratch).fontSel = s.fontSel := rfl
@[simp] theorem State.clearScratch_qmark :
    (s.clearScratch).qmark = s.qmark := rfl
@[simp] theorem State.clearScratch_fontBase :
    (s.clearScratch).fontBase = s.fontBase := rfl
@[simp] theorem State.clearScratch_fontGh :
    (s.clearScratch).fontGh = s.fontGh := rfl
@[simp] theorem State.clearScratch_fontTotal :
    (s.clearScratch).fontTotal = s.fontTotal := rfl
@[simp] theorem State.clearScratch_fontDesc :
    (s.clearScratch).fontDesc = s.fontDesc := rfl
@[simp] theorem State.clearScratch_iv :
    (s.clearScratch).iv = s.iv := rfl
@[simp] theorem State.clearScratch_fb :
    (s.clearScratch).fb = s.fb := rfl
@[simp] theorem State.clearScratch_shadow :
    (s.clearScratch).shadow = s.shadow := rfl
@[simp] theorem State.clearScratch_xferBusy :
    (s.clearScratch).xferBusy = s.xferBusy := rfl
@[simp] theorem State.clearScratch_stray :
    (s.clearScratch).stray = s.stray := rfl
@[simp] theorem State.clearScratch_hung :
    (s.clearScratch).hung = s.hung := rfl
@[simp] theorem State.clearScratch_stuck :
    (s.clearScratch).stuck = s.stuck := rfl
@[simp] theorem State.clearScratch_stage0 :
    (s.clearScratch).stage0 = [] := rfl
@[simp] theorem State.clearScratch_stage1 :
    (s.clearScratch).stage1 = [] := rfl
@[simp] theorem State.clearScratch_line :
    (s.clearScratch).line = [] := rfl
@[simp] theorem State.clearScratch_disp :
    (s.clearScratch).disp = s.disp := rfl
@[simp] theorem State.clearScratch_wpRow :
    (s.clearScratch).wpRow = s.wpRow := rfl
@[simp] theorem State.clearScratch_wpCol :
    (s.clearScratch).wpCol = s.wpCol := rfl
@[simp] theorem State.clearScratch_trace :
    (s.clearScratch).trace = s.trace := rfl
@[simp] theorem State.clearScratch_epoch :
    (s.clearScratch).epoch = s.epoch := rfl
@[simp] theorem State.clearScratch_cfg :
    (s.clearScratch).cfg = s.cfg := rfl
@[simp] theorem State.clearScratch_asset :
    (s.clearScratch).asset = s.asset := rfl
@[simp] theorem State.clearScratch_assetDir :
    (s.clearScratch).assetDir = s.assetDir := rfl

/-! ### endCommand -/

@[simp] theorem State.endCommand_seq (c : Code) (r0 r1 r2 r3 : Word) :
    (s.endCommand c r0 r1 r2 r3).seq = .idle := rfl
@[simp] theorem State.endCommand_rx (c : Code) (r0 r1 r2 r3 : Word) :
    (s.endCommand c r0 r1 r2 r3).rx = s.rx := rfl
@[simp] theorem State.endCommand_port (c : Code) (r0 r1 r2 r3 : Word) :
    (s.endCommand c r0 r1 r2 r3).port = s.port := rfl
@[simp] theorem State.endCommand_resetPin (c : Code) (r0 r1 r2 r3 : Word) :
    (s.endCommand c r0 r1 r2 r3).resetPin = s.resetPin := rfl
@[simp] theorem State.endCommand_resetAt (c : Code) (r0 r1 r2 r3 : Word) :
    (s.endCommand c r0 r1 r2 r3).resetAt = s.resetAt := rfl
@[simp] theorem State.endCommand_hangAt (c : Code) (r0 r1 r2 r3 : Word) :
    (s.endCommand c r0 r1 r2 r3).hangAt = s.hangAt := rfl
@[simp] theorem State.endCommand_code (c : Code) (r0 r1 r2 r3 : Word) :
    (s.endCommand c r0 r1 r2 r3).code = c := rfl
@[simp] theorem State.endCommand_res0 (c : Code) (r0 r1 r2 r3 : Word) :
    (s.endCommand c r0 r1 r2 r3).res0 = r0 := rfl
@[simp] theorem State.endCommand_res1 (c : Code) (r0 r1 r2 r3 : Word) :
    (s.endCommand c r0 r1 r2 r3).res1 = r1 := rfl
@[simp] theorem State.endCommand_res2 (c : Code) (r0 r1 r2 r3 : Word) :
    (s.endCommand c r0 r1 r2 r3).res2 = r2 := rfl
@[simp] theorem State.endCommand_res3 (c : Code) (r0 r1 r2 r3 : Word) :
    (s.endCommand c r0 r1 r2 r3).res3 = r3 := rfl
@[simp] theorem State.endCommand_inited (c : Code) (r0 r1 r2 r3 : Word) :
    (s.endCommand c r0 r1 r2 r3).inited = s.inited := rfl
@[simp] theorem State.endCommand_geomW (c : Code) (r0 r1 r2 r3 : Word) :
    (s.endCommand c r0 r1 r2 r3).geomW = s.geomW := rfl
@[simp] theorem State.endCommand_geomH (c : Code) (r0 r1 r2 r3 : Word) :
    (s.endCommand c r0 r1 r2 r3).geomH = s.geomH := rfl
@[simp] theorem State.endCommand_minTextX (c : Code) (r0 r1 r2 r3 : Word) :
    (s.endCommand c r0 r1 r2 r3).minTextX = s.minTextX := rfl
@[simp] theorem State.endCommand_maxTextX (c : Code) (r0 r1 r2 r3 : Word) :
    (s.endCommand c r0 r1 r2 r3).maxTextX = s.maxTextX := rfl
@[simp] theorem State.endCommand_minDispY (c : Code) (r0 r1 r2 r3 : Word) :
    (s.endCommand c r0 r1 r2 r3).minDispY = s.minDispY := rfl
@[simp] theorem State.endCommand_maxDispY (c : Code) (r0 r1 r2 r3 : Word) :
    (s.endCommand c r0 r1 r2 r3).maxDispY = s.maxDispY := rfl
@[simp] theorem State.endCommand_curX (c : Code) (r0 r1 r2 r3 : Word) :
    (s.endCommand c r0 r1 r2 r3).curX = s.curX := rfl
@[simp] theorem State.endCommand_curY (c : Code) (r0 r1 r2 r3 : Word) :
    (s.endCommand c r0 r1 r2 r3).curY = s.curY := rfl
@[simp] theorem State.endCommand_ctrl (c : Code) (r0 r1 r2 r3 : Word) :
    (s.endCommand c r0 r1 r2 r3).ctrl = s.ctrl := rfl
@[simp] theorem State.endCommand_trans (c : Code) (r0 r1 r2 r3 : Word) :
    (s.endCommand c r0 r1 r2 r3).trans = s.trans := rfl
@[simp] theorem State.endCommand_fontSel (c : Code) (r0 r1 r2 r3 : Word) :
    (s.endCommand c r0 r1 r2 r3).fontSel = s.fontSel := rfl
@[simp] theorem State.endCommand_qmark (c : Code) (r0 r1 r2 r3 : Word) :
    (s.endCommand c r0 r1 r2 r3).qmark = s.qmark := rfl
@[simp] theorem State.endCommand_fontBase (c : Code) (r0 r1 r2 r3 : Word) :
    (s.endCommand c r0 r1 r2 r3).fontBase = s.fontBase := rfl
@[simp] theorem State.endCommand_fontGh (c : Code) (r0 r1 r2 r3 : Word) :
    (s.endCommand c r0 r1 r2 r3).fontGh = s.fontGh := rfl
@[simp] theorem State.endCommand_fontTotal (c : Code) (r0 r1 r2 r3 : Word) :
    (s.endCommand c r0 r1 r2 r3).fontTotal = s.fontTotal := rfl
@[simp] theorem State.endCommand_fontDesc (c : Code) (r0 r1 r2 r3 : Word) :
    (s.endCommand c r0 r1 r2 r3).fontDesc = s.fontDesc := rfl
@[simp] theorem State.endCommand_iv (c : Code) (r0 r1 r2 r3 : Word) :
    (s.endCommand c r0 r1 r2 r3).iv = s.iv := rfl
@[simp] theorem State.endCommand_fb (c : Code) (r0 r1 r2 r3 : Word) :
    (s.endCommand c r0 r1 r2 r3).fb = s.fb := rfl
@[simp] theorem State.endCommand_shadow (c : Code) (r0 r1 r2 r3 : Word) :
    (s.endCommand c r0 r1 r2 r3).shadow = s.shadow := rfl
@[simp] theorem State.endCommand_xferBusy (c : Code) (r0 r1 r2 r3 : Word) :
    (s.endCommand c r0 r1 r2 r3).xferBusy = s.xferBusy := rfl
@[simp] theorem State.endCommand_stray (c : Code) (r0 r1 r2 r3 : Word) :
    (s.endCommand c r0 r1 r2 r3).stray = s.stray := rfl
@[simp] theorem State.endCommand_hung (c : Code) (r0 r1 r2 r3 : Word) :
    (s.endCommand c r0 r1 r2 r3).hung = s.hung := rfl
@[simp] theorem State.endCommand_stuck (c : Code) (r0 r1 r2 r3 : Word) :
    (s.endCommand c r0 r1 r2 r3).stuck = s.stuck := rfl
@[simp] theorem State.endCommand_stage0 (c : Code) (r0 r1 r2 r3 : Word) :
    (s.endCommand c r0 r1 r2 r3).stage0 = s.stage0 := rfl
@[simp] theorem State.endCommand_stage1 (c : Code) (r0 r1 r2 r3 : Word) :
    (s.endCommand c r0 r1 r2 r3).stage1 = s.stage1 := rfl
@[simp] theorem State.endCommand_line (c : Code) (r0 r1 r2 r3 : Word) :
    (s.endCommand c r0 r1 r2 r3).line = s.line := rfl
@[simp] theorem State.endCommand_disp (c : Code) (r0 r1 r2 r3 : Word) :
    (s.endCommand c r0 r1 r2 r3).disp = s.disp := rfl
@[simp] theorem State.endCommand_wpRow (c : Code) (r0 r1 r2 r3 : Word) :
    (s.endCommand c r0 r1 r2 r3).wpRow = s.wpRow := rfl
@[simp] theorem State.endCommand_wpCol (c : Code) (r0 r1 r2 r3 : Word) :
    (s.endCommand c r0 r1 r2 r3).wpCol = s.wpCol := rfl
@[simp] theorem State.endCommand_trace (c : Code) (r0 r1 r2 r3 : Word) :
    (s.endCommand c r0 r1 r2 r3).trace = s.trace := rfl
@[simp] theorem State.endCommand_epoch (c : Code) (r0 r1 r2 r3 : Word) :
    (s.endCommand c r0 r1 r2 r3).epoch = s.epoch := rfl
@[simp] theorem State.endCommand_cfg (c : Code) (r0 r1 r2 r3 : Word) :
    (s.endCommand c r0 r1 r2 r3).cfg = s.cfg := rfl
@[simp] theorem State.endCommand_asset (c : Code) (r0 r1 r2 r3 : Word) :
    (s.endCommand c r0 r1 r2 r3).asset = s.asset := rfl
@[simp] theorem State.endCommand_assetDir (c : Code) (r0 r1 r2 r3 : Word) :
    (s.endCommand c r0 r1 r2 r3).assetDir = s.assetDir := rfl

/-! ### takePacket -/

@[simp] theorem State.takePacket_seq (rest : List Byte) :
    (s.takePacket rest).seq = .busy := rfl
@[simp] theorem State.takePacket_rx (rest : List Byte) :
    (s.takePacket rest).rx = [] := rfl
@[simp] theorem State.takePacket_port (rest : List Byte) :
    (s.takePacket rest).port = rest := rfl
@[simp] theorem State.takePacket_resetPin (rest : List Byte) :
    (s.takePacket rest).resetPin = s.resetPin := rfl
@[simp] theorem State.takePacket_resetAt (rest : List Byte) :
    (s.takePacket rest).resetAt = s.resetAt := rfl
@[simp] theorem State.takePacket_hangAt (rest : List Byte) :
    (s.takePacket rest).hangAt = s.hangAt := rfl
@[simp] theorem State.takePacket_code (rest : List Byte) :
    (s.takePacket rest).code = s.code := rfl
@[simp] theorem State.takePacket_res0 (rest : List Byte) :
    (s.takePacket rest).res0 = s.res0 := rfl
@[simp] theorem State.takePacket_res1 (rest : List Byte) :
    (s.takePacket rest).res1 = s.res1 := rfl
@[simp] theorem State.takePacket_res2 (rest : List Byte) :
    (s.takePacket rest).res2 = s.res2 := rfl
@[simp] theorem State.takePacket_res3 (rest : List Byte) :
    (s.takePacket rest).res3 = s.res3 := rfl
@[simp] theorem State.takePacket_inited (rest : List Byte) :
    (s.takePacket rest).inited = s.inited := rfl
@[simp] theorem State.takePacket_geomW (rest : List Byte) :
    (s.takePacket rest).geomW = s.geomW := rfl
@[simp] theorem State.takePacket_geomH (rest : List Byte) :
    (s.takePacket rest).geomH = s.geomH := rfl
@[simp] theorem State.takePacket_minTextX (rest : List Byte) :
    (s.takePacket rest).minTextX = s.minTextX := rfl
@[simp] theorem State.takePacket_maxTextX (rest : List Byte) :
    (s.takePacket rest).maxTextX = s.maxTextX := rfl
@[simp] theorem State.takePacket_minDispY (rest : List Byte) :
    (s.takePacket rest).minDispY = s.minDispY := rfl
@[simp] theorem State.takePacket_maxDispY (rest : List Byte) :
    (s.takePacket rest).maxDispY = s.maxDispY := rfl
@[simp] theorem State.takePacket_curX (rest : List Byte) :
    (s.takePacket rest).curX = s.curX := rfl
@[simp] theorem State.takePacket_curY (rest : List Byte) :
    (s.takePacket rest).curY = s.curY := rfl
@[simp] theorem State.takePacket_ctrl (rest : List Byte) :
    (s.takePacket rest).ctrl = s.ctrl := rfl
@[simp] theorem State.takePacket_trans (rest : List Byte) :
    (s.takePacket rest).trans = s.trans := rfl
@[simp] theorem State.takePacket_fontSel (rest : List Byte) :
    (s.takePacket rest).fontSel = s.fontSel := rfl
@[simp] theorem State.takePacket_qmark (rest : List Byte) :
    (s.takePacket rest).qmark = s.qmark := rfl
@[simp] theorem State.takePacket_fontBase (rest : List Byte) :
    (s.takePacket rest).fontBase = s.fontBase := rfl
@[simp] theorem State.takePacket_fontGh (rest : List Byte) :
    (s.takePacket rest).fontGh = s.fontGh := rfl
@[simp] theorem State.takePacket_fontTotal (rest : List Byte) :
    (s.takePacket rest).fontTotal = s.fontTotal := rfl
@[simp] theorem State.takePacket_fontDesc (rest : List Byte) :
    (s.takePacket rest).fontDesc = s.fontDesc := rfl
@[simp] theorem State.takePacket_iv (rest : List Byte) :
    (s.takePacket rest).iv = s.iv := rfl
@[simp] theorem State.takePacket_fb (rest : List Byte) :
    (s.takePacket rest).fb = s.fb := rfl
@[simp] theorem State.takePacket_shadow (rest : List Byte) :
    (s.takePacket rest).shadow = s.shadow := rfl
@[simp] theorem State.takePacket_xferBusy (rest : List Byte) :
    (s.takePacket rest).xferBusy = s.xferBusy := rfl
@[simp] theorem State.takePacket_stray (rest : List Byte) :
    (s.takePacket rest).stray = s.stray := rfl
@[simp] theorem State.takePacket_hung (rest : List Byte) :
    (s.takePacket rest).hung = s.hung := rfl
@[simp] theorem State.takePacket_stuck (rest : List Byte) :
    (s.takePacket rest).stuck = s.stuck := rfl
@[simp] theorem State.takePacket_stage0 (rest : List Byte) :
    (s.takePacket rest).stage0 = s.stage0 := rfl
@[simp] theorem State.takePacket_stage1 (rest : List Byte) :
    (s.takePacket rest).stage1 = s.stage1 := rfl
@[simp] theorem State.takePacket_line (rest : List Byte) :
    (s.takePacket rest).line = s.line := rfl
@[simp] theorem State.takePacket_disp (rest : List Byte) :
    (s.takePacket rest).disp = s.disp := rfl
@[simp] theorem State.takePacket_wpRow (rest : List Byte) :
    (s.takePacket rest).wpRow = s.wpRow := rfl
@[simp] theorem State.takePacket_wpCol (rest : List Byte) :
    (s.takePacket rest).wpCol = s.wpCol := rfl
@[simp] theorem State.takePacket_trace (rest : List Byte) :
    (s.takePacket rest).trace = s.trace := rfl
@[simp] theorem State.takePacket_epoch (rest : List Byte) :
    (s.takePacket rest).epoch = s.epoch := rfl
@[simp] theorem State.takePacket_cfg (rest : List Byte) :
    (s.takePacket rest).cfg = s.cfg := rfl
@[simp] theorem State.takePacket_asset (rest : List Byte) :
    (s.takePacket rest).asset = s.asset := rfl
@[simp] theorem State.takePacket_assetDir (rest : List Byte) :
    (s.takePacket rest).assetDir = s.assetDir := rfl

/-! ### haltIllegal -/

@[simp] theorem State.haltIllegal_seq (hdr : Word) (rest : List Byte) :
    (s.haltIllegal hdr rest).seq = .halted := rfl
@[simp] theorem State.haltIllegal_rx (hdr : Word) (rest : List Byte) :
    (s.haltIllegal hdr rest).rx = [] := rfl
@[simp] theorem State.haltIllegal_port (hdr : Word) (rest : List Byte) :
    (s.haltIllegal hdr rest).port = rest := rfl
@[simp] theorem State.haltIllegal_resetPin (hdr : Word) (rest : List Byte) :
    (s.haltIllegal hdr rest).resetPin = s.resetPin := rfl
@[simp] theorem State.haltIllegal_resetAt (hdr : Word) (rest : List Byte) :
    (s.haltIllegal hdr rest).resetAt = s.resetAt := rfl
@[simp] theorem State.haltIllegal_hangAt (hdr : Word) (rest : List Byte) :
    (s.haltIllegal hdr rest).hangAt = s.hangAt := rfl
@[simp] theorem State.haltIllegal_code (hdr : Word) (rest : List Byte) :
    (s.haltIllegal hdr rest).code = .errIllegal := rfl
@[simp] theorem State.haltIllegal_res0 (hdr : Word) (rest : List Byte) :
    (s.haltIllegal hdr rest).res0 = hdr := rfl
@[simp] theorem State.haltIllegal_res1 (hdr : Word) (rest : List Byte) :
    (s.haltIllegal hdr rest).res1 = 0#16 := rfl
@[simp] theorem State.haltIllegal_res2 (hdr : Word) (rest : List Byte) :
    (s.haltIllegal hdr rest).res2 = 0#16 := rfl
@[simp] theorem State.haltIllegal_res3 (hdr : Word) (rest : List Byte) :
    (s.haltIllegal hdr rest).res3 = 0#16 := rfl
@[simp] theorem State.haltIllegal_inited (hdr : Word) (rest : List Byte) :
    (s.haltIllegal hdr rest).inited = s.inited := rfl
@[simp] theorem State.haltIllegal_geomW (hdr : Word) (rest : List Byte) :
    (s.haltIllegal hdr rest).geomW = s.geomW := rfl
@[simp] theorem State.haltIllegal_geomH (hdr : Word) (rest : List Byte) :
    (s.haltIllegal hdr rest).geomH = s.geomH := rfl
@[simp] theorem State.haltIllegal_minTextX (hdr : Word) (rest : List Byte) :
    (s.haltIllegal hdr rest).minTextX = s.minTextX := rfl
@[simp] theorem State.haltIllegal_maxTextX (hdr : Word) (rest : List Byte) :
    (s.haltIllegal hdr rest).maxTextX = s.maxTextX := rfl
@[simp] theorem State.haltIllegal_minDispY (hdr : Word) (rest : List Byte) :
    (s.haltIllegal hdr rest).minDispY = s.minDispY := rfl
@[simp] theorem State.haltIllegal_maxDispY (hdr : Word) (rest : List Byte) :
    (s.haltIllegal hdr rest).maxDispY = s.maxDispY := rfl
@[simp] theorem State.haltIllegal_curX (hdr : Word) (rest : List Byte) :
    (s.haltIllegal hdr rest).curX = s.curX := rfl
@[simp] theorem State.haltIllegal_curY (hdr : Word) (rest : List Byte) :
    (s.haltIllegal hdr rest).curY = s.curY := rfl
@[simp] theorem State.haltIllegal_ctrl (hdr : Word) (rest : List Byte) :
    (s.haltIllegal hdr rest).ctrl = s.ctrl := rfl
@[simp] theorem State.haltIllegal_trans (hdr : Word) (rest : List Byte) :
    (s.haltIllegal hdr rest).trans = s.trans := rfl
@[simp] theorem State.haltIllegal_fontSel (hdr : Word) (rest : List Byte) :
    (s.haltIllegal hdr rest).fontSel = s.fontSel := rfl
@[simp] theorem State.haltIllegal_qmark (hdr : Word) (rest : List Byte) :
    (s.haltIllegal hdr rest).qmark = s.qmark := rfl
@[simp] theorem State.haltIllegal_fontBase (hdr : Word) (rest : List Byte) :
    (s.haltIllegal hdr rest).fontBase = s.fontBase := rfl
@[simp] theorem State.haltIllegal_fontGh (hdr : Word) (rest : List Byte) :
    (s.haltIllegal hdr rest).fontGh = s.fontGh := rfl
@[simp] theorem State.haltIllegal_fontTotal (hdr : Word) (rest : List Byte) :
    (s.haltIllegal hdr rest).fontTotal = s.fontTotal := rfl
@[simp] theorem State.haltIllegal_fontDesc (hdr : Word) (rest : List Byte) :
    (s.haltIllegal hdr rest).fontDesc = s.fontDesc := rfl
@[simp] theorem State.haltIllegal_iv (hdr : Word) (rest : List Byte) :
    (s.haltIllegal hdr rest).iv = s.iv := rfl
@[simp] theorem State.haltIllegal_fb (hdr : Word) (rest : List Byte) :
    (s.haltIllegal hdr rest).fb = s.fb := rfl
@[simp] theorem State.haltIllegal_shadow (hdr : Word) (rest : List Byte) :
    (s.haltIllegal hdr rest).shadow = s.shadow := rfl
@[simp] theorem State.haltIllegal_xferBusy (hdr : Word) (rest : List Byte) :
    (s.haltIllegal hdr rest).xferBusy = s.xferBusy := rfl
@[simp] theorem State.haltIllegal_stray (hdr : Word) (rest : List Byte) :
    (s.haltIllegal hdr rest).stray = s.stray := rfl
@[simp] theorem State.haltIllegal_hung (hdr : Word) (rest : List Byte) :
    (s.haltIllegal hdr rest).hung = s.hung := rfl
@[simp] theorem State.haltIllegal_stuck (hdr : Word) (rest : List Byte) :
    (s.haltIllegal hdr rest).stuck = s.stuck := rfl
@[simp] theorem State.haltIllegal_stage0 (hdr : Word) (rest : List Byte) :
    (s.haltIllegal hdr rest).stage0 = s.stage0 := rfl
@[simp] theorem State.haltIllegal_stage1 (hdr : Word) (rest : List Byte) :
    (s.haltIllegal hdr rest).stage1 = s.stage1 := rfl
@[simp] theorem State.haltIllegal_line (hdr : Word) (rest : List Byte) :
    (s.haltIllegal hdr rest).line = s.line := rfl
@[simp] theorem State.haltIllegal_disp (hdr : Word) (rest : List Byte) :
    (s.haltIllegal hdr rest).disp = s.disp := rfl
@[simp] theorem State.haltIllegal_wpRow (hdr : Word) (rest : List Byte) :
    (s.haltIllegal hdr rest).wpRow = s.wpRow := rfl
@[simp] theorem State.haltIllegal_wpCol (hdr : Word) (rest : List Byte) :
    (s.haltIllegal hdr rest).wpCol = s.wpCol := rfl
@[simp] theorem State.haltIllegal_trace (hdr : Word) (rest : List Byte) :
    (s.haltIllegal hdr rest).trace = s.trace := rfl
@[simp] theorem State.haltIllegal_epoch (hdr : Word) (rest : List Byte) :
    (s.haltIllegal hdr rest).epoch = s.epoch := rfl
@[simp] theorem State.haltIllegal_cfg (hdr : Word) (rest : List Byte) :
    (s.haltIllegal hdr rest).cfg = s.cfg := rfl
@[simp] theorem State.haltIllegal_asset (hdr : Word) (rest : List Byte) :
    (s.haltIllegal hdr rest).asset = s.asset := rfl
@[simp] theorem State.haltIllegal_assetDir (hdr : Word) (rest : List Byte) :
    (s.haltIllegal hdr rest).assetDir = s.assetDir := rfl

/-! ### waitForBytes -/

@[simp] theorem State.waitForBytes_seq :
    (s.waitForBytes).seq = if (s.rx ++ s.port).isEmpty then .idle else .busy := rfl
@[simp] theorem State.waitForBytes_rx :
    (s.waitForBytes).rx = s.rx ++ s.port := rfl
@[simp] theorem State.waitForBytes_port :
    (s.waitForBytes).port = [] := rfl
@[simp] theorem State.waitForBytes_resetPin :
    (s.waitForBytes).resetPin = s.resetPin := rfl
@[simp] theorem State.waitForBytes_resetAt :
    (s.waitForBytes).resetAt = s.resetAt := rfl
@[simp] theorem State.waitForBytes_hangAt :
    (s.waitForBytes).hangAt = s.hangAt := rfl
@[simp] theorem State.waitForBytes_code :
    (s.waitForBytes).code = s.code := rfl
@[simp] theorem State.waitForBytes_res0 :
    (s.waitForBytes).res0 = s.res0 := rfl
@[simp] theorem State.waitForBytes_res1 :
    (s.waitForBytes).res1 = s.res1 := rfl
@[simp] theorem State.waitForBytes_res2 :
    (s.waitForBytes).res2 = s.res2 := rfl
@[simp] theorem State.waitForBytes_res3 :
    (s.waitForBytes).res3 = s.res3 := rfl
@[simp] theorem State.waitForBytes_inited :
    (s.waitForBytes).inited = s.inited := rfl
@[simp] theorem State.waitForBytes_geomW :
    (s.waitForBytes).geomW = s.geomW := rfl
@[simp] theorem State.waitForBytes_geomH :
    (s.waitForBytes).geomH = s.geomH := rfl
@[simp] theorem State.waitForBytes_minTextX :
    (s.waitForBytes).minTextX = s.minTextX := rfl
@[simp] theorem State.waitForBytes_maxTextX :
    (s.waitForBytes).maxTextX = s.maxTextX := rfl
@[simp] theorem State.waitForBytes_minDispY :
    (s.waitForBytes).minDispY = s.minDispY := rfl
@[simp] theorem State.waitForBytes_maxDispY :
    (s.waitForBytes).maxDispY = s.maxDispY := rfl
@[simp] theorem State.waitForBytes_curX :
    (s.waitForBytes).curX = s.curX := rfl
@[simp] theorem State.waitForBytes_curY :
    (s.waitForBytes).curY = s.curY := rfl
@[simp] theorem State.waitForBytes_ctrl :
    (s.waitForBytes).ctrl = s.ctrl := rfl
@[simp] theorem State.waitForBytes_trans :
    (s.waitForBytes).trans = s.trans := rfl
@[simp] theorem State.waitForBytes_fontSel :
    (s.waitForBytes).fontSel = s.fontSel := rfl
@[simp] theorem State.waitForBytes_qmark :
    (s.waitForBytes).qmark = s.qmark := rfl
@[simp] theorem State.waitForBytes_fontBase :
    (s.waitForBytes).fontBase = s.fontBase := rfl
@[simp] theorem State.waitForBytes_fontGh :
    (s.waitForBytes).fontGh = s.fontGh := rfl
@[simp] theorem State.waitForBytes_fontTotal :
    (s.waitForBytes).fontTotal = s.fontTotal := rfl
@[simp] theorem State.waitForBytes_fontDesc :
    (s.waitForBytes).fontDesc = s.fontDesc := rfl
@[simp] theorem State.waitForBytes_iv :
    (s.waitForBytes).iv = s.iv := rfl
@[simp] theorem State.waitForBytes_fb :
    (s.waitForBytes).fb = s.fb := rfl
@[simp] theorem State.waitForBytes_shadow :
    (s.waitForBytes).shadow = s.shadow := rfl
@[simp] theorem State.waitForBytes_xferBusy :
    (s.waitForBytes).xferBusy = s.xferBusy := rfl
@[simp] theorem State.waitForBytes_stray :
    (s.waitForBytes).stray = s.stray := rfl
@[simp] theorem State.waitForBytes_hung :
    (s.waitForBytes).hung = s.hung := rfl
@[simp] theorem State.waitForBytes_stuck :
    (s.waitForBytes).stuck = s.stuck := rfl
@[simp] theorem State.waitForBytes_stage0 :
    (s.waitForBytes).stage0 = s.stage0 := rfl
@[simp] theorem State.waitForBytes_stage1 :
    (s.waitForBytes).stage1 = s.stage1 := rfl
@[simp] theorem State.waitForBytes_line :
    (s.waitForBytes).line = s.line := rfl
@[simp] theorem State.waitForBytes_disp :
    (s.waitForBytes).disp = s.disp := rfl
@[simp] theorem State.waitForBytes_wpRow :
    (s.waitForBytes).wpRow = s.wpRow := rfl
@[simp] theorem State.waitForBytes_wpCol :
    (s.waitForBytes).wpCol = s.wpCol := rfl
@[simp] theorem State.waitForBytes_trace :
    (s.waitForBytes).trace = s.trace := rfl
@[simp] theorem State.waitForBytes_epoch :
    (s.waitForBytes).epoch = s.epoch := rfl
@[simp] theorem State.waitForBytes_cfg :
    (s.waitForBytes).cfg = s.cfg := rfl
@[simp] theorem State.waitForBytes_asset :
    (s.waitForBytes).asset = s.asset := rfl
@[simp] theorem State.waitForBytes_assetDir :
    (s.waitForBytes).assetDir = s.assetDir := rfl

/-! ### newLine -/

@[simp] theorem State.newLine_seq :
    (s.newLine).seq = s.seq := rfl
@[simp] theorem State.newLine_rx :
    (s.newLine).rx = s.rx := rfl
@[simp] theorem State.newLine_port :
    (s.newLine).port = s.port := rfl
@[simp] theorem State.newLine_resetPin :
    (s.newLine).resetPin = s.resetPin := rfl
@[simp] theorem State.newLine_resetAt :
    (s.newLine).resetAt = s.resetAt := rfl
@[simp] theorem State.newLine_hangAt :
    (s.newLine).hangAt = s.hangAt := rfl
@[simp] theorem State.newLine_code :
    (s.newLine).code = s.code := rfl
@[simp] theorem State.newLine_res0 :
    (s.newLine).res0 = s.res0 := rfl
@[simp] theorem State.newLine_res1 :
    (s.newLine).res1 = s.res1 := rfl
@[simp] theorem State.newLine_res2 :
    (s.newLine).res2 = s.res2 := rfl
@[simp] theorem State.newLine_res3 :
    (s.newLine).res3 = s.res3 := rfl
@[simp] theorem State.newLine_inited :
    (s.newLine).inited = s.inited := rfl
@[simp] theorem State.newLine_geomW :
    (s.newLine).geomW = s.geomW := rfl
@[simp] theorem State.newLine_geomH :
    (s.newLine).geomH = s.geomH := rfl
@[simp] theorem State.newLine_minTextX :
    (s.newLine).minTextX = s.minTextX := rfl
@[simp] theorem State.newLine_maxTextX :
    (s.newLine).maxTextX = s.maxTextX := rfl
@[simp] theorem State.newLine_minDispY :
    (s.newLine).minDispY = s.minDispY := rfl
@[simp] theorem State.newLine_maxDispY :
    (s.newLine).maxDispY = s.maxDispY := rfl
@[simp] theorem State.newLine_curX :
    (s.newLine).curX = 0#16 := rfl
@[simp] theorem State.newLine_curY :
    (s.newLine).curY = reg16 (s16 s.curY + s.fontGh.toNat) := rfl
@[simp] theorem State.newLine_ctrl :
    (s.newLine).ctrl = s.ctrl := rfl
@[simp] theorem State.newLine_trans :
    (s.newLine).trans = s.trans := rfl
@[simp] theorem State.newLine_fontSel :
    (s.newLine).fontSel = s.fontSel := rfl
@[simp] theorem State.newLine_qmark :
    (s.newLine).qmark = s.qmark := rfl
@[simp] theorem State.newLine_fontBase :
    (s.newLine).fontBase = s.fontBase := rfl
@[simp] theorem State.newLine_fontGh :
    (s.newLine).fontGh = s.fontGh := rfl
@[simp] theorem State.newLine_fontTotal :
    (s.newLine).fontTotal = s.fontTotal := rfl
@[simp] theorem State.newLine_fontDesc :
    (s.newLine).fontDesc = s.fontDesc := rfl
@[simp] theorem State.newLine_iv :
    (s.newLine).iv = s.iv := rfl
@[simp] theorem State.newLine_fb :
    (s.newLine).fb = s.fb := rfl
@[simp] theorem State.newLine_shadow :
    (s.newLine).shadow = s.shadow := rfl
@[simp] theorem State.newLine_xferBusy :
    (s.newLine).xferBusy = s.xferBusy := rfl
@[simp] theorem State.newLine_stray :
    (s.newLine).stray = s.stray := rfl
@[simp] theorem State.newLine_hung :
    (s.newLine).hung = s.hung := rfl
@[simp] theorem State.newLine_stuck :
    (s.newLine).stuck = s.stuck := rfl
@[simp] theorem State.newLine_stage0 :
    (s.newLine).stage0 = s.stage0 := rfl
@[simp] theorem State.newLine_stage1 :
    (s.newLine).stage1 = s.stage1 := rfl
@[simp] theorem State.newLine_line :
    (s.newLine).line = s.line := rfl
@[simp] theorem State.newLine_disp :
    (s.newLine).disp = s.disp := rfl
@[simp] theorem State.newLine_wpRow :
    (s.newLine).wpRow = s.wpRow := rfl
@[simp] theorem State.newLine_wpCol :
    (s.newLine).wpCol = s.wpCol := rfl
@[simp] theorem State.newLine_trace :
    (s.newLine).trace = s.trace := rfl
@[simp] theorem State.newLine_epoch :
    (s.newLine).epoch = s.epoch := rfl
@[simp] theorem State.newLine_cfg :
    (s.newLine).cfg = s.cfg := rfl
@[simp] theorem State.newLine_asset :
    (s.newLine).asset = s.asset := rfl
@[simp] theorem State.newLine_assetDir :
    (s.newLine).assetDir = s.assetDir := rfl

/-! ### zeroStorage -/

@[simp] theorem State.zeroStorage_seq :
    (s.zeroStorage).seq = s.seq := rfl
@[simp] theorem State.zeroStorage_rx :
    (s.zeroStorage).rx = s.rx := rfl
@[simp] theorem State.zeroStorage_port :
    (s.zeroStorage).port = s.port := rfl
@[simp] theorem State.zeroStorage_resetPin :
    (s.zeroStorage).resetPin = s.resetPin := rfl
@[simp] theorem State.zeroStorage_resetAt :
    (s.zeroStorage).resetAt = s.resetAt := rfl
@[simp] theorem State.zeroStorage_hangAt :
    (s.zeroStorage).hangAt = s.hangAt := rfl
@[simp] theorem State.zeroStorage_code :
    (s.zeroStorage).code = s.code := rfl
@[simp] theorem State.zeroStorage_res0 :
    (s.zeroStorage).res0 = s.res0 := rfl
@[simp] theorem State.zeroStorage_res1 :
    (s.zeroStorage).res1 = s.res1 := rfl
@[simp] theorem State.zeroStorage_res2 :
    (s.zeroStorage).res2 = s.res2 := rfl
@[simp] theorem State.zeroStorage_res3 :
    (s.zeroStorage).res3 = s.res3 := rfl
@[simp] theorem State.zeroStorage_inited :
    (s.zeroStorage).inited = s.inited := rfl
@[simp] theorem State.zeroStorage_geomW :
    (s.zeroStorage).geomW = s.geomW := rfl
@[simp] theorem State.zeroStorage_geomH :
    (s.zeroStorage).geomH = s.geomH := rfl
@[simp] theorem State.zeroStorage_minTextX :
    (s.zeroStorage).minTextX = s.minTextX := rfl
@[simp] theorem State.zeroStorage_maxTextX :
    (s.zeroStorage).maxTextX = s.maxTextX := rfl
@[simp] theorem State.zeroStorage_minDispY :
    (s.zeroStorage).minDispY = s.minDispY := rfl
@[simp] theorem State.zeroStorage_maxDispY :
    (s.zeroStorage).maxDispY = s.maxDispY := rfl
@[simp] theorem State.zeroStorage_curX :
    (s.zeroStorage).curX = s.curX := rfl
@[simp] theorem State.zeroStorage_curY :
    (s.zeroStorage).curY = s.curY := rfl
@[simp] theorem State.zeroStorage_ctrl :
    (s.zeroStorage).ctrl = s.ctrl := rfl
@[simp] theorem State.zeroStorage_trans :
    (s.zeroStorage).trans = s.trans := rfl
@[simp] theorem State.zeroStorage_fontSel :
    (s.zeroStorage).fontSel = s.fontSel := rfl
@[simp] theorem State.zeroStorage_qmark :
    (s.zeroStorage).qmark = s.qmark := rfl
@[simp] theorem State.zeroStorage_fontBase :
    (s.zeroStorage).fontBase = s.fontBase := rfl
@[simp] theorem State.zeroStorage_fontGh :
    (s.zeroStorage).fontGh = s.fontGh := rfl
@[simp] theorem State.zeroStorage_fontTotal :
    (s.zeroStorage).fontTotal = s.fontTotal := rfl
@[simp] theorem State.zeroStorage_fontDesc :
    (s.zeroStorage).fontDesc = s.fontDesc := rfl
@[simp] theorem State.zeroStorage_iv :
    (s.zeroStorage).iv = s.iv := rfl
@[simp] theorem State.zeroStorage_fb :
    (s.zeroStorage).fb = if s.cfg.hasFb then Memory.filled (s.height * s.bpr) 0x00#8 else s.fb := rfl
@[simp] theorem State.zeroStorage_shadow :
    (s.zeroStorage).shadow = emptyShadow s.height := rfl
@[simp] theorem State.zeroStorage_xferBusy :
    (s.zeroStorage).xferBusy = s.xferBusy := rfl
@[simp] theorem State.zeroStorage_stray :
    (s.zeroStorage).stray = s.stray := rfl
@[simp] theorem State.zeroStorage_hung :
    (s.zeroStorage).hung = s.hung := rfl
@[simp] theorem State.zeroStorage_stuck :
    (s.zeroStorage).stuck = s.stuck := rfl
@[simp] theorem State.zeroStorage_stage0 :
    (s.zeroStorage).stage0 = s.stage0 := rfl
@[simp] theorem State.zeroStorage_stage1 :
    (s.zeroStorage).stage1 = s.stage1 := rfl
@[simp] theorem State.zeroStorage_line :
    (s.zeroStorage).line = s.line := rfl
@[simp] theorem State.zeroStorage_disp :
    (s.zeroStorage).disp = s.disp := rfl
@[simp] theorem State.zeroStorage_wpRow :
    (s.zeroStorage).wpRow = s.wpRow := rfl
@[simp] theorem State.zeroStorage_wpCol :
    (s.zeroStorage).wpCol = s.wpCol := rfl
@[simp] theorem State.zeroStorage_trace :
    (s.zeroStorage).trace = s.trace := rfl
@[simp] theorem State.zeroStorage_epoch :
    (s.zeroStorage).epoch = s.epoch := rfl
@[simp] theorem State.zeroStorage_cfg :
    (s.zeroStorage).cfg = s.cfg := rfl
@[simp] theorem State.zeroStorage_asset :
    (s.zeroStorage).asset = s.asset := rfl
@[simp] theorem State.zeroStorage_assetDir :
    (s.zeroStorage).assetDir = s.assetDir := rfl

/-! ### dmaWait -/

@[simp] theorem State.dmaWait_seq :
    (s.dmaWait).seq = s.seq := rfl
@[simp] theorem State.dmaWait_rx :
    (s.dmaWait).rx = s.rx := rfl
@[simp] theorem State.dmaWait_port :
    (s.dmaWait).port = s.port := rfl
@[simp] theorem State.dmaWait_resetPin :
    (s.dmaWait).resetPin = s.resetPin := rfl
@[simp] theorem State.dmaWait_resetAt :
    (s.dmaWait).resetAt = s.resetAt := rfl
@[simp] theorem State.dmaWait_hangAt :
    (s.dmaWait).hangAt = s.hangAt := rfl
@[simp] theorem State.dmaWait_code :
    (s.dmaWait).code = s.code := rfl
@[simp] theorem State.dmaWait_res0 :
    (s.dmaWait).res0 = s.res0 := rfl
@[simp] theorem State.dmaWait_res1 :
    (s.dmaWait).res1 = s.res1 := rfl
@[simp] theorem State.dmaWait_res2 :
    (s.dmaWait).res2 = s.res2 := rfl
@[simp] theorem State.dmaWait_res3 :
    (s.dmaWait).res3 = s.res3 := rfl
@[simp] theorem State.dmaWait_inited :
    (s.dmaWait).inited = s.inited := rfl
@[simp] theorem State.dmaWait_geomW :
    (s.dmaWait).geomW = s.geomW := rfl
@[simp] theorem State.dmaWait_geomH :
    (s.dmaWait).geomH = s.geomH := rfl
@[simp] theorem State.dmaWait_minTextX :
    (s.dmaWait).minTextX = s.minTextX := rfl
@[simp] theorem State.dmaWait_maxTextX :
    (s.dmaWait).maxTextX = s.maxTextX := rfl
@[simp] theorem State.dmaWait_minDispY :
    (s.dmaWait).minDispY = s.minDispY := rfl
@[simp] theorem State.dmaWait_maxDispY :
    (s.dmaWait).maxDispY = s.maxDispY := rfl
@[simp] theorem State.dmaWait_curX :
    (s.dmaWait).curX = s.curX := rfl
@[simp] theorem State.dmaWait_curY :
    (s.dmaWait).curY = s.curY := rfl
@[simp] theorem State.dmaWait_ctrl :
    (s.dmaWait).ctrl = s.ctrl := rfl
@[simp] theorem State.dmaWait_trans :
    (s.dmaWait).trans = s.trans := rfl
@[simp] theorem State.dmaWait_fontSel :
    (s.dmaWait).fontSel = s.fontSel := rfl
@[simp] theorem State.dmaWait_qmark :
    (s.dmaWait).qmark = s.qmark := rfl
@[simp] theorem State.dmaWait_fontBase :
    (s.dmaWait).fontBase = s.fontBase := rfl
@[simp] theorem State.dmaWait_fontGh :
    (s.dmaWait).fontGh = s.fontGh := rfl
@[simp] theorem State.dmaWait_fontTotal :
    (s.dmaWait).fontTotal = s.fontTotal := rfl
@[simp] theorem State.dmaWait_fontDesc :
    (s.dmaWait).fontDesc = s.fontDesc := rfl
@[simp] theorem State.dmaWait_iv :
    (s.dmaWait).iv = s.iv := rfl
@[simp] theorem State.dmaWait_fb :
    (s.dmaWait).fb = s.fb := rfl
@[simp] theorem State.dmaWait_shadow :
    (s.dmaWait).shadow = s.shadow := rfl
@[simp] theorem State.dmaWait_xferBusy :
    (s.dmaWait).xferBusy = false := rfl
@[simp] theorem State.dmaWait_stray :
    (s.dmaWait).stray = s.stray := rfl
@[simp] theorem State.dmaWait_hung :
    (s.dmaWait).hung = s.hung := rfl
@[simp] theorem State.dmaWait_stuck :
    (s.dmaWait).stuck = if s.xferBusy && s.channelDead then some (s.stuck.getD s.polling) else s.stuck := rfl
@[simp] theorem State.dmaWait_stage0 :
    (s.dmaWait).stage0 = s.stage0 := rfl
@[simp] theorem State.dmaWait_stage1 :
    (s.dmaWait).stage1 = s.stage1 := rfl
@[simp] theorem State.dmaWait_line :
    (s.dmaWait).line = s.line := rfl
@[simp] theorem State.dmaWait_disp :
    (s.dmaWait).disp = s.disp := rfl
@[simp] theorem State.dmaWait_wpRow :
    (s.dmaWait).wpRow = s.wpRow := rfl
@[simp] theorem State.dmaWait_wpCol :
    (s.dmaWait).wpCol = s.wpCol := rfl
@[simp] theorem State.dmaWait_trace :
    (s.dmaWait).trace = if s.xferBusy then s.trace ++ [.dmaDone] else s.trace := rfl
@[simp] theorem State.dmaWait_epoch :
    (s.dmaWait).epoch = s.epoch := rfl
@[simp] theorem State.dmaWait_cfg :
    (s.dmaWait).cfg = s.cfg := rfl
@[simp] theorem State.dmaWait_asset :
    (s.dmaWait).asset = s.asset := rfl
@[simp] theorem State.dmaWait_assetDir :
    (s.dmaWait).assetDir = s.assetDir := rfl

/-! ### setStage -/

@[simp] theorem State.setStage_seq (k : Nat) (bytes : List Byte) :
    (s.setStage k bytes).seq = s.seq := rfl
@[simp] theorem State.setStage_rx (k : Nat) (bytes : List Byte) :
    (s.setStage k bytes).rx = s.rx := rfl
@[simp] theorem State.setStage_port (k : Nat) (bytes : List Byte) :
    (s.setStage k bytes).port = s.port := rfl
@[simp] theorem State.setStage_resetPin (k : Nat) (bytes : List Byte) :
    (s.setStage k bytes).resetPin = s.resetPin := rfl
@[simp] theorem State.setStage_resetAt (k : Nat) (bytes : List Byte) :
    (s.setStage k bytes).resetAt = s.resetAt := rfl
@[simp] theorem State.setStage_hangAt (k : Nat) (bytes : List Byte) :
    (s.setStage k bytes).hangAt = s.hangAt := rfl
@[simp] theorem State.setStage_code (k : Nat) (bytes : List Byte) :
    (s.setStage k bytes).code = s.code := rfl
@[simp] theorem State.setStage_res0 (k : Nat) (bytes : List Byte) :
    (s.setStage k bytes).res0 = s.res0 := rfl
@[simp] theorem State.setStage_res1 (k : Nat) (bytes : List Byte) :
    (s.setStage k bytes).res1 = s.res1 := rfl
@[simp] theorem State.setStage_res2 (k : Nat) (bytes : List Byte) :
    (s.setStage k bytes).res2 = s.res2 := rfl
@[simp] theorem State.setStage_res3 (k : Nat) (bytes : List Byte) :
    (s.setStage k bytes).res3 = s.res3 := rfl
@[simp] theorem State.setStage_inited (k : Nat) (bytes : List Byte) :
    (s.setStage k bytes).inited = s.inited := rfl
@[simp] theorem State.setStage_geomW (k : Nat) (bytes : List Byte) :
    (s.setStage k bytes).geomW = s.geomW := rfl
@[simp] theorem State.setStage_geomH (k : Nat) (bytes : List Byte) :
    (s.setStage k bytes).geomH = s.geomH := rfl
@[simp] theorem State.setStage_minTextX (k : Nat) (bytes : List Byte) :
    (s.setStage k bytes).minTextX = s.minTextX := rfl
@[simp] theorem State.setStage_maxTextX (k : Nat) (bytes : List Byte) :
    (s.setStage k bytes).maxTextX = s.maxTextX := rfl
@[simp] theorem State.setStage_minDispY (k : Nat) (bytes : List Byte) :
    (s.setStage k bytes).minDispY = s.minDispY := rfl
@[simp] theorem State.setStage_maxDispY (k : Nat) (bytes : List Byte) :
    (s.setStage k bytes).maxDispY = s.maxDispY := rfl
@[simp] theorem State.setStage_curX (k : Nat) (bytes : List Byte) :
    (s.setStage k bytes).curX = s.curX := rfl
@[simp] theorem State.setStage_curY (k : Nat) (bytes : List Byte) :
    (s.setStage k bytes).curY = s.curY := rfl
@[simp] theorem State.setStage_ctrl (k : Nat) (bytes : List Byte) :
    (s.setStage k bytes).ctrl = s.ctrl := rfl
@[simp] theorem State.setStage_trans (k : Nat) (bytes : List Byte) :
    (s.setStage k bytes).trans = s.trans := rfl
@[simp] theorem State.setStage_fontSel (k : Nat) (bytes : List Byte) :
    (s.setStage k bytes).fontSel = s.fontSel := rfl
@[simp] theorem State.setStage_qmark (k : Nat) (bytes : List Byte) :
    (s.setStage k bytes).qmark = s.qmark := rfl
@[simp] theorem State.setStage_fontBase (k : Nat) (bytes : List Byte) :
    (s.setStage k bytes).fontBase = s.fontBase := rfl
@[simp] theorem State.setStage_fontGh (k : Nat) (bytes : List Byte) :
    (s.setStage k bytes).fontGh = s.fontGh := rfl
@[simp] theorem State.setStage_fontTotal (k : Nat) (bytes : List Byte) :
    (s.setStage k bytes).fontTotal = s.fontTotal := rfl
@[simp] theorem State.setStage_fontDesc (k : Nat) (bytes : List Byte) :
    (s.setStage k bytes).fontDesc = s.fontDesc := rfl
@[simp] theorem State.setStage_iv (k : Nat) (bytes : List Byte) :
    (s.setStage k bytes).iv = s.iv := rfl
@[simp] theorem State.setStage_fb (k : Nat) (bytes : List Byte) :
    (s.setStage k bytes).fb = s.fb := rfl
@[simp] theorem State.setStage_shadow (k : Nat) (bytes : List Byte) :
    (s.setStage k bytes).shadow = s.shadow := rfl
@[simp] theorem State.setStage_xferBusy (k : Nat) (bytes : List Byte) :
    (s.setStage k bytes).xferBusy = s.xferBusy := rfl
@[simp] theorem State.setStage_stray (k : Nat) (bytes : List Byte) :
    (s.setStage k bytes).stray = s.stray := rfl
@[simp] theorem State.setStage_hung (k : Nat) (bytes : List Byte) :
    (s.setStage k bytes).hung = s.hung := rfl
@[simp] theorem State.setStage_stuck (k : Nat) (bytes : List Byte) :
    (s.setStage k bytes).stuck = s.stuck := rfl
@[simp] theorem State.setStage_stage0 (k : Nat) (bytes : List Byte) :
    (s.setStage k bytes).stage0 = if k = 0 then overlay (bytes.take s.cfg.stageSize) s.stage0 else s.stage0 := rfl
@[simp] theorem State.setStage_stage1 (k : Nat) (bytes : List Byte) :
    (s.setStage k bytes).stage1 = if k = 0 then s.stage1 else overlay (bytes.take s.cfg.stageSize) s.stage1 := rfl
@[simp] theorem State.setStage_line (k : Nat) (bytes : List Byte) :
    (s.setStage k bytes).line = s.line := rfl
@[simp] theorem State.setStage_disp (k : Nat) (bytes : List Byte) :
    (s.setStage k bytes).disp = s.disp := rfl
@[simp] theorem State.setStage_wpRow (k : Nat) (bytes : List Byte) :
    (s.setStage k bytes).wpRow = s.wpRow := rfl
@[simp] theorem State.setStage_wpCol (k : Nat) (bytes : List Byte) :
    (s.setStage k bytes).wpCol = s.wpCol := rfl
@[simp] theorem State.setStage_trace (k : Nat) (bytes : List Byte) :
    (s.setStage k bytes).trace = s.trace := rfl
@[simp] theorem State.setStage_epoch (k : Nat) (bytes : List Byte) :
    (s.setStage k bytes).epoch = s.epoch := rfl
@[simp] theorem State.setStage_cfg (k : Nat) (bytes : List Byte) :
    (s.setStage k bytes).cfg = s.cfg := rfl
@[simp] theorem State.setStage_asset (k : Nat) (bytes : List Byte) :
    (s.setStage k bytes).asset = s.asset := rfl
@[simp] theorem State.setStage_assetDir (k : Nat) (bytes : List Byte) :
    (s.setStage k bytes).assetDir = s.assetDir := rfl

@[simp] theorem State.setPix_width (x y : Nat) (p : Nibble) :
    (s.setPix x y p).width = s.width := rfl
@[simp] theorem State.setPix_height (x y : Nat) (p : Nibble) :
    (s.setPix x y p).height = s.height := rfl
@[simp] theorem State.setPix_bpr (x y : Nat) (p : Nibble) :
    (s.setPix x y p).bpr = s.bpr := rfl
@[simp] theorem State.setPix_wrap (x y : Nat) (p : Nibble) :
    (s.setPix x y p).wrap = s.wrap := rfl
@[simp] theorem State.setPix_lf (x y : Nat) (p : Nibble) :
    (s.setPix x y p).lf = s.lf := rfl
@[simp] theorem State.setPix_cr (x y : Nat) (p : Nibble) :
    (s.setPix x y p).cr = s.cr := rfl
@[simp] theorem State.setPix_partialX (x y : Nat) (p : Nibble) :
    (s.setPix x y p).partialX = s.partialX := rfl
@[simp] theorem State.setPix_partialY (x y : Nat) (p : Nibble) :
    (s.setPix x y p).partialY = s.partialY := rfl
@[simp] theorem State.setPix_offset (x y : Nat) (p : Nibble) (row col : Nat) :
    (s.setPix x y p).offset row col = s.offset row col := rfl

@[simp] theorem State.storeShadow_width (y b : Nat) (v : Byte) :
    (s.storeShadow y b v).width = s.width := rfl
@[simp] theorem State.storeShadow_height (y b : Nat) (v : Byte) :
    (s.storeShadow y b v).height = s.height := rfl
@[simp] theorem State.storeShadow_bpr (y b : Nat) (v : Byte) :
    (s.storeShadow y b v).bpr = s.bpr := rfl
@[simp] theorem State.storeShadow_wrap (y b : Nat) (v : Byte) :
    (s.storeShadow y b v).wrap = s.wrap := rfl
@[simp] theorem State.storeShadow_lf (y b : Nat) (v : Byte) :
    (s.storeShadow y b v).lf = s.lf := rfl
@[simp] theorem State.storeShadow_cr (y b : Nat) (v : Byte) :
    (s.storeShadow y b v).cr = s.cr := rfl
@[simp] theorem State.storeShadow_partialX (y b : Nat) (v : Byte) :
    (s.storeShadow y b v).partialX = s.partialX := rfl
@[simp] theorem State.storeShadow_partialY (y b : Nat) (v : Byte) :
    (s.storeShadow y b v).partialY = s.partialY := rfl
@[simp] theorem State.storeShadow_offset (y b : Nat) (v : Byte) (row col : Nat) :
    (s.storeShadow y b v).offset row col = s.offset row col := rfl

@[simp] theorem State.emit_width (e : Event) :
    (s.emit e).width = s.width := rfl
@[simp] theorem State.emit_height (e : Event) :
    (s.emit e).height = s.height := rfl
@[simp] theorem State.emit_bpr (e : Event) :
    (s.emit e).bpr = s.bpr := rfl
@[simp] theorem State.emit_wrap (e : Event) :
    (s.emit e).wrap = s.wrap := rfl
@[simp] theorem State.emit_lf (e : Event) :
    (s.emit e).lf = s.lf := rfl
@[simp] theorem State.emit_cr (e : Event) :
    (s.emit e).cr = s.cr := rfl
@[simp] theorem State.emit_partialX (e : Event) :
    (s.emit e).partialX = s.partialX := rfl
@[simp] theorem State.emit_partialY (e : Event) :
    (s.emit e).partialY = s.partialY := rfl
@[simp] theorem State.emit_offset (e : Event) (row col : Nat) :
    (s.emit e).offset row col = s.offset row col := rfl

@[simp] theorem State.dispAddr_width (y b : Nat) :
    (s.dispAddr y b).width = s.width := rfl
@[simp] theorem State.dispAddr_height (y b : Nat) :
    (s.dispAddr y b).height = s.height := rfl
@[simp] theorem State.dispAddr_bpr (y b : Nat) :
    (s.dispAddr y b).bpr = s.bpr := rfl
@[simp] theorem State.dispAddr_wrap (y b : Nat) :
    (s.dispAddr y b).wrap = s.wrap := rfl
@[simp] theorem State.dispAddr_lf (y b : Nat) :
    (s.dispAddr y b).lf = s.lf := rfl
@[simp] theorem State.dispAddr_cr (y b : Nat) :
    (s.dispAddr y b).cr = s.cr := rfl
@[simp] theorem State.dispAddr_partialX (y b : Nat) :
    (s.dispAddr y b).partialX = s.partialX := rfl
@[simp] theorem State.dispAddr_partialY (y b : Nat) :
    (s.dispAddr y b).partialY = s.partialY := rfl
@[simp] theorem State.dispAddr_offset (y b : Nat) (row col : Nat) :
    (s.dispAddr y b).offset row col = s.offset row col := rfl

@[simp] theorem State.sendByte_width (v : Byte) :
    (s.sendByte v).width = s.width := rfl
@[simp] theorem State.sendByte_height (v : Byte) :
    (s.sendByte v).height = s.height := rfl
@[simp] theorem State.sendByte_bpr (v : Byte) :
    (s.sendByte v).bpr = s.bpr := rfl
@[simp] theorem State.sendByte_wrap (v : Byte) :
    (s.sendByte v).wrap = s.wrap := rfl
@[simp] theorem State.sendByte_lf (v : Byte) :
    (s.sendByte v).lf = s.lf := rfl
@[simp] theorem State.sendByte_cr (v : Byte) :
    (s.sendByte v).cr = s.cr := rfl
@[simp] theorem State.sendByte_partialX (v : Byte) :
    (s.sendByte v).partialX = s.partialX := rfl
@[simp] theorem State.sendByte_partialY (v : Byte) :
    (s.sendByte v).partialY = s.partialY := rfl
@[simp] theorem State.sendByte_offset (v : Byte) (row col : Nat) :
    (s.sendByte v).offset row col = s.offset row col := rfl

@[simp] theorem State.setLine_width (pix : List Nibble) :
    (s.setLine pix).width = s.width := rfl
@[simp] theorem State.setLine_height (pix : List Nibble) :
    (s.setLine pix).height = s.height := rfl
@[simp] theorem State.setLine_bpr (pix : List Nibble) :
    (s.setLine pix).bpr = s.bpr := rfl
@[simp] theorem State.setLine_wrap (pix : List Nibble) :
    (s.setLine pix).wrap = s.wrap := rfl
@[simp] theorem State.setLine_lf (pix : List Nibble) :
    (s.setLine pix).lf = s.lf := rfl
@[simp] theorem State.setLine_cr (pix : List Nibble) :
    (s.setLine pix).cr = s.cr := rfl
@[simp] theorem State.setLine_partialX (pix : List Nibble) :
    (s.setLine pix).partialX = s.partialX := rfl
@[simp] theorem State.setLine_partialY (pix : List Nibble) :
    (s.setLine pix).partialY = s.partialY := rfl
@[simp] theorem State.setLine_offset (pix : List Nibble) (row col : Nat) :
    (s.setLine pix).offset row col = s.offset row col := rfl

@[simp] theorem State.clearScratch_width :
    (s.clearScratch).width = s.width := rfl
@[simp] theorem State.clearScratch_height :
    (s.clearScratch).height = s.height := rfl
@[simp] theorem State.clearScratch_bpr :
    (s.clearScratch).bpr = s.bpr := rfl
@[simp] theorem State.clearScratch_wrap :
    (s.clearScratch).wrap = s.wrap := rfl
@[simp] theorem State.clearScratch_lf :
    (s.clearScratch).lf = s.lf := rfl
@[simp] theorem State.clearScratch_cr :
    (s.clearScratch).cr = s.cr := rfl
@[simp] theorem State.clearScratch_partialX :
    (s.clearScratch).partialX = s.partialX := rfl
@[simp] theorem State.clearScratch_partialY :
    (s.clearScratch).partialY = s.partialY := rfl
@[simp] theorem State.clearScratch_offset (row col : Nat) :
    (s.clearScratch).offset row col = s.offset row col := rfl

@[simp] theorem State.endCommand_width (c : Code) (r0 r1 r2 r3 : Word) :
    (s.endCommand c r0 r1 r2 r3).width = s.width := rfl
@[simp] theorem State.endCommand_height (c : Code) (r0 r1 r2 r3 : Word) :
    (s.endCommand c r0 r1 r2 r3).height = s.height := rfl
@[simp] theorem State.endCommand_bpr (c : Code) (r0 r1 r2 r3 : Word) :
    (s.endCommand c r0 r1 r2 r3).bpr = s.bpr := rfl
@[simp] theorem State.endCommand_wrap (c : Code) (r0 r1 r2 r3 : Word) :
    (s.endCommand c r0 r1 r2 r3).wrap = s.wrap := rfl
@[simp] theorem State.endCommand_lf (c : Code) (r0 r1 r2 r3 : Word) :
    (s.endCommand c r0 r1 r2 r3).lf = s.lf := rfl
@[simp] theorem State.endCommand_cr (c : Code) (r0 r1 r2 r3 : Word) :
    (s.endCommand c r0 r1 r2 r3).cr = s.cr := rfl
@[simp] theorem State.endCommand_partialX (c : Code) (r0 r1 r2 r3 : Word) :
    (s.endCommand c r0 r1 r2 r3).partialX = s.partialX := rfl
@[simp] theorem State.endCommand_partialY (c : Code) (r0 r1 r2 r3 : Word) :
    (s.endCommand c r0 r1 r2 r3).partialY = s.partialY := rfl
@[simp] theorem State.endCommand_offset (c : Code) (r0 r1 r2 r3 : Word) (row col : Nat) :
    (s.endCommand c r0 r1 r2 r3).offset row col = s.offset row col := rfl

@[simp] theorem State.takePacket_width (rest : List Byte) :
    (s.takePacket rest).width = s.width := rfl
@[simp] theorem State.takePacket_height (rest : List Byte) :
    (s.takePacket rest).height = s.height := rfl
@[simp] theorem State.takePacket_bpr (rest : List Byte) :
    (s.takePacket rest).bpr = s.bpr := rfl
@[simp] theorem State.takePacket_wrap (rest : List Byte) :
    (s.takePacket rest).wrap = s.wrap := rfl
@[simp] theorem State.takePacket_lf (rest : List Byte) :
    (s.takePacket rest).lf = s.lf := rfl
@[simp] theorem State.takePacket_cr (rest : List Byte) :
    (s.takePacket rest).cr = s.cr := rfl
@[simp] theorem State.takePacket_partialX (rest : List Byte) :
    (s.takePacket rest).partialX = s.partialX := rfl
@[simp] theorem State.takePacket_partialY (rest : List Byte) :
    (s.takePacket rest).partialY = s.partialY := rfl
@[simp] theorem State.takePacket_offset (rest : List Byte) (row col : Nat) :
    (s.takePacket rest).offset row col = s.offset row col := rfl

@[simp] theorem State.haltIllegal_width (hdr : Word) (rest : List Byte) :
    (s.haltIllegal hdr rest).width = s.width := rfl
@[simp] theorem State.haltIllegal_height (hdr : Word) (rest : List Byte) :
    (s.haltIllegal hdr rest).height = s.height := rfl
@[simp] theorem State.haltIllegal_bpr (hdr : Word) (rest : List Byte) :
    (s.haltIllegal hdr rest).bpr = s.bpr := rfl
@[simp] theorem State.haltIllegal_wrap (hdr : Word) (rest : List Byte) :
    (s.haltIllegal hdr rest).wrap = s.wrap := rfl
@[simp] theorem State.haltIllegal_lf (hdr : Word) (rest : List Byte) :
    (s.haltIllegal hdr rest).lf = s.lf := rfl
@[simp] theorem State.haltIllegal_cr (hdr : Word) (rest : List Byte) :
    (s.haltIllegal hdr rest).cr = s.cr := rfl
@[simp] theorem State.haltIllegal_partialX (hdr : Word) (rest : List Byte) :
    (s.haltIllegal hdr rest).partialX = s.partialX := rfl
@[simp] theorem State.haltIllegal_partialY (hdr : Word) (rest : List Byte) :
    (s.haltIllegal hdr rest).partialY = s.partialY := rfl
@[simp] theorem State.haltIllegal_offset (hdr : Word) (rest : List Byte) (row col : Nat) :
    (s.haltIllegal hdr rest).offset row col = s.offset row col := rfl

@[simp] theorem State.waitForBytes_width :
    (s.waitForBytes).width = s.width := rfl
@[simp] theorem State.waitForBytes_height :
    (s.waitForBytes).height = s.height := rfl
@[simp] theorem State.waitForBytes_bpr :
    (s.waitForBytes).bpr = s.bpr := rfl
@[simp] theorem State.waitForBytes_wrap :
    (s.waitForBytes).wrap = s.wrap := rfl
@[simp] theorem State.waitForBytes_lf :
    (s.waitForBytes).lf = s.lf := rfl
@[simp] theorem State.waitForBytes_cr :
    (s.waitForBytes).cr = s.cr := rfl
@[simp] theorem State.waitForBytes_partialX :
    (s.waitForBytes).partialX = s.partialX := rfl
@[simp] theorem State.waitForBytes_partialY :
    (s.waitForBytes).partialY = s.partialY := rfl
@[simp] theorem State.waitForBytes_offset (row col : Nat) :
    (s.waitForBytes).offset row col = s.offset row col := rfl

@[simp] theorem State.newLine_width :
    (s.newLine).width = s.width := rfl
@[simp] theorem State.newLine_height :
    (s.newLine).height = s.height := rfl
@[simp] theorem State.newLine_bpr :
    (s.newLine).bpr = s.bpr := rfl
@[simp] theorem State.newLine_wrap :
    (s.newLine).wrap = s.wrap := rfl
@[simp] theorem State.newLine_lf :
    (s.newLine).lf = s.lf := rfl
@[simp] theorem State.newLine_cr :
    (s.newLine).cr = s.cr := rfl
@[simp] theorem State.newLine_partialX :
    (s.newLine).partialX = s.partialX := rfl
@[simp] theorem State.newLine_partialY :
    (s.newLine).partialY = s.partialY := rfl
@[simp] theorem State.newLine_offset (row col : Nat) :
    (s.newLine).offset row col = s.offset row col := rfl

@[simp] theorem State.zeroStorage_width :
    (s.zeroStorage).width = s.width := rfl
@[simp] theorem State.zeroStorage_height :
    (s.zeroStorage).height = s.height := rfl
@[simp] theorem State.zeroStorage_bpr :
    (s.zeroStorage).bpr = s.bpr := rfl
@[simp] theorem State.zeroStorage_wrap :
    (s.zeroStorage).wrap = s.wrap := rfl
@[simp] theorem State.zeroStorage_lf :
    (s.zeroStorage).lf = s.lf := rfl
@[simp] theorem State.zeroStorage_cr :
    (s.zeroStorage).cr = s.cr := rfl
@[simp] theorem State.zeroStorage_partialX :
    (s.zeroStorage).partialX = s.partialX := rfl
@[simp] theorem State.zeroStorage_partialY :
    (s.zeroStorage).partialY = s.partialY := rfl
@[simp] theorem State.zeroStorage_offset (row col : Nat) :
    (s.zeroStorage).offset row col = s.offset row col := rfl

@[simp] theorem State.dmaWait_width :
    (s.dmaWait).width = s.width := rfl
@[simp] theorem State.dmaWait_height :
    (s.dmaWait).height = s.height := rfl
@[simp] theorem State.dmaWait_bpr :
    (s.dmaWait).bpr = s.bpr := rfl
@[simp] theorem State.dmaWait_wrap :
    (s.dmaWait).wrap = s.wrap := rfl
@[simp] theorem State.dmaWait_lf :
    (s.dmaWait).lf = s.lf := rfl
@[simp] theorem State.dmaWait_cr :
    (s.dmaWait).cr = s.cr := rfl
@[simp] theorem State.dmaWait_partialX :
    (s.dmaWait).partialX = s.partialX := rfl
@[simp] theorem State.dmaWait_partialY :
    (s.dmaWait).partialY = s.partialY := rfl
@[simp] theorem State.dmaWait_offset (row col : Nat) :
    (s.dmaWait).offset row col = s.offset row col := rfl

@[simp] theorem State.setStage_width (k : Nat) (bytes : List Byte) :
    (s.setStage k bytes).width = s.width := rfl
@[simp] theorem State.setStage_height (k : Nat) (bytes : List Byte) :
    (s.setStage k bytes).height = s.height := rfl
@[simp] theorem State.setStage_bpr (k : Nat) (bytes : List Byte) :
    (s.setStage k bytes).bpr = s.bpr := rfl
@[simp] theorem State.setStage_wrap (k : Nat) (bytes : List Byte) :
    (s.setStage k bytes).wrap = s.wrap := rfl
@[simp] theorem State.setStage_lf (k : Nat) (bytes : List Byte) :
    (s.setStage k bytes).lf = s.lf := rfl
@[simp] theorem State.setStage_cr (k : Nat) (bytes : List Byte) :
    (s.setStage k bytes).cr = s.cr := rfl
@[simp] theorem State.setStage_partialX (k : Nat) (bytes : List Byte) :
    (s.setStage k bytes).partialX = s.partialX := rfl
@[simp] theorem State.setStage_partialY (k : Nat) (bytes : List Byte) :
    (s.setStage k bytes).partialY = s.partialY := rfl
@[simp] theorem State.setStage_offset (k : Nat) (bytes : List Byte) (row col : Nat) :
    (s.setStage k bytes).offset row col = s.offset row col := rfl

end Updates

end Sys2Proof.Machine
end

