-- ==== Sys2Proof/Laws/Display.lean ====
section
/-!
SUPPORT. What the display-write primitives do (20_memory.md R79, R82; 43_dma_streamer.md R221 to R225): the bytes they
put into `DISP`, that they change nothing but the display side, and that they keep the bus discipline.
-/
namespace Sys2Proof.Machine

/-! ### The event trace -/

theorem busRun_nil (b : Bool) : busRun b [] = some b := rfl

theorem busRun_none (es : List Event) :
    es.foldl (fun o e => o.bind fun g => busEvent g e) none = none := by
  induction es with
  | nil => rfl
  | cons e es ih => simpa using ih

/-- The discipline of a trace is that of its parts, one after the other. -/
theorem busRun_append (b : Bool) (es fs : List Event) :
    busRun b (es ++ fs) = (busRun b es).bind fun g => busRun g fs := by
  unfold busRun
  rw [List.foldl_append]
  cases h : List.foldl (fun o e => o.bind fun g => busEvent g e) (some b) es with
  | none => simp [busRun_none]
  | some g => rfl

/-- One more event after a disciplined trace. -/
theorem busRun_snoc {b g : Bool} {es : List Event} (h : busRun b es = some g) (e : Event) :
    busRun b (es ++ [e]) = busEvent g e := by
  rw [busRun_append, h]
  simp [busRun]

/-- A trace cut short kept the discipline so far. -/
theorem busRun_take {b g : Bool} {es : List Event} (h : busRun b es = some g) (n : Nat) :
    ∃ g', busRun b (es.take n) = some g' := by
  rw [← List.take_append_drop n es, busRun_append] at h
  cases hp : busRun b (es.take n) with
  | none => rw [hp] at h; simp at h
  | some g' => exact ⟨g', rfl⟩

/-- After a reset no transfer of the engine is in flight, whatever was before (R291). -/
theorem busRun_reset {b g : Bool} {es : List Event} (h : busRun b es = some g) :
    busRun b (es ++ [.reset]) = some false := by
  rw [busRun_snoc h]
  cases g <;> rfl

/-- The guard is what the trace says it is. -/
def State.busOk (s : State) : Prop := busRun false s.trace = some s.xferBusy

/-! ### The barrier -/

theorem State.dmaWait_frame (s : State) :
    s.dmaWait = { s with xferBusy := false, trace := s.dmaWait.trace, stuck := s.dmaWait.stuck } := rfl

theorem State.dmaWait_eq_of_quiet {s : State} (h : s.xferBusy = false) : s.dmaWait = s := by
  cases s
  simp_all [State.dmaWait]

theorem State.dmaWait_busOk {s : State} (h : s.busOk) : s.dmaWait.busOk := by
  unfold State.busOk at *
  rw [State.dmaWait_trace, State.dmaWait_xferBusy]
  split
  · rename_i hb
    rw [hb] at h
    simpa [busEvent] using busRun_snoc h .dmaDone
  · simp_all

/-- While a transfer is in flight its start is the last event (R81, R225). -/
theorem busRun_inFlight {es : List Event} (h : busRun false es = some true) :
    ∃ (fs : List Event) (e : Event), es = fs ++ [e] ∧ e.isStart = true := by
  rcases List.eq_nil_or_concat es with rfl | ⟨fs, e, rfl⟩
  · cases h
  · rw [List.concat_eq_append] at *
    refine ⟨fs, e, rfl, ?_⟩
    rw [busRun_append] at h
    cases hp : busRun false fs with
    | none => rw [hp] at h; simp at h
    | some g => rw [hp] at h; cases e <;> cases g <;> simp_all [busRun, busEvent, Event.isStart]

/-! ### The record of an endless poll -/

theorem State.channelDead_iff (s : State) : s.channelDead = true ↔ s.deadAt s.trace.length := by
  unfold State.channelDead State.deadAt
  cases s.hangAt <;> simp

/-- A command begins with nothing recorded. -/
theorem State.Recorded.start {s : State} (hq : s.xferBusy = false) (hs : s.stuck = none) :
    s.Recorded s.trace.length := by
  refine ⟨le_refl _, by simp [hq], fun _ j hj ⟨e, he, _⟩ => ?_, by simp [hs]⟩
  rw [List.getElem?_eq_none hj] at he
  cases he

/-- The record depends on the trace, the guard, the channel and itself alone. -/
theorem State.Recorded.congr {n : Nat} {s t : State} (h : s.Recorded n) (ht : t.trace = s.trace)
    (hx : t.xferBusy = s.xferBusy) (hh : t.hangAt = s.hangAt) (hs : t.stuck = s.stuck) : t.Recorded n := by
  unfold State.Recorded State.startsAt State.deadAt at *
  rw [ht, hx, hh, hs]
  exact h

/-- A transfer that started before one more event is one that started. -/
theorem State.startsAt_of_append {s t : State} {e : Event} {j : Nat} (ht : t.trace = s.trace ++ [e])
    (h : t.startsAt j) : s.startsAt j ∨ j = s.trace.length ∧ e.isStart = true := by
  obtain ⟨f, hf, hs⟩ := h
  rw [ht, List.getElem?_append] at hf
  split at hf
  · exact .inl ⟨f, hf, hs⟩
  · rename_i hj
    have : j - s.trace.length = 0 := by
      by_contra hne
      rw [List.getElem?_eq_none (by simp; omega)] at hf
      cases hf
    rw [this] at hf
    simp only [List.getElem?_cons_zero, Option.some.injEq] at hf
    exact .inr ⟨by omega, hf ▸ hs⟩

theorem State.startsAt_lt {s : State} {j : Nat} (h : s.startsAt j) : j < s.trace.length := by
  obtain ⟨e, he, _⟩ := h
  exact (List.getElem?_eq_some_iff.1 he).1

theorem State.startsAt_append {s t : State} {e : Event} {j : Nat} (ht : t.trace = s.trace ++ [e])
    (h : s.startsAt j) : t.startsAt j := by
  have hj := State.startsAt_lt h
  obtain ⟨f, hf, hs⟩ := h
  exact ⟨f, by rw [ht, List.getElem?_append_left hj, hf], hs⟩

/-- What is recorded stays so when one more event is. -/
theorem State.Recorded.stuck_append {n : Nat} {s t : State} {e : Event} {h : Hang} (r : s.Recorded n)
    (hs : s.stuck = some h) (ht : t.trace = s.trace ++ [e]) (hh : t.hangAt = s.hangAt) :
    ∃ j, n ≤ j ∧ t.startsAt j ∧ t.deadAt (j + 1) ∧ h.trace = t.trace.take (j + 1) ∧
      ∀ k, n ≤ k → k < j → t.startsAt k → ¬t.deadAt (k + 1) := by
  obtain ⟨j, h1, h2, h3, h4, h5⟩ := r.2.2.2 h hs
  have hj := State.startsAt_lt h2
  have hd : ∀ k, t.deadAt k ↔ s.deadAt k := fun k => by unfold State.deadAt; rw [hh]
  refine ⟨j, h1, State.startsAt_append ht h2, (hd _).2 h3, ?_, fun k k1 k2 k3 => ?_⟩
  · rw [h4, ht, List.take_append_of_le_length (by omega)]
  · rw [hd]
    rcases State.startsAt_of_append ht k3 with k3 | ⟨rfl, _⟩
    · exact h5 k k1 k2 k3
    · omega

/-- An event outside a transfer that starts none adds nothing to the record. -/
theorem State.Recorded.emit {n : Nat} {s : State} (r : s.Recorded n) {e : Event} (hq : s.xferBusy = false)
    (he : e.isStart = false) : (s.emit e).Recorded n := by
  have hl : (s.emit e).trace.length = s.trace.length + 1 := by simp
  have hn := r.1
  refine ⟨by omega, by simp [hq], fun hn j h1 h2 h3 => ?_, fun h hs => r.stuck_append hs rfl rfl⟩
  rcases State.startsAt_of_append (s := s) rfl h2 with h2 | ⟨_, h2⟩
  · have := (r.2.2.1 hn j h1 h2 h3).1
    simp [hq] at this
  · simp [he] at h2

/-- A transfer starts (R221). -/
theorem State.Recorded.bulkStart {n : Nat} {s t : State} (r : s.Recorded n) {e : Event} (hq : s.xferBusy = false)
    (ht : t.trace = s.trace ++ [e]) (hx : t.xferBusy = true) (hh : t.hangAt = s.hangAt)
    (hs : t.stuck = s.stuck) : t.Recorded n := by
  have hl : t.trace.length = s.trace.length + 1 := by simp [ht]
  have hn := r.1
  refine ⟨by omega, fun _ => by omega, fun hn j h1 h2 h3 => ⟨hx, ?_⟩, fun h he => r.stuck_append (hs ▸ he) ht hh⟩
  rcases State.startsAt_of_append ht h2 with h2 | ⟨rfl, _⟩
  · have hd : s.deadAt (j + 1) := by unfold State.deadAt at *; rwa [hh] at h3
    have := (r.2.2.1 (hs ▸ hn) j h1 h2 hd).1
    simp [hq] at this
  · omega

/-- The barrier records the first poll that is never answered (R82, R304). -/
theorem State.Recorded.dmaWait {n : Nat} {s : State} (r : s.Recorded n) (hb : s.busOk) : s.dmaWait.Recorded n := by
  cases hx : s.xferBusy with
  | false => rwa [State.dmaWait_eq_of_quiet hx]
  | true =>
    have ht : s.dmaWait.trace = s.trace ++ [.dmaDone] := by rw [State.dmaWait_trace, hx]; rfl
    have hle : n ≤ s.dmaWait.trace.length := by
      have := r.1
      rw [ht, List.length_append]
      omega
    have starts : ∀ {j}, s.dmaWait.startsAt j → s.startsAt j := fun h => by
      rcases State.startsAt_of_append ht h with h | ⟨_, h⟩
      · exact h
      · cases h
    cases hs : s.stuck with
    | some h =>
      have hk : s.dmaWait.stuck = some h := by rw [State.dmaWait_stuck, hs]; split <;> rfl
      refine ⟨hle, by simp, fun hn => ?_, fun h' he => ?_⟩
      · rw [hk] at hn
        cases hn
      · rw [hk] at he
        obtain rfl : h = h' := by simpa using he
        exact r.stuck_append hs ht rfl
    | none =>
      have open_ := r.2.2.1 hs
      obtain ⟨fs, e, he, hst⟩ := busRun_inFlight (by unfold State.busOk at hb; rwa [hx] at hb)
      have hl : s.trace.length = fs.length + 1 := by simp [he]
      have hn := r.2.1 hx
      have hstart : s.startsAt fs.length := ⟨e, by simp [he], hst⟩
      cases hd : s.channelDead with
      | false =>
        have hk : s.dmaWait.stuck = none := by rw [State.dmaWait_stuck, hd, hs]; simp
        refine ⟨hle, by simp, fun _ j h1 h2 h3 => ?_, fun h hh => absurd (hk.symm.trans hh) (by simp)⟩
        have h4 := (open_ j h1 (starts h2) h3).2
        rw [h4] at h3
        have := (s.channelDead_iff).2 h3
        simp [hd] at this
      | true =>
        have hk : s.dmaWait.stuck = some s.polling := by rw [State.dmaWait_stuck, hx, hd, hs]; rfl
        refine ⟨hle, by simp, fun hh => absurd (hk.symm.trans hh) (by simp), fun h' hh => ?_⟩
        rw [hk] at hh
        obtain rfl : s.polling = h' := by simpa using hh
        refine ⟨fs.length, by omega, State.startsAt_append ht hstart, ?_, ?_, fun k k1 k2 k3 k4 => ?_⟩
        · have := (s.channelDead_iff).1 hd
          rwa [hl] at this
        · rw [ht, List.take_append_of_le_length (by omega), ← hl, List.take_length]
          rfl
        · have := (open_ k k1 (starts k3) k4).2
          omega

/-! ### Data bytes -/

/-- What sending bytes changes: `DISP` and the write pointer. -/
theorem State.sendBytes_frame (s : State) (bs : List Byte) :
    s.sendBytes bs =
      { s with
        disp := (s.sendBytes bs).disp, wpRow := (s.sendBytes bs).wpRow, wpCol := (s.sendBytes bs).wpCol } := by
  induction bs generalizing s with
  | nil => rfl
  | cons b bs ih =>
    show (s.sendByte b).sendBytes bs = _
    rw [ih]
    rfl

/-- The bytes sent from a write pointer inside a row land, in order, at consecutive offsets from it, every other byte of
`DISP` stays, and the write pointer stands after the last (R79). -/
theorem State.sendBytes_spec (s : State) (bs : List Byte) (h : s.wpCol < s.bpr) :
    (∀ off, Memory.read (s.sendBytes bs).disp off =
      if s.offset s.wpRow s.wpCol ≤ off ∧ off < s.offset s.wpRow s.wpCol + bs.length then
        bs[off - s.offset s.wpRow s.wpCol]?
      else Memory.read s.disp off) ∧
    (s.sendBytes bs).wpCol < s.bpr ∧
    s.offset (s.sendBytes bs).wpRow (s.sendBytes bs).wpCol = s.offset s.wpRow s.wpCol + bs.length ∧
    (Memory.wf s.disp = true → Memory.wf (s.sendBytes bs).disp = true) := by
  induction bs generalizing s with
  | nil =>
    refine ⟨fun off => ?_, h, rfl, fun hw => hw⟩
    have : ¬(s.offset s.wpRow s.wpCol ≤ off ∧ off < s.offset s.wpRow s.wpCol + ([] : List Byte).length) := by
      simp
    rw [if_neg this]
    rfl
  | cons b bs ih =>
    have hcol : (s.sendByte b).wpCol < (s.sendByte b).bpr := by
      show (if s.wpCol + 1 = s.bpr then 0 else s.wpCol + 1) < s.bpr
      split <;> omega
    have hoff : s.offset (s.sendByte b).wpRow (s.sendByte b).wpCol = s.offset s.wpRow s.wpCol + 1 := by
      show (if s.wpCol + 1 = s.bpr then s.wpRow + 1 else s.wpRow) * s.bpr +
        (if s.wpCol + 1 = s.bpr then 0 else s.wpCol + 1) = s.wpRow * s.bpr + s.wpCol + 1
      split
      · rename_i he
        rw [Nat.add_mul, ← he]
        omega
      · omega
    obtain ⟨hread, hc, ho, hw⟩ := ih (s.sendByte b) hcol
    have hoff' : (s.sendByte b).offset (s.sendByte b).wpRow (s.sendByte b).wpCol =
        s.offset s.wpRow s.wpCol + 1 := hoff
    rw [hoff'] at hread ho
    refine ⟨fun off => ?_, hc, ?_, fun hwf => hw (Memory.wf_write _ _ hwf)⟩
    · show Memory.read ((s.sendByte b).sendBytes bs).disp off = _
      rw [hread off]
      have hd : (s.sendByte b).disp = Memory.write s.disp (s.offset s.wpRow s.wpCol) b := rfl
      rw [hd, Memory.read_write]
      generalize s.offset s.wpRow s.wpCol = o
      by_cases h1 : off = o
      · subst h1
        simp
      · by_cases h2 : o ≤ off ∧ off < o + (bs.length + 1)
        · have h3 : o + 1 ≤ off ∧ off < o + 1 + bs.length := by omega
          have h4 : off - o = (off - (o + 1)) + 1 := by omega
          rw [if_pos h3, List.length_cons, if_pos h2, h4, List.getElem?_cons_succ]
        · have h3 : ¬(o + 1 ≤ off ∧ off < o + 1 + bs.length) := by omega
          rw [if_neg h3, List.length_cons, if_neg h2, if_neg h1]
    · rw [List.length_cons]
      have : s.offset ((s.sendByte b).sendBytes bs).wpRow ((s.sendByte b).sendBytes bs).wpCol =
          s.offset s.wpRow s.wpCol + 1 + bs.length := ho
      show s.offset ((s.sendByte b).sendBytes bs).wpRow ((s.sendByte b).sendBytes bs).wpCol = _
      omega

/-! ### The three primitives -/

/-- What `BusWriteRun` changes. -/
theorem State.busWriteRun_frame (s : State) (y b : Nat) (bs : List Byte) :
    s.busWriteRun y b bs = s.withDispOf (s.busWriteRun y b bs) := by
  unfold State.busWriteRun
  rw [State.sendBytes_frame, s.dmaWait_frame]
  rfl

/-- What `BulkWriteRun` changes. -/
theorem State.bulkWriteRun_frame (s : State) (y b : Nat) (src : XferSource) (len : Nat) :
    s.bulkWriteRun y b src len = s.withDispOf (s.bulkWriteRun y b src len) := by
  unfold State.bulkWriteRun State.bulkStart
  rw [State.sendBytes_frame, s.dmaWait_frame]
  rfl

/-- What `BulkContinue` changes. -/
theorem State.bulkContinue_frame (s : State) (src : XferSource) (len : Nat) :
    s.bulkContinue src len = s.withDispOf (s.bulkContinue src len) := by
  unfold State.bulkContinue State.bulkStart
  rw [State.sendBytes_frame, s.dmaWait_frame]
  rfl

/-- What `XferRun` changes. -/
theorem State.xferRun_frame (s : State) (y b : Nat) (src : XferSource) (len : Nat) :
    s.xferRun y b src len = s.withDispOf (s.xferRun y b src len) := by
  unfold State.xferRun
  split
  · exact s.bulkWriteRun_frame y b src len
  · exact s.busWriteRun_frame y b _

/-- The bytes of a transfer do not depend on the display side. -/
theorem State.sourceBytes_withDispOf (s t : State) (src : XferSource) (len : Nat) :
    (s.withDispOf t).sourceBytes src len = s.sourceBytes src len := by
  cases src <;> rfl

theorem State.sourceBytes_dmaWait (s : State) (src : XferSource) (len : Nat) :
    s.dmaWait.sourceBytes src len = s.sourceBytes src len := by
  rw [s.dmaWait_frame]
  cases src <;> rfl

/-- How the display side stands after a run: the bytes at their offsets, the write pointer after them. -/
structure SentAt (s t : State) (off : Nat) (bs : List Byte) : Prop where
  read : ∀ a, Memory.read t.disp a =
    if off ≤ a ∧ a < off + bs.length then bs[a - off]? else Memory.read s.disp a
  col : t.wpCol < t.bpr
  next : t.offset t.wpRow t.wpCol = off + bs.length
  wf : Memory.wf s.disp = true → Memory.wf t.disp = true

/-- The bytes sent from a state `u` that differs from `s` in neither `DISP` nor the row size. -/
theorem State.sendBytes_sentAt {s u : State} (bs : List Byte) {off : Nat} (hd : u.disp = s.disp)
    (hb : u.wpCol < u.bpr) (ho : u.offset u.wpRow u.wpCol = off) : SentAt s (u.sendBytes bs) off bs := by
  obtain ⟨h1, h2, h3, h4⟩ := u.sendBytes_spec bs hb
  have hw : (u.sendBytes bs).bpr = u.bpr := by
    rw [u.sendBytes_frame bs]
    rfl
  refine ⟨fun a => ?_, by rw [hw]; exact h2, ?_, by rw [← hd]; exact h4⟩
  · rw [h1, ho, hd]
  · unfold State.offset at *
    rw [hw, ← ho]
    exact h3

/-- The bytes of a bulk transfer started from the write pointer. -/
theorem State.bulkStart_sentAt {s u : State} (src : XferSource) (len : Nat) {off : Nat} (hd : u.disp = s.disp)
    (hb : u.wpCol < u.bpr) (ho : u.offset u.wpRow u.wpCol = off) :
    SentAt s (u.bulkStart src len) off (u.sourceBytes src len) := by
  unfold State.bulkStart
  apply State.sendBytes_sentAt
  · exact hd
  · exact hb
  · exact ho

/-- The bytes of `BusWriteRun` (R79). -/
theorem State.busWriteRun_sentAt (s : State) {y b : Nat} (bs : List Byte) (hb : b < s.bpr) :
    SentAt s (s.busWriteRun y b bs) (s.offset y b) bs := by
  unfold State.busWriteRun
  apply State.sendBytes_sentAt
  · simp
  · simpa using hb
  · simp [State.offset]

/-- The bytes of `BulkWriteRun` (R79, R75). -/
theorem State.bulkWriteRun_sentAt (s : State) {y b : Nat} (src : XferSource) (len : Nat) (hb : b < s.bpr) :
    SentAt s (s.bulkWriteRun y b src len) (s.offset y b) (s.sourceBytes src len) := by
  have hs : (s.dmaWait.dispAddr y b).sourceBytes src len = s.sourceBytes src len := by
    rw [← s.sourceBytes_dmaWait]
    cases src <;> rfl
  rw [← hs]
  unfold State.bulkWriteRun
  apply State.bulkStart_sentAt
  · simp
  · simpa using hb
  · simp [State.offset]

/-- The bytes of `BulkContinue` (R222). -/
theorem State.bulkContinue_sentAt (s : State) (src : XferSource) (len : Nat) (hb : s.wpCol < s.bpr) :
    SentAt s (s.bulkContinue src len) (s.offset s.wpRow s.wpCol) (s.sourceBytes src len) := by
  rw [← s.sourceBytes_dmaWait]
  unfold State.bulkContinue
  apply State.bulkStart_sentAt
  · simp
  · simpa using hb
  · simp [State.offset]

/-- The bytes of `XferRun`: the same on both paths (R79, R226, R258). -/
theorem State.xferRun_sentAt (s : State) {y b : Nat} (src : XferSource) (len : Nat) (hb : b < s.bpr) :
    SentAt s (s.xferRun y b src len) (s.offset y b) (s.sourceBytes src len) := by
  unfold State.xferRun
  split
  · exact s.bulkWriteRun_sentAt src len hb
  · exact s.busWriteRun_sentAt _ hb

/-! ### The bus discipline of the primitives -/

theorem State.sendBytes_busOk (s : State) (bs : List Byte) (h : s.busOk) : (s.sendBytes bs).busOk := by
  rw [s.sendBytes_frame bs]
  exact h

theorem State.emit_busOk {s : State} {e : Event} (h : s.busOk) (hq : s.xferBusy = false)
    (he : busEvent false e = some false) : (s.emit e).busOk := by
  unfold State.busOk at *
  rw [hq] at h
  have := busRun_snoc h e
  simp only [State.emit_trace, State.emit_xferBusy, hq]
  rw [this, he]

theorem State.dispAddr_busOk {s : State} (y b : Nat) (h : s.busOk) (hq : s.xferBusy = false) :
    (s.dispAddr y b).busOk :=
  State.emit_busOk h hq rfl

theorem State.bulkStart_busOk {s : State} (src : XferSource) (len : Nat) (h : s.busOk) (hq : s.xferBusy = false) :
    (s.bulkStart src len).busOk := by
  apply State.sendBytes_busOk
  unfold State.busOk at *
  rw [hq] at h
  exact busRun_snoc h _

theorem State.busWriteRun_busOk {s : State} (y b : Nat) (bs : List Byte) (h : s.busOk) :
    (s.busWriteRun y b bs).busOk := by
  apply State.sendBytes_busOk
  refine State.emit_busOk (State.dispAddr_busOk y b (State.dmaWait_busOk h) ?_) ?_ rfl
  · simp
  · show s.dmaWait.xferBusy = false
    simp

theorem State.bulkWriteRun_busOk {s : State} (y b : Nat) (src : XferSource) (len : Nat) (h : s.busOk) :
    (s.bulkWriteRun y b src len).busOk := by
  apply State.bulkStart_busOk
  · exact State.dispAddr_busOk y b (State.dmaWait_busOk h) (by simp)
  · show s.dmaWait.xferBusy = false
    simp

theorem State.bulkContinue_busOk {s : State} (src : XferSource) (len : Nat) (h : s.busOk) :
    (s.bulkContinue src len).busOk :=
  State.bulkStart_busOk src len (State.dmaWait_busOk h) (by simp)

theorem State.xferRun_busOk {s : State} (y b : Nat) (src : XferSource) (len : Nat) (h : s.busOk) :
    (s.xferRun y b src len).busOk := by
  unfold State.xferRun
  split
  · exact State.bulkWriteRun_busOk y b src len h
  · exact State.busWriteRun_busOk y b _ h

end Sys2Proof.Machine
end

