-- ==== Sys2Proof/Laws/Packing.lean ====
section
/-!
SUPPORT. Laws of the packing helpers (20_memory.md R63), of the integer reading of operands and of register writes
(10_state.md R21).
-/
namespace Sys2Proof.Machine

@[simp] theorem hiNib_pack (p q : Nibble) : hiNib (pack p q) = p := by
  revert p q
  decide

@[simp] theorem loNib_pack (p q : Nibble) : loNib (pack p q) = q := by
  revert p q
  decide

@[simp] theorem pack_unpack (b : Byte) : pack (hiNib b) (loNib b) = b := by
  revert b
  decide

/-- A pixel merged into a byte reads back at its own column. -/
@[simp] theorem nibbleAt_mergeAt_same (b : Byte) (k : Nat) (p : Nibble) : nibbleAt (mergeAt b k p) k = p := by
  unfold nibbleAt mergeAt
  split <;> simp [mergeHi, mergeLo]

/-- A pixel merged into a byte leaves its neighbour as it was. -/
theorem nibbleAt_mergeAt_other (b : Byte) (k j : Nat) (p : Nibble) (h : k % 2 ≠ j % 2) :
    nibbleAt (mergeAt b k p) j = nibbleAt b j := by
  unfold nibbleAt mergeAt mergeHi mergeLo
  rcases Nat.mod_two_eq_zero_or_one k with hk | hk <;>
    rcases Nat.mod_two_eq_zero_or_one j with hj | hj <;> simp_all

/-- Columns of one parity read the same nibble of a byte. -/
theorem nibbleAt_congr (b : Byte) {k j : Nat} (h : k % 2 = j % 2) : nibbleAt b k = nibbleAt b j := by
  simp [nibbleAt, h]

/-- The even-column pixel of a packed byte. -/
theorem nibbleAt_even (p q : Nibble) {k : Nat} (h : k % 2 = 0) : nibbleAt (pack p q) k = p := by
  simp [nibbleAt, h]

/-- The odd-column pixel of a packed byte. -/
theorem nibbleAt_odd (p q : Nibble) {k : Nat} (h : k % 2 = 1) : nibbleAt (pack p q) k = q := by
  simp [nibbleAt, h]

/-- Two bytes with the same two pixels are equal. -/
theorem byte_ext_nibbles {a b : Byte} (h0 : hiNib a = hiNib b) (h1 : loNib a = loNib b) : a = b := by
  rw [← pack_unpack a, ← pack_unpack b, h0, h1]

/-- A value in the signed range is read back from a register as it was written (R21). -/
theorem s16_reg16 {v : Int} (h0 : -32768 ≤ v) (h1 : v < 32768) : s16 (reg16 v) = v := by
  unfold s16 reg16
  rw [BitVec.toInt_ofInt]
  exact Int.bmod_eq_of_le (by norm_num; omega) (by norm_num; omega)

/-- A value in the unsigned range is read back from a register as it was written (R21). -/
theorem toNat_reg16 {n : Nat} (h : n < 65536) : (reg16 (n : Int)).toNat = n := by
  unfold reg16
  rw [BitVec.ofInt_natCast, BitVec.toNat_ofNat]
  exact Nat.mod_eq_of_lt (by norm_num; omega)

theorem s16_lower (w : Word) : -32768 ≤ s16 w := by
  have := BitVec.le_toInt w
  simp only [s16]
  norm_num at this
  omega

theorem s16_upper (w : Word) : s16 w < 32768 := by
  have := BitVec.toInt_lt (x := w)
  simp only [s16]
  norm_num at this
  omega

@[simp] theorem reg16_s16 (w : Word) : reg16 (s16 w) = w := by
  simp [reg16, s16]

@[simp] theorem payloadPixels_length (n : Nat) (payload : List Byte) : (payloadPixels n payload).length = n := by
  simp [payloadPixels]

/-- Pixel `i` of a pixel payload (R94). -/
theorem payloadPixels_getD {n i : Nat} (h : i < n) (payload : List Byte) :
    (payloadPixels n payload).getD i 0#4 = nibbleAt (payload.getD (i / 2) 0#8) i := by
  simp [payloadPixels, h]

/-- The clamp of a value lies between its bounds (R10). -/
theorem clamp_bounds {v a b : Int} (h : a ≤ b) : a ≤ clamp v a b ∧ clamp v a b ≤ b := by
  unfold clamp
  omega

end Sys2Proof.Machine
end

