-- ==== Sys2Proof/Laws/Kept.lean ====
section
/-!
SUPPORT. The relation `Kept s t`: `t` comes from `s` by drawing steps that stay inside the memories and keep the bus
discipline. It is reflexive and transitive, so it passes through folds; each drawing operation proves it once.
-/
namespace Sys2Proof.Machine

/-- `s` with all that any drawing or layout step may change taken from `t`: the memories, the write pointer, the guard,
the trace, the record of an endless poll, the cursor. -/
def State.withMemoriesOf (s t : State) : State :=
  { s with
    fb := t.fb, shadow := t.shadow, disp := t.disp, wpRow := t.wpRow, wpCol := t.wpCol, xferBusy := t.xferBusy
    trace := t.trace, stuck := t.stuck, stage0 := t.stage0, stage1 := t.stage1, line := t.line, curX := t.curX
    curY := t.curY }

/-- An endless poll inside a drawing that began in `s`: its memories are in bounds, a transfer is in flight, and the
margin is the drawing's. -/
structure Hang.Within (h : Hang) (s : State) : Prop where
  dispWf : Memory.wf s.disp = true → Memory.wf h.disp = true
  dispRange : (∀ a ∈ Memory.addresses s.disp, a < s.height * s.bpr) →
    ∀ a ∈ Memory.addresses h.disp, a < s.height * s.bpr
  shadow : s.shadowOk → h.shadow.length = s.height ∧ ∀ e ∈ h.shadow, e.col.toNat < s.bpr
  bus : s.busOk → busRun false h.trace = some true
  maxTextX : h.maxTextX = s.maxTextX

/-- `t` comes from `s` by drawing steps that stay in bounds. -/
structure Kept (s t : State) : Prop where
  /-- Only the memories, the write pointer, the guard, the trace, the record of an endless poll and the cursor may
  differ. -/
  frame : t = s.withMemoriesOf t
  fb : Memory.addresses s.fb = List.range (s.height * s.bpr) →
    Memory.addresses t.fb = List.range (s.height * s.bpr)
  fbWf : Memory.wf s.fb = true → Memory.wf t.fb = true
  dispWf : Memory.wf s.disp = true → Memory.wf t.disp = true
  dispRange : (∀ a ∈ Memory.addresses s.disp, a < s.height * s.bpr) →
    ∀ a ∈ Memory.addresses t.disp, a < s.height * s.bpr
  shadow : s.shadowOk → t.shadowOk
  bus : s.busOk → t.busOk
  /-- An endless poll recorded since is one of this drawing. -/
  hang : ∀ h, t.stuck = some h → s.stuck = some h ∨ h.Within s
  /-- The record of an endless poll stays true. -/
  record : ∀ n, s.busOk → s.Recorded n → t.Recorded n

/-- While the transfer in flight is not complete, `DISP` lists the addresses it lists anyway. -/
theorem State.addresses_dispInFlight (s : State) : Memory.addresses s.dispInFlight = Memory.addresses s.disp := by
  unfold State.dispInFlight Memory.addresses
  rw [List.map_map]
  refine List.map_congr_left fun c _ => ?_
  simp only [Function.comp]
  split <;> rfl

/-- `DISP` with a transfer in flight is in canonical form where `DISP` is. -/
theorem State.wf_dispInFlight (s : State) : Memory.wf s.dispInFlight = true ↔ Memory.wf s.disp = true :=
  Memory.wf_congr s.addresses_dispInFlight

namespace Kept

variable {s t u : State}

theorem height (h : Kept s t) : t.height = s.height := by rw [h.frame]; rfl
theorem width (h : Kept s t) : t.width = s.width := by rw [h.frame]; rfl
theorem bpr (h : Kept s t) : t.bpr = s.bpr := by rw [h.frame]; rfl
theorem cfg (h : Kept s t) : t.cfg = s.cfg := by rw [h.frame]; rfl
theorem ctrl (h : Kept s t) : t.ctrl = s.ctrl := by rw [h.frame]; rfl
theorem geomW (h : Kept s t) : t.geomW = s.geomW := by rw [h.frame]; rfl
theorem geomH (h : Kept s t) : t.geomH = s.geomH := by rw [h.frame]; rfl
theorem minTextX (h : Kept s t) : t.minTextX = s.minTextX := by rw [h.frame]; rfl
theorem maxTextX (h : Kept s t) : t.maxTextX = s.maxTextX := by rw [h.frame]; rfl
theorem minDispY (h : Kept s t) : t.minDispY = s.minDispY := by rw [h.frame]; rfl
theorem maxDispY (h : Kept s t) : t.maxDispY = s.maxDispY := by rw [h.frame]; rfl
theorem asset (h : Kept s t) : t.asset = s.asset := by rw [h.frame]; rfl

theorem geometryOk (h : Kept s t) (hs : s.geometryOk) : t.geometryOk := by rw [h.frame]; exact hs
theorem windowOk (h : Kept s t) (hs : s.windowOk) : t.windowOk := by rw [h.frame]; exact hs

theorem hangAt (h : Kept s t) : t.hangAt = s.hangAt := by rw [h.frame]; rfl

theorem refl (s : State) : Kept s s :=
  ⟨rfl, id, id, id, id, id, id, fun _ => .inl, fun _ _ => id⟩

/-- An endless poll of a later part of a drawing is one of the whole. -/
theorem within (k : Kept s t) {h : Hang} (w : h.Within t) : h.Within s where
  dispWf hs := w.dispWf (k.dispWf hs)
  dispRange hs := by
    have := w.dispRange
    rw [k.height, k.bpr] at this
    exact this (k.dispRange hs)
  shadow hs := by
    have := w.shadow (k.shadow hs)
    rwa [k.height, k.bpr] at this
  bus hs := w.bus (k.bus hs)
  maxTextX := w.maxTextX.trans k.maxTextX

/-- What a drawing step may change is taken from the later state, whichever earlier state the rest comes from. -/
theorem frame_irrel (h : t = s.withMemoriesOf t) (u : State) : t.withMemoriesOf u = s.withMemoriesOf u := by
  rw [h]
  rfl

theorem trans (h : Kept s t) (k : Kept t u) : Kept s u where
  frame := k.frame.trans (frame_irrel h.frame u)
  fb hs := by
    have := k.fb
    rw [h.height, h.bpr] at this
    exact this (h.fb hs)
  fbWf hs := k.fbWf (h.fbWf hs)
  dispWf hs := k.dispWf (h.dispWf hs)
  dispRange hs := by
    have := k.dispRange
    rw [h.height, h.bpr] at this
    exact this (h.dispRange hs)
  shadow hs := k.shadow (h.shadow hs)
  bus hs := k.bus (h.bus hs)
  hang x hx := by
    rcases k.hang x hx with hx | w
    · exact h.hang x hx
    · exact .inr (h.within w)
  record n hb hr := k.record n (h.bus hb) (h.record n hb hr)

/-- Steps that are each kept make a kept fold. -/
theorem foldl {α : Type} {f : State → α → State} {l : List α}
    (h : ∀ t, Kept s t → ∀ x ∈ l, Kept t (f t x)) : Kept s (l.foldl f s) := by
  have key : ∀ (l' : List α) (t : State), (∀ x ∈ l', x ∈ l) → Kept s t → Kept s (l'.foldl f t) := by
    intro l'
    induction l' with
    | nil => intro t _ ht; exact ht
    | cons x l' ih =>
      intro t hl ht
      exact ih (f t x) (fun y hy => hl y (List.mem_cons_of_mem _ hy))
        (ht.trans (h t ht x (hl x (List.mem_cons_self ..))))
  exact key l s (fun _ hx => hx) (refl s)

/-- A display write inside the screen is kept. -/
theorem of_sentAt {off : Nat} {bs : List Byte} (hf : t = s.withDispOf t) (h : SentAt s t off bs)
    (hr : off + bs.length ≤ s.height * s.bpr) (hb : s.busOk → t.busOk) (hs : t.stuck = s.stuck)
    (hn : ∀ n, s.Recorded n → t.Recorded n) : Kept s t where
  frame := by
    rw [hf]
    rfl
  fb hs := by
    rw [hf]
    exact hs
  fbWf hs := by
    rw [hf]
    exact hs
  dispWf := h.wf
  dispRange hs a ha := by
    rw [Memory.mem_addresses_iff, h.read] at ha
    split at ha
    · omega
    · exact hs a ((Memory.mem_addresses_iff _ _).2 ha)
  shadow hs := by
    rw [hf]
    exact hs
  bus := hb
  hang h hh := .inl (hs ▸ hh)
  record n _ hr := hn n hr

/-- The barrier, and the endless poll that it may be. -/
theorem dmaWait (s : State) : Kept s s.dmaWait where
  frame := by
    rw [s.dmaWait_frame]
    rfl
  fb hs := by simpa using hs
  fbWf hs := by simpa using hs
  dispWf hs := by simpa using hs
  dispRange hs := by simpa using hs
  shadow hs := by
    rw [s.dmaWait_frame]
    exact hs
  bus hs := State.dmaWait_busOk hs
  hang h hh := by
    rw [State.dmaWait_stuck] at hh
    split at hh
    · rename_i hx
      simp only [Bool.and_eq_true] at hx
      cases hs : s.stuck with
      | some h' => exact .inl (by simpa [hs] using hh)
      | none =>
        obtain rfl : s.polling = h := by simpa [hs] using hh
        refine .inr ⟨fun h => s.wf_dispInFlight.2 h, fun ha a hm => ha a (s.addresses_dispInFlight ▸ hm), id,
          fun hb => ?_, rfl⟩
        show busRun false s.trace = some true
        rw [← hx.1]
        exact hb
    · exact .inl hh
  record n hb hr := hr.dmaWait hb

/-- An event outside a transfer, which starts none, is kept. -/
theorem emit {e : Event} (hq : s.xferBusy = false) (he : busEvent false e = some false) : Kept s (s.emit e) where
  frame := rfl
  fb := id
  fbWf := id
  dispWf := id
  dispRange := id
  shadow := id
  bus hs := State.emit_busOk hs hq he
  hang _ := .inl
  record _ _ hr := hr.emit hq (by cases e <;> simp_all [busEvent, Event.isStart])

/-- Pointing the display is kept. -/
theorem dispAddr (y b : Nat) (hq : s.xferBusy = false) : Kept s (s.dispAddr y b) where
  frame := rfl
  fb := id
  fbWf := id
  dispWf := id
  dispRange := id
  shadow := id
  bus hs := State.dispAddr_busOk y b hs hq
  hang _ := .inl
  record n _ hr := State.Recorded.congr (hr.emit (e := .busCmd (addrCmds s.cfg y b)) hq rfl) rfl rfl rfl rfl

/-- Data bytes that stay on the screen are kept. -/
theorem sendBytes {bs : List Byte} (hb : s.wpCol < s.bpr)
    (hr : s.offset s.wpRow s.wpCol + bs.length ≤ s.height * s.bpr) : Kept s (s.sendBytes bs) :=
  of_sentAt (by rw [s.sendBytes_frame]; rfl) (State.sendBytes_sentAt bs rfl hb rfl) hr (s.sendBytes_busOk bs)
    (by rw [s.sendBytes_frame]) fun n h => by
      rw [s.sendBytes_frame]
      exact State.Recorded.congr h rfl rfl rfl rfl

/-- The start of a transfer that stays on the screen is kept (R221). -/
theorem bulkStart {src : XferSource} {len : Nat} (hq : s.xferBusy = false) (hb : s.wpCol < s.bpr)
    (hr : s.offset s.wpRow s.wpCol + (s.sourceBytes src len).length ≤ s.height * s.bpr) :
    Kept s (s.bulkStart src len) :=
  of_sentAt (by unfold State.bulkStart; rw [State.sendBytes_frame]; rfl) (State.bulkStart_sentAt src len rfl hb rfl) hr
    (fun h => State.bulkStart_busOk src len h hq) (by unfold State.bulkStart; rw [State.sendBytes_frame]; rfl)
    fun n h => by
      unfold State.bulkStart
      rw [State.sendBytes_frame]
      exact h.bulkStart hq rfl rfl rfl rfl

theorem bulkWriteRun {y b len : Nat} {src : XferSource} (hb : b < s.bpr)
    (hr : s.offset y b + (s.sourceBytes src len).length ≤ s.height * s.bpr) :
    Kept s (s.bulkWriteRun y b src len) := by
  refine (dmaWait s).trans ((dispAddr y b (by simp)).trans (bulkStart (by simp) (by simpa using hb) ?_))
  rw [show (s.dmaWait.dispAddr y b).sourceBytes src len = s.sourceBytes src len by
    rw [← s.sourceBytes_dmaWait]; cases src <;> rfl]
  simpa [State.offset] using hr

theorem busWriteRun {y b : Nat} {bs : List Byte} (hb : b < s.bpr)
    (hr : s.offset y b + bs.length ≤ s.height * s.bpr) : Kept s (s.busWriteRun y b bs) := by
  refine (dmaWait s).trans ((dispAddr y b (by simp)).trans ((emit (by simp) rfl).trans (sendBytes ?_ ?_)))
  · simpa using hb
  · simpa [State.offset] using hr

theorem bulkContinue {len : Nat} {src : XferSource} (hb : s.wpCol < s.bpr)
    (hr : s.offset s.wpRow s.wpCol + (s.sourceBytes src len).length ≤ s.height * s.bpr) :
    Kept s (s.bulkContinue src len) := by
  refine (dmaWait s).trans (bulkStart (by simp) (by simpa using hb) ?_)
  rw [s.sourceBytes_dmaWait]
  simpa using hr

theorem xferRun {y b len : Nat} {src : XferSource} (hb : b < s.bpr)
    (hr : s.offset y b + (s.sourceBytes src len).length ≤ s.height * s.bpr) : Kept s (s.xferRun y b src len) := by
  unfold State.xferRun
  split
  · exact bulkWriteRun hb hr
  · exact busWriteRun hb hr

/-- Changing the scratch memories alone is kept. -/
theorem of_scratch (hf : t = s.withScratchOf t) : Kept s t := by
  rw [hf]
  exact ⟨rfl, id, id, id, id, id, id, fun _ => .inl, fun _ _ h => h.congr rfl rfl rfl rfl⟩

/-- Moving the cursor alone is kept. -/
theorem of_cursor (hf : t = { s with curX := t.curX, curY := t.curY }) : Kept s t := by
  rw [hf]
  exact ⟨rfl, id, id, id, id, id, id, fun _ => .inl, fun _ _ h => h.congr rfl rfl rfl rfl⟩

theorem setLine (s : State) (pix : List Nibble) : Kept s (s.setLine pix) := of_scratch rfl

theorem clearScratch (s : State) : Kept s s.clearScratch := of_scratch rfl

theorem setStage (s : State) (k : Nat) (bs : List Byte) : Kept s (s.setStage k bs) := of_scratch rfl

/-- A byte column of the screen is read back from a shadow entry as it was stored. -/
theorem storeShadow {y b : Nat} (v : Byte) (hb : b < s.bpr) : Kept s (s.storeShadow y b v) where
  frame := rfl
  fb := id
  fbWf := id
  dispWf := id
  dispRange := id
  shadow hs := by
    refine ⟨?_, ?_⟩
    · show (s.shadow.set y _).length = s.height
      rw [List.length_set]
      exact hs.1
    · intro e he
      show e.col.toNat < s.bpr
      rcases List.mem_or_eq_of_mem_set he with he | rfl
      · exact hs.2 e he
      · rw [toNat_reg16]
        · exact hb
        · have : s.bpr ≤ s.geomW.toNat / 2 := le_refl _
          have := s.geomW.isLt
          omega
  bus := id
  hang _ := .inl
  record _ _ h := h.congr rfl rfl rfl rfl

/-- The linear offset of a byte of the screen lies inside it. -/
theorem offset_lt {y b : Nat} (hy : y < s.height) (hb : b < s.bpr) : s.offset y b < s.height * s.bpr := by
  unfold State.offset
  calc y * s.bpr + b < y * s.bpr + s.bpr := by omega
    _ = (y + 1) * s.bpr := by rw [Nat.add_mul]; omega
    _ ≤ s.height * s.bpr := Nat.mul_le_mul_right _ hy

theorem setPix {d y : Nat} (p : Nibble) (hy : y < s.height) (hd : d / 2 < s.bpr) : Kept s (s.setPix d y p) where
  frame := rfl
  fb hs := by
    show Memory.addresses (Memory.write s.fb _ _) = _
    have hr : Memory.rising 0 s.fb = true := by
      rw [← Memory.wf_iff_rising]
      exact Memory.wf_of_addresses hs
    rw [Memory.addresses_write_listed _ hr]
    · exact hs
    · rw [hs, List.mem_range]
      exact offset_lt hy hd
  fbWf hs := Memory.wf_write _ _ hs
  dispWf := id
  dispRange := id
  shadow := id
  bus := id
  hang _ := .inl
  record _ _ h := h.congr rfl rfl rfl rfl

end Kept

/-! ### The staging buffers' size -/

/-- A row of the screen fits a staging buffer (R34). -/
theorem State.bpr_le_stageSize {s : State} (h : s.geometryOk) : s.bpr ≤ s.cfg.stageSize := by
  obtain ⟨_, _, h, _⟩ := h
  unfold State.bpr Cfg.stageSize
  omega

/-! ### What a fill leaves -/

/-- The places filled hold what they were filled with. -/
@[simp] theorem take_overlay {α : Type} (new old : List α) : (overlay new old).take new.length = new :=
  List.take_left' rfl

/-- The places behind those filled hold what they held. -/
@[simp] theorem drop_overlay {α : Type} (new old : List α) :
    (overlay new old).drop new.length = old.drop new.length := List.drop_left' rfl

@[simp] theorem overlay_nil {α : Type} (old : List α) : overlay [] old = old := rfl

/-- What a staging buffer holds after it is filled with bytes that fit it: those bytes, and behind them what it held
(R34, R80). -/
theorem State.stage_setStage {s : State} (k : Nat) {bs : List Byte} (h : bs.length ≤ s.cfg.stageSize) :
    (s.setStage k bs).stage k = overlay bs (s.stage k) := by
  unfold State.stage
  simp only [State.setStage_stage0, State.setStage_stage1, List.take_of_length_le h]
  split <;> rfl

end Sys2Proof.Machine
end

