-- ==== Sys2Proof/Laws/Raster.lean ====
section
/-!
SUPPORT. Laws of the line primitive (41_rasterizer.md R151 to R157): where a pixel lands, what a buffered line writes, the
runs of a line, what a direct run sends.
-/
namespace Sys2Proof.Machine

/-! ### Screen coordinates -/

/-- Bytes of different screen places lie at different offsets. -/
theorem State.offset_inj {s : State} {y b y' b' : Nat} (hb : b < s.bpr) (hb' : b' < s.bpr) :
    s.offset y b = s.offset y' b' ↔ y = y' ∧ b = b' := by
  constructor
  · intro h
    unfold State.offset at h
    have hy : y = y' := by
      rcases Nat.lt_trichotomy y y' with hlt | heq | hgt
      · have := Nat.mul_le_mul_right s.bpr (show y + 1 ≤ y' from hlt)
        rw [Nat.add_mul] at this
        omega
      · exact heq
      · have := Nat.mul_le_mul_right s.bpr (show y' + 1 ≤ y from hgt)
        rw [Nat.add_mul] at this
        omega
    subst hy
    exact ⟨rfl, by omega⟩
  · rintro ⟨rfl, rfl⟩
    rfl

/-- The byte column of a screen column, on a screen of even width. -/
theorem State.half_lt_bpr {s : State} (he : s.width % 2 = 0) {x : Nat} (hx : x < s.width) : x / 2 < s.bpr := by
  unfold State.bpr
  omega

/-- `SetPix` sets its pixel and no other of the screen (R63). -/
theorem State.fbPixel_setPix (s : State) (he : s.width % 2 = 0) {x y x' y' : Nat} (p : Nibble) (hx : x < s.width)
    (hx' : x' < s.width) :
    (s.setPix x y p).fbPixel x' y' = if x' = x ∧ y' = y then p else s.fbPixel x' y' := by
  have hb := State.half_lt_bpr he hx
  have hb' := State.half_lt_bpr he hx'
  have hread : (s.setPix x y p).fbByte y' (x' / 2) =
      if s.offset y' (x' / 2) = s.offset y (x / 2) then mergeAt (s.fbByte y (x / 2)) x p
      else s.fbByte y' (x' / 2) := by
    show (Memory.read (Memory.write s.fb _ _) (s.offset y' (x' / 2))).getD _ = _
    rw [Memory.read_write]
    split <;> rfl
  unfold State.fbPixel
  rw [hread]
  by_cases h : s.offset y' (x' / 2) = s.offset y (x / 2)
  · rw [if_pos h]
    obtain ⟨rfl, hxx⟩ := (State.offset_inj hb' hb).1 h
    by_cases hx2 : x' = x
    · subst hx2
      simp
    · rw [if_neg (by simp [hx2]), ← hxx, nibbleAt_mergeAt_other]
      omega
  · rw [if_neg h, if_neg]
    rintro ⟨rfl, rfl⟩
    exact h rfl

/-! ### Where a pixel lands -/

/-- A landing column is on the screen and left of the margin (R151). -/
theorem State.mapCol_lt {s : State} {c : Int} {d : Nat} (h : s.mapCol c = some d) :
    d < s.width ∧ (d : Int) < s16 s.maxTextX := by
  unfold State.mapCol at h
  split at h
  · exact absurd h (by simp)
  · split at h
    · exact absurd h (by simp)
    · split at h
      · exact absurd h (by simp)
      · simp only [Option.some.injEq] at h
        omega

/-- On the screen and left of the margin a pixel lands where it is aimed (R151). -/
theorem State.mapCol_inside {s : State} {c : Int} (h0 : 0 ≤ c) (h1 : c < s.width) (h2 : c < s16 s.maxTextX) :
    s.mapCol c = some c.toNat := by
  unfold State.mapCol State.wrapCol
  rw [if_pos ⟨h0, h1⟩]
  simp only
  rw [if_neg (by omega), if_neg (by omega)]

/-- On the screen at or right of the margin a pixel is dropped (R151). -/
theorem State.mapCol_margin {s : State} {c : Int} (h0 : 0 ≤ c) (h1 : c < s.width) (h2 : s16 s.maxTextX ≤ c) :
    s.mapCol c = none := by
  unfold State.mapCol State.wrapCol
  rw [if_pos ⟨h0, h1⟩]
  simp only
  rw [if_neg (by omega), if_pos (by omega)]

/-- Off the screen without wrap a pixel is dropped (R151). -/
theorem State.mapCol_outside {s : State} {c : Int} (hw : s.wrap = false) (h : c < 0 ∨ (s.width : Int) ≤ c) :
    s.mapCol c = none := by
  unfold State.mapCol State.wrapCol
  rw [if_neg (by omega), if_neg (by simp [hw]), if_neg (by simp [hw])]

theorem Kept.mapCol {s t : State} (h : Kept s t) (c : Int) : t.mapCol c = s.mapCol c := by
  unfold State.mapCol State.wrapCol State.wrap
  rw [h.width, h.maxTextX, h.ctrl]

theorem Kept.rowVisible {s t : State} (h : Kept s t) (y : Int) : t.rowVisible y = s.rowVisible y := by
  unfold State.rowVisible
  rw [h.minDispY, h.maxDispY]

/-- A visible row is a row of the screen (R154). -/
theorem State.rowVisible_bounds {s : State} (hw : s.windowOk) {y : Int} (h : s.rowVisible y = true) :
    0 ≤ y ∧ y < s.height ∧ y.toNat < s.height := by
  simp only [State.rowVisible, Bool.and_eq_true, decide_eq_true_eq] at h
  obtain ⟨_, _, _, _, h1, _, _, h2⟩ := hw
  omega

/-! ### The buffered line -/

/-- A buffered line changes `FB` and nothing else (R152). -/
theorem hLineBuf_frame (y : Nat) (ps : List Nibble) (x : Int) (s : State) :
    (hLineBuf y ps x s).1 = s.withFbOf (hLineBuf y ps x s).1 := by
  induction ps generalizing x s with
  | nil => rfl
  | cons p ps ih =>
    simp only [hLineBuf]
    split
    · exact ih (x + 1) s
    · rename_i d hd
      show (hLineBuf y ps (x + 1) (s.setPix d y p)).1 = s.withFbOf (hLineBuf y ps (x + 1) (s.setPix d y p)).1
      rw [ih (x + 1) (s.setPix d y p)]
      rfl

theorem hLineBuf_kept {y : Nat} (ps : List Nibble) (x : Int) {s : State} (hg : s.geometryOk) (hy : y < s.height) :
    Kept s (hLineBuf y ps x s).1 := by
  induction ps generalizing x s with
  | nil => exact Kept.refl s
  | cons p ps ih =>
    simp only [hLineBuf]
    split
    · exact ih (x + 1) hg hy
    · rename_i d hd
      have k : Kept s (s.setPix d y p) :=
        Kept.setPix p hy (State.half_lt_bpr hg.2.1 (State.mapCol_lt hd).1)
      exact k.trans (ih (x + 1) (k.geometryOk hg) (by rw [k.height]; exact hy))

/-- How many pixels a buffered line writes: those that land (R152). -/
theorem hLineBuf_count (y : Nat) (ps : List Nibble) (x : Int) (s : State) :
    (hLineBuf y ps x s).2 = (List.range ps.length).countP fun i : Nat => (s.mapCol (x + (i : Int))).isSome := by
  induction ps generalizing x s with
  | nil => rfl
  | cons p ps ih =>
    have hrest : ∀ t : State, (∀ c, t.mapCol c = s.mapCol c) →
        (hLineBuf y ps (x + 1) t).2 =
          ((List.range ps.length).map Nat.succ).countP fun i : Nat => (s.mapCol (x + (i : Int))).isSome := by
      intro t ht
      rw [ih, List.countP_map]
      congr 1
      funext i
      simp only [Function.comp, Nat.succ_eq_add_one, Nat.cast_add, Nat.cast_one, ht]
      congr 2
      omega
    simp only [hLineBuf, List.length_cons, List.range_succ_eq_map, List.countP_cons, Nat.cast_zero, add_zero]
    split
    · rename_i h
      rw [hrest s fun _ => rfl, h]
      simp
    · rename_i d h
      show (hLineBuf y ps (x + 1) (s.setPix d y p)).2 + 1 = _
      rw [hrest (s.setPix d y p) fun _ => rfl, h]
      simp

/-- What a buffered line leaves in the pixels of the screen (R152): in its row, the last source pixel aimed at a column
wins; a column nothing lands on keeps its pixel; so does every other row. -/
theorem hLineBuf_pixel {y : Nat} (ps : List Nibble) (x : Int) {s : State} (he : s.width % 2 = 0) {d y' : Nat}
    (hd : d < s.width) :
    (∀ i (hi : i < ps.length), s.mapCol (x + i) = some d → (∀ j, i < j → j < ps.length → s.mapCol (x + j) ≠ some d) →
      (hLineBuf y ps x s).1.fbPixel d y = ps[i]) ∧
    ((y' ≠ y ∨ ∀ i, i < ps.length → s.mapCol (x + i) ≠ some d) →
      (hLineBuf y ps x s).1.fbPixel d y' = s.fbPixel d y') := by
  induction ps generalizing x s y' with
  | nil => exact ⟨fun i hi => absurd hi (by simp), fun _ => rfl⟩
  | cons p ps ih =>
    have hcast : ∀ i : Nat, x + 1 + (i : Int) = x + ((i + 1 : Nat) : Int) := by
      intro i
      push_cast
      ring
    simp only [hLineBuf]
    cases hm : s.mapCol x with
    | none =>
      obtain ⟨h1, h2⟩ := ih (x + 1) he hd
      refine ⟨?_, ?_⟩
      · intro i hi hmi hlast
        cases i with
        | zero =>
          rw [Nat.cast_zero, add_zero, hm] at hmi
          exact absurd hmi (by simp)
        | succ i =>
          refine h1 i (by simpa using hi) (by rw [hcast]; exact hmi) fun j hij hj => ?_
          rw [hcast]
          exact hlast (j + 1) (by omega) (by simpa using hj)
      · intro h
        apply h2
        rcases h with h | h
        · exact .inl h
        · refine .inr fun i hi => ?_
          rw [hcast]
          exact h (i + 1) (by simpa using hi)
    | some d0 =>
      have hd0 := (State.mapCol_lt hm).1
      have hw : (s.setPix d0 y p).width = s.width := rfl
      obtain ⟨h1, h2⟩ := ih (s := s.setPix d0 y p) (x + 1) he hd
      have hmap : ∀ c, (s.setPix d0 y p).mapCol c = s.mapCol c := fun _ => rfl
      refine ⟨?_, ?_⟩
      · intro i hi hmi hlast
        cases i with
        | zero =>
          rw [Nat.cast_zero, add_zero, hm] at hmi
          obtain rfl : d0 = d := by simpa using hmi
          have h3 : (hLineBuf y ps (x + 1) (s.setPix d0 y p)).1.fbPixel d0 y = (s.setPix d0 y p).fbPixel d0 y := by
            obtain ⟨_, h2'⟩ := ih (s := s.setPix d0 y p) (y' := y) (x + 1) he hd
            refine h2' (.inr fun j hj => ?_)
            rw [hmap, hcast]
            exact hlast (j + 1) (by omega) (by simpa using hj)
          rw [h3, s.fbPixel_setPix he p hd0 hd]
          simp
        | succ i =>
          refine h1 i (by simpa using hi) (by rw [hmap, hcast]; exact hmi) fun j hij hj => ?_
          rw [hmap, hcast]
          exact hlast (j + 1) (by omega) (by simpa using hj)
      · intro h
        have hne : ¬(d = d0 ∧ y' = y) := by
          rintro ⟨rfl, rfl⟩
          rcases h with h | h
          · exact h rfl
          · exact h 0 (by simp) (by rw [Nat.cast_zero, add_zero]; exact hm)
        rw [h2, s.fbPixel_setPix he p hd0 hd, if_neg hne]
        rcases h with h | h
        · exact .inl h
        · refine .inr fun i hi => ?_
          rw [hmap, hcast]
          exact h (i + 1) (by simpa using hi)

/-- A buffered line writes no byte but those its pixels land in. -/
theorem hLineBuf_read {y : Nat} (ps : List Nibble) (x : Int) {s : State} {off : Nat}
    (h : ∀ i d, i < ps.length → s.mapCol (x + (i : Nat)) = some d → off ≠ s.offset y (d / 2)) :
    Memory.read (hLineBuf y ps x s).1.fb off = Memory.read s.fb off := by
  induction ps generalizing x s with
  | nil => rfl
  | cons p ps ih =>
    have hcast : ∀ i : Nat, x + 1 + (i : Int) = x + ((i + 1 : Nat) : Int) := by
      intro i
      push_cast
      ring
    simp only [hLineBuf]
    split
    · apply ih
      intro i d hi hm
      rw [hcast] at hm
      exact h (i + 1) d (by simpa using hi) hm
    · rename_i d0 hm0
      show Memory.read (hLineBuf y ps (x + 1) (s.setPix d0 y p)).1.fb off = _
      rw [ih]
      · show Memory.read (Memory.write s.fb (s.offset y (d0 / 2)) _) off = _
        refine Memory.read_write_other _ _ ?_
        exact h 0 d0 (by simp) (by simpa using hm0)
      · intro i d hi hm
        rw [hcast] at hm
        exact h (i + 1) d (by simpa using hi) hm

end Sys2Proof.Machine
end

