-- ==== Sys2Proof/Laws/Direct.lean ====
section
/-!
SUPPORT. Laws of the direct line (41_rasterizer.md R155, R156): the runs of a line, and what one run does, in closed form.
-/
namespace Sys2Proof.Machine

/-! ### Runs -/

/-- Every run holds a pixel, and all its columns are on the screen and left of the margin. -/
theorem State.runs_bounds {s : State} {pix : List Nibble} {x : Int} :
    (∀ r ∈ s.runs pix x, r.pix ≠ [] ∧ r.col + r.pix.length ≤ s.width ∧
      ((r.col + r.pix.length : Nat) : Int) ≤ s16 s.maxTextX) ∧
    (∀ r rs d, s.runs pix x = r :: rs → s.mapCol x = some d → r.col = d) := by
  induction pix generalizing x with
  | nil => exact ⟨fun r hr => absurd hr (by simp [State.runs]), fun r rs d h => absurd h (by simp [State.runs])⟩
  | cons p ps ih =>
    obtain ⟨ih1, ih2⟩ := ih (x := x + 1)
    cases hm : s.mapCol x with
    | none =>
      have hr : s.runs (p :: ps) x = s.runs ps (x + 1) := by simp [State.runs, hm]
      refine ⟨by rw [hr]; exact ih1, fun r rs d _ h => absurd h (by simp)⟩
    | some d =>
      have hd := State.mapCol_lt hm
      have hone : ({ col := d, pix := [p] } : Run).pix ≠ [] ∧
          ({ col := d, pix := [p] } : Run).col + ({ col := d, pix := [p] } : Run).pix.length ≤ s.width ∧
          ((({ col := d, pix := [p] } : Run).col + ({ col := d, pix := [p] } : Run).pix.length : Nat) : Int) ≤
            s16 s.maxTextX := by
        refine ⟨by simp, ?_, ?_⟩
        · simp
          omega
        · simp
          omega
      simp only [State.runs, hm]
      split
      · rename_i d' r rs hd' hrs
        split
        · rename_i heq
          refine ⟨fun r' hr' => ?_, fun r' rs' d'' h h' => ?_⟩
          · rcases List.mem_cons.1 hr' with rfl | hr'
            · have hcol := ih2 r rs d' hrs hd'
              obtain ⟨_, h1, h2⟩ := ih1 r (by rw [hrs]; exact List.mem_cons_self ..)
              refine ⟨by simp, ?_, ?_⟩
              · simp only [List.length_cons]
                omega
              · simp only [List.length_cons]
                push_cast at h2 ⊢
                omega
            · exact ih1 r' (by rw [hrs]; exact List.mem_cons_of_mem _ hr')
          · simp only [List.cons.injEq] at h
            rw [← h.1]
            simpa using h'
        · refine ⟨fun r' hr' => ?_, fun r' rs' d'' h h' => ?_⟩
          · rcases List.mem_cons.1 hr' with rfl | hr'
            · exact hone
            · exact ih1 r' (by rw [hrs]; exact hr')
          · simp only [List.cons.injEq] at h
            rw [← h.1]
            simpa using h'
      · refine ⟨fun r' hr' => ?_, fun r' rs' d'' h h' => ?_⟩
        · rcases List.mem_cons.1 hr' with rfl | hr'
          · exact hone
          · exact ih1 r' hr'
        · simp only [List.cons.injEq] at h
          rw [← h.1]
          simpa using h'

/-- Pixels that are all dropped make no run. -/
theorem State.runs_dropped {s : State} (ps qs : List Nibble) {x : Int}
    (h : ∀ i, i < ps.length → s.mapCol (x + (i : Nat)) = none) :
    s.runs (ps ++ qs) x = s.runs qs (x + ps.length) := by
  induction ps generalizing x with
  | nil => simp
  | cons p ps ih =>
    have h0 : s.mapCol x = none := by simpa using h 0 (by simp)
    have := ih (x := x + 1) fun i hi => by
      have := h (i + 1) (by simpa using hi)
      rw [← this]
      congr 1
      push_cast
      ring
    simp only [List.cons_append, State.runs, h0, this, List.length_cons]
    congr 1
    push_cast
    ring

/-- Pixels that land on consecutive columns, with nothing landing on the column after them, make one run. -/
theorem State.runs_landed {s : State} (p : Nibble) (ps qs : List Nibble) {x : Int} {d : Nat}
    (h : ∀ i, i < (p :: ps).length → s.mapCol (x + (i : Nat)) = some (d + i))
    (hend : qs = [] ∨ s.mapCol (x + (p :: ps).length) ≠ some (d + (p :: ps).length)) :
    s.runs (p :: ps ++ qs) x = { col := d, pix := p :: ps } :: s.runs qs (x + (p :: ps).length) := by
  induction ps generalizing p x d with
  | nil =>
    have h0 : s.mapCol x = some d := by simpa using h 0 (by simp)
    simp only [List.cons_append, List.nil_append, State.runs, h0, List.length_cons, List.length_nil, zero_add,
      Nat.cast_one]
    split
    · rename_i d' r rs hd' hrs
      rw [if_neg, hrs]
      rcases hend with rfl | hend
      · simp [State.runs] at hrs
      · rintro rfl
        exact hend (by simpa using hd')
    · rfl
  | cons q ps ih =>
    have h0 : s.mapCol x = some d := by simpa using h 0 (by simp)
    have h1 : s.mapCol (x + 1) = some (d + 1) := by simpa using h 1 (by simp)
    have hrec := ih q (x := x + 1) (d := d + 1)
      (fun i hi => by
        have := h (i + 1) (by simpa using hi)
        rw [show x + 1 + (i : Int) = x + ((i + 1 : Nat) : Int) by push_cast; ring, this]
        congr 1
        omega)
      (by
        rcases hend with h | hend
        · exact .inl h
        · refine .inr fun hc => hend ?_
          rw [show x + ((p :: q :: ps).length : Int) = x + 1 + ((q :: ps).length : Int) by
            simp only [List.length_cons]; push_cast; ring, hc]
          congr 1
          simp only [List.length_cons]
          omega)
    have hx : x + 1 + ((q :: ps).length : Int) = x + ((p :: q :: ps).length : Int) := by
      simp only [List.length_cons]
      push_cast
      ring
    show s.runs (p :: (q :: ps ++ qs)) x = _
    simp only [State.runs, h0, h1, hrec, hx]
    simp

theorem Kept.runs {s t : State} (h : Kept s t) (pix : List Nibble) (x : Int) : t.runs pix x = s.runs pix x := by
  induction pix generalizing x with
  | nil => rfl
  | cons p ps ih => simp only [State.runs, h.mapCol, ih]

/-! ### One run, in closed form -/

theorem State.sendBytes_storeShadow (u : State) (bs : List Byte) (y b : Nat) (v : Byte) :
    (u.storeShadow y b v).sendBytes bs = (u.sendBytes bs).storeShadow y b v := by
  induction bs generalizing u with
  | nil => rfl
  | cons w bs ih =>
    show ((u.sendByte w).storeShadow y b v).sendBytes bs = ((u.sendByte w).sendBytes bs).storeShadow y b v
    exact ih _

theorem State.storeShadow_storeShadow (u : State) (y b b' : Nat) (v v' : Byte) :
    (u.storeShadow y b v).storeShadow y b' v' = u.storeShadow y b' v' := by
  unfold State.storeShadow
  simp

/-- The shadow entry of a row of the screen, after a store. -/
theorem State.shadowAt_storeShadow (u : State) {y b : Nat} (v : Byte) (hy : y < u.shadow.length) :
    (u.storeShadow y b v).shadowAt y = { col := reg16 b, byte := v } := by
  simp [State.shadowAt, State.storeShadow, hy]

/-- Several events at once. -/
def State.emitAll (s : State) (es : List Event) : State := { s with trace := s.trace ++ es }

theorem State.emitAll_emit (s : State) (e : Event) (es : List Event) :
    (s.emit e).emitAll es = s.emitAll (e :: es) := by
  simp [State.emit, State.emitAll]

/-- Past the first byte column of a run, what is sent does not depend on the state. -/
theorem State.sentByte_later (s t : State) (y : Nat) {r : Run} {b : Nat} (h : r.col / 2 < b) :
    s.sentByte y r b = t.sentByte y r b := by
  unfold State.sentByte
  rw [if_neg (show ¬b = r.col / 2 by omega), if_neg (show ¬b = r.col / 2 by omega),
    if_neg (show ¬b = r.col / 2 by omega), if_neg (show ¬b = r.col / 2 by omega)]

/-- The byte sent is the one of the closed form, in the first byte column and wherever the row's entry holds another
byte column. -/
theorem State.runByte_eq_sentByte {t : State} {y : Nat} {r : Run} {b : Nat}
    (h : b = r.col / 2 ∨ (t.shadowAt y).col.toNat ≠ b) : t.runByte y r b = t.sentByte y r b := by
  unfold State.runByte State.sentByte
  rcases h with h | h
  · simp only [if_pos h]
  · simp only [State.shadowHi, State.shadowLo, if_neg h, ite_self]

/-- Bytes of a run sent one by one, in closed form (R156). -/
theorem streamByte_fold {y : Nat} {r : Run} {t : State} {b k : Nat} (hy : y < t.shadow.length)
    (hc : b = r.col / 2 ∨ (t.shadowAt y).col.toNat ≠ b) (hb : b + k < 65536) (hr : r.col / 2 ≤ b) :
    (List.range' b (k + 1)).foldl (streamByte y r) t =
      ((t.emitAll (((List.range' b (k + 1)).map (t.sentByte y r)).map fun v => .busData [v])).sendBytes
        ((List.range' b (k + 1)).map (t.sentByte y r))).storeShadow y (b + k) (t.sentByte y r (b + k)) := by
  induction k generalizing t b with
  | zero =>
    simp only [List.range'_succ, List.range'_zero, List.foldl_cons, List.foldl_nil, List.map_cons, List.map_nil,
      streamByte, State.runByte_eq_sentByte hc]
    rfl
  | succ k ih =>
    rw [List.range'_succ, List.foldl_cons, List.map_cons, List.map_cons]
    have hstep : streamByte y r t b =
        ((t.emit (.busData [t.sentByte y r b])).sendByte (t.sentByte y r b)).storeShadow y b (t.sentByte y r b) := by
      simp only [streamByte, State.runByte_eq_sentByte hc]
    rw [hstep]
    generalize hv : t.sentByte y r b = v
    have hlen : y < (((t.emit (.busData [v])).sendByte v).storeShadow y b v).shadow.length := by
      show y < (t.shadow.set y _).length
      rw [List.length_set]
      exact hy
    have hcol : ((((t.emit (.busData [v])).sendByte v).storeShadow y b v).shadowAt y).col.toNat ≠ b + 1 := by
      rw [State.shadowAt_storeShadow]
      · rw [toNat_reg16 (by omega)]
        omega
      · exact hy
    rw [ih hlen (.inr hcol) (by omega) (by omega)]
    have hmap : (List.range' (b + 1) (k + 1)).map
        ((((t.emit (.busData [v])).sendByte v).storeShadow y b v).sentByte y r) =
        (List.range' (b + 1) (k + 1)).map (t.sentByte y r) := by
      apply List.map_congr_left
      intro j hj
      rw [List.mem_range'_1] at hj
      exact State.sentByte_later _ _ y (by omega)
    rw [hmap, State.sentByte_later _ t y (show r.col / 2 < b + 1 + k by omega)]
    have hbk : b + 1 + k = b + (k + 1) := by omega
    rw [hbk]
    generalize (List.range' (b + 1) (k + 1)).map (t.sentByte y r) = bs
    generalize t.sentByte y r (b + (k + 1)) = w
    show (((((t.emit (.busData [v])).sendByte v).emitAll _).storeShadow y b v).sendBytes bs).storeShadow y _ w = _
    rw [State.sendBytes_storeShadow, State.storeShadow_storeShadow]
    rw [← State.emitAll_emit]
    rfl

/-- The byte columns of a run, as a range. -/
theorem Run.byteCols_eq {r : Run} (h : r.pix ≠ []) :
    r.byteCols = List.range' (r.col / 2) ((r.col + r.pix.length - 1) / 2 - r.col / 2 + 1) := by
  have hl : 0 < r.pix.length := List.length_pos_iff.2 h
  unfold Run.byteCols
  rw [List.range'_eq_map_range]
  have : (r.col + r.pix.length - 1) / 2 + 1 - r.col / 2 = (r.col + r.pix.length - 1) / 2 - r.col / 2 + 1 := by
    have : r.col / 2 ≤ (r.col + r.pix.length - 1) / 2 := Nat.div_le_div_right (by omega)
    omega
  rw [this]

/-- What `StreamRun` does (R156): the barrier, the write pointer put at the run's first byte column, its bytes sent as
data bytes, and the row's shadow entry left at the last of them. -/
theorem streamRun_eq {y : Nat} {s : State} {r : Run} (hy : y < s.shadow.length) (hr : r.pix ≠ [])
    (hw : r.col + r.pix.length ≤ 65536) :
    streamRun y s r =
      (((s.dmaWait.dispAddr y (r.col / 2)).emitAll ((s.sentBytes y r).map fun v => .busData [v])).sendBytes
        (s.sentBytes y r)).storeShadow y ((r.col + r.pix.length - 1) / 2)
        (s.sentByte y r ((r.col + r.pix.length - 1) / 2)) := by
  have hl : 0 < r.pix.length := List.length_pos_iff.2 hr
  have hle : r.col / 2 ≤ (r.col + r.pix.length - 1) / 2 := Nat.div_le_div_right (by omega)
  have hsent : ∀ b, (s.dmaWait.dispAddr y (r.col / 2)).sentByte y r b = s.sentByte y r b := by
    intro b
    rw [s.dmaWait_frame]
    rfl
  unfold streamRun State.sentBytes
  rw [Run.byteCols_eq hr, streamByte_fold]
  · have he : r.col / 2 + ((r.col + r.pix.length - 1) / 2 - r.col / 2) = (r.col + r.pix.length - 1) / 2 := by omega
    rw [he, hsent]
    have hm : (s.dmaWait.dispAddr y (r.col / 2)).sentByte y r = s.sentByte y r := funext hsent
    rw [hm]
  · simpa using hy
  · exact .inl rfl
  · omega
  · exact le_refl _

@[simp] theorem State.length_sentBytes (s : State) (y : Nat) (r : Run) :
    (s.sentBytes y r).length = r.byteCols.length := by
  simp [State.sentBytes]

theorem streamRun_frame {y : Nat} {s : State} {r : Run} (hy : y < s.shadow.length) (hr : r.pix ≠ [])
    (hw : r.col + r.pix.length ≤ 65536) : streamRun y s r = s.withDirectOf (streamRun y s r) := by
  rw [streamRun_eq hy hr hw, State.sendBytes_frame, s.dmaWait_frame]
  rfl

/-- Data bytes, one event each, are kept. -/
theorem State.emitAll_kept {s : State} (bs : List Byte) (hq : s.xferBusy = false) :
    Kept s (s.emitAll (bs.map fun v => .busData [v])) := by
  induction bs generalizing s with
  | nil => simpa [State.emitAll] using Kept.refl s
  | cons b bs ih =>
    rw [List.map_cons, ← State.emitAll_emit]
    exact (Kept.emit hq rfl).trans (ih hq)

theorem streamRun_kept {y : Nat} {s : State} {r : Run} (hy : y < s.shadow.length) (hh : y < s.height)
    (he : s.width % 2 = 0) (hr : r.pix ≠ []) (hw : r.col + r.pix.length ≤ s.width) : Kept s (streamRun y s r) := by
  have hl : 0 < r.pix.length := List.length_pos_iff.2 hr
  have hle : r.col / 2 ≤ (r.col + r.pix.length - 1) / 2 := Nat.div_le_div_right (by omega)
  have hmax : s.width < 65536 := s.geomW.isLt
  have hb : (r.col + r.pix.length - 1) / 2 < s.bpr := State.half_lt_bpr he (by omega)
  rw [streamRun_eq hy hr (by omega)]
  have hlen : (s.sentBytes y r).length = (r.col + r.pix.length - 1) / 2 - r.col / 2 + 1 := by
    rw [State.length_sentBytes, Run.byteCols_eq hr, List.length_range']
  have k0 : Kept s ((s.dmaWait.dispAddr y (r.col / 2)).emitAll ((s.sentBytes y r).map fun v => .busData [v])) :=
    (Kept.dmaWait s).trans ((Kept.dispAddr y _ (by simp)).trans (State.emitAll_kept _ (by simp)))
  have hcol : ((s.dmaWait.dispAddr y (r.col / 2)).emitAll
    ((s.sentBytes y r).map fun v => .busData [v])).wpCol = r.col / 2 := rfl
  have hrow : ((s.dmaWait.dispAddr y (r.col / 2)).emitAll
    ((s.sentBytes y r).map fun v => .busData [v])).wpRow = y := rfl
  have k1 := k0.trans (Kept.sendBytes (bs := s.sentBytes y r) (by rw [hcol, k0.bpr]; omega) (by
    have := Kept.offset_lt (s := s) hh hb
    unfold State.offset at *
    rw [hcol, hrow, k0.bpr, k0.height]
    omega))
  exact k1.trans (Kept.storeShadow _ (by rw [k1.bpr]; exact hb))

/-! ### The direct line -/

theorem hLineDirect_kept {y : Nat} (pix : List Nibble) (x : Int) {s : State} (hg : s.geometryOk) (hs : s.shadowOk)
    (hy : y < s.height) : Kept s (hLineDirect y pix x s).1 := by
  apply Kept.foldl
  intro t k r hr
  obtain ⟨h1, h2, _⟩ := State.runs_bounds.1 r hr
  refine streamRun_kept ?_ (by rw [k.height]; exact hy) (by rw [k.width]; exact hg.2.1) h1 (by rw [k.width]; exact h2)
  rw [(k.shadow hs).1, k.height]
  exact hy

/-- A direct line changes the display side and `SHADOW`, nothing else (R156). -/
theorem hLineDirect_frame {y : Nat} (pix : List Nibble) (x : Int) {s : State} (hg : s.geometryOk) (hs : s.shadowOk)
    (hy : y < s.height) : (hLineDirect y pix x s).1 = s.withDirectOf (hLineDirect y pix x s).1 := by
  unfold hLineDirect
  have key : ∀ (l : List Run) (t : State), (∀ r ∈ l, r.pix ≠ [] ∧ r.col + r.pix.length ≤ s.width) → Kept s t →
      l.foldl (streamRun y) t = t.withDirectOf (l.foldl (streamRun y) t) := by
    intro l
    induction l with
    | nil => intro t _ _; rfl
    | cons r l ih =>
      intro t hl k
      obtain ⟨h1, h2⟩ := hl r (List.mem_cons_self ..)
      have hyl : y < t.shadow.length := by
        rw [(k.shadow hs).1, k.height]
        exact hy
      have hmax : s.width < 65536 := s.geomW.isLt
      have k' := streamRun_kept hyl (by rw [k.height]; exact hy) (by rw [k.width]; exact hg.2.1) h1
        (by rw [k.width]; exact h2)
      have hf := streamRun_frame hyl h1 (by omega)
      rw [List.foldl_cons, ih _ (fun r' hr' => hl r' (List.mem_cons_of_mem _ hr')) (k.trans k'), hf]
      rfl
  exact key _ s (fun r hr => ⟨(State.runs_bounds.1 r hr).1, (State.runs_bounds.1 r hr).2.1⟩) (Kept.refl s)

/-- How many pixels the runs of a line hold: those that land (R155, R156). -/
theorem runsCount_eq (s : State) (pix : List Nibble) (x : Int) :
    runsCount (s.runs pix x) =
      (List.range pix.length).countP fun i : Nat => (s.mapCol (x + (i : Int))).isSome := by
  rw [← hLineBuf_count 0 pix x s]
  have key : ∀ (ps : List Nibble) (x : Int) (t : State), (∀ c, t.mapCol c = s.mapCol c) →
      runsCount (s.runs ps x) = (hLineBuf 0 ps x t).2 := by
    intro ps
    induction ps with
    | nil => intro x t _; rfl
    | cons p ps ih =>
      intro x t ht
      simp only [State.runs, hLineBuf, ht]
      split
      · exact ih (x + 1) t ht
      · rename_i d hd
        rw [← ih (x + 1) (t.setPix d 0 p) ht]
        split
        · rename_i d' r rs hd' hrs
          split
          · rw [hrs]
            simp [runsCount]
            omega
          · rw [hrs]
            simp [runsCount]
            omega
        · simp [runsCount]
          omega
  exact key pix x s fun _ => rfl

end Sys2Proof.Machine
end

