-- ==== Sys2Proof/Laws/Draw.lean ====
section
/-!
SUPPORT. Laws of the drawing operations over the line primitive: what a line, a stack of lines, a blit, a glyph and a
layout step may change (41_rasterizer.md, 42_font_glyph.md, 43_dma_streamer.md).
-/
namespace Sys2Proof.Machine

/-- What every drawing law needs of the state: a geometry INIT accepts, a legal window, a whole shadow cache. -/
structure State.Drawable (s : State) : Prop where
  geometry : s.geometryOk
  window : s.windowOk
  shadow : s.shadowOk

theorem Kept.drawable {s t : State} (h : Kept s t) (hs : s.Drawable) : t.Drawable :=
  ⟨h.geometryOk hs.geometry, h.windowOk hs.window, h.shadow hs.shadow⟩

/-- An initialised state at the start of a command can be drawn in. -/
theorem State.Sound.drawable {s : State} (h : s.Sound) (hi : s.inited = true) : s.Drawable :=
  ⟨h.geometry hi, h.window hi, h.shadowRows hi⟩

/-! ### Frames of a draw -/

theorem State.withDrawOf_self (m : Mode) (s : State) : s.withDrawOf m s = s := by
  cases m <;> rfl

/-- What a draw may change composes. -/
theorem State.withDrawOf_trans {m : Mode} {s t u : State} (h : t = s.withDrawOf m t) (k : u = t.withDrawOf m u) :
    u = s.withDrawOf m u := by
  cases m
  · rw [k, h]
    rfl
  · rw [k, h]
    rfl

theorem State.withDrawOf_foldl {α : Type} {m : Mode} {f : State → α → State} {l : List α} {s : State}
    (P : State → Prop) (hs : P s) (hf : ∀ t x, P t → x ∈ l → f t x = t.withDrawOf m (f t x) ∧ P (f t x)) :
    l.foldl f s = s.withDrawOf m (l.foldl f s) := by
  induction l generalizing s with
  | nil => exact (s.withDrawOf_self m).symm
  | cons x l ih =>
    obtain ⟨h1, h2⟩ := hf s x hs (List.mem_cons_self ..)
    exact State.withDrawOf_trans h1 (ih h2 fun t y ht hy => hf t y ht (List.mem_cons_of_mem _ hy))

/-! ### Lines -/

/-- A line changes what a draw of its mode may change, and keeps the memories in bounds (R157). -/
theorem hLine_spec {m : Mode} (x y : Int) (pix : List Nibble) {s : State} (hs : s.Drawable) :
    (hLine m x y pix s).1 = s.withDrawOf m (hLine m x y pix s).1 ∧ Kept s (hLine m x y pix s).1 := by
  unfold hLine
  split
  · rename_i hv
    have hy := (State.rowVisible_bounds hs.window hv).2.2
    cases m
    · exact ⟨hLineBuf_frame _ _ _ _, hLineBuf_kept _ _ hs.geometry hy⟩
    · exact ⟨hLineDirect_frame _ _ hs.geometry hs.shadow hy, hLineDirect_kept _ _ hs.geometry hs.shadow hy⟩
  · exact ⟨(s.withDrawOf_self m).symm, Kept.refl s⟩

/-- How many pixels a line writes: those that land, in a visible row (R150, R152, R156). -/
theorem hLine_count (m : Mode) (x y : Int) (pix : List Nibble) (s : State) :
    (hLine m x y pix s).2 =
      if s.rowVisible y then (List.range pix.length).countP fun i : Nat => (s.mapCol (x + (i : Int))).isSome else 0 := by
  unfold hLine
  split
  · cases m
    · exact hLineBuf_count _ _ _ _
    · exact runsCount_eq _ _ _
  · rfl

theorem hLineRows_succ (m : Mode) (x y : Int) (pix : List Nibble) (h : Nat) (s : State) :
    hLineRows m x y pix (h + 1) s =
      ((hLine m x (y + h) pix (hLineRows m x y pix h s).1).1,
        (hLineRows m x y pix h s).2 + (hLine m x (y + h) pix (hLineRows m x y pix h s).1).2) := by
  unfold hLineRows
  rw [List.range_succ, List.foldl_append]
  rfl

/-- Rows of one line change what a draw of their mode may change, and keep the memories in bounds (R160). -/
theorem hLineRows_spec {m : Mode} (x y : Int) (pix : List Nibble) (h : Nat) {s : State} (hs : s.Drawable) :
    (hLineRows m x y pix h s).1 = s.withDrawOf m (hLineRows m x y pix h s).1 ∧
      Kept s (hLineRows m x y pix h s).1 := by
  induction h with
  | zero => exact ⟨(s.withDrawOf_self m).symm, Kept.refl s⟩
  | succ h ih =>
    rw [hLineRows_succ]
    obtain ⟨h1, h2⟩ := hLine_spec (m := m) x (y + h) pix (ih.2.drawable hs)
    exact ⟨State.withDrawOf_trans ih.1 h1, ih.2.trans h2⟩

/-! ### Blits -/

theorem blitGenericRow_kept {m : Mode} {x y : Int} {bw p : Nat} {s : State} (r : Nat) (hs : s.Drawable) :
    Kept s (blitGenericRow x y bw p m s r) :=
  (Kept.setLine s _).trans (hLine_spec (m := m) x (y + r) _ ((Kept.setLine s _).drawable hs)).2

theorem blitGeneric_kept {m : Mode} (x y : Int) (bw bh p : Nat) {s : State} (hs : s.Drawable) :
    Kept s (blitGeneric x y bw bh p m s) :=
  Kept.foldl fun _ k r _ => blitGenericRow_kept r (k.drawable hs)

/-- The bounds of an aligned row (R233): an even start on the screen, and the row ends inside it. -/
theorem State.alignedBytes_bounds {s : State} {x : Int} {bw : Nat} (hx : 0 ≤ x) (he : s.width % 2 = 0)
    (hn : 0 < s.alignedBytes x bw) : (x / 2).toNat + s.alignedBytes x bw ≤ s.bpr := by
  unfold State.alignedBytes State.alignedEnd State.bpr at *
  omega

/-- The whole bytes of an aligned row fit a staging buffer (R34, R233). -/
theorem State.alignedBytes_le_stageSize {s : State} {x : Int} (bw : Nat) (hx : 0 ≤ x) (hg : s.geometryOk) :
    s.alignedBytes x bw ≤ s.cfg.stageSize := by
  have := State.bpr_le_stageSize hg
  rcases Nat.eq_zero_or_pos (s.alignedBytes x bw) with h | h
  · omega
  · have := State.alignedBytes_bounds hx hg.2.1 h
    omega

theorem blitAlignedRow_kept {x y : Int} {bw p : Nat} {s : State} (k r : Nat) (hs : s.Drawable) (hx : 0 ≤ x) :
    Kept s (blitAlignedRow x y bw p (s, k) r).1 := by
  have k1 := Kept.setLine s (s.streamRow p (r * bw) bw)
  unfold blitAlignedRow
  simp only
  generalize s.setLine (s.streamRow p (r * bw) bw) = s1 at *
  split
  · rename_i h
    obtain ⟨hv, hn⟩ := h
    have d1 := k1.drawable hs
    have hb := State.alignedBytes_bounds hx d1.geometry.2.1 hn
    have hy := (State.rowVisible_bounds d1.window hv).2.2
    have k2 := Kept.setStage s1 k ((List.range (s1.alignedBytes x bw)).map fun j =>
      pack (s1.line.getD (2 * j) 0#4) (s1.line.getD (2 * j + 1) 0#4))
    generalize s1.setStage k ((List.range (s1.alignedBytes x bw)).map fun j =>
      pack (s1.line.getD (2 * j) 0#4) (s1.line.getD (2 * j + 1) 0#4)) = s2 at *
    have hlen : (s2.sourceBytes (.stage k) (s1.alignedBytes x bw)).length ≤ s1.alignedBytes x bw := by
      simp [State.sourceBytes]
    have k3 : Kept s2 (s2.bulkWriteRun (y + r).toNat (x / 2).toNat (.stage k) (s1.alignedBytes x bw)) := by
      apply Kept.bulkWriteRun
      · rw [k2.bpr]
        omega
      · have := Kept.offset_lt (s := s2) (y := (y + r).toNat) (b := s2.bpr - 1)
          (by rw [k2.height]; exact hy) (by rw [k2.bpr]; omega)
        have hb2 := k2.bpr
        unfold State.offset at *
        omega
    refine k1.trans (k2.trans (k3.trans (Kept.storeShadow _ ?_)))
    rw [k3.bpr, k2.bpr]
    omega
  · exact k1

theorem blitAligned_kept {x : Int} (y : Int) (bw bh p : Nat) {s : State} (hs : s.Drawable) (hx : 0 ≤ x) :
    Kept s (blitAligned x y bw bh p s) := by
  unfold blitAligned
  have key : ∀ (l : List Nat) (t : State) (k : Nat), Kept s t →
      Kept s (l.foldl (blitAlignedRow x y bw p) (t, k)).1 := by
    intro l
    induction l with
    | nil => intro t k h; exact h
    | cons r l ih =>
      intro t k h
      have h1 := blitAlignedRow_kept (y := y) (bw := bw) (p := p) k r (h.drawable hs) hx
      rw [List.foldl_cons]
      rw [show blitAlignedRow x y bw p (t, k) r = ((blitAlignedRow x y bw p (t, k) r).1,
        (blitAlignedRow x y bw p (t, k) r).2) from rfl]
      exact ih _ _ (h.trans h1)
  exact key _ s 0 (Kept.refl s)

end Sys2Proof.Machine
end

