-- ==== Sys2Proof/Laws/Stream.lean ====
section
/-!
SUPPORT. Laws of the bulk streamer's full-screen path (43_dma_streamer.md R222, R223, R230): its chunks are the screen's
bytes in order, wherever the chunk boundaries fall.
-/
namespace Sys2Proof.Machine

/-! ### The display side alone -/

/-- Two states show the same to the display: the same `DISP`, write pointer and row size. -/
structure SameSide (s t : State) : Prop where
  disp : s.disp = t.disp
  wpRow : s.wpRow = t.wpRow
  wpCol : s.wpCol = t.wpCol
  bpr : s.bpr = t.bpr

namespace SameSide

variable {s t u : State}

theorem refl (s : State) : SameSide s s := ⟨rfl, rfl, rfl, rfl⟩

theorem symm (h : SameSide s t) : SameSide t s := ⟨h.disp.symm, h.wpRow.symm, h.wpCol.symm, h.bpr.symm⟩

theorem trans (h : SameSide s t) (k : SameSide t u) : SameSide s u :=
  ⟨h.disp.trans k.disp, h.wpRow.trans k.wpRow, h.wpCol.trans k.wpCol, h.bpr.trans k.bpr⟩

theorem sendByte (h : SameSide s t) (v : Byte) : SameSide (s.sendByte v) (t.sendByte v) := by
  obtain ⟨h1, h2, h3, h4⟩ := h
  refine ⟨?_, ?_, ?_, h4⟩
  · simp only [State.sendByte, State.offset, h1, h2, h3, h4]
  · simp only [State.sendByte, h2, h3, h4]
  · simp only [State.sendByte, h3, h4]

/-- What the bytes do to the display side depends on the display side alone. -/
theorem sendBytes (h : SameSide s t) (bs : List Byte) : SameSide (s.sendBytes bs) (t.sendBytes bs) := by
  induction bs generalizing s t with
  | nil => exact h
  | cons b bs ih => exact ih (h.sendByte b)

end SameSide

theorem State.sendBytes_append (s : State) (bs cs : List Byte) :
    s.sendBytes (bs ++ cs) = (s.sendBytes bs).sendBytes cs := by
  unfold State.sendBytes
  rw [List.foldl_append]

/-- The display side of `BulkWriteRun`: the write pointer put at the run, then its bytes. -/
theorem State.bulkWriteRun_sameSide (s : State) (y b : Nat) (src : XferSource) (len : Nat) :
    SameSide (s.bulkWriteRun y b src len) ((s.dispAddr y b).sendBytes (s.sourceBytes src len)) := by
  have hs : (s.dmaWait.dispAddr y b).sourceBytes src len = s.sourceBytes src len := by
    rw [← s.sourceBytes_dmaWait]
    cases src <;> rfl
  unfold State.bulkWriteRun State.bulkStart
  rw [hs]
  apply SameSide.sendBytes
  exact ⟨by simp, by simp, by simp, by simp [State.bpr, State.width]⟩

/-- The display side of `BulkContinue`: the bytes from the write pointer on. -/
theorem State.bulkContinue_sameSide (s : State) (src : XferSource) (len : Nat) :
    SameSide (s.bulkContinue src len) (s.sendBytes (s.sourceBytes src len)) := by
  unfold State.bulkContinue State.bulkStart
  rw [s.sourceBytes_dmaWait]
  apply SameSide.sendBytes
  exact ⟨by simp, by simp, by simp, by simp [State.bpr, State.width]⟩

theorem State.dmaWait_sameSide (s : State) : SameSide s.dmaWait s :=
  ⟨by simp, by simp, by simp, by simp⟩

theorem State.setStage_sameSide (s : State) (k : Nat) (bs : List Byte) : SameSide (s.setStage k bs) s :=
  ⟨by simp, by simp, by simp, by simp⟩

/-! ### The source of pixels -/

theorem Kept.pixelStream {s t : State} (h : Kept s t) (p k : Nat) : t.pixelStream p k = s.pixelStream p k := by
  unfold State.pixelStream State.assetByte
  rw [h.cfg, h.asset]

theorem Kept.screenByte {s t : State} (h : Kept s t) (p q : Nat) : t.screenByte p q = s.screenByte p q := by
  unfold State.screenByte
  rw [h.pixelStream, h.pixelStream]

theorem Kept.chunkLength {s t : State} (h : Kept s t) (c : Nat) : t.chunkLength c = s.chunkLength c := by
  unfold State.chunkLength
  rw [h.cfg, h.height, h.bpr]

/-- The bytes of chunk `c` (R230). -/
def State.chunkBytes (s : State) (p c : Nat) : List Byte :=
  (List.range (s.chunkLength c)).map fun j => s.screenByte p (c * s.cfg.fsChunk + j)

/-- The first `n` bytes of a full-screen stream (R230). -/
def State.screenBytes (s : State) (p n : Nat) : List Byte := (List.range n).map (s.screenByte p)

theorem Kept.chunkBytes {s t : State} (h : Kept s t) (p c : Nat) : t.chunkBytes p c = s.chunkBytes p c := by
  unfold State.chunkBytes
  rw [h.chunkLength, h.cfg]
  exact List.map_congr_left fun j _ => h.screenByte p _

theorem fillStage_eq (p k : Nat) (s : State) (c : Nat) : fillStage p k s c = s.setStage k (s.chunkBytes p c) := rfl

theorem State.chunk_start {s : State} (hf : 0 < s.cfg.fsChunk) {c : Nat} (hc : c < s.chunkCount) :
    c * s.cfg.fsChunk < s.height * s.bpr := by
  unfold State.chunkCount at hc
  have := (Nat.lt_div_iff_mul_lt hf).1 hc
  omega

/-- Chunk `c` continues the screen's bytes where chunk `c - 1` ended. -/
theorem State.screenBytes_chunk {s : State} (p : Nat) (hf : 0 < s.cfg.fsChunk) {c : Nat} (hc : c < s.chunkCount) :
    s.screenBytes p (c * s.cfg.fsChunk) ++ s.chunkBytes p c =
      s.screenBytes p (c * s.cfg.fsChunk + s.chunkLength c) := by
  unfold State.screenBytes State.chunkBytes
  rw [List.range_add, List.map_append, List.map_map]
  rfl

/-- Where chunk `c` ends: at the start of the next, or at the end of the screen. -/
theorem State.chunk_end {s : State} (hf : 0 < s.cfg.fsChunk) {c : Nat} (hc : c < s.chunkCount) :
    c * s.cfg.fsChunk + s.chunkLength c = if c + 1 < s.chunkCount then (c + 1) * s.cfg.fsChunk
      else s.height * s.bpr := by
  have h0 := State.chunk_start hf hc
  have e1 : (c + 1) * s.cfg.fsChunk = c * s.cfg.fsChunk + s.cfg.fsChunk := by ring
  unfold State.chunkLength
  split
  · rename_i h1
    have := State.chunk_start hf h1
    omega
  · rename_i h1
    have e2 : (c + 1 + 1) * s.cfg.fsChunk = c * s.cfg.fsChunk + s.cfg.fsChunk + s.cfg.fsChunk := by ring
    have h2 : s.chunkCount < c + 1 + 1 := by omega
    unfold State.chunkCount at h2
    have := (Nat.div_lt_iff_lt_mul hf).1 h2
    omega

theorem State.length_screenBytes (s : State) (p n : Nat) : (s.screenBytes p n).length = n := by
  simp [State.screenBytes]

theorem State.length_chunkBytes (s : State) (p c : Nat) : (s.chunkBytes p c).length = s.chunkLength c := by
  simp [State.chunkBytes]

/-- A chunk fits a staging buffer (R34, R230). -/
theorem State.length_chunkBytes_le (s : State) (p c : Nat) : (s.chunkBytes p c).length ≤ s.cfg.stageSize := by
  rw [State.chunkBytes, List.length_map, List.length_range]
  unfold State.chunkLength Cfg.stageSize
  omega

/-- A chunk filled in is what a transfer of the chunk's length sends (R75, R230). -/
theorem State.take_stage_fill (s : State) (p k c : Nat) :
    ((s.setStage k (s.chunkBytes p c)).stage k).take (s.chunkLength c) = s.chunkBytes p c := by
  rw [State.stage_setStage k (s.length_chunkBytes_le p c), ← s.length_chunkBytes p c, take_overlay]

/-- The state of the full-screen loop before chunk `c`. -/
structure ChunkState (p : Nat) (s t : State) (c : Nat) : Prop where
  kept : Kept s t
  frame : t = (s.withDispOf t).withScratchOf t
  filled : c < s.chunkCount → (t.stage (c % 2)).take (s.chunkLength c) = s.chunkBytes p c
  sent : 0 < c → SameSide t ((s.dispAddr 0 0).sendBytes
    (s.screenBytes p (if c < s.chunkCount then c * s.cfg.fsChunk else s.height * s.bpr)))
  quiet : c = 0 → SameSide t s

theorem ChunkState.start (p : Nat) (s : State) : ChunkState p s (fillStage p 0 s 0) 0 where
  kept := Kept.setStage s 0 _
  frame := rfl
  filled _ := s.take_stage_fill p 0 0
  sent h := absurd h (by simp)
  quiet _ := ⟨rfl, rfl, rfl, rfl⟩

/-- The write pointer of the full-screen loop stands inside the screen until the last chunk is sent. -/
theorem screenBytes_wp {s : State} (p : Nat) {n : Nat} (hb : 0 < s.bpr) :
    ((s.dispAddr 0 0).sendBytes (s.screenBytes p n)).wpCol < s.bpr ∧
      ((s.dispAddr 0 0).sendBytes (s.screenBytes p n)).wpRow * s.bpr +
        ((s.dispAddr 0 0).sendBytes (s.screenBytes p n)).wpCol = n := by
  obtain ⟨_, h2, h3, _⟩ := State.sendBytes_spec (s.dispAddr 0 0) (s.screenBytes p n)
    (by simpa using hb)
  rw [State.length_screenBytes] at h3
  have hbp : (s.dispAddr 0 0).bpr = s.bpr := by simp
  rw [hbp] at h2
  refine ⟨h2, ?_⟩
  unfold State.offset at h3
  rw [hbp] at h3
  simpa using h3

theorem ChunkState.step {p : Nat} {s t : State} {c : Nat} (h : ChunkState p s t c) (hs : s.geometryOk)
    (hf : 0 < s.cfg.fsChunk) (hc : c < s.chunkCount) :
    ChunkState p s (fullScreenChunk p s.chunkCount t c) (c + 1) := by
  have hb : 0 < s.bpr := by
    obtain ⟨h1, h2, _⟩ := hs
    unfold State.bpr
    omega
  have hstart := State.chunk_start hf hc
  have hend := State.chunk_end hf hc
  have hlt : t.chunkLength c = s.chunkLength c := h.kept.chunkLength c
  have hsrc : ∀ k, k = c % 2 → t.sourceBytes (.stage k) (t.chunkLength c) = s.chunkBytes p c := by
    rintro k rfl
    show (t.stage (c % 2)).take (t.chunkLength c) = _
    rw [hlt, h.filled hc]
  have hlen := s.length_chunkBytes p c
  have hfit : c * s.cfg.fsChunk + s.chunkLength c ≤ s.height * s.bpr := by
    unfold State.chunkLength
    omega
  -- the transfer of chunk `c`
  have hx : ∃ u, u = (if c = 0 then t.bulkWriteRun 0 0 (.stage 0) (t.chunkLength c)
      else t.bulkContinue (.stage (c % 2)) (t.chunkLength c)) ∧ Kept t u ∧ u = t.withDispOf u ∧
      SameSide u ((s.dispAddr 0 0).sendBytes (s.screenBytes p (c * s.cfg.fsChunk + s.chunkLength c))) := by
    refine ⟨_, rfl, ?_⟩
    split
    · rename_i h0
      subst h0
      have hsrc0 := hsrc 0 rfl
      refine ⟨Kept.bulkWriteRun (by rw [h.kept.bpr]; exact hb) ?_, t.bulkWriteRun_frame 0 0 _ _, ?_⟩
      · rw [hsrc0, hlen, h.kept.height, h.kept.bpr]
        simpa [State.offset] using hfit
      · refine (t.bulkWriteRun_sameSide 0 0 _ _).trans ?_
        rw [hsrc0, ← State.screenBytes_chunk p hf hc]
        have : s.screenBytes p (0 * s.cfg.fsChunk) = [] := by simp [State.screenBytes]
        rw [this, List.nil_append]
        apply SameSide.sendBytes
        obtain ⟨q1, q2, q3, q4⟩ := h.quiet rfl
        exact ⟨q1, rfl, rfl, by simpa using q4⟩
    · rename_i h0
      have hsent := h.sent (by omega)
      rw [if_pos hc] at hsent
      have hsrcc := hsrc _ rfl
      obtain ⟨hw1, hw2⟩ := screenBytes_wp (s := s) p (n := c * s.cfg.fsChunk) hb
      refine ⟨Kept.bulkContinue ?_ ?_, t.bulkContinue_frame _ _, ?_⟩
      · rw [hsent.wpCol, h.kept.bpr]
        exact hw1
      · rw [hsrcc, hlen, h.kept.height, h.kept.bpr]
        unfold State.offset
        rw [hsent.wpCol, hsent.wpRow, h.kept.bpr, hw2]
        exact hfit
      · refine (t.bulkContinue_sameSide _ _).trans ?_
        rw [hsrcc, ← State.screenBytes_chunk p hf hc, State.sendBytes_append]
        exact hsent.sendBytes _
  obtain ⟨u, hu, ku, fu, su⟩ := hx
  have hchunk : fullScreenChunk p s.chunkCount t c =
      if c + 1 < s.chunkCount then u.setStage ((c + 1) % 2) (u.chunkBytes p (c + 1)) else u := by
    unfold fullScreenChunk
    rw [← hu]
    rfl
  rw [hchunk]
  have kst := h.kept.trans ku
  have fst : u = (s.withDispOf u).withScratchOf u := by
    rw [fu, h.frame]
    rfl
  rw [hend] at su
  split
  · rename_i h1
    refine ⟨kst.trans (Kept.setStage _ _ _), ?_, fun _ => ?_, fun _ => ?_, fun h => absurd h (by simp)⟩
    · rw [fst]
      rfl
    · rw [← kst.chunkLength, u.take_stage_fill, kst.chunkBytes]
    · rw [if_pos h1] at su
      rw [if_pos h1]
      exact (State.setStage_sameSide u _ _).trans su
  · rename_i h1
    refine ⟨kst, fst, fun h => absurd h h1, fun _ => ?_, fun h => absurd h (by simp)⟩
    rw [if_neg h1] at su
    rw [if_neg h1]
    exact su

/-- The chunks of a full-screen stream, all sent (R230): the whole screen's bytes from its first byte on. -/
theorem fullScreen_chunks (p : Nat) {s : State} (hs : s.geometryOk) (hf : 0 < s.cfg.fsChunk) :
    ChunkState p s ((List.range s.chunkCount).foldl (fullScreenChunk p s.chunkCount) (fillStage p 0 s 0))
      s.chunkCount := by
  have key : ∀ c, c ≤ s.chunkCount →
      ChunkState p s ((List.range c).foldl (fullScreenChunk p s.chunkCount) (fillStage p 0 s 0)) c := by
    intro c
    induction c with
    | zero => intro _; exact ChunkState.start p s
    | succ c ih =>
      intro hc
      rw [List.range_succ, List.foldl_append]
      exact (ih (by omega)).step hs hf (by omega)
  exact key _ (le_refl _)

theorem State.chunkCount_pos {s : State} (hs : s.geometryOk) (hf : 0 < s.cfg.fsChunk) : 0 < s.chunkCount := by
  obtain ⟨h1, h2, _, h4, _⟩ := hs
  have hb : 0 < s.bpr := by
    unfold State.bpr
    omega
  have : 0 < s.height * s.bpr := Nat.mul_pos h4 hb
  unfold State.chunkCount
  exact Nat.div_pos (by omega) hf

/-- With chunks of no bytes there is no chunk (notes/assumptions/24.md). -/
theorem State.chunkCount_zero {s : State} (hf : s.cfg.fsChunk = 0) : s.chunkCount = 0 := by
  simp [State.chunkCount, hf]

/-- A fold of shadow stores over the rows of the screen, each at one byte column: every entry is its row's. -/
theorem storeShadow_fold {s : State} (b : Nat) (v : Nat → Byte) (n : Nat) (hn : n ≤ s.shadow.length) :
    (List.range n).foldl (fun t yy => t.storeShadow yy b (v yy)) s =
      { s with shadow := (List.range n).map (fun yy => { col := reg16 b, byte := v yy }) ++ s.shadow.drop n } := by
  induction n with
  | zero => simp
  | succ n ih =>
    rw [List.range_succ, List.foldl_append, ih (by omega)]
    simp only [List.foldl_cons, List.foldl_nil, State.storeShadow, List.map_append, List.map_cons, List.map_nil]
    congr 1
    rw [List.set_append_right _ _ (by simp)]
    simp only [List.length_map, List.length_range, Nat.sub_self, List.append_assoc, List.singleton_append]
    congr 1
    rw [List.drop_eq_getElem_cons (by omega : n < s.shadow.length)]
    rfl

end Sys2Proof.Machine
end

