-- ==== Sys2Proof/Laws/Blit.lean ====
section
/-!
SUPPORT. Laws of the bitmap blit, of drawing one glyph and of a layout step (41_rasterizer.md R166, R167; 42_font_glyph.md
R191, R193, R198; 43_dma_streamer.md R230, R233): what they may change.
-/
namespace Sys2Proof.Machine

/-! ### What a blit may change while it runs -/

/-- `s` with the state a draw of mode `m` may change, and the scratch memories, taken from `t`. -/
def State.withBlitOf (m : Mode) (s t : State) : State := (s.withDrawOf m t).withScratchOf t

theorem State.withBlitOf_self (m : Mode) (s : State) : s.withBlitOf m s = s := by
  cases m <;> rfl

theorem State.withBlitOf_trans {m : Mode} {s t u : State} (h : t = s.withBlitOf m t) (k : u = t.withBlitOf m u) :
    u = s.withBlitOf m u := by
  cases m
  · rw [k, h]
    rfl
  · rw [k, h]
    rfl

theorem State.withBlitOf_of_draw {m : Mode} {s t : State} (h : t = s.withDrawOf m t) : t = s.withBlitOf m t := by
  cases m
  · rw [h]
    rfl
  · rw [h]
    rfl

theorem State.withBlitOf_of_scratch (m : Mode) {s t : State} (h : t = s.withScratchOf t) : t = s.withBlitOf m t := by
  cases m
  · rw [h]
    rfl
  · rw [h]
    rfl

/-- The barrier is a display write: a buffered draw never meets a transfer, so it has no effect there. -/
theorem State.withBlitOf_dmaWait_direct {s t : State} (h : t = s.withBlitOf .direct t) :
    t.dmaWait = s.withBlitOf .direct t.dmaWait := by
  refine State.withBlitOf_trans h ?_
  rw [t.dmaWait_frame]
  rfl

/-! ### The generic strategy -/

theorem blitGenericRow_frame {m : Mode} {x y : Int} {bw p : Nat} {s : State} (r : Nat) (hs : s.Drawable) :
    blitGenericRow x y bw p m s r = s.withBlitOf m (blitGenericRow x y bw p m s r) := by
  have k := Kept.setLine s (s.streamRow p (r * bw) bw)
  refine State.withBlitOf_trans (t := s.setLine (s.streamRow p (r * bw) bw))
    (State.withBlitOf_of_scratch m rfl) ?_
  exact State.withBlitOf_of_draw (hLine_spec (m := m) x (y + r) _ (k.drawable hs)).1

theorem blitGeneric_frame {m : Mode} (x y : Int) (bw bh p : Nat) {s : State} (hs : s.Drawable) :
    blitGeneric x y bw bh p m s = s.withBlitOf m (blitGeneric x y bw bh p m s) := by
  unfold blitGeneric
  induction bh with
  | zero => exact (s.withBlitOf_self m).symm
  | succ n ih =>
    rw [List.range_succ, List.foldl_append]
    have k : Kept s ((List.range n).foldl (blitGenericRow x y bw p m) s) := blitGeneric_kept x y bw n p hs
    exact State.withBlitOf_trans ih (blitGenericRow_frame n (k.drawable hs))

/-! ### The aligned strategy -/

theorem blitAlignedRow_frame (x y : Int) (bw p : Nat) (s : State) (k r : Nat) :
    (blitAlignedRow x y bw p (s, k) r).1 = s.withBlitOf .direct (blitAlignedRow x y bw p (s, k) r).1 := by
  unfold blitAlignedRow
  simp only
  split
  · refine State.withBlitOf_trans (t := s.setLine (s.streamRow p (r * bw) bw)) rfl ?_
    generalize s.setLine (s.streamRow p (r * bw) bw) = s1
    generalize ((List.range (s1.alignedBytes x bw)).map fun j =>
      pack (s1.line.getD (2 * j) 0#4) (s1.line.getD (2 * j + 1) 0#4)) = bs
    refine State.withBlitOf_trans (t := s1.setStage k bs) ?_ ?_
    · rfl
    · generalize s1.setStage k bs = s2
      refine State.withBlitOf_trans (t := s2.bulkWriteRun (y + r).toNat (x / 2).toNat (.stage k)
        (s1.alignedBytes x bw)) ?_ rfl
      rw [State.bulkWriteRun_frame]
      rfl
  · rfl

theorem blitAligned_frame (x y : Int) (bw bh p : Nat) (s : State) :
    blitAligned x y bw bh p s = s.withBlitOf .direct (blitAligned x y bw bh p s) := by
  unfold blitAligned
  have key : ∀ (l : List Nat) (t : State) (k : Nat), t = s.withBlitOf .direct t →
      (l.foldl (blitAlignedRow x y bw p) (t, k)).1 =
        s.withBlitOf .direct (l.foldl (blitAlignedRow x y bw p) (t, k)).1 := by
    intro l
    induction l with
    | nil => intro t k h; exact h
    | cons r l ih =>
      intro t k h
      rw [List.foldl_cons]
      exact ih _ _ (State.withBlitOf_trans h (blitAlignedRow_frame x y bw p t k r))
  exact key _ s 0 rfl

/-! ### The full-screen strategy -/

/-- The shadow entry a full-screen stream leaves in a row: its last byte column (R230). -/
def State.lastByte (s : State) (p yy : Nat) : Byte :=
  pack (s.pixelStream p (yy * s.width + s.width - 2)) (s.pixelStream p (yy * s.width + s.width - 1))

/-- The full-screen strategy in closed form (R230): the chunks, the barrier, then one shadow entry per row. -/
theorem blitFullScreen_eq (p : Nat) {s : State} (hs : s.Drawable) (hf : 0 < s.cfg.fsChunk) :
    ∃ t, ChunkState p s t s.chunkCount ∧
      blitFullScreen p s = { t.dmaWait with
        shadow := (List.range s.height).map fun yy => { col := reg16 ((s.bpr - 1 : Nat) : Int), byte := s.lastByte p yy } } := by
  refine ⟨_, fullScreen_chunks p hs.geometry hf, ?_⟩
  have hc := (fullScreen_chunks p hs.geometry hf).kept
  unfold blitFullScreen
  generalize (List.range s.chunkCount).foldl (fullScreenChunk p s.chunkCount) (fillStage p 0 s 0) = t at *
  have kd : Kept s t.dmaWait := hc.trans (Kept.dmaWait t)
  have hlen : t.dmaWait.shadow.length = s.height := by
    rw [(kd.shadow hs.shadow).1, kd.height]
  have key : ∀ n, (List.range n).foldl
      (fun t yy => t.storeShadow yy (t.bpr - 1)
        (pack (t.pixelStream p (yy * t.width + t.width - 2)) (t.pixelStream p (yy * t.width + t.width - 1)))) t.dmaWait =
      (List.range n).foldl (fun t yy => t.storeShadow yy (s.bpr - 1) (s.lastByte p yy)) t.dmaWait := by
    have gen : ∀ (l : List Nat) (u : State), Kept s u → l.foldl
        (fun t yy => t.storeShadow yy (t.bpr - 1)
          (pack (t.pixelStream p (yy * t.width + t.width - 2)) (t.pixelStream p (yy * t.width + t.width - 1)))) u =
        l.foldl (fun t yy => t.storeShadow yy (s.bpr - 1) (s.lastByte p yy)) u := by
      intro l
      induction l with
      | nil => intro u _; rfl
      | cons yy l ih =>
        intro u ku
        have hb : s.bpr - 1 < u.bpr := by
          rw [ku.bpr]
          obtain ⟨h1, h2, _⟩ := hs.geometry
          unfold State.bpr
          omega
        rw [List.foldl_cons, List.foldl_cons, ku.bpr, ku.pixelStream, ku.pixelStream, ku.width]
        exact ih _ (ku.trans (Kept.storeShadow _ hb))
    exact fun n => gen _ _ kd
  rw [key, storeShadow_fold _ _ _ (by omega)]
  rw [← hlen]
  simp

theorem blitFullScreen_kept (p : Nat) {s : State} (hs : s.Drawable) : Kept s (blitFullScreen p s) := by
  have hb : ∀ t, Kept s t → s.bpr - 1 < t.bpr := by
    intro t k
    rw [k.bpr]
    obtain ⟨h1, h2, _⟩ := hs.geometry
    unfold State.bpr
    omega
  have hchunks : Kept s ((List.range s.chunkCount).foldl (fullScreenChunk p s.chunkCount) (fillStage p 0 s 0)) := by
    rcases Nat.eq_zero_or_pos s.cfg.fsChunk with hf | hf
    · rw [State.chunkCount_zero hf]
      exact Kept.setStage s 0 _
    · exact (fullScreen_chunks p hs.geometry hf).kept
  unfold blitFullScreen
  have k1 := hchunks.trans (Kept.dmaWait _)
  refine k1.trans (Kept.foldl fun t k yy _ => Kept.storeShadow _ ?_)
  rw [k.bpr]
  have := hb _ k1
  omega

theorem blitFullScreen_frame (p : Nat) {s : State} (hs : s.geometryOk) :
    blitFullScreen p s = s.withBlitOf .direct (blitFullScreen p s) := by
  have hchunks : ∀ t, t = (List.range s.chunkCount).foldl (fullScreenChunk p s.chunkCount) (fillStage p 0 s 0) →
      t = s.withBlitOf .direct t := by
    rintro t rfl
    rcases Nat.eq_zero_or_pos s.cfg.fsChunk with hf | hf
    · rw [State.chunkCount_zero hf]
      rfl
    · rw [(fullScreen_chunks p hs hf).frame]
      rfl
  unfold blitFullScreen
  have h1 := State.withBlitOf_dmaWait_direct (hchunks _ rfl)
  generalize ((List.range s.chunkCount).foldl (fullScreenChunk p s.chunkCount) (fillStage p 0 s 0)).dmaWait = u at *
  have key : ∀ (l : List Nat) (t : State), t = s.withBlitOf .direct t →
      l.foldl (fun t yy => t.storeShadow yy (t.bpr - 1)
        (pack (t.pixelStream p (yy * t.width + t.width - 2)) (t.pixelStream p (yy * t.width + t.width - 1)))) t =
      s.withBlitOf .direct (l.foldl (fun t yy => t.storeShadow yy (t.bpr - 1)
        (pack (t.pixelStream p (yy * t.width + t.width - 2)) (t.pixelStream p (yy * t.width + t.width - 1)))) t) := by
    intro l
    induction l with
    | nil => intro t h; exact h
    | cons yy l ih =>
      intro t h
      rw [List.foldl_cons]
      exact ih _ (State.withBlitOf_trans h rfl)
  exact key _ u h1

/-! ### Direct drawings row by row -/

/-- A row of a direct drawing keeps the registers and the guard, and streams its runs where the row is visible
(R156, R157). -/
theorem hLine_direct (x y : Int) (pix : List Nibble) (s : State) :
    (hLine .direct x y pix s).1 = if s.rowVisible y then (s.runs pix x).foldl (streamRun y.toNat) s else s := by
  unfold hLine
  split <;> rfl

/-- DRAW_RECT's rows in direct mode are a direct drawing (R160). -/
theorem hLineRows_direct {s : State} (hs : s.Drawable) (x y : Int) (pix : List Nibble) (h : Nat) :
    (hLineRows .direct x y pix h s).1 = directRows x y (fun _ => pix) h s := by
  unfold directRows
  induction h with
  | zero => rfl
  | succ h ih =>
    have k := (hLineRows_spec (m := .direct) x y pix h hs).2
    rw [hLineRows_succ, List.range_succ, List.foldl_append]
    simp only [List.foldl_cons, List.foldl_nil]
    rw [hLine_direct, k.rowVisible, k.runs, ih]

/-- A direct run leaves no transfer in flight. -/
theorem streamRun_quiet (y : Nat) (s : State) (r : Run) : (streamRun y s r).xferBusy = false := by
  have key : ∀ (bs : List Nat) (t : State), (bs.foldl (streamByte y r) t).xferBusy = t.xferBusy := by
    intro bs
    induction bs with
    | nil => intro t; rfl
    | cons b bs ih => intro t; exact ih _
  exact (key _ _).trans (by simp)

theorem streamRuns_quiet (y : Nat) {s : State} (hq : s.xferBusy = false) (rs : List Run) :
    (rs.foldl (streamRun y) s).xferBusy = false := by
  induction rs generalizing s with
  | nil => exact hq
  | cons r rs ih => exact ih (streamRun_quiet y s r)

/-- A direct drawing row by row leaves no transfer in flight. -/
theorem directRows_quiet {s : State} (hq : s.xferBusy = false) (x y : Int) (rows : Nat → List Nibble) (h : Nat) :
    (directRows x y rows h s).xferBusy = false := by
  unfold directRows
  induction h with
  | zero => exact hq
  | succ h ih =>
    rw [List.range_succ, List.foldl_append]
    simp only [List.foldl_cons, List.foldl_nil]
    split
    · exact streamRuns_quiet _ ih _
    · exact ih

/-- `s` with other pixels in `LINE`. -/
def State.withLine (s : State) (pix : List Nibble) : State := { s with line := pix }

/-- A direct run that begins with no transfer in flight does not depend on what is staged in `LINE`, and leaves it. -/
theorem streamRun_withLine (y : Nat) {s : State} (hq : s.xferBusy = false) (r : Run) (pix : List Nibble) :
    streamRun y (s.withLine pix) r = (streamRun y s r).withLine pix := by
  have one : ∀ (b : Nat) (t : State), streamByte y r (t.withLine pix) b = (streamByte y r t b).withLine pix := by
    intro b t
    cases t
    rfl
  have key : ∀ (bs : List Nat) (t : State),
      bs.foldl (streamByte y r) (t.withLine pix) = (bs.foldl (streamByte y r) t).withLine pix := by
    intro bs
    induction bs with
    | nil => intro t; rfl
    | cons b bs ih =>
      intro t
      rw [List.foldl_cons, one, ih, List.foldl_cons]
  have start : (s.withLine pix).dmaWait.dispAddr y (r.col / 2) =
      (s.dmaWait.dispAddr y (r.col / 2)).withLine pix := by
    rw [State.dmaWait_eq_of_quiet hq, State.dmaWait_eq_of_quiet (s := s.withLine pix) hq]
    rfl
  unfold streamRun
  rw [start, key]

theorem streamRuns_withLine (y : Nat) {s : State} (hq : s.xferBusy = false) (rs : List Run) (pix : List Nibble) :
    rs.foldl (streamRun y) (s.withLine pix) = (rs.foldl (streamRun y) s).withLine pix := by
  induction rs generalizing s with
  | nil => rfl
  | cons r rs ih => rw [List.foldl_cons, streamRun_withLine y hq, ih (streamRun_quiet y s r), List.foldl_cons]

/-- The pixels a row of the generic strategy draws are those it has just staged (R166). -/
theorem State.take_line_row (s : State) (p k n : Nat) :
    (s.setLine (s.streamRow p k n)).line.take n = s.streamRow p k n := by
  have h := take_overlay (s.streamRow p k n) s.line
  rwa [show (s.streamRow p k n).length = n by simp [State.streamRow]] at h

/-- A row of the generic strategy draws the row's pixels (R166). -/
theorem blitGenericRow_eq (x y : Int) (bw p : Nat) (m : Mode) (s : State) (r : Nat) :
    blitGenericRow x y bw p m s r =
      (hLine m x (y + r) (s.streamRow p (r * bw) bw) (s.setLine (s.streamRow p (r * bw) bw))).1 := by
  unfold blitGenericRow
  simp only [State.take_line_row]

/-- The generic strategy in direct mode is a direct drawing of the stream's rows, but for the pixels left in `LINE`
(R166). -/
theorem blitGeneric_direct {s : State} (hs : s.Drawable) (hq : s.xferBusy = false) (x y : Int) (bw bh p : Nat)
    (l : List Nibble) :
    (blitGeneric x y bw bh p .direct s).withLine l =
      (directRows x y (fun r => s.streamRow p (r * bw) bw) bh s).withLine l := by
  unfold blitGeneric directRows
  induction bh generalizing l with
  | zero => rfl
  | succ n ih =>
    have k : Kept s ((List.range n).foldl (blitGenericRow x y bw p .direct) s) := blitGeneric_kept x y bw n p hs
    rw [List.range_succ, List.foldl_append, List.foldl_append]
    simp only [List.foldl_cons, List.foldl_nil]
    generalize (List.range n).foldl (blitGenericRow x y bw p .direct) s = t at *
    have hrow : t.streamRow p (n * bw) bw = s.streamRow p (n * bw) bw :=
      List.map_congr_left fun i _ => k.pixelStream p _
    rw [blitGenericRow_eq, hrow, hLine_direct, (k.trans (Kept.setLine t _)).rowVisible,
      (k.trans (Kept.setLine t _)).runs,
      show t.setLine (s.streamRow p (n * bw) bw) = t.withLine (overlay (s.streamRow p (n * bw) bw) t.line) from rfl, ih]
    split
    · rw [streamRuns_withLine]
      · rfl
      · exact directRows_quiet hq x y (fun r => s.streamRow p (r * bw) bw) n
    · rfl

/-! ### The blit -/

/-- What `SelectStrategy` asks of each strategy (R167, R169). -/
theorem State.selectStrategy_cases (s : State) (x y : Int) (bw bh : Nat) (m : Mode) :
    (s.selectStrategy x y bw bh m = .fullScreen ∧ m = .direct ∧ s.cfg.hasDma = true ∧ x = 0 ∧ y = 0 ∧ bw = s.width ∧
      bh = s.height ∧ s16 s.minDispY = 0 ∧ s16 s.maxDispY = s.height ∧ s16 s.maxTextX = s.width) ∨
    (s.selectStrategy x y bw bh m = .aligned ∧ m = .direct ∧ s.cfg.hasDma = true ∧ bw > 0 ∧ bh > 0 ∧ bw % 2 = 0 ∧
      mod2 x = 0 ∧ mod2 (s16 s.maxTextX) = 0 ∧ x ≥ 0 ∧ (x + bw ≤ s.width ∨ s.wrap = false)) ∨
    s.selectStrategy x y bw bh m = .generic := by
  unfold State.selectStrategy
  split
  · rename_i h
    exact .inl ⟨rfl, h⟩
  · split
    · rename_i h
      exact .inr (.inl ⟨rfl, h⟩)
    · exact .inr (.inr rfl)

theorem State.selectStrategy_buffered (s : State) (x y : Int) (bw bh : Nat) :
    s.selectStrategy x y bw bh .buffered = .generic := by
  rcases s.selectStrategy_cases x y bw bh .buffered with ⟨_, h, _⟩ | ⟨_, h, _⟩ | h
  · exact absurd h (by simp)
  · exact absurd h (by simp)
  · exact h

/-- Rows of no pixels draw and stage nothing (R166). -/
theorem blitGeneric_noColumns (s : State) (x y : Int) (m : Mode) (p bh : Nat) :
    blitGeneric x y 0 bh p m s = s := by
  unfold blitGeneric
  induction bh with
  | zero => rfl
  | succ n ih =>
    rw [List.range_succ, List.foldl_append, ih]
    simp only [List.foldl_cons, List.foldl_nil]
    rw [blitGenericRow_eq]
    show (hLine m x (y + n) [] s).1 = s
    unfold hLine
    split
    · cases m <;> rfl
    · rfl

/-- An empty bitmap takes the generic strategy (R169). -/
theorem State.selectStrategy_empty {s : State} (hg : s.geometryOk) (x y : Int) {bw bh : Nat} (m : Mode)
    (he : bw = 0 ∨ bh = 0) : s.selectStrategy x y bw bh m = .generic := by
  obtain ⟨_, _, _, _, _⟩ := hg
  rcases s.selectStrategy_cases x y bw bh m with h | h | h
  · omega
  · omega
  · exact h

/-- The part of a blit before its last barrier, whichever strategy runs. -/
theorem blitBy_spec {m : Mode} (x y : Int) (bw bh p : Nat) {s : State} (hs : s.Drawable) :
    Kept s (blitBy (s.selectStrategy x y bw bh m) x y bw bh p m s) ∧
      blitBy (s.selectStrategy x y bw bh m) x y bw bh p m s =
        s.withBlitOf m (blitBy (s.selectStrategy x y bw bh m) x y bw bh p m s) := by
  rcases s.selectStrategy_cases x y bw bh m with ⟨h, rfl, _⟩ | ⟨h, rfl, _, _, _, _, _, _, hx, _⟩ | h
  · rw [h]
    exact ⟨blitFullScreen_kept p hs, blitFullScreen_frame p hs.geometry⟩
  · rw [h]
    exact ⟨blitAligned_kept y bw bh p hs hx, blitAligned_frame x y bw bh p s⟩
  · rw [h]
    exact ⟨blitGeneric_kept x y bw bh p hs, blitGeneric_frame x y bw bh p hs⟩

/-- What a blit may change: what a draw of its mode may change, and the scratch memories; the memories stay in bounds,
and no transfer is left in flight (R166, R224). -/
theorem blitStream_spec {m : Mode} (x y : Int) (bw bh p : Nat) {s : State} (hs : s.Drawable)
    (hq : s.xferBusy = false) :
    Kept s (blitStream x y bw bh p m s).1 ∧
      (blitStream x y bw bh p m s).1 = s.withBlitOf m (blitStream x y bw bh p m s).1 ∧
      (blitStream x y bw bh p m s).1.xferBusy = false := by
  obtain ⟨hk, hf⟩ := blitBy_spec (m := m) x y bw bh p hs
  unfold blitStream
  simp only
  generalize blitBy (s.selectStrategy x y bw bh m) x y bw bh p m s = t at *
  refine ⟨hk.trans (Kept.dmaWait t), ?_, State.dmaWait_xferBusy t⟩
  cases m
  · have hb : t.xferBusy = false := by
      rw [hf]
      exact hq
    rw [State.dmaWait_eq_of_quiet hb]
    exact hf
  · exact State.withBlitOf_dmaWait_direct hf

/-! ### Glyphs and layout -/

/-- At the end of a command that began with empty scratch memories, what it may change is what a draw may. -/
theorem State.clearScratch_of_blit {m : Mode} {s t : State} (hc : s.clearScratch = s) (h : t = s.withBlitOf m t) :
    t.clearScratch = s.withDrawOf m t.clearScratch := by
  conv_rhs => rw [← hc]
  rw [h]
  cases m <;> rfl

/-- What drawing a glyph may change (R191). -/
theorem drawGlyphAt_spec (m : Mode) (x y : Int) (cp : Word) {s : State} (hs : s.Drawable) (hq : s.xferBusy = false) :
    Kept s (drawGlyphAt m x y cp s).state ∧
      (drawGlyphAt m x y cp s).state = s.withBlitOf m (drawGlyphAt m x y cp s).state ∧
      (drawGlyphAt m x y cp s).state.xferBusy = false := by
  have h0 : Kept s s ∧ s = s.withBlitOf m s ∧ s.xferBusy = false := ⟨Kept.refl s, (s.withBlitOf_self m).symm, hq⟩
  unfold drawGlyphAt
  split
  · exact h0
  · simp only
    split
    · exact h0
    · split
      · exact h0
      · exact blitStream_spec _ _ _ _ _ hs hq

/-- `s` with all that a layout step may change while it runs, the scratch memories among it, taken from `t`. -/
def State.withTypingOf (m : Mode) (s t : State) : State := (s.withLayoutOf m t).withScratchOf t

theorem State.withTypingOf_trans {m : Mode} {s t u : State} (h : t = s.withTypingOf m t)
    (k : u = t.withTypingOf m u) : u = s.withTypingOf m u := by
  cases m
  · rw [k, h]
    rfl
  · rw [k, h]
    rfl

/-- What a layout step and a string may change, and what they keep. -/
structure LaidOut (m : Mode) (s t : State) : Prop where
  kept : Kept s t
  frame : t = s.withTypingOf m t
  quiet : t.xferBusy = false

theorem LaidOut.refl (m : Mode) {s : State} (hq : s.xferBusy = false) : LaidOut m s s :=
  ⟨Kept.refl s, by cases m <;> rfl, hq⟩

theorem LaidOut.trans {m : Mode} {s t u : State} (h : LaidOut m s t) (k : LaidOut m t u) : LaidOut m s u :=
  ⟨h.kept.trans k.kept, State.withTypingOf_trans h.frame k.frame, k.quiet⟩

/-- At the end of a command that began with empty scratch memories, what a string may change is what layout may. -/
theorem LaidOut.clearScratch {m : Mode} {s t : State} (h : LaidOut m s t) (hc : s.clearScratch = s) :
    t.clearScratch = s.withLayoutOf m t.clearScratch := by
  conv_rhs => rw [← hc]
  rw [h.frame]
  cases m <;> rfl

/-- Moving the cursor alone is a layout change. -/
theorem LaidOut.cursor (m : Mode) {s : State} (x y : Word) (hq : s.xferBusy = false) :
    LaidOut m s { s with curX := x, curY := y } :=
  ⟨Kept.of_cursor rfl, by cases m <;> rfl, hq⟩

/-- Drawing at the cursor and moving it (R193). -/
theorem emitGlyph_laidOut (m : Mode) (cp : Word) {s : State} (hs : s.Drawable) (hq : s.xferBusy = false) :
    LaidOut m s (s.emitGlyph m cp) := by
  obtain ⟨h1, h2, h3⟩ := drawGlyphAt_spec m (s16 s.curX) (s16 s.curY) cp hs hq
  unfold State.emitGlyph
  simp only
  generalize drawGlyphAt m (s16 s.curX) (s16 s.curY) cp s = d at *
  refine LaidOut.trans (t := d.state) ⟨h1, ?_, h3⟩ (LaidOut.cursor m _ d.state.curY h3)
  cases m
  · rw [h2]
    rfl
  · rw [h2]
    rfl

/-- What one layout step may change (R193). -/
theorem putCharCore_laidOut (m : Mode) (cp : Word) {s : State} (hs : s.Drawable) (hq : s.xferBusy = false) :
    LaidOut m s (putCharCore m cp s).1 := by
  have hn : LaidOut m s s.newLine := LaidOut.cursor m _ _ hq
  have h0 : LaidOut m s s := LaidOut.refl m hq
  unfold putCharCore
  split
  · exact hn
  · split
    · exact LaidOut.cursor m _ s.curY hq
    · split
      · exact h0
      · rename_i mt _
        split
        · exact h0
        · rename_i s1 h1
          have k1 : LaidOut m s s1 := by
            unfold State.checkRight at h1
            split at h1
            · split at h1
              · obtain rfl : s.newLine = s1 := by simpa using h1
                exact hn
              · split at h1
                · obtain rfl : s = s1 := by simpa using h1
                  exact h0
                · exact absurd h1 (by simp)
            · obtain rfl : s = s1 := by simpa using h1
              exact h0
          split
          · exact k1.trans (emitGlyph_laidOut m cp (k1.kept.drawable hs) k1.quiet)
          · exact k1

/-- What a string may change (R198). -/
theorem emitString_laidOut (m : Mode) (cps : List Word) {s : State} (hs : s.Drawable) (hq : s.xferBusy = false) :
    LaidOut m s (emitString m cps s).1 := by
  induction cps generalizing s with
  | nil => exact LaidOut.refl m hq
  | cons cp cps ih =>
    have h := putCharCore_laidOut m cp hs hq
    unfold emitString
    split
    · rename_i s1 hp
      rw [hp] at h
      exact h
    · rename_i s1 hp
      rw [hp] at h
      exact h.trans (ih (h.kept.drawable hs) h.quiet)

/-- A string prints no more characters than it has (R198). -/
theorem emitString_count_le (m : Mode) (cps : List Word) (s : State) : (emitString m cps s).2 ≤ cps.length := by
  induction cps generalizing s with
  | nil => exact le_refl _
  | cons cp cps ih =>
    unfold emitString
    split
    · exact Nat.zero_le _
    · exact Nat.succ_le_succ (ih _)

end Sys2Proof.Machine
end

