-- ==== Sys2Proof/Laws/Decode.lean ====
section
/-!
SUPPORT. Laws of the packet reader: what each operand and payload reader gives on the bytes the encoder writes, and what
a successful read says of the bytes it was given (30_encoding.md R92, R94, R95, R97).
-/
namespace Sys2Proof

/-- A bit of a word put together from two bytes (R10). -/
theorem getLsbD_le16 (b0 b1 : Byte) (i : Nat) :
    (le16 b0 b1).getLsbD i = if i < 8 then b0.getLsbD i else b1.getLsbD (i - 8) :=
  (BitVec.getLsbD_append (x := b1) (y := b0)).trans (by simp)

@[simp] theorem extractLsb'_le16_low (b0 b1 : Byte) : (le16 b0 b1).extractLsb' 0 8 = b0 := by
  ext i hi
  simp [BitVec.getElem_extractLsb', getLsbD_le16, hi]

@[simp] theorem extractLsb'_le16_high (b0 b1 : Byte) : (le16 b0 b1).extractLsb' 8 8 = b1 := by
  ext i hi
  simp [BitVec.getElem_extractLsb', getLsbD_le16, hi]

@[simp] theorem le16_wordBytes (w : Word) : le16 (w.extractLsb' 0 8) (w.extractLsb' 8 8) = w := by
  ext i hi
  rw [← BitVec.getLsbD_eq_getElem, getLsbD_le16]
  split
  · simp_all
  · rename_i h
    have : 8 + (i - 8) = i := by omega
    have h8 : i - 8 < 8 := by omega
    simp [this, h8, hi]

/-- The bytes of a word put together from two bytes are those two bytes. -/
@[simp] theorem wordBytes_le16 (b0 b1 : Byte) : wordBytes (le16 b0 b1) = [b0, b1] := by
  simp [wordBytes]

@[simp] theorem readWord_wordBytes (w : Word) (rest : List Byte) :
    readWord (wordBytes w ++ rest) = some (w, rest) := by
  simp [wordBytes, readWord]

@[simp] theorem length_wordBytes (w : Word) : (wordBytes w).length = 2 := rfl

/-- A word was read: the bytes were its bytes and the rest. -/
theorem readWord_some {bs rest : List Byte} {w : Word} (h : readWord bs = some (w, rest)) :
    bs = wordBytes w ++ rest := by
  match bs, h with
  | b0 :: b1 :: r, h =>
    simp only [readWord, Option.some.injEq, Prod.mk.injEq] at h
    obtain ⟨rfl, rfl⟩ := h
    simp

@[simp] theorem readWords_wordBytes (ws : List Word) (rest : List Byte) :
    readWords ws.length (ws.flatMap wordBytes ++ rest) = some (ws, rest) := by
  induction ws with
  | nil => rfl
  | cons w ws ih => simp [readWords, ih]

/-- Words were read: as many as were asked for, and the bytes were their bytes and the rest. -/
theorem readWords_some {n : Nat} {bs rest : List Byte} {ws : List Word}
    (h : readWords n bs = some (ws, rest)) : ws.length = n ∧ bs = ws.flatMap wordBytes ++ rest := by
  induction n generalizing bs ws with
  | zero =>
    simp only [readWords, Option.some.injEq, Prod.mk.injEq] at h
    obtain ⟨rfl, rfl⟩ := h
    simp
  | succ n ih =>
    simp only [readWords] at h
    split at h
    · exact absurd h (by simp)
    · rename_i w r hw
      split at h
      · exact absurd h (by simp)
      · rename_i vs r' hvs
        simp only [Option.some.injEq, Prod.mk.injEq] at h
        obtain ⟨rfl, rfl⟩ := h
        obtain ⟨hl, rfl⟩ := ih hvs
        simp [hl, readWord_some hw]

@[simp] theorem readBytes_append (bs rest : List Byte) :
    readBytes bs.length (bs ++ rest) = some (bs, rest) := by
  simp [readBytes]

/-- Bytes were read: as many as were asked for, and the stream was those bytes and the rest. -/
theorem readBytes_some {n : Nat} {bs rest px : List Byte} (h : readBytes n bs = some (px, rest)) :
    px.length = n ∧ bs = px ++ rest := by
  unfold readBytes at h
  split at h
  · rename_i hn
    simp only [Option.some.injEq, Prod.mk.injEq] at h
    obtain ⟨rfl, rfl⟩ := h
    exact ⟨by simp [hn], by simp⟩
  · exact absurd h (by simp)

/-- More bytes do not change a read that has succeeded. -/
theorem readWord_append {bs rest : List Byte} {w : Word} (h : readWord bs = some (w, rest)) (more : List Byte) :
    readWord (bs ++ more) = some (w, rest ++ more) := by
  rw [readWord_some h, List.append_assoc]
  simp

@[simp] theorem headerWord_opcode (op fl : Byte) : (headerWord op fl).extractLsb' 0 8 = op :=
  extractLsb'_le16_low op fl

/-- The header of every command decodes to its opcode, mode and justification (R91, R97). -/
theorem decodeHeader_encode (i : Instr) :
    decodeHeader (headerWord i.opcode.code (flagsByte i.mode i.justify)) =
      .ok { op := i.opcode, m := i.mode, j := i.justify } := by
  cases i
  case writeHline m _ _ _ _ => cases m <;> simp only [Instr.opcode, Instr.mode, Instr.justify] <;> decide
  case drawRect m _ _ _ _ _ => cases m <;> simp only [Instr.opcode, Instr.mode, Instr.justify] <;> decide
  case drawImage m _ _ _ => cases m <;> simp only [Instr.opcode, Instr.mode, Instr.justify] <;> decide
  case drawGlyph m _ _ _ => cases m <;> simp only [Instr.opcode, Instr.mode, Instr.justify] <;> decide
  case putChar m _ => cases m <;> simp only [Instr.opcode, Instr.mode, Instr.justify] <;> decide
  case putString m _ _ => cases m <;> simp only [Instr.opcode, Instr.mode, Instr.justify] <;> decide
  case putStringXy m j _ _ _ _ =>
    cases m <;> cases j <;> simp only [Instr.opcode, Instr.mode, Instr.justify] <;> decide
  all_goals
    simp only [Instr.opcode, Instr.mode, Instr.justify]
    decide

end Sys2Proof
end

