-- ==== Sys2Proof/Laws/Flush.lean ====
section
/-!
SUPPORT. Laws of flushes and transitions (40_framebuffer_manager.md R128; 44_transition.md R252 to R258): which bytes of
`DISP` show the framebuffer after each part of an algorithm, and that nothing but the display side changes.
-/
namespace Sys2Proof.Machine

/-- `t` is reached from `s` inside a flush: only the display side and the scratch memories differ. -/
structure Flushing (s t : State) : Prop where
  kept : Kept s t
  frame : t = (s.withDispOf t).withScratchOf t

namespace Flushing

variable {s t u : State}

theorem refl (s : State) : Flushing s s := ⟨Kept.refl s, rfl⟩

theorem trans (h : Flushing s t) (k : Flushing t u) : Flushing s u := by
  refine ⟨h.kept.trans k.kept, ?_⟩
  rw [k.frame, h.frame]
  rfl

theorem fbAt (h : Flushing s t) (off : Nat) : t.fbAt off = s.fbAt off := by
  rw [h.frame]
  rfl

theorem offset (h : Flushing s t) (y b : Nat) : t.offset y b = s.offset y b := by
  unfold State.offset
  rw [h.kept.bpr]

/-- A transfer of framebuffer bytes: those bytes are shown, every other byte of `DISP` stays (R79, R240). -/
theorem xferFb (h : Flushing s t) {y b len : Nat} (hb : b < s.bpr)
    (hr : s.offset y b + len ≤ s.height * s.bpr) :
    Flushing s (t.xferRun y b (.fb (t.offset y b)) len) ∧
      ∀ a, Memory.read (t.xferRun y b (.fb (t.offset y b)) len).disp a =
        if s.offset y b ≤ a ∧ a < s.offset y b + len then some (s.fbAt a) else Memory.read t.disp a := by
  have hlen : (t.sourceBytes (.fb (t.offset y b)) len).length = len := by simp [State.sourceBytes]
  have hbt : b < t.bpr := by
    rw [h.kept.bpr]
    exact hb
  refine ⟨h.trans ⟨?_, ?_⟩, fun a => ?_⟩
  · apply Kept.xferRun hbt
    rw [hlen, h.offset, h.kept.height, h.kept.bpr]
    exact hr
  · rw [State.xferRun_frame]
    rfl
  · rw [(t.xferRun_sentAt _ _ hbt).read a, hlen, h.offset]
    split
    · rename_i ha
      have h1 : a - s.offset y b < len := by omega
      have h2 : s.offset y b + (a - s.offset y b) = a := by omega
      simp [State.sourceBytes, h1, h.fbAt, h2]
    · rfl

/-- A transfer from a staging buffer: every byte of `DISP` outside it stays. -/
theorem xferStage (h : Flushing s t) {y b len k : Nat} (hb : b < s.bpr)
    (hr : s.offset y b + len ≤ s.height * s.bpr) :
    Flushing s (t.xferRun y b (.stage k) len) ∧
      ∀ a, ¬(s.offset y b ≤ a ∧ a < s.offset y b + len) →
        Memory.read (t.xferRun y b (.stage k) len).disp a = Memory.read t.disp a := by
  have hlen : (t.sourceBytes (.stage k) len).length ≤ len := by simp [State.sourceBytes]
  have hbt : b < t.bpr := by
    rw [h.kept.bpr]
    exact hb
  refine ⟨h.trans ⟨?_, ?_⟩, fun a ha => ?_⟩
  · apply Kept.xferRun hbt
    rw [h.offset, h.kept.height, h.kept.bpr]
    omega
  · rw [State.xferRun_frame]
    rfl
  · rw [(t.xferRun_sentAt _ _ hbt).read a, h.offset, if_neg]
    omega

theorem dmaWait (h : Flushing s t) : Flushing s t.dmaWait := by
  refine h.trans ⟨Kept.dmaWait t, ?_⟩
  rw [t.dmaWait_frame]
  rfl

theorem setStage (h : Flushing s t) (k : Nat) (bs : List Byte) : Flushing s (t.setStage k bs) := by
  exact h.trans ⟨Kept.setStage t k bs, rfl⟩

theorem emitDelay (h : Flushing s t) (d : Nat) : Flushing s (t.dmaWait.emit (.delay d)) := by
  refine h.dmaWait.trans ⟨Kept.emit (by simp) rfl, rfl⟩

end Flushing

/-- The bytes of the screen that `P` picks show the framebuffer of `s`. -/
def Shown (s t : State) (P : Nat → Nat → Prop) : Prop :=
  ∀ y b, y < s.height → b < s.bpr → P y b → Memory.read t.disp (s.offset y b) = some (s.fbByte y b)

theorem Shown.mono {s t : State} {P Q : Nat → Nat → Prop} (h : Shown s t P) (hq : ∀ y b, Q y b → P y b) :
    Shown s t Q :=
  fun y b hy hb hp => h y b hy hb (hq y b hp)

/-! ### Byte columns and rows -/

theorem State.offset_one {s : State} {y c y' b' : Nat} (hc : c < s.bpr) (hb : b' < s.bpr) :
    (s.offset y c ≤ s.offset y' b' ∧ s.offset y' b' < s.offset y c + 1) ↔ y' = y ∧ b' = c := by
  rw [← State.offset_inj hb hc]
  omega

/-- A column of transfers, each of one byte: framebuffer bytes are shown, staged bytes touch that column only. -/
theorem sendColumn_spec {s t : State} (h : Flushing s t) {c : Nat} (hc : c < s.bpr) {P : Nat → Nat → Prop}
    (hp : Shown s t P) :
    Flushing s (t.sendColumn c) ∧ Shown s (t.sendColumn c) fun y b => P y b ∨ b = c := by
  have key : ∀ n, n ≤ s.height →
      Flushing s ((List.range n).foldl (fun t yy => t.xferRun yy c (.fb (t.offset yy c)) 1) t) ∧
      Shown s ((List.range n).foldl (fun t yy => t.xferRun yy c (.fb (t.offset yy c)) 1) t)
        fun y b => P y b ∨ (b = c ∧ y < n) := by
    intro n
    induction n with
    | zero => exact fun _ => ⟨h, hp.mono fun y b hq => by simpa using hq⟩
    | succ n ih =>
      intro hn
      obtain ⟨h1, h2⟩ := ih (by omega)
      rw [List.range_succ, List.foldl_append]
      obtain ⟨h3, h4⟩ := h1.xferFb (y := n) (b := c) (len := 1) hc (Kept.offset_lt (by omega) hc)
      refine ⟨h3, fun y b hy hb hq => ?_⟩
      show Memory.read (State.xferRun _ n c (.fb (State.offset _ n c)) 1).disp _ = _
      rw [h4]
      split
      · rfl
      · rename_i hne
        rw [State.offset_one hc hb] at hne
        refine h2 y b hy hb ?_
        rcases hq with hq | ⟨hq1, hq2⟩
        · exact .inl hq
        · refine .inr ⟨hq1, ?_⟩
          have : y ≠ n := fun e => hne ⟨e, hq1⟩
          omega
  have := key s.height (le_refl _)
  unfold State.sendColumn
  rw [h.kept.height]
  exact ⟨this.1, fun y b hy hb hq => this.2 y b hy hb (hq.imp id fun e => ⟨e, hy⟩)⟩

theorem sendDividerColumn_spec {s t : State} (h : Flushing s t) {c : Nat} (hc : c < s.bpr) {P : Nat → Nat → Prop}
    (hp : Shown s t P) (hn : ∀ y, ¬P y c) :
    Flushing s (t.sendDividerColumn c) ∧ Shown s (t.sendDividerColumn c) P := by
  have key : ∀ n, n ≤ s.height →
      Flushing s ((List.range n).foldl (fun t yy => t.xferRun yy c (.stage 0) 1) t) ∧
      Shown s ((List.range n).foldl (fun t yy => t.xferRun yy c (.stage 0) 1) t) P := by
    intro n
    induction n with
    | zero => exact fun _ => ⟨h, hp⟩
    | succ n ih =>
      intro hle
      obtain ⟨h1, h2⟩ := ih (by omega)
      rw [List.range_succ, List.foldl_append]
      obtain ⟨h3, h4⟩ := h1.xferStage (y := n) (b := c) (len := 1) (k := 0) hc (Kept.offset_lt (by omega) hc)
      refine ⟨h3, fun y b hy hb hq => ?_⟩
      show Memory.read (State.xferRun _ n c (.stage 0) 1).disp _ = _
      rw [h4]
      · exact h2 y b hy hb hq
      · rw [State.offset_one hc hb]
        rintro ⟨rfl, rfl⟩
        exact hn _ hq
  unfold State.sendDividerColumn
  rw [h.kept.height]
  exact key s.height (le_refl _)

/-- A byte of the screen lies in a whole-row transfer exactly when it is of that row. -/
theorem State.offset_row {s : State} {r y b : Nat} (hb : b < s.bpr) :
    (s.offset r 0 ≤ s.offset y b ∧ s.offset y b < s.offset r 0 + s.bpr) ↔ y = r := by
  unfold State.offset
  constructor
  · rintro ⟨h1, h2⟩
    rcases Nat.lt_trichotomy y r with hlt | heq | hgt
    · have := Nat.mul_le_mul_right s.bpr (show y + 1 ≤ r from hlt)
      rw [Nat.add_mul] at this
      omega
    · exact heq
    · have := Nat.mul_le_mul_right s.bpr (show r + 1 ≤ y from hgt)
      rw [Nat.add_mul] at this
      omega
  · rintro rfl
    omega

theorem State.row_fits {s : State} {r : Nat} (hr : r < s.height) : s.offset r 0 + s.bpr ≤ s.height * s.bpr := by
  have := Nat.mul_le_mul_right s.bpr (show r + 1 ≤ s.height from hr)
  rw [Nat.add_mul] at this
  unfold State.offset
  omega

theorem sendRow_spec {s t : State} (h : Flushing s t) {r : Nat} (hr : r < s.height) (hb0 : 0 < s.bpr)
    {P : Nat → Nat → Prop} (hp : Shown s t P) :
    Flushing s (t.xferRun r 0 (.fb (t.offset r 0)) t.bpr) ∧
      Shown s (t.xferRun r 0 (.fb (t.offset r 0)) t.bpr) fun y b => P y b ∨ y = r := by
  rw [h.kept.bpr]
  obtain ⟨h1, h2⟩ := h.xferFb (y := r) (b := 0) (len := s.bpr) hb0 (State.row_fits hr)
  refine ⟨h1, fun y b hy hb hq => ?_⟩
  rw [h2]
  split
  · rfl
  · rename_i hne
    rw [State.offset_row hb] at hne
    exact hp y b hy hb (hq.resolve_right hne)

theorem sendDividerRow_spec {s t : State} (h : Flushing s t) {r : Nat} (hr : r < s.height) (hb0 : 0 < s.bpr)
    {P : Nat → Nat → Prop} (hp : Shown s t P) (hn : ∀ b, ¬P r b) :
    Flushing s (t.xferRun r 0 (.stage 0) t.bpr) ∧ Shown s (t.xferRun r 0 (.stage 0) t.bpr) P := by
  rw [h.kept.bpr]
  obtain ⟨h1, h2⟩ := h.xferStage (y := r) (b := 0) (len := s.bpr) (k := 0) hb0 (State.row_fits hr)
  refine ⟨h1, fun y b hy hb hq => ?_⟩
  rw [h2]
  · exact hp y b hy hb hq
  · rw [State.offset_row hb]
    rintro rfl
    exact hn _ hq

/-! ### The seven algorithms -/

theorem flushNone_spec {s : State} (hb0 : 0 < s.bpr) :
    Flushing s (flushNone s) ∧ Shown s (flushNone s) fun _ _ => True := by
  obtain ⟨h1, h2⟩ := (Flushing.refl s).xferFb (y := 0) (b := 0) (len := s.height * s.bpr) hb0
    (by simp [State.offset])
  refine ⟨h1, fun y b hy hb _ => ?_⟩
  unfold flushNone
  rw [h2, if_pos]
  · rfl
  · have := Kept.offset_lt (s := s) hy hb
    simp only [State.offset] at *
    omega

theorem hWipe_spec (forward : Bool) (s : State) :
    Flushing s (hWipe forward s) ∧ Shown s (hWipe forward s) fun _ _ => True := by
  have key : ∀ n, n ≤ s.bpr →
      Flushing s ((List.range n).foldl (hWipeStep forward) s.stageDivider) ∧
      Shown s ((List.range n).foldl (hWipeStep forward) s.stageDivider)
        fun _ b => if forward then b < n else s.bpr - n ≤ b := by
    intro n
    induction n with
    | zero =>
      refine fun _ => ⟨(Flushing.refl s).setStage 0 _, fun y b _ hb h => ?_⟩
      cases forward
      · simp at h
        omega
      · simp at h
    | succ n ih =>
      intro hn
      obtain ⟨h1, h2⟩ := ih (by omega)
      rw [List.range_succ, List.foldl_append, List.foldl_cons, List.foldl_nil]
      generalize (List.range n).foldl (hWipeStep forward) s.stageDivider = t at *
      unfold hWipeStep
      simp only
      have hc : (if forward then n else t.bpr - 1 - n) < s.bpr := by
        rw [h1.kept.bpr]
        split <;> omega
      obtain ⟨h3, h4⟩ := sendColumn_spec h1 hc h2
      have h4' : Shown s (t.sendColumn (if forward then n else t.bpr - 1 - n))
          fun _ b => if forward then b < n + 1 else s.bpr - (n + 1) ≤ b := by
        intro y b hy hb hq
        apply h4 y b hy hb
        rw [h1.kept.bpr]
        cases forward
        · simp at hq ⊢
          omega
        · simp at hq ⊢
          omega
      rw [h3.kept.bpr]
      generalize hdc : (if forward = true then ((if forward = true then n else t.bpr - 1 - n : Nat) : Int) + 1
        else ((if forward = true then n else t.bpr - 1 - n : Nat) : Int) - 1) = dcol
      by_cases hd : 0 ≤ dcol ∧ dcol < (s.bpr : Int)
      · rw [if_pos hd]
        refine sendDividerColumn_spec h3 (by omega) h4' fun y hq => ?_
        rw [h1.kept.bpr] at hdc
        cases forward
        · simp at hdc hq
          omega
        · simp at hdc hq
          omega
      · rw [if_neg hd]
        exact ⟨h3, h4'⟩
  obtain ⟨h1, h2⟩ := key s.bpr (le_refl _)
  refine ⟨h1, fun y b hy hb _ => h2 y b hy hb ?_⟩
  cases forward
  · simp
  · simpa using hb

theorem vWipe_spec (downward : Bool) {s : State} (hb0 : 0 < s.bpr) :
    Flushing s (vWipe downward s) ∧ Shown s (vWipe downward s) fun _ _ => True := by
  have key : ∀ n, n ≤ s.height →
      Flushing s ((List.range n).foldl (vWipeStep downward) s.stageDivider) ∧
      Shown s ((List.range n).foldl (vWipeStep downward) s.stageDivider)
        fun y _ => if downward then y < n else s.height - n ≤ y := by
    intro n
    induction n with
    | zero =>
      refine fun _ => ⟨(Flushing.refl s).setStage 0 _, fun y b hy _ h => ?_⟩
      cases downward
      · simp at h
        omega
      · simp at h
    | succ n ih =>
      intro hn
      obtain ⟨h1, h2⟩ := ih (by omega)
      rw [List.range_succ, List.foldl_append, List.foldl_cons, List.foldl_nil]
      generalize (List.range n).foldl (vWipeStep downward) s.stageDivider = t at *
      unfold vWipeStep
      simp only
      have hr : (if downward then n else t.height - 1 - n) < s.height := by
        rw [h1.kept.height]
        split <;> omega
      obtain ⟨h3, h4⟩ := sendRow_spec h1 hr hb0 h2
      generalize hu : t.xferRun (if downward then n else t.height - 1 - n) 0
        (.fb (t.offset (if downward then n else t.height - 1 - n) 0)) t.bpr = u at *
      have h4' : Shown s u fun y _ => if downward then y < n + 1 else s.height - (n + 1) ≤ y := by
        intro y b hy hb hq
        apply h4 y b hy hb
        rw [h1.kept.height]
        cases downward
        · simp at hq ⊢
          omega
        · simp at hq ⊢
          omega
      have hend : ∀ w : State, Flushing s w ∧
          Shown s w (fun y _ => if downward then y < n + 1 else s.height - (n + 1) ≤ y) →
          Flushing s (w.dmaWait.emit (.delay t.cfg.vwipeRowDelay)) ∧
          Shown s (w.dmaWait.emit (.delay t.cfg.vwipeRowDelay))
            (fun y _ => if downward then y < n + 1 else s.height - (n + 1) ≤ y) := by
        rintro w ⟨hw1, hw2⟩
        refine ⟨hw1.emitDelay _, fun y b hy hb hq => ?_⟩
        rw [← hw2 y b hy hb hq]
        show Memory.read w.dmaWait.disp _ = _
        simp
      apply hend
      rw [h3.kept.height]
      generalize hdr : (if downward = true then ((if downward = true then n else t.height - 1 - n : Nat) : Int) + 2
        else ((if downward = true then n else t.height - 1 - n : Nat) : Int) - 2) = drow
      by_cases hd : 0 ≤ drow ∧ drow < (s.height : Int)
      · rw [if_pos hd]
        refine sendDividerRow_spec h3 (by omega) hb0 h4' fun b hq => ?_
        rw [h1.kept.height] at hdr
        cases downward
        · simp at hdr hq
          omega
        · simp at hdr hq
          omega
      · rw [if_neg hd]
        exact ⟨h3, h4'⟩
  obtain ⟨h1, h2⟩ := key s.height (le_refl _)
  refine ⟨h1, fun y b hy hb _ => h2 y b hy hb ?_⟩
  cases downward
  · simp
  · simpa using hy

theorem irisStep_spec (outward : Bool) {s t : State} (h : Flushing s t) {n : Nat} (hn : n < s.irisSteps)
    {P : Nat → Nat → Prop} (hp : Shown s t P) :
    Flushing s (irisStep outward t n) ∧
      Shown s (irisStep outward t n) fun y b => P y b ∨
        b = s.irisSteps - 1 - (if outward then n else s.irisSteps - 1 - n) ∨
        b = s.bpr / 2 + (if outward then n else s.irisSteps - 1 - n) := by
  have hi : t.irisSteps = s.irisSteps := by
    unfold State.irisSteps
    rw [h.kept.bpr]
  have hk : (if outward then n else s.irisSteps - 1 - n) < s.irisSteps := by split <;> omega
  unfold irisStep
  simp only
  rw [hi, h.kept.bpr]
  generalize (if outward then n else s.irisSteps - 1 - n) = k at *
  have hs : s.irisSteps = (s.bpr + 1) / 2 := rfl
  obtain ⟨h1, h2⟩ := sendColumn_spec h (c := s.irisSteps - 1 - k) (by omega) hp
  split
  · obtain ⟨h3, h4⟩ := sendColumn_spec h1 (c := s.bpr / 2 + k) (by omega) h2
    exact ⟨h3, h4.mono fun y b hq => by tauto⟩
  · rename_i he
    exact ⟨h1, h2.mono fun y b hq => by
      rcases hq with hq | hq | hq
      · exact .inl hq
      · exact .inr hq
      · exact .inr (by omega)⟩

theorem iris_spec (outward : Bool) (s : State) :
    Flushing s (iris outward s) ∧ Shown s (iris outward s) fun _ _ => True := by
  have key : ∀ n, n ≤ s.irisSteps →
      Flushing s ((List.range n).foldl (irisStep outward) s) ∧
      Shown s ((List.range n).foldl (irisStep outward) s) fun _ b => ∃ i, i < n ∧
        (b = s.irisSteps - 1 - (if outward then i else s.irisSteps - 1 - i) ∨
        b = s.bpr / 2 + (if outward then i else s.irisSteps - 1 - i)) := by
    intro n
    induction n with
    | zero => exact fun _ => ⟨Flushing.refl s, fun y b _ _ h => absurd h (by simp)⟩
    | succ n ih =>
      intro hn
      obtain ⟨h1, h2⟩ := ih (by omega)
      rw [List.range_succ, List.foldl_append, List.foldl_cons, List.foldl_nil]
      obtain ⟨h3, h4⟩ := irisStep_spec outward h1 (n := n) (by omega) h2
      refine ⟨h3, h4.mono ?_⟩
      rintro y b ⟨i, hi, hb⟩
      rcases Nat.lt_succ_iff_lt_or_eq.1 hi with hi | rfl
      · exact .inl ⟨i, hi, hb⟩
      · exact .inr hb
  obtain ⟨h1, h2⟩ := key s.irisSteps (le_refl _)
  refine ⟨h1, fun y b hy hb _ => h2 y b hy hb ?_⟩
  have hs : s.irisSteps = (s.bpr + 1) / 2 := rfl
  cases outward
  · by_cases hl : b < s.irisSteps
    · refine ⟨b, hl, .inl ?_⟩
      simp
      omega
    · refine ⟨s.irisSteps - 1 - (b - s.bpr / 2), by omega, .inr ?_⟩
      simp
      omega
  · by_cases hl : b < s.irisSteps
    · refine ⟨s.irisSteps - 1 - b, by omega, .inl ?_⟩
      simp
      omega
    · refine ⟨b - s.bpr / 2, by omega, .inr ?_⟩
      simp
      omega

/-- Every transition ends with the screen showing the framebuffer (R252), and changes only the display side and the
scratch memories. -/
theorem runTransition_spec (k : Transition) {s : State} (hb0 : 0 < s.bpr) :
    Flushing s (runTransition k s) ∧ Shown s (runTransition k s) fun _ _ => True := by
  cases k
  · exact flushNone_spec hb0
  · exact hWipe_spec true s
  · exact hWipe_spec false s
  · exact vWipe_spec true hb0
  · exact vWipe_spec false hb0
  · exact iris_spec false s
  · exact iris_spec true s

/-! ### The windowed flush -/

/-- Where the flush rectangle lies: inside the screen, between even columns, when it is not empty (R127). -/
theorem State.flushRect_bounds {s : State} (he : s.width % 2 = 0) {x y : Int} {w h : Nat}
    (hne : (s.flushRect x y w h).isEmpty = false) :
    0 ≤ (s.flushRect x y w h).xa ∧ (s.flushRect x y w h).xa < (s.flushRect x y w h).xb ∧
      (s.flushRect x y w h).xb ≤ s.width ∧ (s.flushRect x y w h).xa % 2 = 0 ∧ (s.flushRect x y w h).xb % 2 = 0 ∧
      0 ≤ (s.flushRect x y w h).ya ∧ (s.flushRect x y w h).ya < (s.flushRect x y w h).yb ∧
      (s.flushRect x y w h).yb ≤ s.height := by
  simp only [Rect.isEmpty, Bool.or_eq_false_iff, decide_eq_false_iff_not] at hne
  simp only [State.flushRect, mod2] at *
  omega

/-- The row transfers of FLUSH_WINDOW: exactly the bytes of the rectangle show the framebuffer, every other byte of
`DISP` stays (R128). -/
theorem State.flushRows_spec {s : State} {r : Rect} (h0 : 0 ≤ r.xa) (h1 : r.xa < r.xb) (h2 : r.xb ≤ s.width)
    (he : r.xa % 2 = 0) (he' : r.xb % 2 = 0) (h3 : 0 ≤ r.ya) (h4 : r.yb ≤ s.height) :
    Flushing s (s.flushRows r) ∧ s.flushRows r = s.withDispOf (s.flushRows r) ∧
      ∀ y b, b < s.bpr → Memory.read (s.flushRows r).disp (s.offset y b) =
        if r.ya ≤ y ∧ (y : Int) < r.yb ∧ r.xa ≤ 2 * (b : Int) ∧ 2 * (b : Int) < r.xb then some (s.fbByte y b)
        else Memory.read s.disp (s.offset y b) := by
  have hb0 : (r.xa / 2).toNat + ((r.xb - r.xa) / 2).toNat ≤ s.bpr := by
    unfold State.bpr
    omega
  have hl0 : 0 < ((r.xb - r.xa) / 2).toNat := by omega
  have key : ∀ n, n ≤ (r.yb - r.ya).toNat →
      Flushing s ((List.range n).foldl (fun t i =>
        t.xferRun (r.ya.toNat + i) (r.xa / 2).toNat (.fb (t.offset (r.ya.toNat + i) (r.xa / 2).toNat))
          ((r.xb - r.xa) / 2).toNat) s) ∧
      (List.range n).foldl (fun t i =>
        t.xferRun (r.ya.toNat + i) (r.xa / 2).toNat (.fb (t.offset (r.ya.toNat + i) (r.xa / 2).toNat))
          ((r.xb - r.xa) / 2).toNat) s = s.withDispOf ((List.range n).foldl (fun t i =>
        t.xferRun (r.ya.toNat + i) (r.xa / 2).toNat (.fb (t.offset (r.ya.toNat + i) (r.xa / 2).toNat))
          ((r.xb - r.xa) / 2).toNat) s) ∧
      ∀ y b, b < s.bpr → Memory.read ((List.range n).foldl (fun t i =>
        t.xferRun (r.ya.toNat + i) (r.xa / 2).toNat (.fb (t.offset (r.ya.toNat + i) (r.xa / 2).toNat))
          ((r.xb - r.xa) / 2).toNat) s).disp (s.offset y b) =
        if r.ya.toNat ≤ y ∧ y < r.ya.toNat + n ∧ (r.xa / 2).toNat ≤ b ∧
            b < (r.xa / 2).toNat + ((r.xb - r.xa) / 2).toNat then some (s.fbByte y b)
        else Memory.read s.disp (s.offset y b) := by
    intro n
    induction n with
    | zero =>
      refine fun _ => ⟨Flushing.refl s, rfl, fun y b hb => ?_⟩
      rw [if_neg (by omega)]
      rfl
    | succ n ih =>
      intro hn
      obtain ⟨i1, i2, i3⟩ := ih (by omega)
      rw [List.range_succ, List.foldl_append, List.foldl_cons, List.foldl_nil]
      generalize (List.range n).foldl (fun t i =>
        t.xferRun (r.ya.toNat + i) (r.xa / 2).toNat (.fb (t.offset (r.ya.toNat + i) (r.xa / 2).toNat))
          ((r.xb - r.xa) / 2).toNat) s = t at *
      have hrow : r.ya.toNat + n < s.height := by omega
      have hfit : s.offset (r.ya.toNat + n) (r.xa / 2).toNat + ((r.xb - r.xa) / 2).toNat ≤ s.height * s.bpr := by
        have := State.row_fits hrow
        unfold State.offset at *
        omega
      obtain ⟨f1, f2⟩ := i1.xferFb (y := r.ya.toNat + n) (b := (r.xa / 2).toNat)
        (len := ((r.xb - r.xa) / 2).toNat) (by omega) hfit
      refine ⟨f1, ?_, fun y b hb => ?_⟩
      · rw [State.xferRun_frame, i2]
        rfl
      · rw [f2, i3 y b hb]
        have hin : (s.offset (r.ya.toNat + n) (r.xa / 2).toNat ≤ s.offset y b ∧
            s.offset y b < s.offset (r.ya.toNat + n) (r.xa / 2).toNat + ((r.xb - r.xa) / 2).toNat) ↔
            y = r.ya.toNat + n ∧ (r.xa / 2).toNat ≤ b ∧ b < (r.xa / 2).toNat + ((r.xb - r.xa) / 2).toNat := by
          constructor
          · intro hq
            have hy : y = r.ya.toNat + n := by
              rw [← State.offset_row hb]
              unfold State.offset at *
              omega
            subst hy
            unfold State.offset at hq
            omega
          · rintro ⟨rfl, hq1, hq2⟩
            unfold State.offset
            omega
        by_cases hc : y = r.ya.toNat + n ∧ (r.xa / 2).toNat ≤ b ∧
            b < (r.xa / 2).toNat + ((r.xb - r.xa) / 2).toNat
        · rw [if_pos (hin.2 hc), if_pos (by omega)]
          rfl
        · rw [if_neg (fun hq => hc (hin.1 hq))]
          by_cases hd : r.ya.toNat ≤ y ∧ y < r.ya.toNat + n ∧ (r.xa / 2).toNat ≤ b ∧
            b < (r.xa / 2).toNat + ((r.xb - r.xa) / 2).toNat
          · rw [if_pos hd, if_pos (by omega)]
          · rw [if_neg hd, if_neg (by omega)]
  obtain ⟨k1, k2, k3⟩ := key _ (le_refl _)
  refine ⟨k1, k2, fun y b hb => ?_⟩
  unfold State.flushRows
  simp only
  rw [k3 y b hb]
  by_cases hc : r.ya ≤ y ∧ (y : Int) < r.yb ∧ r.xa ≤ 2 * (b : Int) ∧ 2 * (b : Int) < r.xb
  · rw [if_pos hc, if_pos (by omega)]
  · rw [if_neg hc, if_neg (by omega)]

end Sys2Proof.Machine
end

