-- ==== Sys2Proof/Laws/Font.lean ====
section
/-!
SUPPORT. One equation for each function of the font pipeline (42_font_glyph.md): the interval scan, the index entry, the
sentinel path, the right-bound check, one character of a string.
-/
namespace Sys2Proof.Machine

/-- One slot of the interval scan, whatever it holds (R184). -/
theorem intervalScan_cons (e : Interval) (es : List Interval) (off : Nat) (cp : Word)
    [Decidable (e.contains cp)] :
    intervalScan (e :: es) off cp =
      if e.contains cp then some (off + (cp.toNat - e.first.toNat)) else intervalScan es (off + e.length) cp := by
  simp only [intervalScan, Interval.contains, Interval.length]
  by_cases h : e.first = 0xFFFF#16
  · simp [h]
  · by_cases h2 : e.first.toNat ≤ cp.toNat ∧ cp.toNat ≤ e.last.toNat
    · simp [h, h2]
    · have h3 : ¬(¬e.first = 65535#16 ∧ e.first.toNat ≤ cp.toNat ∧ cp.toNat ≤ e.last.toNat) := fun h' => h2 h'.2
      by_cases h4 : e.first.toNat ≤ e.last.toNat
      · simp only [h, h2, h4, if_false, if_true]
        simp only [ne_eq, h, not_false_eq_true, true_and, if_false]
        congr 1
        omega
      · simp only [h, h2, h4, if_false]
        simp only [ne_eq, h, not_false_eq_true, true_and, if_false]
        rw [show e.last.toNat + 1 - e.first.toNat = 0 by omega, Nat.add_zero]

/-- The offset of the scan only shifts its result (R184). -/
theorem intervalScan_offset (es : List Interval) (off : Nat) (cp : Word) :
    intervalScan es off cp = (intervalScan es 0 cp).map fun d => off + d := by
  classical
  induction es generalizing off with
  | nil => rfl
  | cons e es ih =>
    rw [intervalScan_cons, intervalScan_cons]
    split
    · simp
    · rw [ih, ih (0 + e.length), Option.map_map]
      congr 1
      funext d
      simp only [Function.comp]
      omega

/-- A described index at or beyond the table reads as the sentinel (R187). -/
theorem State.indexEntry_beyond (s : State) {d : Nat} (h : s.fontDesc.toNat ≤ d) : s.indexEntry d = indexSentinel := by
  simp [State.indexEntry, h]

/-- Path B without fallback support gives no glyph (R185). -/
theorem State.resolveSentinel_unsupported {s : State} (h : s.qmark = false) : s.resolveSentinel = none := by
  simp [State.resolveSentinel, h]

/-- Path A without fallback support gives no glyph (R185). -/
theorem State.resolveGlyph_outside {s : State} {cp : Word} (h : s.intervalIndex cp = none) (hq : s.qmark = false) :
    s.resolveGlyph cp = none := by
  simp [State.resolveGlyph, State.describedIndex, h, hq]

/-- A described glyph is its own index entry, where the record exists (R185). -/
theorem State.resolveGlyph_described {s : State} {cp : Word} {d : Nat} (h : s.intervalIndex cp = some d)
    (he : s.indexEntry d ≠ indexSentinel) :
    s.resolveGlyph cp = if s.fontTotal.toNat ≤ (s.indexEntry d).toNat then none else some (d, s.indexEntry d) := by
  simp [State.resolveGlyph, State.describedIndex, h, State.resolveIndex, he]

/-- The right-bound check (R193): a glyph that fits, a wrap, a partial draw, a stop. -/
theorem State.checkRight_cases (s : State) (mt : Metrics) :
    s.checkRight mt =
      if s16 s.curX + mt.adv ≤ s16 s.maxTextX then some s
      else if s.lf = true then some s.newLine
      else if s.partialX = true ∧ s16 s.curX < s16 s.maxTextX then some s
      else none := by
  unfold State.checkRight
  by_cases h : s16 s.curX + mt.adv > s16 s.maxTextX
  · rw [if_pos h, if_neg (by omega : ¬s16 s.curX + mt.adv ≤ s16 s.maxTextX)]
  · rw [if_neg h, if_pos (by omega : s16 s.curX + mt.adv ≤ s16 s.maxTextX)]

/-- One character of a string that is printed (R198). -/
theorem emitString_printed {m : Mode} {cp : Word} {s t : State} (cps : List Word)
    (h : putCharCore m cp s = (t, .printed)) :
    emitString m (cp :: cps) s = ((emitString m cps t).1, (emitString m cps t).2 + 1) := by
  simp [emitString, h]

/-- The character a string stops at (R198). -/
theorem emitString_stopped {m : Mode} {cp : Word} {s t : State} (cps : List Word)
    (h : putCharCore m cp s = (t, .stopped)) : emitString m (cp :: cps) s = (t, 0) := by
  simp [emitString, h]

end Sys2Proof.Machine
end

