-- ==== Sys2Proof/Laws/PerInstr.lean ====
section
/-!
SUPPORT. The family `BodyRoundTrip`: for each command, its operands and payload, as the encoder writes them, are read
back by the decoder, whatever bytes follow (30_encoding.md R92 to R95). One lemma per constructor of Instr.
-/
namespace Sys2Proof.Laws.BodyRoundTrip

/-- The operands and payload of a well-formed command decode to the command and leave the bytes after it. -/
def Statement (i : Instr) : Prop :=
  i.wellFormed = true → ∀ rest : List Byte,
    decodeBody { op := i.opcode, m := i.mode, j := i.justify } (i.operands.flatMap wordBytes ++ (i.payload ++ rest)) =
      some (i, rest)

theorem init (width height : Word) : Statement (.init width height) := by
  intro _ rest
  simp [Instr.opcode, Instr.operands, Instr.payload, decodeBody]

theorem setTextBounds (minX maxX : Word) : Statement (.setTextBounds minX maxX) := by
  intro _ rest
  simp [Instr.opcode, Instr.operands, Instr.payload, decodeBody]

theorem setDisplayWindow (minY maxY : Word) : Statement (.setDisplayWindow minY maxY) := by
  intro _ rest
  simp [Instr.opcode, Instr.operands, Instr.payload, decodeBody]

theorem clear : Statement .clear := by
  intro _ rest
  simp [Instr.opcode, Instr.operands, Instr.payload, decodeBody]

theorem fill (color : Word) : Statement (.fill color) := by
  intro _ rest
  simp [Instr.opcode, Instr.operands, Instr.payload, decodeBody]

theorem flushWindow (x y w h : Word) : Statement (.flushWindow x y w h) := by
  intro _ rest
  simp [Instr.opcode, Instr.operands, Instr.payload, decodeBody]

theorem flushFull : Statement .flushFull := by
  intro _ rest
  simp [Instr.opcode, Instr.operands, Instr.payload, decodeBody]

theorem setCtrl (ctrl : Word) : Statement (.setCtrl ctrl) := by
  intro _ rest
  simp [Instr.opcode, Instr.operands, Instr.payload, decodeBody]

theorem setCursor (x y : Word) : Statement (.setCursor x y) := by
  intro _ rest
  simp [Instr.opcode, Instr.operands, Instr.payload, decodeBody]

theorem writeHline (m : Mode) (x y n : Word) (payload : List Byte) :
    Statement (.writeHline m x y n payload) := by
  intro h rest
  have hl : (n.toNat + 1) / 2 = payload.length :=
    Eq.symm (by simpa [Instr.wellFormed] using h)
  simp [Instr.opcode, Instr.mode, Instr.operands, Instr.payload, decodeBody, hl]

theorem drawRect (m : Mode) (x y w h color : Word) : Statement (.drawRect m x y w h color) := by
  intro _ rest
  simp [Instr.opcode, Instr.mode, Instr.operands, Instr.payload, decodeBody]

theorem drawImage (m : Mode) (x y fileId : Word) : Statement (.drawImage m x y fileId) := by
  intro _ rest
  simp [Instr.opcode, Instr.mode, Instr.operands, Instr.payload, decodeBody]

theorem selectFont (fontId : Word) : Statement (.selectFont fontId) := by
  intro _ rest
  simp [Instr.opcode, Instr.operands, Instr.payload, decodeBody]

theorem glyphLookup (codepoint : Word) : Statement (.glyphLookup codepoint) := by
  intro _ rest
  simp [Instr.opcode, Instr.operands, Instr.payload, decodeBody]

theorem measure (codepoint : Word) : Statement (.measure codepoint) := by
  intro _ rest
  simp [Instr.opcode, Instr.operands, Instr.payload, decodeBody]

theorem drawGlyph (m : Mode) (x y codepoint : Word) : Statement (.drawGlyph m x y codepoint) := by
  intro _ rest
  simp [Instr.opcode, Instr.mode, Instr.operands, Instr.payload, decodeBody]

theorem putChar (m : Mode) (codepoint : Word) : Statement (.putChar m codepoint) := by
  intro _ rest
  simp [Instr.opcode, Instr.mode, Instr.operands, Instr.payload, decodeBody]

theorem putString (m : Mode) (n : Word) (chars : List Word) : Statement (.putString m n chars) := by
  intro h rest
  have hl : n.toNat = chars.length := Eq.symm (by simpa [Instr.wellFormed] using h)
  simp [Instr.opcode, Instr.mode, Instr.operands, Instr.payload, decodeBody, hl]

theorem putStringXy (m : Mode) (j : Justify) (x y n : Word) (chars : List Word) :
    Statement (.putStringXy m j x y n chars) := by
  intro h rest
  have hl : n.toNat = chars.length := Eq.symm (by simpa [Instr.wellFormed] using h)
  simp [Instr.opcode, Instr.mode, Instr.justify, Instr.operands, Instr.payload, decodeBody, hl]

theorem loadTransition (kind : Word) : Statement (.loadTransition kind) := by
  intro _ rest
  simp [Instr.opcode, Instr.operands, Instr.payload, decodeBody]

end Sys2Proof.Laws.BodyRoundTrip
end

