-- ==== Sys2Proof/Laws/Step.lean ====
section
/-!
SUPPORT. What one step can do (10_state.md R20, 70_reset_and_hazards.md R290, R291, R304), said once: the cases of a
command's run and of a step that has a next state.
-/
namespace Sys2Proof.Machine

/-- What can come of a command: its end, a reset during it, or a poll that never ends. -/
theorem State.outcome_cases (s t : State) :
    (s.outcome t = t ∧ s.hangOf t = none ∧ s.resetAt = none) ∨
      (∃ n, s.resetAt = some n ∧ s.outcome t = s.abandon t n ∧
        ∀ h, s.hangOf t = some h → s.trace.length + n ≤ h.trace.length) ∨
      ∃ h, s.hangOf t = some h ∧ s.outcome t = s.hangs h ∧
        ∀ n, s.resetAt = some n → h.trace.length < s.trace.length + n := by
  unfold State.outcome
  cases hk : s.hangOf t with
  | none =>
    cases hn : s.resetAt with
    | none => exact .inl ⟨rfl, rfl, rfl⟩
    | some n => exact .inr (.inl ⟨n, rfl, rfl, by simp⟩)
  | some h =>
    cases hn : s.resetAt with
    | none => exact .inr (.inr ⟨h, rfl, rfl, by simp⟩)
    | some n =>
      by_cases hle : s.trace.length + n ≤ h.trace.length
      · exact .inr (.inl ⟨n, rfl, by simp [hle], by simpa using hle⟩)
      · exact .inr (.inr ⟨h, rfl, by simp [hle], by simpa using hle⟩)

/-- Where a command polls for ever its channel is one that stops completing transfers. -/
theorem State.hangOf_eq_some {s t : State} {h : Hang} :
    s.hangOf t = some h ↔ s.hangAt.isSome = true ∧ t.stuck = some h := by
  unfold State.hangOf
  cases s.hangAt <;> simp

/-- A command that neither reset nor the channel disturbs runs to its end. -/
theorem State.runCommand_of_none {s : State} (hr : s.resetAt = none) (hh : s.hangAt = none) (i : Instr) :
    s.runCommand i = exec i s := by
  unfold State.runCommand State.outcome State.hangOf
  rw [hr, hh]
  cases exec i s <;> rfl

/-- A command's run has a next state only where the command has one. -/
theorem State.runCommand_cases {s u : State} {i : Instr} (h : s.runCommand i = .next u) :
    ∃ t, exec i s = .next t ∧ u = s.outcome t := by
  unfold State.runCommand at h
  split at h
  · rename_i t ht
    injection h with h
    exact ⟨t, ht, h.symm⟩
  · cases h
  · cases h

/-- A step with a next state is a reset, another poll, a command, a halt or a wait. -/
theorem step_cases {s t : State} (h : step s = .next t) :
    (s.resetPin = true ∧ t = s.applyReset) ∨
      (s.resetPin = false ∧ s.hung = true ∧ t = s) ∨
      (s.resetPin = false ∧ s.hung = false ∧ s.seq ≠ .halted ∧
        ((∃ i rest, s.fetch = .packet i rest ∧ s.stray = false ∧ (s.takePacket rest).runCommand i = .next t) ∨
          (∃ why hdr rest, s.fetch = .illegal why hdr rest ∧ t = s.haltIllegal hdr rest) ∨
          (s.fetch = .incomplete ∧ t = s.waitForBytes))) := by
  unfold step at h
  cases hp : s.resetPin with
  | true =>
    rw [hp] at h
    injection h with h
    exact .inl ⟨rfl, h.symm⟩
  | false =>
    cases hh : s.hung with
    | true =>
      rw [hp, hh] at h
      injection h with h
      exact .inr (.inl ⟨rfl, rfl, h.symm⟩)
    | false =>
      rw [hp, hh] at h
      simp only [Bool.false_eq_true, if_false] at h
      have hs : s.seq ≠ .halted := by
        intro hq
        rw [hq] at h
        cases h
      have h : (match s.fetch with
          | .packet i rest => if s.stray then .fault .strayTransfer else (s.takePacket rest).runCommand i
          | .illegal _ hdr rest => .next (s.haltIllegal hdr rest)
          | .incomplete => .next s.waitForBytes) = (.next t : Result) := by
        cases hq : s.seq with
        | halted => exact absurd hq hs
        | idle => rw [hq] at h; exact h
        | busy => rw [hq] at h; exact h
      refine .inr (.inr ⟨rfl, rfl, hs, ?_⟩)
      cases hf : s.fetch with
      | packet i rest =>
        rw [hf] at h
        refine .inl ⟨i, rest, rfl, ?_⟩
        cases hst : s.stray with
        | true => simp [hst] at h
        | false => exact ⟨rfl, by simpa [hst] using h⟩
      | illegal why hdr rest =>
        rw [hf] at h
        injection h with h
        exact .inr (.inl ⟨why, hdr, rest, rfl, h.symm⟩)
      | incomplete =>
        rw [hf] at h
        injection h with h
        exact .inr (.inr ⟨rfl, h.symm⟩)

end Sys2Proof.Machine
end

