-- ==== Sys2Proof/Laws/Sound.lean ====
section
/-!
SUPPORT. How the invariant of the registers and memories passes through drawing steps, the end of a command and the
sequencer's moves.
-/
namespace Sys2Proof.Machine

theorem State.Sound.busOk {s : State} (h : s.Sound) : s.busOk := by
  unfold State.busOk
  rw [h.quiet]
  exact h.bus

theorem State.clearScratch_eq_iff (s : State) :
    s.clearScratch = s ↔ s.stage0 = [] ∧ s.stage1 = [] ∧ s.line = [] := by
  constructor
  · intro h
    refine ⟨?_, ?_, ?_⟩
    · rw [← h]
      rfl
    · rw [← h]
      rfl
    · rw [← h]
      rfl
  · rintro ⟨h1, h2, h3⟩
    cases s
    simp_all [State.clearScratch]

theorem State.Sound.clear {s : State} (h : s.Sound) : s.clearScratch = s :=
  (State.clearScratch_eq_iff s).2 h.scratch

/-- Drawing steps that leave no transfer in flight and the scratch memories empty keep the invariant. -/
theorem State.Sound.of_kept {s t : State} (h : s.Sound) (k : Kept s t) (hq : t.xferBusy = false)
    (hc : t.clearScratch = t) : t.Sound := by
  have hi : t.inited = s.inited := by
    rw [k.frame]
    rfl
  refine
    { geometry := fun e => k.geometryOk (h.geometry (hi ▸ e))
      window := fun e => k.windowOk (h.window (hi ▸ e))
      ctrlBits := ?_
      question := ?_
      intervals := ?_
      fbBytes := fun e hf => ?_
      fbWf := k.fbWf h.fbWf
      dispWf := k.dispWf h.dispWf
      dispRange := ?_
      assetWf := ?_
      shadowRows := fun e => k.shadow (h.shadowRows (hi ▸ e))
      quiet := hq
      scratch := (State.clearScratch_eq_iff t).1 hc
      bus := ?_ }
  · rw [k.ctrl]
    exact h.ctrlBits
  · have := h.question
    rw [k.frame]
    exact this
  · rw [k.cfg, k.frame]
    exact h.intervals
  · rw [k.height, k.bpr]
    rw [k.cfg] at hf
    exact k.fb (h.fbBytes (hi ▸ e) hf)
  · rw [k.height, k.bpr]
    exact k.dispRange h.dispRange
  · rw [k.asset]
    exact h.assetWf
  · have := k.bus h.busOk
    unfold State.busOk at this
    rw [hq] at this
    exact this

/-- Drawing steps that leave no transfer in flight, with what they staged dropped at the command's end, keep the
invariant. -/
theorem State.Sound.of_drawing {s t : State} (h : s.Sound) (k : Kept s t) (hq : t.xferBusy = false) :
    t.clearScratch.Sound :=
  h.of_kept (k.trans (Kept.clearScratch t)) hq rfl

/-- The end of a command keeps the invariant. -/
theorem State.Sound.endCommand {s : State} (h : s.Sound) (c : Code) (r0 r1 r2 r3 : Word) :
    (s.endCommand c r0 r1 r2 r3).Sound :=
  ⟨h.geometry, h.window, h.ctrlBits, h.question, h.intervals, h.fbBytes, h.fbWf, h.dispWf, h.dispRange, h.assetWf,
    h.shadowRows, h.quiet, h.scratch, h.bus⟩

/-- Taking a packet keeps the invariant. -/
theorem State.Sound.takePacket {s : State} (h : s.Sound) (rest : List Byte) : (s.takePacket rest).Sound :=
  ⟨h.geometry, h.window, h.ctrlBits, h.question, h.intervals, h.fbBytes, h.fbWf, h.dispWf, h.dispRange, h.assetWf,
    h.shadowRows, h.quiet, h.scratch, h.bus⟩

/-- Waiting for bytes keeps the invariant. -/
theorem State.Sound.waitForBytes {s : State} (h : s.Sound) : s.waitForBytes.Sound :=
  ⟨h.geometry, h.window, h.ctrlBits, h.question, h.intervals, h.fbBytes, h.fbWf, h.dispWf, h.dispRange, h.assetWf,
    h.shadowRows, h.quiet, h.scratch, h.bus⟩

/-- Halting keeps the invariant. -/
theorem State.Sound.haltIllegal {s : State} (h : s.Sound) (hdr : Word) (rest : List Byte) :
    (s.haltIllegal hdr rest).Sound :=
  ⟨h.geometry, h.window, h.ctrlBits, h.question, h.intervals, h.fbBytes, h.fbWf, h.dispWf, h.dispRange, h.assetWf,
    h.shadowRows, h.quiet, h.scratch, h.bus⟩

/-- Reset establishes the invariant from a disciplined trace and a canonical Asset Store, whatever else (R38). -/
theorem State.applyReset_sound {s : State} {g : Bool} (ha : Memory.wf s.asset = true)
    (hb : busRun false s.trace = some g) : s.applyReset.Sound where
  geometry e := absurd e (by simp [State.applyReset, State.reset])
  window e := absurd e (by simp [State.applyReset, State.reset])
  ctrlBits := show ctrlReserved 0#16 = false by decide
  question := rfl
  intervals := by simp [State.applyReset]
  fbBytes e := absurd e (by simp [State.applyReset, State.reset])
  fbWf := rfl
  dispWf := rfl
  dispRange a ha := absurd ha (by simp [State.applyReset, State.reset, Memory.addresses])
  assetWf := ha
  shadowRows e := absurd e (by simp [State.applyReset, State.reset])
  quiet := rfl
  scratch := ⟨rfl, rfl, rfl⟩
  bus := busRun_reset hb

/-- Reset establishes the invariant (R38). -/
theorem State.Sound.applyReset {s : State} (h : s.Sound) : s.applyReset.Sound :=
  State.applyReset_sound h.assetWf h.bus

/-- Reset during a command establishes the invariant (R291). -/
theorem State.Sound.abandon {s t : State} (h : s.Sound) (ht : t.Sound) (n : Nat) : (s.abandon t n).Sound := by
  obtain ⟨g, hg⟩ := busRun_take ht.bus (s.trace.length + n)
  have r : ({ s with trace := t.trace.take (s.trace.length + n) } : State).applyReset.Sound :=
    State.applyReset_sound h.assetWf hg
  exact ⟨r.geometry, r.window, r.ctrlBits, r.question, r.intervals, r.fbBytes, r.fbWf, r.dispWf, r.dispRange,
    r.assetWf, r.shadowRows, r.quiet, r.scratch, r.bus⟩

/-- With its transfer complete and what it staged dropped, an engine that polls for ever would keep the invariant
(R304). `u` is the state the drawing began in, which differs from the command's first state in the margin at most. -/
theorem State.Sound.hangs {s u : State} (h : s.Sound) {m : Hang} (w : m.Within u) (hu : u = { s with
      curX := u.curX, curY := u.curY, maxTextX := u.maxTextX })
    (hw : s.inited = true → ({ s with maxTextX := m.maxTextX } : State).windowOk) (hi : s.inited = true) :
    (s.hangs m).dmaWait.clearScratch.Sound where
  geometry := h.geometry
  window := hw
  ctrlBits := h.ctrlBits
  question := h.question
  intervals := h.intervals
  fbBytes := h.fbBytes
  fbWf := h.fbWf
  dispWf := w.dispWf (by rw [hu]; exact h.dispWf)
  dispRange := by
    have := w.dispRange
    rw [hu] at this
    exact this h.dispRange
  assetWf := h.assetWf
  shadowRows _ := by
    have := w.shadow
    rw [hu] at this
    exact this (h.shadowRows hi)
  quiet := rfl
  scratch := ⟨rfl, rfl, rfl⟩
  bus := by
    have := w.bus
    rw [hu] at this
    exact busRun_snoc (this h.busOk) .dmaDone

/-- A drawing that begins with nothing recorded leaves the record of its endless poll true, and that poll's state keeps
the invariant as `Sound.hangs` has it (R82, R304). -/
theorem State.Sound.hangs_of_kept {s t : State} (h : s.Sound) (hs : s.stuck = none) (hi : s.inited = true)
    (k : Kept s t) :
    t.Recorded s.trace.length ∧ ∀ m, t.stuck = some m → (s.hangs m).dmaWait.clearScratch.Sound := by
  refine ⟨k.record _ h.busOk (State.Recorded.start h.quiet hs), fun m hm => ?_⟩
  rcases k.hang m hm with hm | w
  · rw [hs] at hm
    cases hm
  · refine h.hangs w rfl (fun _ => ?_) hi
    rw [w.maxTextX]
    exact h.window hi

/-- An empty bitmap draws nothing (R169). -/
theorem blitStream_empty {s : State} (h : s.Ready) (x y : Int) {bw bh : Nat} (p : Nat) (m : Mode)
    (he : bw = 0 ∨ bh = 0) : (blitStream x y bw bh p m s).1 = s := by
  have key : blitGeneric x y bw bh p m s = s := by
    rcases he with rfl | rfl
    · exact blitGeneric_noColumns s x y m p bh
    · rfl
  unfold blitStream
  rw [State.selectStrategy_empty (h.1.geometry h.2) x y m he]
  show (blitGeneric x y bw bh p m s).dmaWait = s
  rw [key, State.dmaWait_eq_of_quiet h.1.quiet]

/-- An integer of the signed range, non-negative, as a register. -/
theorem s16_reg16_nat {n : Nat} (h : n ≤ 32767) : s16 (reg16 (n : Int)) = n :=
  s16_reg16 (by omega) (by omega)

end Sys2Proof.Machine
end

