-- ==== Sys2Proof/Laws/Trace.lean ====
section
/-!
SUPPORT. The events of the display-write primitives (20_memory.md R78, R79, R82), one equation each, and the memories of
the reset state in canonical form.
-/
namespace Sys2Proof.Machine

/-- The memories of the reset state are in canonical form. -/
theorem State.reset_memories_wf :
    Memory.wf State.reset.fb = true ∧ Memory.wf State.reset.disp = true ∧ Memory.wf State.reset.asset = true :=
  ⟨rfl, rfl, rfl⟩

/-- Data bytes record no event of their own. -/
theorem State.sendBytes_trace (s : State) (bs : List Byte) : (s.sendBytes bs).trace = s.trace := by
  rw [s.sendBytes_frame]

theorem State.sendBytes_xferBusy (s : State) (bs : List Byte) : (s.sendBytes bs).xferBusy = s.xferBusy := by
  rw [s.sendBytes_frame]

/-- A run of bus data (R79). -/
theorem State.busWriteRun_trace (s : State) (y b : Nat) (bs : List Byte) :
    (s.busWriteRun y b bs).trace = s.dmaWait.trace ++ [.busCmd (addrCmds s.cfg y b), .busData bs] := by
  unfold State.busWriteRun
  rw [State.sendBytes_trace]
  show s.dmaWait.trace ++ [Event.busCmd (addrCmds s.dmaWait.cfg y b)] ++ [Event.busData bs] = _
  rw [show s.dmaWait.cfg = s.cfg by rw [s.dmaWait_frame], List.append_assoc]
  rfl

theorem State.busWriteRun_xferBusy (s : State) (y b : Nat) (bs : List Byte) :
    (s.busWriteRun y b bs).xferBusy = false := by
  unfold State.busWriteRun
  rw [State.sendBytes_xferBusy]
  exact s.dmaWait_xferBusy

/-- A bulk transfer at a byte column (R79, R221). -/
theorem State.bulkWriteRun_trace (s : State) (y b : Nat) (src : XferSource) (len : Nat) :
    (s.bulkWriteRun y b src len).trace =
      s.dmaWait.trace ++ [.busCmd (addrCmds s.cfg y b), .dmaStart s.cfg.dmaDest src len s.cfg.dmaTrig] := by
  unfold State.bulkWriteRun State.bulkStart
  rw [State.sendBytes_trace]
  show s.dmaWait.trace ++ [Event.busCmd (addrCmds s.dmaWait.cfg y b)] ++
    [Event.dmaStart s.dmaWait.cfg.dmaDest src len s.dmaWait.cfg.dmaTrig] = _
  rw [show s.dmaWait.cfg = s.cfg by rw [s.dmaWait_frame], List.append_assoc]
  rfl

theorem State.bulkWriteRun_xferBusy (s : State) (y b : Nat) (src : XferSource) (len : Nat) :
    (s.bulkWriteRun y b src len).xferBusy = true := by
  unfold State.bulkWriteRun State.bulkStart
  rw [State.sendBytes_xferBusy]

/-- A bulk transfer at the write pointer (R222). -/
theorem State.bulkContinue_trace (s : State) (src : XferSource) (len : Nat) :
    (s.bulkContinue src len).trace = s.dmaWait.trace ++ [.dmaStart s.cfg.dmaDest src len s.cfg.dmaTrig] := by
  unfold State.bulkContinue State.bulkStart
  rw [State.sendBytes_trace]
  show s.dmaWait.trace ++ [Event.dmaStart s.dmaWait.cfg.dmaDest src len s.dmaWait.cfg.dmaTrig] = _
  rw [show s.dmaWait.cfg = s.cfg by rw [s.dmaWait_frame]]

theorem State.bulkContinue_xferBusy (s : State) (src : XferSource) (len : Nat) :
    (s.bulkContinue src len).xferBusy = true := by
  unfold State.bulkContinue State.bulkStart
  rw [State.sendBytes_xferBusy]

/-- A flush transfer, by the channel where there is one (R79, R226, R258). -/
theorem State.xferRun_trace (s : State) (y b : Nat) (src : XferSource) (len : Nat) :
    (s.xferRun y b src len).trace =
      s.dmaWait.trace ++ [.busCmd (addrCmds s.cfg y b),
        if s.cfg.hasDma then .dmaStart s.cfg.dmaDest src len s.cfg.dmaTrig else .busData (s.sourceBytes src len)] := by
  unfold State.xferRun
  split
  · exact s.bulkWriteRun_trace y b src len
  · exact s.busWriteRun_trace y b _

theorem State.xferRun_xferBusy (s : State) (y b : Nat) (src : XferSource) (len : Nat) :
    (s.xferRun y b src len).xferBusy = s.cfg.hasDma := by
  unfold State.xferRun
  split
  · rename_i h
    rw [h]
    exact s.bulkWriteRun_xferBusy y b src len
  · rename_i h
    rw [s.busWriteRun_xferBusy]
    simp at h
    exact h.symm

end Sys2Proof.Machine
end

