-- ==== Sys2Proof/Laws/Traffic.lean ====
section
/-!
SUPPORT. What a transition sends and what the screen shows while it runs (44_transition.md R253 to R258): each run of bytes
with its events and its effect on the picture, then a byte column, then the steps of the algorithms. Then what a bitmap on
the aligned path sends (43_dma_streamer.md R233).
-/
namespace Sys2Proof.Machine

/-- Once a transfer is complete, a run has recorded its addressing command and its transfer or bus run (R79, R258). -/
theorem State.xferRun_dmaWait_trace {s : State} (y b : Nat) {src : XferSource} {bytes : List Byte}
    (h : s.sourceBytes src bytes.length = bytes) :
    (s.xferRun y b src bytes.length).dmaWait.trace = s.dmaWait.trace ++ s.runEvents y b src bytes := by
  rw [State.dmaWait_trace, State.xferRun_xferBusy, State.xferRun_trace]
  unfold State.runEvents
  cases hd : s.cfg.hasDma
  · simp [h]
  · simp

/-- `t` is reached from `s` inside a flush that has sent `es`, and its screen shows the picture `pic`. -/
structure Sending (s t : State) (es : List Event) (pic : Nat → Nat → Option Byte) : Prop where
  flushing : Flushing s t
  staged : t.stage0 = s.stage0
  trace : t.dmaWait.trace = s.dmaWait.trace ++ es
  shows : ∀ y b, y < s.height → b < s.bpr → Memory.read t.disp (s.offset y b) = pic y b

namespace Sending

variable {s t : State} {es : List Event} {pic : Nat → Nat → Option Byte}

theorem refl (s : State) : Sending s s [] fun y b => Memory.read s.disp (s.offset y b) :=
  ⟨Flushing.refl s, rfl, by simp, fun _ _ _ _ => rfl⟩

/-- Another way to say the picture and the events. -/
theorem congr (h : Sending s t es pic) {fs : List Event} {pic' : Nat → Nat → Option Byte} (he : fs = es)
    (hp : ∀ y b, y < s.height → b < s.bpr → pic' y b = pic y b) : Sending s t fs pic' :=
  ⟨h.flushing, h.staged, he ▸ h.trace, fun y b hy hb => (h.shows y b hy hb).trans (hp y b hy hb).symm⟩

theorem runEvents (h : Sending s t es pic) (y b : Nat) (src : XferSource) (bytes : List Byte) :
    t.runEvents y b src bytes = s.runEvents y b src bytes := by
  unfold State.runEvents
  rw [h.flushing.kept.cfg]

/-- A run of framebuffer bytes. -/
theorem fbRun (h : Sending s t es pic) {y b n : Nat} (hb : b < s.bpr) (hr : s.offset y b + n ≤ s.height * s.bpr) :
    Sending s (t.xferRun y b (.fb (t.offset y b)) n) (es ++ s.fbRunEvents y b n) fun y' b' =>
      if s.offset y b ≤ s.offset y' b' ∧ s.offset y' b' < s.offset y b + n then some (s.fbByte y' b') else pic y' b' := by
  obtain ⟨h1, h2⟩ := h.flushing.xferFb hb hr
  refine ⟨h1, ?_, ?_, fun y' b' hy' hb' => ?_⟩
  · rw [State.xferRun_frame]
    exact h.staged
  · have hs : t.sourceBytes (.fb (t.offset y b)) ((List.range n).map fun j => s.fbAt (s.offset y b + j)).length =
        (List.range n).map fun j => s.fbAt (s.offset y b + j) := by
      simp [State.sourceBytes, h.flushing.offset, h.flushing.fbAt]
    have e := State.xferRun_dmaWait_trace y b hs
    simp only [List.length_map, List.length_range] at e
    rw [e, h.runEvents, h.trace, h.flushing.offset, List.append_assoc]
    rfl
  · rw [h2]
    split
    · rfl
    · exact h.shows y' b' hy' hb'

/-- A run of divider bytes. -/
theorem divider (h : Sending s t es pic) (hd : s.stage0 = List.replicate s.bpr s.cfg.divByte) {y b n : Nat}
    (hn : n ≤ s.bpr) (hb : b < s.bpr) (hr : s.offset y b + n ≤ s.height * s.bpr) :
    Sending s (t.xferRun y b (.stage 0) n) (es ++ s.dividerEvents y b n) fun y' b' =>
      if s.offset y b ≤ s.offset y' b' ∧ s.offset y' b' < s.offset y b + n then some s.cfg.divByte else pic y' b' := by
  have hs : t.sourceBytes (.stage 0) n = List.replicate n s.cfg.divByte := by
    simp [State.sourceBytes, State.stage, h.staged, hd, List.take_replicate, Nat.min_eq_left hn]
  have hbt : b < t.bpr := by
    rw [h.flushing.kept.bpr]
    exact hb
  refine ⟨(h.flushing.xferStage hb hr).1, ?_, ?_, fun y' b' hy' hb' => ?_⟩
  · rw [State.xferRun_frame]
    exact h.staged
  · have e := State.xferRun_dmaWait_trace (s := t) y b (src := .stage 0) (bytes := List.replicate n s.cfg.divByte)
      (by rw [List.length_replicate]; exact hs)
    rw [List.length_replicate] at e
    rw [e, h.runEvents, h.trace, List.append_assoc]
    rfl
  · rw [(t.xferRun_sentAt _ _ hbt).read, hs, h.flushing.offset, List.length_replicate]
    split
    · rename_i hc
      have : s.offset y' b' - s.offset y b < n := by omega
      simp [this]
    · exact h.shows y' b' hy' hb'

/-- Runs of one byte down a byte column, each told by its events and by what it leaves there. -/
theorem column {f : State → Nat → State} {ev : Nat → List Event} {val : Nat → Nat → Option Byte} {c : Nat}
    (hc : c < s.bpr)
    (hf : ∀ t es pic, Sending s t es pic → ∀ y, y < s.height →
      Sending s (f t y) (es ++ ev y) fun y' b' =>
        if s.offset y c ≤ s.offset y' b' ∧ s.offset y' b' < s.offset y c + 1 then val y' b' else pic y' b')
    (h : Sending s t es pic) :
    Sending s ((List.range s.height).foldl f t) (es ++ (List.range s.height).flatMap ev) fun y b =>
      if b = c then val y b else pic y b := by
  have key : ∀ n, n ≤ s.height → Sending s ((List.range n).foldl f t) (es ++ (List.range n).flatMap ev) fun y b =>
      if b = c ∧ y < n then val y b else pic y b := by
    intro n
    induction n with
    | zero => exact fun _ => h.congr (by simp) fun y b _ _ => by simp
    | succ n ih =>
      intro hn
      rw [List.range_succ, List.foldl_append, List.foldl_cons, List.foldl_nil]
      refine (hf _ _ _ (ih (by omega)) n (by omega)).congr (by simp) fun y b hy hb => ?_
      by_cases hq : y = n ∧ b = c
      · rw [if_pos ((State.offset_one hc hb).2 hq), if_pos ⟨hq.2, by omega⟩]
      · rw [if_neg (fun e => hq ((State.offset_one hc hb).1 e))]
        by_cases hp : b = c ∧ y < n
        · rw [if_pos hp, if_pos ⟨hp.1, by omega⟩]
        · rw [if_neg hp, if_neg]
          rintro ⟨e1, e2⟩
          exact hq ⟨by omega, e1⟩
  exact (key _ (le_refl _)).congr rfl fun y b hy _ => by simp [hy]

/-- A byte column of the framebuffer (R254, R257). -/
theorem sendColumn (h : Sending s t es pic) {c : Nat} (hc : c < s.bpr) :
    Sending s (t.sendColumn c) (es ++ s.columnEvents c) fun y b =>
      if b = c then some (s.fbByte y b) else pic y b := by
  unfold State.sendColumn
  rw [h.flushing.kept.height]
  exact column (ev := fun yy => s.fbRunEvents yy c 1) (val := fun y b => some (s.fbByte y b)) hc
    (fun _ _ _ k y hy => k.fbRun hc (Kept.offset_lt hy hc)) h

/-- A byte column of dividers (R254, R255). -/
theorem sendDividerColumn (h : Sending s t es pic) (hd : s.stage0 = List.replicate s.bpr s.cfg.divByte) {c : Nat}
    (hc : c < s.bpr) :
    Sending s (t.sendDividerColumn c) (es ++ (List.range s.height).flatMap fun yy => s.dividerEvents yy c 1) fun y b =>
      if b = c then some s.cfg.divByte else pic y b := by
  unfold State.sendDividerColumn
  rw [h.flushing.kept.height]
  exact column (ev := fun yy => s.dividerEvents yy c 1) (val := fun _ _ => some s.cfg.divByte) hc
    (fun _ _ _ k y hy => k.divider hd (by omega) hc (Kept.offset_lt hy hc)) h

/-- A row of the framebuffer (R256). -/
theorem sendRow (h : Sending s t es pic) (hb0 : 0 < s.bpr) {r : Nat} (hr : r < s.height) :
    Sending s (t.xferRun r 0 (.fb (t.offset r 0)) s.bpr) (es ++ s.fbRunEvents r 0 s.bpr) fun y b =>
      if y = r then some (s.fbByte y b) else pic y b :=
  (h.fbRun hb0 (State.row_fits hr)).congr rfl fun y b _ hb => by simp only [State.offset_row hb]

/-- A row of dividers (R255, R256). -/
theorem sendDividerRow (h : Sending s t es pic) (hd : s.stage0 = List.replicate s.bpr s.cfg.divByte) (hb0 : 0 < s.bpr)
    {r : Nat} (hr : r < s.height) :
    Sending s (t.xferRun r 0 (.stage 0) s.bpr) (es ++ s.dividerEvents r 0 s.bpr) fun y b =>
      if y = r then some s.cfg.divByte else pic y b :=
  (h.divider hd (le_refl _) hb0 (State.row_fits hr)).congr rfl fun y b _ hb => by simp only [State.offset_row hb]

/-- A delay after the last transfer is complete (R256). -/
theorem delay (h : Sending s t es pic) (d : Nat) : Sending s (t.dmaWait.emit (.delay d)) (es ++ [.delay d]) pic where
  flushing := h.flushing.emitDelay d
  staged := by simpa using h.staged
  trace := by
    rw [State.dmaWait_eq_of_quiet (by simp), State.emit_trace, h.trace, List.append_assoc]
  shows y b hy hb := by simpa using h.shows y b hy hb

end Sending

/-! ### The steps of the algorithms -/

/-- With nothing staged before, the divider fills a whole row of bytes (R255). -/
theorem State.stageDivider_stage0 {s : State} (hg : s.geometryOk) (h0 : s.stage0 = []) :
    s.stageDivider.stage0 = List.replicate s.stageDivider.bpr s.stageDivider.cfg.divByte := by
  show overlay ((List.replicate s.bpr s.cfg.divByte).take s.cfg.stageSize) s.stage0 = List.replicate s.bpr s.cfg.divByte
  rw [h0, List.take_of_length_le (by simpa using State.bpr_le_stageSize hg)]
  simp [overlay]

/-- The first `n` steps of a horizontal wipe: their events, and the frame they leave (R254, R255). -/
theorem hWipe_sending (forward : Bool) {s : State} (hd : s.stage0 = List.replicate s.bpr s.cfg.divByte) {n : Nat}
    (hn : n ≤ s.bpr) :
    let at_ := fun i : Nat => if forward then i else s.bpr - 1 - i
    Sending s ((List.range n).foldl (hWipeStep forward) s)
      ((List.range n).flatMap fun i => s.columnEvents (at_ i) ++
        if i + 1 < s.bpr then (List.range s.height).flatMap fun yy => s.dividerEvents yy (at_ (i + 1)) 1 else [])
      fun y b =>
        let turn := if forward then b else s.bpr - 1 - b
        if turn < n then some (s.fbByte y b) else if turn = n ∧ 0 < n then some s.cfg.divByte
        else Memory.read s.disp (s.offset y b) := by
  intro at_
  induction n with
  | zero => exact (Sending.refl s).congr rfl fun y b _ _ => by simp
  | succ n ih =>
    have h := ih (by omega)
    rw [List.range_succ, List.foldl_append, List.foldl_cons, List.foldl_nil, List.flatMap_append, List.flatMap_singleton]
    generalize (List.range n).foldl (hWipeStep forward) s = t at *
    have hb := h.flushing.kept.bpr
    unfold hWipeStep
    simp only [hb]
    have hc : at_ n < s.bpr := by
      simp only [at_]
      split <;> omega
    have h1 := h.sendColumn hc
    by_cases hl : n + 1 < s.bpr
    · have e : (if forward = true then ((at_ n : Nat) : Int) + 1 else ((at_ n : Nat) : Int) - 1) = (at_ (n + 1) : Nat) := by
        simp only [at_]
        cases forward <;> simp <;> omega
      have hc' : at_ (n + 1) < s.bpr := by
        simp only [at_]
        split <;> omega
      rw [show (if forward = true then n else s.bpr - 1 - n) = at_ n from rfl, e, h1.flushing.kept.bpr,
        if_pos (by omega), if_pos hl, Int.toNat_natCast]
      refine (h1.sendDividerColumn hd hc').congr (by simp) fun y b _ hb => ?_
      simp only [at_]
      cases forward <;> simp <;> split <;> split <;> first | rfl | omega | skip
      all_goals (repeat' split) <;> first | rfl | omega
    · have e : ¬(0 ≤ (if forward = true then ((at_ n : Nat) : Int) + 1 else ((at_ n : Nat) : Int) - 1) ∧
          (if forward = true then ((at_ n : Nat) : Int) + 1 else ((at_ n : Nat) : Int) - 1) < (s.bpr : Int)) := by
        simp only [at_]
        cases forward <;> simp <;> omega
      rw [show (if forward = true then n else s.bpr - 1 - n) = at_ n from rfl, h1.flushing.kept.bpr, if_neg e, if_neg hl]
      refine h1.congr (by simp) fun y b _ hb => ?_
      simp only [at_]
      cases forward <;> simp <;> (repeat' split) <;> first | rfl | omega

/-- The first `n` steps of a vertical wipe: their events, and the frame they leave (R256). -/
theorem vWipe_sending (downward : Bool) {s : State} (hd : s.stage0 = List.replicate s.bpr s.cfg.divByte)
    (hb0 : 0 < s.bpr) {n : Nat} (hn : n ≤ s.height) :
    let at_ := fun i : Nat => if downward then i else s.height - 1 - i
    Sending s ((List.range n).foldl (vWipeStep downward) s)
      ((List.range n).flatMap fun i => s.fbRunEvents (at_ i) 0 s.bpr ++
        (if i + 2 < s.height then s.dividerEvents (at_ (i + 2)) 0 s.bpr else []) ++ [.delay s.cfg.vwipeRowDelay])
      fun y b =>
        let turn := if downward then y else s.height - 1 - y
        if turn < n then some (s.fbByte y b)
        else if (turn = n + 1 ∧ 0 < n) ∨ (turn = n ∧ 1 < n) then some s.cfg.divByte
        else Memory.read s.disp (s.offset y b) := by
  intro at_
  induction n with
  | zero => exact (Sending.refl s).congr rfl fun y b _ _ => by simp
  | succ n ih =>
    have h := ih (by omega)
    rw [List.range_succ, List.foldl_append, List.foldl_cons, List.foldl_nil, List.flatMap_append, List.flatMap_singleton]
    generalize (List.range n).foldl (vWipeStep downward) s = t at *
    unfold vWipeStep
    simp only [h.flushing.kept.bpr, h.flushing.kept.height, h.flushing.kept.cfg]
    have hr : at_ n < s.height := by
      simp only [at_]
      split <;> omega
    have h1 := h.sendRow hb0 hr
    rw [show (if downward = true then n else s.height - 1 - n) = at_ n from rfl]
    generalize t.xferRun (at_ n) 0 (.fb (t.offset (at_ n) 0)) s.bpr = u at *
    simp only [h1.flushing.kept.height, h1.flushing.kept.bpr]
    by_cases hl : n + 2 < s.height
    · have e : (if downward = true then ((at_ n : Nat) : Int) + 2 else ((at_ n : Nat) : Int) - 2) = (at_ (n + 2) : Nat) := by
        simp only [at_]
        cases downward <;> simp <;> omega
      have hr' : at_ (n + 2) < s.height := by
        simp only [at_]
        split <;> omega
      rw [e, if_pos (by omega), if_pos hl, Int.toNat_natCast]
      refine ((h1.sendDividerRow hd hb0 hr').delay _).congr (by simp) fun y b hy _ => ?_
      simp only [at_]
      cases downward <;> simp <;> (repeat' split) <;> first | rfl | omega
    · have e : ¬(0 ≤ (if downward = true then ((at_ n : Nat) : Int) + 2 else ((at_ n : Nat) : Int) - 2) ∧
          (if downward = true then ((at_ n : Nat) : Int) + 2 else ((at_ n : Nat) : Int) - 2) < (s.height : Int)) := by
        simp only [at_]
        cases downward <;> simp <;> omega
      rw [if_neg e, if_neg hl]
      refine (h1.delay _).congr (by simp) fun y b hy _ => ?_
      simp only [at_]
      cases downward <;> simp <;> (repeat' split) <;> first | rfl | omega

/-- The first `n` steps of an iris: their events, and the frame they leave (R257). -/
theorem iris_sending (outward : Bool) (s : State) {n : Nat} (hn : n ≤ (s.bpr + 1) / 2) :
    let steps := (s.bpr + 1) / 2
    let dist := fun i : Nat => if outward then i else steps - 1 - i
    Sending s ((List.range n).foldl (irisStep outward) s)
      ((List.range n).flatMap fun i => s.columnEvents (steps - 1 - dist i) ++
        if s.bpr / 2 + dist i ≠ steps - 1 - dist i then s.columnEvents (s.bpr / 2 + dist i) else [])
      fun y b =>
        if (if outward then s.fromCentre b < n else steps - n ≤ s.fromCentre b) then some (s.fbByte y b)
        else Memory.read s.disp (s.offset y b) := by
  intro steps dist
  induction n with
  | zero =>
    refine (Sending.refl s).congr rfl fun y b _ hb => ?_
    have : s.fromCentre b < steps := by
      unfold State.fromCentre
      split <;> omega
    cases outward <;> simp <;> omega
  | succ n ih =>
    have h := ih (by omega)
    rw [List.range_succ, List.foldl_append, List.foldl_cons, List.foldl_nil, List.flatMap_append, List.flatMap_singleton]
    generalize (List.range n).foldl (irisStep outward) s = t at *
    have hi : t.irisSteps = steps := by
      unfold State.irisSteps
      rw [h.flushing.kept.bpr]
    have hk : dist n < steps := by
      simp only [dist]
      split <;> omega
    unfold irisStep
    simp only [hi, h.flushing.kept.bpr]
    rw [show (if outward = true then n else steps - 1 - n) = dist n from rfl]
    have hp : ∀ b, b < s.bpr → (s.fromCentre b = dist n ↔ b = steps - 1 - dist n ∨ b = s.bpr / 2 + dist n) := by
      intro b hb
      unfold State.fromCentre
      split <;> omega
    have hq : ∀ b, b < s.bpr → ((if outward then s.fromCentre b < n + 1 else steps - (n + 1) ≤ s.fromCentre b) ↔
        (b = steps - 1 - dist n ∨ b = s.bpr / 2 + dist n) ∨
          (if outward then s.fromCentre b < n else steps - n ≤ s.fromCentre b)) := by
      intro b hb
      rw [← hp b hb]
      simp only [dist]
      cases outward <;> simp <;> omega
    have h1 := h.sendColumn (c := steps - 1 - dist n) (by omega)
    by_cases hne : s.bpr / 2 + dist n ≠ steps - 1 - dist n
    · rw [if_pos hne, if_pos hne]
      refine (h1.sendColumn (c := s.bpr / 2 + dist n) (by omega)).congr (by simp) fun y b _ hb => ?_
      rw [if_congr (hq b hb) rfl rfl]
      by_cases a : b = s.bpr / 2 + dist n
      · simp [a]
      · by_cases a' : b = steps - 1 - dist n
        · simp [a']
        · simp [a, a']
    · rw [if_neg hne, if_neg hne]
      refine h1.congr (by simp) fun y b _ hb => ?_
      rw [if_congr (hq b hb) rfl rfl]
      by_cases a : b = steps - 1 - dist n
      · simp [a]
      · have a' : b ≠ s.bpr / 2 + dist n := by omega
        simp [a, a']

/-- The bus traffic of a transition (R252 to R258). -/
theorem runTransition_trace (k : Transition) {s : State} (hg : s.geometryOk) (hq : s.xferBusy = false)
    (h0 : s.stage0 = []) : (runTransition k s).dmaWait.trace = s.trace ++ s.transitionEvents k := by
  have hb0 : 0 < s.bpr := by
    obtain ⟨h1, h2, _⟩ := hg
    unfold State.bpr
    omega
  have hw : s.dmaWait = s := State.dmaWait_eq_of_quiet hq
  have hv : s.stageDivider.dmaWait = s.stageDivider := State.dmaWait_eq_of_quiet hq
  have hd := State.stageDivider_stage0 hg h0
  cases k
  · have h := (Sending.refl s).fbRun (y := 0) (b := 0) (n := s.height * s.bpr) hb0 (by simp [State.offset])
    exact h.trace.trans (by rw [hw]; rfl)
  · exact (hWipe_sending true hd (le_refl _)).trace.trans (by rw [hv]; rfl)
  · exact (hWipe_sending false hd (le_refl _)).trace.trans (by rw [hv]; rfl)
  · exact (vWipe_sending true hd hb0 (le_refl _)).trace.trans (by rw [hv]; rfl)
  · exact (vWipe_sending false hd hb0 (le_refl _)).trace.trans (by rw [hv]; rfl)
  · exact (iris_sending false s (le_refl _)).trace.trans (by rw [hw]; rfl)
  · exact (iris_sending true s (le_refl _)).trace.trans (by rw [hw]; rfl)

/-! ### The aligned path -/

theorem Kept.alignedBytes {s t : State} (h : Kept s t) (x : Int) (bw : Nat) : t.alignedBytes x bw = s.alignedBytes x bw := by
  unfold State.alignedBytes State.alignedEnd
  rw [h.maxTextX, h.width]

/-- The rows of an aligned bitmap that are sent (R233). -/
def State.alignedRows (s : State) (x y : Int) (bw bh : Nat) : List Nat :=
  (List.range bh).filter fun r : Nat => s.rowVisible (y + r) && decide (0 < s.alignedBytes x bw)

/-- The bus traffic of an aligned bitmap: one addressing command and one bulk transfer for each row sent, from the two
staging buffers in turn (R233, R234). -/
theorem blitAligned_trace {x : Int} (y : Int) (bw bh p : Nat) {s : State} (hs : s.Drawable) (hx : 0 ≤ x) :
    (blitAligned x y bw bh p s).dmaWait.trace = s.dmaWait.trace ++ (s.alignedRows x y bw bh).zipIdx.flatMap fun q =>
      [.busCmd (addrCmds s.cfg (y + q.1).toNat (x / 2).toNat),
        .dmaStart s.cfg.dmaDest (.stage (q.2 % 2)) (s.alignedBytes x bw) s.cfg.dmaTrig, .dmaDone] := by
  unfold blitAligned
  have key : ∃ t, (List.range bh).foldl (blitAlignedRow x y bw p) (s, 0) = (t, (s.alignedRows x y bw bh).length % 2) ∧
      Kept s t ∧ t.dmaWait.trace = s.dmaWait.trace ++ (s.alignedRows x y bw bh).zipIdx.flatMap fun q =>
        [.busCmd (addrCmds s.cfg (y + q.1).toNat (x / 2).toNat),
          .dmaStart s.cfg.dmaDest (.stage (q.2 % 2)) (s.alignedBytes x bw) s.cfg.dmaTrig, .dmaDone] := by
    induction bh with
    | zero => exact ⟨s, rfl, Kept.refl s, by simp [State.alignedRows]⟩
    | succ n ih =>
      obtain ⟨t, h1, h2, h3⟩ := ih
      have hk := blitAlignedRow_kept (y := y) (bw := bw) (p := p) ((s.alignedRows x y bw n).length % 2) n
        (h2.drawable hs) hx
      have hrows : s.alignedRows x y bw (n + 1) = s.alignedRows x y bw n ++
          if s.rowVisible (y + n) = true ∧ 0 < s.alignedBytes x bw then [n] else [] := by
        unfold State.alignedRows
        rw [List.range_succ, List.filter_append]
        congr 1
        by_cases hc : s.rowVisible (y + n) = true ∧ 0 < s.alignedBytes x bw
        · rw [if_pos hc, List.filter_cons_of_pos (by simp [hc])]
          rfl
        · rw [if_neg hc, List.filter_cons_of_neg (by simpa using hc)]
          rfl
      have kl := h2.trans (Kept.setLine t (t.streamRow p (n * bw) bw))
      rw [List.range_succ, List.foldl_append, h1, List.foldl_cons, List.foldl_nil]
      refine ⟨_, Prod.ext rfl ?_, h2.trans hk, ?_⟩
      · unfold blitAlignedRow
        simp only [kl.rowVisible, kl.alignedBytes]
        rw [hrows]
        split
        · simp
          omega
        · simp
      · unfold blitAlignedRow
        simp only [kl.rowVisible, kl.alignedBytes]
        rw [hrows]
        split
        · rw [List.zipIdx_append, List.flatMap_append, ← List.append_assoc, ← h3]
          show State.trace (State.dmaWait (State.storeShadow _ _ _ _)) = _
          rw [State.dmaWait_trace, State.storeShadow_xferBusy, State.bulkWriteRun_xferBusy, State.storeShadow_trace,
            State.bulkWriteRun_trace]
          simp [kl.cfg, State.dmaWait_trace, h2.cfg]
          rfl
        · rw [List.append_nil, ← h3]
          simp [State.dmaWait_trace]
          rfl
  obtain ⟨t, h1, _, h3⟩ := key
  rw [h1]
  exact h3

end Sys2Proof.Machine
end

