-- ==== Sys2Proof/Tests/Slice0.lean ====
section
/-!
SUPPORT. The model's own tests. Expected values are those of the vectors of spec/95_test_vectors.md (named V…) and of the
examples in the rules. The last part holds one witness for each set of hypotheses of the statements in Certificates.
-/
namespace Sys2Proof.Tests

open Sys2Proof.Machine

/-! ### A part, its assets, and states of it -/

/-- A part with both options, `NI = 2`, as in 95_test_vectors.md. -/
def part : Cfg where
  wMax := 8
  hMax := 4
  ni := 2
  lineCap := 8
  strCap := 4
  fsChunk := 4
  hasFb := true
  hasDma := true
  assetLe := true
  glyphOffsetSigned := true
  flushGrows := false
  decodedStreams := []
  pwrSeq := [{ opcode := 0xAE, payload := [0x01] }]
  pwrPayloadIsData := true
  settleDelay := 100
  vwipeRowDelay := 7
  divByte := 0xFF
  dmaDest := 0
  dmaTrig := 0
  typeFont := 1
  typeBitmap := 2
  dispAddrCmds := []

/-- The bytes of an asset at an address. -/
def place (a : Nat) (bytes : List Byte) : Memory := bytes.zipIdx.map fun p => (a + p.2, p.1)

/-- Bitmap B1, 4 by 2, and B2, 8 by 2. -/
def bitmapB1 : List Byte := [0x04, 0x00, 0x02, 0x00, 0x00, 0x00, 0x00, 0x00, 0x12, 0x34, 0x56, 0x78]
def bitmapB2 : List Byte :=
  [0x08, 0x00, 0x02, 0x00, 0x00, 0x00, 0x00, 0x00, 0x11, 0x22, 0x33, 0x44, 0x55, 0x66, 0x77, 0x88]

/-- A bitmap one column wider than `LINE_CAP`. -/
def bitmapWide : List Byte := [0x09, 0x00, 0x01, 0x00, 0x00, 0x00, 0x00, 0x00]

/-- Font T. -/
def fontT : List Byte :=
  [0x03, 0x03, 0x00, 0x05, 0x00, 0x20, 0x00, 0x20, 0x00, 0x3F, 0x00, 0x42, 0x00] ++
    [0x02, 0x00, 0x01, 0x00, 0xFF, 0xFF, 0x00, 0x00, 0xFF, 0xFF] ++
    [0x02, 0x02, 0x00, 0x00, 0x00, 0x00, 0x00, 0x00] ++
    [0x01, 0x01, 0x00, 0x01, 0x02, 0x00, 0x00, 0x00] ++
    [0x04, 0x00, 0x00, 0x00, 0xFF, 0xFF, 0xFF, 0xFF] ++ [0xF8, 0x8F, 0x70]

/-- A font whose only glyph, of codepoint 0x41, is wider than `LINE_CAP`; it has no `'?'`. -/
def fontWide : List Byte :=
  [0x03, 0x01, 0x00, 0x01, 0x00, 0x41, 0x00, 0x41, 0x00, 0xFF, 0xFF, 0xFF, 0xFF] ++ [0x00, 0x00] ++
    [0x09, 0x02, 0x00, 0x00, 0x00, 0x00, 0x00, 0x00]

def assets : Memory :=
  place 100 bitmapB1 ++ place 200 bitmapB2 ++ place 300 bitmapWide ++ place 1000 fontT ++ place 1100 fontWide

def directory : List DirEntry :=
  [{ fileId := 3, assetType := 2, addr := 100 }, { fileId := 4, assetType := 2, addr := 200 },
   { fileId := 5, assetType := 2, addr := 300 }, { fileId := 7, assetType := 1, addr := 1000 },
   { fileId := 8, assetType := 1, addr := 1100 }]

/-- The part after reset. -/
def fresh : State := State.boot part assets directory

/-- Setup: an 8 by `h` screen, framebuffer zero, screen zero, shadow cache empty. -/
def screen (h : Nat) : State :=
  { fresh with
    inited := true, geomW := 8, geomH := BitVec.ofNat 16 h, maxTextX := 8, maxDispY := BitVec.ofNat 16 h
    fb := Memory.filled (h * 4) 0, disp := Memory.filled (h * 4) 0, shadow := emptyShadow h }

/-- Setup 8x2. -/
def s82 : State := screen 2

/-- Setup 8x4 with font T selected. -/
def s84 : State := (screen 4).loadFont 1000

/-- A part without a framebuffer. -/
def noFb : State := { s82 with cfg := { part with hasFb := false } }

/-- A part without the Bulk Transfer Channel. -/
def noDma : State := { s82 with cfg := { part with hasDma := false } }

/-- With `WRAP = 1`. -/
def wrapped : State := { s82 with ctrl := 1 }

/-- With pictures in both memories. -/
def painted : State :=
  { s82 with
    fb := [0x11, 0x22, 0x33, 0x44, 0x55, 0x66, 0x77, 0x88].zipIdx.map fun p => (p.2, p.1)
    shadow := [{ col := 2, byte := 0x50 }, { col := 0, byte := 0x12 }] }

/-- The state after one step that executes the packet `bytes`. -/
def after (s : State) (bytes : List Byte) : Option State :=
  match step (s.offer bytes) with
  | .next t => some t
  | .fault _ => none
  | .refused _ => none

/-- The bytes of the framebuffer, row by row. -/
def fbBytes (s : State) : List Byte := (List.range (s.height * s.bpr)).map s.fbAt

/-- The bytes of the screen, row by row. -/
def dispBytes (s : State) : List Byte := (List.range (s.height * s.bpr)).map s.dispAt

/-- The code and the four results of a state. -/
def results (s : State) : Code × List Word := (s.code, [s.res0, s.res1, s.res2, s.res3])

/-! ### Well-formedness -/

/-- A pixel payload must have `ceil(n / 2)` bytes (R94). -/
theorem test_wellFormed_writeHline :
    (Instr.writeHline .buffered 1 0 3 [0xAB, 0xC0]).wellFormed = true ∧
      (Instr.writeHline .buffered 1 0 3 [0xAB]).wellFormed = false ∧
      (Instr.writeHline .direct 1 0 2 [0xAB, 0xC0]).wellFormed = false := by decide

/-- A string payload must have `n` codepoints (R95). -/
theorem test_wellFormed_putString :
    (Instr.putString .buffered 2 [0x41, 0x41]).wellFormed = true ∧
      (Instr.putString .buffered 2 [0x41]).wellFormed = false := by decide

/-- The same for the justified form (R95). -/
theorem test_wellFormed_putStringXy :
    (Instr.putStringXy .direct .right 0 0 1 [0x41]).wellFormed = true ∧
      (Instr.putStringXy .direct .right 0 0 0 [0x41]).wellFormed = false := by decide

/-! ### Decoding: bytes written out from the tables of R91 to R96 -/

theorem test_decode_init : decode [0x01, 0x00, 0x08, 0x00, 0x02, 0x01] = .packet (.init 0x0008 0x0102) [] := by decide
theorem test_decode_setTextBounds :
    decode [0x02, 0x00, 0xFB, 0xFF, 0x64, 0x00] = .packet (.setTextBounds 0xFFFB 0x0064) [] := by decide
theorem test_decode_setDisplayWindow :
    decode [0x03, 0x00, 0x01, 0x00, 0x02, 0x00] = .packet (.setDisplayWindow 1 2) [] := by decide
theorem test_decode_clear : decode [0x04, 0x00, 0x05] = .packet .clear [0x05] := by decide
theorem test_decode_fill : decode [0x05, 0x00, 0x15, 0x00] = .packet (.fill 0x15) [] := by decide
theorem test_decode_flushWindow :
    decode [0x06, 0x00, 0xFD, 0xFF, 0x00, 0x00, 0x06, 0x00, 0x05, 0x00] = .packet (.flushWindow 0xFFFD 0 6 5) [] := by
  decide
theorem test_decode_flushFull : decode [0x07, 0x00] = .packet .flushFull [] := by decide
theorem test_decode_setCtrl : decode [0x08, 0x00, 0x1F, 0x00] = .packet (.setCtrl 0x1F) [] := by decide
theorem test_decode_setCursor : decode [0x09, 0x00, 0x0A, 0x00, 0x14, 0x00] = .packet (.setCursor 10 20) [] := by decide
theorem test_decode_writeHline :
    decode [0x10, 0x01, 0x01, 0x00, 0x02, 0x00, 0x03, 0x00, 0xAB, 0xC0] =
      .packet (.writeHline .direct 1 2 3 [0xAB, 0xC0]) [] := by decide
theorem test_decode_drawRect :
    decode [0x11, 0x00, 0x01, 0x00, 0x02, 0x00, 0x03, 0x00, 0x04, 0x00, 0x0F, 0x00] =
      .packet (.drawRect .buffered 1 2 3 4 15) [] := by decide
theorem test_decode_drawImage :
    decode [0x12, 0x01, 0x02, 0x00, 0xFF, 0xFF, 0x03, 0x00] = .packet (.drawImage .direct 2 0xFFFF 3) [] := by decide
theorem test_decode_selectFont : decode [0x20, 0x00, 0x07, 0x00] = .packet (.selectFont 7) [] := by decide
theorem test_decode_glyphLookup : decode [0x21, 0x00, 0x3F, 0x00] = .packet (.glyphLookup 0x3F) [] := by decide
theorem test_decode_measure : decode [0x22, 0x00, 0x41, 0x01] = .packet (.measure 0x0141) [] := by decide
theorem test_decode_drawGlyph :
    decode [0x23, 0x01, 0x01, 0x00, 0x02, 0x00, 0x41, 0x00] = .packet (.drawGlyph .direct 1 2 0x41) [] := by decide
theorem test_decode_putChar : decode [0x24, 0x00, 0x41, 0x00] = .packet (.putChar .buffered 0x41) [] := by decide
theorem test_decode_putString :
    decode [0x25, 0x01, 0x02, 0x00, 0x41, 0x00, 0x0A, 0x01] = .packet (.putString .direct 2 [0x41, 0x010A]) [] := by decide
theorem test_decode_putStringXy :
    decode [0x26, 0x03, 0x08, 0x00, 0x09, 0x00, 0x01, 0x00, 0x41, 0x00] =
      .packet (.putStringXy .direct .center 8 9 1 [0x41]) [] := by decide
theorem test_decode_loadTransition : decode [0x30, 0x00, 0x05, 0x00] = .packet (.loadTransition 5) [] := by decide

/-- V2.2 to V2.7: the illegal headers. -/
theorem test_decode_illegal :
    decode [0x00, 0x00] = .illegal .reservedOpcode 0x0000 [] ∧
      decode [0x04, 0x01] = .illegal .reservedFlags 0x0104 [] ∧
      decode [0x26, 0x06, 0x07] = .illegal .reservedJustification 0x0626 [0x07] ∧
      decode [0x25, 0x02] = .illegal .reservedFlags 0x0225 [] ∧
      decode [0x10, 0x08] = .illegal .reservedFlags 0x0810 [] ∧
      decode [0x31, 0x00] = .illegal .reservedOpcode 0x0031 [] := by decide

theorem test_decode_incomplete :
    decode [] = .incomplete ∧ decode [0x10] = .incomplete ∧ decode [0x05, 0x00, 0x05] = .incomplete ∧
      decode [0x10, 0x00, 0x01, 0x00, 0x00, 0x00, 0x03, 0x00, 0xAB] = .incomplete := by decide

/-! ### The sequencer -/

/-- The first step after reset runs the packet placed by `withFetchWord` (`CLEAR`: `ERR_NOT_INIT`, V2.11). -/
theorem test_first_step :
    (match step (State.reset.withFetchWord 16 0x0004) with
      | .next t => results t
      | .fault _ => (.ok, [])
      | .refused _ => (.ok, [])) = (.errNotInit, [0, 0, 0, 0]) := by decide

/-- V2.4: the halted state. -/
theorem test_halt :
    (after s82 [0x26, 0x06, 0x04]).map (fun t => (t.seq, t.code, t.res0, t.port)) =
      some (.halted, .errIllegal, 0x0626, [0x04]) := by decide

/-! ### One or two vectors per command -/

/-- V2.8. -/
theorem test_init :
    (after fresh [0x01, 0x00, 0x08, 0x00, 0x02, 0x00]).map (fun t =>
      (results t, [t.minTextX, t.maxTextX, t.minDispY, t.maxDispY], t.trace, fbBytes t)) =
      some ((.ok, [8, 2, 0, 0]), [0, 8, 0, 2], [.pwrTuple 0xAE [0x01], .delay 100], [0, 0, 0, 0, 0, 0, 0, 0]) := by decide

/-- V2.9. -/
theorem test_init_odd :
    (after fresh [0x01, 0x00, 0x07, 0x00, 0x02, 0x00]).map (fun t => (results t, t.inited, t.trace)) =
      some ((.errGeometry, [0, 0, 0, 0]), false, []) := by decide

/-- V2.13. -/
theorem test_setTextBounds :
    (after s82 [0x02, 0x00, 0xFB, 0xFF, 0x64, 0x00]).map (fun t => (results t, t.minTextX, t.maxTextX)) =
      some ((.ok, [0, 8, 0, 0]), 0, 8) ∧
    (after s82 [0x02, 0x00, 0x2C, 0x01, 0x03, 0x00]).map (fun t => (t.minTextX, t.maxTextX)) = some (7, 3) := by decide

theorem test_setDisplayWindow :
    (after s82 [0x03, 0x00, 0xFF, 0xFF, 0x09, 0x00]).map (fun t => (results t, t.minDispY, t.maxDispY)) =
      some ((.ok, [0, 2, 0, 0]), 0, 2) := by decide

/-- V2.12. -/
theorem test_clear :
    (after painted [0x04, 0x00]).map (fun t => (results t, fbBytes t, t.shadow, t.curX)) =
      some ((.ok, [0, 0, 0, 0]), [0, 0, 0, 0, 0, 0, 0, 0], [{ col := 0, byte := 0 }, { col := 0, byte := 0 }], 0) := by
  decide

theorem test_fill :
    (after s82 [0x05, 0x00, 0x15, 0x00]).map (fun t => (results t, fbBytes t)) =
      some ((.ok, [0x55, 0, 0, 0]), List.replicate 8 0x55) := by decide

/-- V2.14 and V2.15. -/
theorem test_flushWindow :
    (after painted [0x06, 0x00, 0x03, 0x00, 0x00, 0x00, 0x02, 0x00, 0x01, 0x00]).map (fun t =>
      (results t, dispBytes t, t.trace)) =
      some ((.ok, [2, 0, 2, 1]), [0, 0x22, 0, 0, 0, 0, 0, 0],
        [.busCmd [], .dmaStart 0 (.fb 1) 1 0, .dmaDone]) := by decide

theorem test_flushWindow_clipped :
    (after s82 [0x06, 0x00, 0xFD, 0xFF, 0x00, 0x00, 0x06, 0x00, 0x05, 0x00]).map results =
      some (.ok, [0, 0, 2, 2]) := by decide

/-- V5.2 and V5.5: the end state, and the delays of a vertical wipe. -/
theorem test_flushFull_wipe :
    (after { painted with trans := .wipeLr } [0x07, 0x00]).map (fun t => (results t, t.trans, dispBytes t)) =
      some ((.ok, [1, 0, 0, 0]), .none, [0x11, 0x22, 0x33, 0x44, 0x55, 0x66, 0x77, 0x88]) := by decide

theorem test_flushFull_delays :
    (after { painted with trans := .wipeBt } [0x07, 0x00]).map (fun t => (dispBytes t, t.trace.filter Event.isDelay)) =
      some ([0x11, 0x22, 0x33, 0x44, 0x55, 0x66, 0x77, 0x88], [.delay 7, .delay 7]) := by decide

/-- V2.16. -/
theorem test_setCtrl :
    (after s82 [0x08, 0x00, 0x1F, 0x00]).map (fun t => (results t, t.ctrl)) = some ((.ok, [31, 0, 0, 0]), 31) ∧
      (after s82 [0x08, 0x00, 0x20, 0x00]).map (fun t => (results t, t.ctrl)) =
        some ((.errOperand, [0, 0, 0, 0]), 0) := by decide

theorem test_setCursor :
    (after s82 [0x09, 0x00, 0x0A, 0x00, 0x14, 0x00]).map (fun t => (results t, t.curX, t.curY)) =
      some ((.ok, [10, 20, 0, 0]), 10, 20) := by decide

/-- V3.10 and V3.12: three runs with wrap, buffered and direct. -/
theorem test_writeHline_buffered :
    (after { wrapped with cfg := { part with lineCap := 10 } }
      [0x10, 0x00, 0xFF, 0xFF, 0x00, 0x00, 0x0A, 0x00, 0x12, 0x34, 0x56, 0x78, 0x9A]).map (fun t =>
        (results t, (fbBytes t).take 4)) = some ((.ok, [10, 0, 0, 0]), [0xA3, 0x45, 0x67, 0x89]) := by decide

theorem test_writeHline_direct :
    (after { wrapped with cfg := { part with lineCap := 10 } }
      [0x10, 0x01, 0xFF, 0xFF, 0x00, 0x00, 0x0A, 0x00, 0x12, 0x34, 0x56, 0x78, 0x9A]).map (fun t =>
        (results t, (dispBytes t).take 4, t.shadow[0]?)) =
      some ((.ok, [10, 0, 0, 0]), [0xA0, 0x45, 0x67, 0x89], some { col := 0, byte := 0xA0 }) := by decide

/-- V3.13. -/
theorem test_drawRect_buffered :
    (after s82 [0x11, 0x00, 0xFF, 0xFF, 0xFF, 0xFF, 0x03, 0x00, 0x03, 0x00, 0x07, 0x00]).map (fun t =>
      (results t, fbBytes t)) = some ((.ok, [4, 0, 0, 0]), [0x77, 0, 0, 0, 0x77, 0, 0, 0]) := by decide

theorem test_drawRect_direct :
    (after s82 [0x11, 0x01, 0x01, 0x00, 0x00, 0x00, 0x02, 0x00, 0x01, 0x00, 0x0F, 0x00]).map (fun t =>
      (dispBytes t, t.shadow[0]?, t.trace)) =
      some ([0x0F, 0xF0, 0, 0, 0, 0, 0, 0], some { col := 1, byte := 0xF0 },
        [.busCmd [], .busData [0x0F], .busData [0xF0]]) := by decide

/-- V3.16, and V3.19 with `FS_CHUNK = 4`. -/
theorem test_drawImage_buffered :
    (after s82 [0x12, 0x00, 0x01, 0x00, 0x00, 0x00, 0x03, 0x00]).map (fun t => (results t, fbBytes t)) =
      some ((.ok, [4, 2, 3, 0]), [0x01, 0x23, 0x40, 0, 0x05, 0x67, 0x80, 0]) := by decide

theorem test_drawImage_fullScreen :
    (after s82 [0x12, 0x01, 0x00, 0x00, 0x00, 0x00, 0x04, 0x00]).map (fun t =>
      (results t, dispBytes t, t.shadow, t.trace)) =
      some ((.ok, [8, 2, 1, 0]), [0x11, 0x22, 0x33, 0x44, 0x55, 0x66, 0x77, 0x88],
        [{ col := 3, byte := 0x44 }, { col := 3, byte := 0x88 }],
        [.busCmd [], .dmaStart 0 (.stage 0) 4 0, .dmaDone, .dmaStart 0 (.stage 1) 4 0, .dmaDone]) := by decide

/-- V4.1. -/
theorem test_selectFont :
    (after (screen 4) [0x20, 0x00, 0x07, 0x00]).map (fun t => (results t, t.iv)) =
      some ((.ok, [3, 3, 5, 1]), [{ first := 0x20, last := 0x20 }, { first := 0x3F, last := 0x42 }]) := by decide

/-- V4.4 and V4.5: paths A and B. -/
theorem test_glyphLookup :
    (after s84 [0x21, 0x00, 0x5A, 0x00]).map results = some (.ok, [1, 1, 1, 0]) ∧
      (after s84 [0x21, 0x00, 0x42, 0x00]).map results = some (.ok, [1, 1, 1, 0]) ∧
      (after s84 [0x21, 0x00, 0x41, 0x00]).map results = some (.ok, [3, 0, 0, 0]) := by decide

/-- V4.6 and V4.7. -/
theorem test_measure :
    (after s84 [0x22, 0x00, 0x20, 0x00]).map results = some (.ok, [4, 0, 0, 0]) ∧
      (after s84 [0x22, 0x00, 0x41, 0x00]).map results = some (.ok, [3, 2, 0, 0]) := by decide

/-- V4.11 and V4.13. -/
theorem test_drawGlyph_buffered :
    (after s84 [0x23, 0x00, 0x00, 0x00, 0x00, 0x00, 0x41, 0x00]).map (fun t => (results t, (fbBytes t).take 8)) =
      some ((.ok, [3, 0, 0, 0]), [0xF8, 0, 0, 0, 0x8F, 0, 0, 0]) := by decide

theorem test_drawGlyph_direct :
    (after s84 [0x23, 0x01, 0x00, 0x00, 0x00, 0x00, 0x41, 0x00]).map (fun t => ((dispBytes t).take 8, t.shadow.take 2)) =
      some ([0xF8, 0, 0, 0, 0x8F, 0, 0, 0], [{ col := 0, byte := 0xF8 }, { col := 0, byte := 0x8F }]) := by decide

/-- V4.23. -/
theorem test_putChar :
    (after s84 [0x24, 0x00, 0x41, 0x00]).map results = some (.ok, [1, 3, 0, 0]) ∧
      (after { s84 with curX := 6 } [0x24, 0x00, 0x41, 0x00]).map results =
        some (.errLayoutStop, [0, 6, 0, 0]) := by decide

/-- V4.14 and V4.17. -/
theorem test_putString :
    (after s84 [0x25, 0x00, 0x03, 0x00, 0x41, 0x00, 0x41, 0x00, 0x41, 0x00]).map (fun t =>
      (results t, (fbBytes t).take 8)) =
      some ((.errLayoutStop, [2, 6, 0, 0]), [0xF8, 0x0F, 0x80, 0, 0x8F, 0x08, 0xF0, 0]) := by decide

theorem test_putString_wraps :
    (after { s84 with ctrl := 0x12 } [0x25, 0x00, 0x03, 0x00, 0x41, 0x00, 0x41, 0x00, 0x41, 0x00]).map (fun t =>
      (results t, (fbBytes t).drop 12)) = some ((.ok, [3, 3, 3, 0]), [0xF8, 0, 0, 0]) := by decide

/-- V4.26 and V4.29. -/
theorem test_putStringXy_center :
    (after s84 [0x26, 0x02, 0x04, 0x00, 0x00, 0x00, 0x01, 0x00, 0x41, 0x00]).map (fun t =>
      (results t, (fbBytes t).take 8)) =
      some ((.ok, [1, 6, 0, 3]), [0, 0x0F, 0x80, 0, 0, 0x08, 0xF0, 0]) := by decide

theorem test_putStringXy_right :
    (after s84 [0x26, 0x04, 0x04, 0x00, 0x00, 0x00, 0x02, 0x00, 0x41, 0x00, 0x41, 0x00]).map (fun t =>
      (results t, t.maxTextX)) = some ((.errLayoutStop, [1, 3, 0, 6]), 8) := by decide

/-- V5.10. -/
theorem test_loadTransition :
    (after { s82 with trans := .wipeLr } [0x30, 0x00, 0x05, 0x00]).map (fun t => (results t, t.trans)) =
      some ((.ok, [5, 1, 0, 0]), .irisIn) := by decide

/-- The strobes of a power-up tuple (R121). -/
theorem test_power_up_strobes :
    (Event.pwrTuple 0xAE [0x01]).busBytes part = [(.command, 0xAE), (.data, 0x01)] ∧
      (Event.pwrTuple 0xAE [0x01]).busBytes { part with pwrPayloadIsData := false } =
        [(.command, 0xAE), (.command, 0x01)] := by decide

/-! ### Witnesses: states and operands that meet the hypotheses of the statements -/

/-- What makes a state ready, as one computation. -/
def readyCheck (s : State) : Bool :=
  s.inited &&
  decide (0 < s.width ∧ s.width % 2 = 0 ∧ s.width ≤ s.cfg.wMax ∧ 0 < s.height ∧ s.height ≤ s.cfg.hMax) &&
  decide (0 ≤ s16 s.minTextX ∧ s16 s.minTextX ≤ (s.width : Int) - 1 ∧ 0 ≤ s16 s.maxTextX ∧ s16 s.maxTextX ≤ s.width ∧
    0 ≤ s16 s.minDispY ∧ s16 s.minDispY ≤ (s.height : Int) - 1 ∧ 0 ≤ s16 s.maxDispY ∧ s16 s.maxDispY ≤ s.height) &&
  !ctrlReserved s.ctrl && s.qmark == (s.fontSel && (s.intervalIndex questionMark).isSome) &&
  decide (s.iv.length = s.cfg.ni) && decide (Memory.addresses s.fb = List.range (s.height * s.bpr)) &&
  Memory.wf s.fb && Memory.wf s.disp && (Memory.addresses s.disp).all (fun a => decide (a < s.height * s.bpr)) &&
  Memory.wf s.asset && decide (s.shadow.length = s.height) && s.shadow.all (fun e => decide (e.col.toNat < s.bpr)) &&
  !s.xferBusy && s.stage0.isEmpty && s.stage1.isEmpty && s.line.isEmpty && busRun false s.trace == some false

theorem ready_of_check {s : State} (h : readyCheck s = true) : s.Ready := by
  simp only [readyCheck, Bool.and_eq_true, decide_eq_true_eq, Bool.not_eq_true', beq_iff_eq, List.all_eq_true,
    List.isEmpty_iff] at h
  obtain ⟨⟨⟨⟨⟨⟨⟨⟨⟨⟨⟨⟨⟨⟨⟨⟨⟨h1, h2⟩, h3⟩, h4⟩, h5⟩, h6⟩, h7⟩, h8⟩, h9⟩, h10⟩, h11⟩, h12⟩, h13⟩, h14⟩, h15⟩, h16⟩, h17⟩, h18⟩ := h
  exact ⟨⟨fun _ => h2, fun _ => h3, h4, h5, h6, fun _ _ => h7, h8, h9, h10, h11, fun _ => ⟨h12, h13⟩, h14,
    ⟨h15, h16, h17⟩, h18⟩, h1⟩

theorem ready_s82 : s82.Ready := ready_of_check (by decide)
theorem ready_s84 : s84.Ready := ready_of_check (by decide)
theorem ready_noFb : noFb.Ready := ready_of_check (by decide)
theorem ready_noDma : noDma.Ready := ready_of_check (by decide)
theorem ready_wrapped : wrapped.Ready := ready_of_check (by decide)
theorem ready_painted : painted.Ready := ready_of_check (by decide)

/-- Font T selected and the cursor in the last two columns. -/
def atEdge : State := { s84 with curX := 6 }

theorem ready_atEdge : atEdge.Ready := ready_of_check (by decide)

/-- Encoding statements: a well-formed command of each variable format. -/
theorem witness_DecodeEncode :
    (Instr.writeHline .direct 1 0 3 [0xAB, 0xC0]).wellFormed = true ∧
      (Instr.putString .buffered 0 []).wellFormed = true ∧
      (Instr.putStringXy .direct .right 8 0 1 [0x41]).wellFormed = true := by decide

/-- `EncodeDecode` and `PacketLengths`. -/
theorem witness_EncodeDecode :
    decode [0x25, 0x01, 0x01, 0x00, 0x41, 0x00, 0x07] = .packet (.putString .direct 1 [0x41]) [0x07] := by decide

/-- `HeaderRows`: a header that matches a row, with both flags. -/
theorem witness_HeaderRows :
    (0x0526#16) &&& Opcode.putStringXy.mask = Opcode.putStringXy.code.setWidth 16 ∧
      decodeHeader 0x0526#16 = .ok { op := .putStringXy, m := .direct, j := .right } := by decide

/-- `StepRunsDecoded`: a packet of which the engine holds the first three bytes. -/
theorem witness_StepRunsDecoded :
    let s := { s82 with seq := .busy, rx := [0x05, 0x00, 0x05], port := [0x00, 0x04] }
    s.Undisturbed ∧ decode (s.rx ++ s.port) = .packet (.fill 5) [0x04] := by
  unfold State.Undisturbed
  decide

theorem witness_IllegalHeaderHalts :
    let s := { s82 with seq := .busy, rx := [0x26], port := [0x06, 0x04] }
    s.resetPin = false ∧ s.hung = false ∧ s.seq ≠ .halted ∧ s.rx ++ s.port = 0x26 :: 0x06 :: [0x04] ∧
      decodeHeader (headerWord 0x26 0x06) = .error .reservedJustification := by decide

/-- `WaitsForPacket`: no byte at all, one byte, all but one. -/
theorem witness_WaitsForPacket :
    s82.resetPin = false ∧ s82.hung = false ∧ s82.seq ≠ .halted ∧ decode (s82.rx ++ s82.port) = .incomplete ∧
      decode ({ s82 with port := [0x05] }.rx ++ { s82 with port := [0x05] }.port) = .incomplete ∧
      decode ({ s82 with port := [0x05, 0x00, 0x05] }.rx ++ { s82 with port := [0x05, 0x00, 0x05] }.port) =
        .incomplete := by decide

/-- FLUSH_WINDOW of the whole screen offered, and a reset when it has emitted `n` events. -/
def cutShort (n : Nat) : State :=
  { s82.offer [0x06, 0x00, 0x00, 0x00, 0x00, 0x00, 0x08, 0x00, 0x02, 0x00] with resetAt := some n }

/-- `ResetValues`: reset between commands; during one, at its first event; and a command with a stray transfer. -/
theorem witness_ResetValues :
    ({ s82 with resetPin := true } : State).resetPin = true ∧
      (let s := cutShort 0
       s.resetPin = false ∧ s.hung = false ∧ s.seq ≠ .halted ∧
         decode (s.rx ++ s.port) = .packet (.flushWindow 0 0 8 2) [] ∧ s.resetAt = some 0 ∧ s.stray = false ∧
         s.hangAt = none) ∧
      ({ s82.offer [0x04, 0x00] with stray := true } : State).stray = true := by decide

/-- A reset after the second event of a flush leaves its first transfer in flight, one after the third does not (R291). -/
theorem test_reset_during_command :
    ((match step (cutShort 2) with | .next t => some (t.stray, t.inited, t.trace.length) | _ => none),
      match step (cutShort 3) with | .next t => some (t.stray, t.inited, t.trace.length) | _ => none) =
      (some (true, false, 3), some (false, false, 4)) := by decide

theorem witness_InvAtReset : Memory.wf assets = true := by decide

theorem fits_part : part.fits := by unfold Cfg.fits; decide

theorem inv_s82 : s82.Inv where
  sound _ := ready_s82.1
  hangSound h := absurd h (by decide)
  guard := rfl
  unstuck := rfl
  busyRx := by decide
  rxIncomplete := by decide
  haltedCode := by decide

/-- `StepKeepsInv`: a step that runs a command. -/
theorem witness_StepKeepsInv :
    (s82.offer [0x05, 0x00, 0x05, 0x00]).cfg.fits ∧ (s82.offer [0x05, 0x00, 0x05, 0x00]).Inv ∧
      ∃ t, step (s82.offer [0x05, 0x00, 0x05, 0x00]) = .next t :=
  ⟨fits_part,
    { sound := fun _ =>
        { geometry := ready_s82.1.geometry, window := ready_s82.1.window, ctrlBits := ready_s82.1.ctrlBits
          question := ready_s82.1.question, intervals := ready_s82.1.intervals, fbBytes := ready_s82.1.fbBytes
          fbWf := ready_s82.1.fbWf, dispWf := ready_s82.1.dispWf, dispRange := ready_s82.1.dispRange
          assetWf := ready_s82.1.assetWf, shadowRows := ready_s82.1.shadowRows, quiet := ready_s82.1.quiet
          scratch := ready_s82.1.scratch, bus := ready_s82.1.bus }
      hangSound := fun h => absurd h (by decide)
      guard := rfl
      unstuck := rfl
      busyRx := by decide
      rxIncomplete := by decide
      haltedCode := by decide },
    ⟨_, rfl⟩⟩

/-- `ReachableStates`: the host offers INIT and the engine runs it. -/
theorem witness_ReachableStates :
    part.fits ∧ Memory.wf assets = true ∧
      ∃ t, Reachable (State.boot part assets directory) t ∧ t.inited = true :=
  ⟨fits_part, by decide, _,
    .step (s := { fresh with port := fresh.port ++ [0x01, 0x00, 0x08, 0x00, 0x02, 0x00] }) (.offer _ .start) rfl, rfl⟩

/-- FLUSH_WINDOW of the whole screen offered to a part whose channel reports no completion from event `n` on. -/
def hanging (n : Nat) : State :=
  { s82.offer [0x06, 0x00, 0x00, 0x00, 0x00, 0x00, 0x08, 0x00, 0x02, 0x00] with hangAt := some n }

theorem sound_hanging (n : Nat) : (hanging n).Sound where
  geometry := ready_s82.1.geometry
  window := ready_s82.1.window
  ctrlBits := ready_s82.1.ctrlBits
  question := ready_s82.1.question
  intervals := ready_s82.1.intervals
  fbBytes := ready_s82.1.fbBytes
  fbWf := ready_s82.1.fbWf
  dispWf := ready_s82.1.dispWf
  dispRange := ready_s82.1.dispRange
  assetWf := ready_s82.1.assetWf
  shadowRows := ready_s82.1.shadowRows
  quiet := ready_s82.1.quiet
  scratch := ready_s82.1.scratch
  bus := ready_s82.1.bus

/-- `EveryCommandCompletes`: the second transfer of a flush of two rows is polled for at event 5, the last that hangs it;
from event 6 on nothing does. -/
theorem witness_EveryCommandCompletes :
    (hanging 5).Sound ∧
      let s := hanging 5
      s.stuck = none ∧ s.resetPin = false ∧ s.hung = false ∧ s.stray = false ∧ s.seq ≠ .halted ∧
        decode (s.rx ++ s.port) = .packet (.flushWindow 0 0 8 2) [] ∧ s.resetAt = none ∧
        ((match exec (.flushWindow 0 0 8 2) (s.takePacket []) with | .next u => u.stuck.isSome | _ => false),
          match exec (.flushWindow 0 0 8 2) ((hanging 6).takePacket []) with | .next u => u.stuck.isSome | _ => true) =
          (true, false) :=
  ⟨sound_hanging 5, by decide⟩

/-- A hung flush polls, with BUSY, INITED and XFER_BUSY in STATUS; a channel that fails later does not touch it (R304). -/
theorem test_hung_flush :
    ((match step (hanging 3) with | .next t => some (t.status, t.trace.length) | _ => none),
      match step (hanging 6) with | .next t => some (t.status, t.trace.length) | _ => none) =
      (some (0x0D00, 5), some (0x0400, 6)) := by decide

/-- The left half of two rows flushed, the second transfer never complete: the first row has reached the screen, the right
half is as it was; bytes 4 and 5 may have any value (R75, R82). -/
theorem test_hung_disp :
    (match step { painted.offer [0x06, 0x00, 0x00, 0x00, 0x00, 0x00, 0x04, 0x00, 0x02, 0x00] with hangAt := some 3 } with
      | .next t => some ([0, 1, 2, 3, 6, 7].map t.dispAt, t.trace.length)
      | _ => none) = some ([0x11, 0x22, 0, 0, 0, 0], 5) := by decide

/-- `PUT_STRING_XY.D.R 6, 0, "?AA"` whose first transfer, row 0 of the first `A`, never completes: the `?` is drawn and
recorded, the cursor behind it, the margin narrowed, the row's entry stored (R80, R156, R193, R200, R233). -/
theorem test_hung_string :
    (match step { s84.offer [0x26, 0x05, 0x06, 0x00, 0x00, 0x00, 0x03, 0x00, 0x3F, 0x00, 0x41, 0x00, 0x41, 0x00] with
        hangAt := some 0 } with
      | .next t => some ([t.curX, t.maxTextX], t.trace.length, t.dispAt 4 :: t.stage1, t.shadow.take 2)
      | _ => none) =
      some ([2, 6], 4, [0x70, 0x8F], [{ col := 1, byte := 0xF8 }, { col := 0, byte := 0x70 }]) := by decide

/-- `DRAW_IMAGE.D 0, 0, 4` in chunks of three bytes, whose second transfer never completes: the last chunk, of two bytes,
is filled in front of the first chunk's third byte (R80, R230). -/
theorem test_hung_image :
    (match step { ({ s82 with cfg := { part with fsChunk := 3 } } : State).offer
        [0x12, 0x01, 0x00, 0x00, 0x00, 0x00, 0x04, 0x00] with hangAt := some 3 } with
      | .next t => some (t.trace.length, t.stage0, t.stage1)
      | _ => none) = some (4, [0x77, 0x88, 0x33], [0x44, 0x55, 0x66]) := by decide

/-- `PUT_STRING.D "A\nA"` with line feed and `PARTIAL_Y` on, the second `A` in the screen's last row, whose transfer never
completes: the first `A`'s second row is still staged (R80, R193, R233). -/
theorem test_hung_glyph :
    (match step { ({ s84 with ctrl := 0x12 } : State).offer
        [0x25, 0x01, 0x03, 0x00, 0x41, 0x00, 0x0A, 0x00, 0x41, 0x00] with hangAt := some 7 } with
      | .next t => some (t.trace.length, t.stage0, t.stage1, t.line)
      | _ => none) = some (8, [0xF8], [0x8F], [8, 0xF]) := by decide

/-- `EveryCommandCompletes`, its clause on `DmaWait`: a transfer of row 1 in flight on a dead channel, bytes 4 to 7 of the
screen; bytes 3 and 8 are not in flight. -/
theorem witness_EveryCommandCompletes_wait :
    let v := { s82 with hangAt := some 2 }.bulkWriteRun 1 0 (.fb 4) 4
    (v.xferBusy = true ∧ v.channelDead = true ∧ v.stuck = none ∧ v.trace.getLast? = some (.dmaStart 0 (.fb 4) 4 0)) ∧
      3 + 4 < v.offset v.wpRow v.wpCol ∧ v.offset v.wpRow v.wpCol ≤ 8 := by decide

/-- `EveryCommandCompletes`, `BusDiscipline`, `Writers`, `CodesByCommand`: a command from a sound state, with two bulk
transfers on the bus. -/
theorem witness_BusDiscipline :
    s82.Sound ∧ ∃ t, exec (.flushWindow 0 0 8 2) s82 = .next t ∧ t.trace.length = 6 := ⟨ready_s82.1, _, rfl, by decide⟩

theorem witness_WithoutBulkChannel :
    noDma.Sound ∧ noDma.cfg.hasDma = false ∧ ∃ t, exec (.flushWindow 0 0 8 2) noDma = .next t ∧ t.trace.length = 4 :=
  ⟨ready_noDma.1, rfl, _, rfl, by decide⟩

theorem witness_NotInitialised :
    let s := fresh.offer [0x04, 0x00, 0x05]
    s.inited = false ∧ Instr.clear.opcode ≠ .init ∧ s.Undisturbed ∧
      decode (s.rx ++ s.port) = .packet .clear [0x05] := by
  unfold State.Undisturbed
  decide

/-- `FailureAtomicity`: a missing image. -/
theorem witness_FailureAtomicity :
    ∃ t, exec (.drawImage .buffered 0 0 99) s82 = .next t ∧ t.code ≠ .ok ∧ t.code ≠ .errLayoutStop :=
  ⟨_, rfl, by decide, by decide⟩

/-- `WithoutFramebuffer`: a command of each of its groups. -/
theorem witness_WithoutFramebuffer :
    noFb.inited = true ∧ noFb.cfg.hasFb = false ∧ (Instr.fill 5).needsFb ∧ (Instr.putChar .buffered 0x41).needsFb ∧
      ¬(Instr.drawRect .direct 0 0 1 1 5).needsFb := by
  unfold Instr.needsFb
  decide

theorem witness_NoFontSelected :
    s82.inited = true ∧ s82.fontSel = false ∧ (Instr.putString .buffered 4 [0x41, 0x41, 0x41, 0x41]).opcode ∈ fontOpcodes ∧
      s82.cfg.hasFb = true ∧ ¬(Instr.putString .buffered 4 [0x41, 0x41, 0x41, 0x41]).tooLong s82.cfg := by
  unfold Instr.tooLong
  decide

/-- `ReservedOperands`: the first reserved value of each operand. -/
theorem witness_ReservedOperands :
    s82.inited = true ∧ s82.cfg.hasFb = true ∧ 7 ≤ (7#16).toNat ∧ 32 ≤ (32#16).toNat ∧
      (Instr.putString .buffered 5 (List.replicate 5 0x41)).tooLong s82.cfg ∧ s82.cfg.lineCap < (9#16).toNat := by
  unfold Instr.tooLong
  decide

/-- `InitCommand`: the largest legal geometry of the part, and each way a geometry is illegal. -/
theorem witness_InitCommand :
    ((8#16).toNat ≠ 0 ∧ (4#16).toNat ≠ 0 ∧ (8#16).toNat % 2 = 0 ∧ (8#16).toNat ≤ fresh.cfg.wMax ∧
      (4#16).toNat ≤ fresh.cfg.hMax) ∧
      (7#16).toNat % 2 ≠ 0 ∧ ¬(10#16).toNat ≤ fresh.cfg.wMax ∧ ¬(5#16).toNat ≤ fresh.cfg.hMax := by decide

theorem witness_WindowCommands : s82.Ready ∧ s82.cfg.fits := ⟨ready_s82, fits_part⟩

/-- `ClearAndFill`, `CtrlAndCursor`, `LoadTransitionCommand`: with and without a framebuffer, at the last legal and the
first illegal operand. -/
theorem witness_ClearAndFill :
    s82.inited = true ∧ s82.cfg.hasFb = true ∧ noFb.inited = true ∧ noFb.cfg.hasFb = false ∧ s82.width % 2 = 0 ∧
      (31#16).toNat < 32 ∧ 32 ≤ (32#16).toNat ∧ (6#16).toNat ≤ 6 ∧ 7 ≤ (7#16).toNat := by decide

/-- `FlushRectangle`, with and without `FLUSH_GROWS`. -/
theorem witness_FlushRectangle :
    s82.width % 2 = 0 ∧ ({ s82 with cfg := { part with flushGrows := true } } : State).cfg.flushGrows = true := by decide

/-- `FlushWindowCommand`: an empty rectangle that touches the screen's edge, and the last byte column. -/
theorem witness_FlushWindowCommand :
    (noFb.Ready ∧ noFb.cfg.hasFb = false) ∧ s82.Ready ∧ s82.cfg.hasFb = true ∧
      (s82.flushRect (s16 8) (s16 0) 2 1).isEmpty = true ∧ (s82.flushRect (s16 7) (s16 1) 1 1).isEmpty = false :=
  ⟨⟨ready_noFb, rfl⟩, ready_s82, by decide⟩

/-- `Clipping`: the first and the last visible row, and one that is not. -/
theorem witness_Clipping :
    s82.windowOk ∧ s82.rowVisible 0 = true ∧ s82.rowVisible 1 = true ∧ s82.rowVisible 2 = false ∧
      s82.mapCol 7 = some 7 ∧ wrapped.mapCol (-1) = some 7 ∧ wrapped.mapCol 15 = some 7 ∧ wrapped.mapCol 16 = none :=
  ⟨ready_s82.1.window rfl, by decide⟩

theorem witness_PixelHelpers : s82.width % 2 = 0 ∧ 0 < s82.width ∧ 7 < s82.width := by decide

/-- `WriteHlineBuffered`, `WriteHlineDirect` and `LineEqualsSinglePixels`: a full line buffer, a visible row and one that
is not, a line at the largest column. -/
theorem witness_WriteHline :
    wrapped.Ready ∧ wrapped.cfg.hasFb = true ∧ (8#16).toNat ≤ wrapped.cfg.lineCap ∧
      [0x12, 0x34, 0x56, 0x78].length = ((8#16).toNat + 1) / 2 ∧ s16 0xFFFF + (8#16).toNat ≤ 32768 ∧
      s16 0x7FF8 + (8#16).toNat ≤ 32768 ∧ wrapped.rowVisible (s16 1) = true ∧ wrapped.rowVisible (s16 2) = false ∧
      wrapped.mapCol (s16 0xFFFF + (0 : Nat)) = some 7 :=
  ⟨ready_wrapped, by decide⟩

/-- `WriteHlineDirect`: a line of one run. -/
theorem witness_WriteHlineDirect :
    ∃ r, s82.runs (payloadPixels (3#16).toNat [0xAB, 0xC0]) (s16 5) = [r] ∧ r.byteCols = [2, 3] :=
  ⟨{ col := 5, pix := [0xA, 0xB, 0xC] }, by decide, by decide⟩

/-- `ByteBuildingForm`: from an odd column with an even count up to the margin, and from an even one with an odd count. -/
theorem witness_ByteBuildingForm :
    s82.geometryOk ∧ (3 + [1, 2, 3, 4].length ≤ s82.width ∧ ((3 + [1, 2, 3, 4].length : Nat) : Int) ≤ s16 s82.maxTextX) ∧
      (5 + [1, 2, 3].length ≤ s82.width ∧ ((5 + [1, 2, 3].length : Nat) : Int) ≤ s16 s82.maxTextX) :=
  ⟨ready_s82.1.geometry rfl, by decide⟩

theorem witness_RunsOfLine : 0 < wrapped.width := by decide

/-- `DirectRun`: a run of one half byte at the last column of the last row. -/
theorem witness_DirectRun :
    painted.Ready ∧ 1 < painted.height ∧ ({ col := 7, pix := [9] } : Run).pix ≠ [] ∧ 7 + [9].length ≤ painted.width :=
  ⟨ready_painted, by decide⟩

/-- `DrawRectBuffered` and `DrawRectDirect`: pixels inside and outside the rectangle. -/
theorem witness_DrawRect :
    s82.Ready ∧ s82.cfg.hasFb = true ∧ s82.wrap = false ∧ s82.rowVisible 1 = true ∧
      s82.mapCol (s16 0xFFFF + (1 : Nat)) = some 0 ∧ s82.mapCol (s16 0xFFFF + (0 : Nat)) = none :=
  ⟨ready_s82, by decide⟩

/-- `StrategySelection`: an image of no rows on aligned operands takes strategy 3 (R169), one of a row takes 2. -/
theorem witness_StrategySelection :
    s82.geometryOk ∧ s82.selectStrategy 2 0 2 0 .direct = .generic ∧ s82.selectStrategy 2 0 2 1 .direct = .aligned :=
  ⟨ready_s82.1.geometry rfl, by decide⟩

/-- `DrawImageCommand`: no asset, an image too wide, one that fills the line buffer, at an odd column. -/
theorem witness_DrawImageCommand :
    s82.Ready ∧ s82.cfg.hasFb = true ∧ s82.assetAddr 99 s82.cfg.typeBitmap = none ∧
      (s82.assetAddr 5 s82.cfg.typeBitmap = some 300 ∧ s82.cfg.lineCap < (s82.assetField16 300).toNat) ∧
      s82.assetAddr 4 s82.cfg.typeBitmap = some 200 ∧ (s82.assetField16 200).toNat ≤ s82.cfg.lineCap ∧
      s82.selectStrategy (s16 1) (s16 0) (s82.assetField16 200).toNat (s82.assetField16 202).toNat .direct = .generic :=
  ⟨ready_s82, by decide⟩

/-- `DrawImageBuffered`: a pixel that lands, in the image's last row. -/
theorem witness_DrawImageBuffered :
    s82.Ready ∧ s82.cfg.hasFb = true ∧ s82.assetAddr 3 s82.cfg.typeBitmap = some 100 ∧
      (s82.assetField16 100).toNat ≤ s82.cfg.lineCap ∧ 1 < (s82.assetField16 102).toNat ∧ s82.rowVisible (s16 0 + 1) = true ∧
      s82.mapCol (s16 6 + (1 : Nat)) = some 7 :=
  ⟨ready_s82, by decide⟩

/-- `StrategyEquivalence` and `FullScreenImage`. -/
theorem witness_FullScreenImage :
    s82.Ready ∧ 0 < s82.cfg.fsChunk ∧ s82.assetAddr 4 s82.cfg.typeBitmap = some 200 ∧
      (s82.assetField16 200).toNat ≤ s82.cfg.lineCap ∧
      s82.selectStrategy (s16 0) (s16 0) (s82.assetField16 200).toNat (s82.assetField16 202).toNat .direct = .fullScreen :=
  ⟨ready_s82, by decide⟩

/-- `AlignedImage`: an image cut by the right edge. -/
theorem witness_AlignedImage :
    s82.Ready ∧ s82.assetAddr 3 s82.cfg.typeBitmap = some 100 ∧ (s82.assetField16 100).toNat ≤ s82.cfg.lineCap ∧
      s82.selectStrategy (s16 6) (s16 0) (s82.assetField16 100).toNat (s82.assetField16 102).toNat .direct = .aligned :=
  ⟨ready_s82, by decide⟩

theorem witness_SelectFontCommand :
    s82.inited = true ∧ s82.assetAddr 99 s82.cfg.typeFont = none ∧ s82.assetAddr 7 s82.cfg.typeFont = some 1000 := by decide

/-- `GlyphResolution`: a described glyph, a codepoint in no interval, one with a sentinel entry, and a `'?'` whose own
entry is the sentinel. -/
theorem witness_GlyphResolution :
    s84.Sound ∧ (s84.intervalIndex 0x41 = some 3 ∧ s84.indexEntry 3 ≠ 0xFFFF) ∧ s84.intervalIndex 0x5A = none ∧
      (s84.intervalIndex 0x42 = some 4 ∧ s84.indexEntry 4 = 0xFFFF) ∧ s84.fontDesc.toNat ≤ 5 ∧ 4 < s84.fontDesc.toNat ∧
      ({ s84 with fontDesc := 1 } : State).Sound ∧ ({ s84 with fontDesc := 1 } : State).intervalIndex 0x3F = some 1 ∧
      ({ s84 with fontDesc := 1 } : State).indexEntry 1 = 0xFFFF :=
  ⟨ready_s84.1, by decide, by decide, by decide, by decide, by decide, (ready_of_check (by decide)).1, by decide,
    by decide⟩

/-- A state with the font whose glyph is too wide, which has no `'?'`. -/
def wideFont : State := (screen 4).loadFont 1100

theorem ready_wideFont : wideFont.Ready := ready_of_check (by decide)

/-- `GlyphLookupCommand` and `MeasureCommand`: no glyph, a glyph, a space. -/
theorem witness_GlyphLookup :
    (wideFont.inited = true ∧ wideFont.fontSel = true ∧ wideFont.resolveGlyph 0x5A = none) ∧
      s84.inited = true ∧ s84.fontSel = true ∧ s84.resolveGlyph 0x41 = some (3, 0) ∧ s84.resolveGlyph 0x20 = some (0, 2) := by
  decide

/-- `DrawGlyphCommand`: no glyph, a space, a glyph too wide, a glyph that fits. -/
theorem witness_DrawGlyphCommand :
    (wideFont.Ready ∧ wideFont.resolveGlyph 0x5A = none ∧ wideFont.resolveGlyph 0x41 = some (0, 0) ∧
      (wideFont.glyphRec 0).boff ≠ 0xFFFFFFFF ∧ wideFont.cfg.lineCap < (wideFont.glyphRec 0).width) ∧
      s84.Ready ∧ s84.cfg.hasFb = true ∧ s84.fontSel = true ∧ (s84.glyphRec 2).boff = 0xFFFFFFFF ∧
      (s84.glyphRec 0).boff ≠ 0xFFFFFFFF ∧ (s84.glyphRec 0).width ≤ s84.cfg.lineCap ∧
      s84.selectStrategy (s16 1 + (s84.glyphRec 0).xo) (s16 0 + (s84.glyphRec 0).yo) (s84.glyphRec 0).width
        (s84.glyphRec 0).height .direct = .generic :=
  ⟨⟨ready_wideFont, by decide⟩, ready_s84, by decide⟩

/-- `DrawGlyphCommand` in buffered mode: the last pixel of `A`, drawn at column 1, lands in row 1. -/
theorem witness_DrawGlyphCommand_pixel :
    1 < (s84.glyphRec 0).height ∧ 1 < (s84.glyphRec 0).width ∧ ((1 : Nat) : Int) = s16 0 + (s84.glyphRec 0).yo + (1 : Nat) ∧
      s84.rowVisible 1 = true ∧ s84.mapCol (s16 1 + (s84.glyphRec 0).xo + (1 : Nat)) = some 2 := by decide

/-- A DRAW_GLYPH that fails leaves even what is staged (R272). -/
theorem test_drawGlyph_fails :
    (match exec (.drawGlyph .buffered 0 0 0x41) { wideFont with line := [7] } with
      | .next t => some (t.code, t.line)
      | _ => none) = some (.errTooWide, [7]) := by decide

/-- Font T with no columns in the record of glyph 0. -/
def emptyGlyph : State := { s84 with asset := Memory.write s84.asset (s84.fontBase.toNat + s84.recOff) 0 }

/-- `DrawGlyphCommand`: a glyph of no columns that is no space. -/
theorem witness_DrawGlyphCommand_empty :
    emptyGlyph.Ready ∧ emptyGlyph.fontSel = true ∧ emptyGlyph.resolveGlyph 0x41 = some (3, 0) ∧
      (emptyGlyph.glyphRec 0).boff ≠ 0xFFFFFFFF ∧ (emptyGlyph.glyphRec 0).width = 0 :=
  ⟨ready_of_check (by decide), by decide⟩

/-- `PutCharCommand`, its cases without a glyph: line feed, carriage return, an unrenderable character. -/
theorem witness_PutCharCommand_controls :
    (({ s84 with ctrl := 2 } : State).Ready ∧ ({ s84 with ctrl := 2 } : State).lf = true) ∧
      (({ s84 with ctrl := 4 } : State).Ready ∧ ({ s84 with ctrl := 4 } : State).cr = true) ∧
      wideFont.Ready ∧ wideFont.fontSel = true ∧ wideFont.measure 0x5A = none :=
  ⟨⟨ready_of_check (by decide), by decide⟩, ⟨ready_of_check (by decide), by decide⟩, ready_wideFont, by decide⟩

/-- `PutCharCommand`, its cases with a glyph: a stop at the right bound, a stop at the bottom after a wrap, a glyph that
exactly reaches the right bound and the bottom. -/
theorem witness_PutCharCommand_glyphs :
    (atEdge.Ready ∧ atEdge.fontSel = true ∧ atEdge.measure 0x41 = some { adv := 3, rh := 2 } ∧
      s16 atEdge.maxTextX < s16 atEdge.curX + 3 ∧ atEdge.lf = false ∧ atEdge.partialX = false) ∧
      (({ atEdge with ctrl := 2 } : State).Ready ∧ ({ atEdge with ctrl := 2 } : State).lf = true ∧
        s16 atEdge.maxDispY < s16 (reg16 (s16 atEdge.curY + atEdge.fontGh.toNat)) + 2 ∧ atEdge.partialY = false) ∧
      (({ s84 with curX := 5, curY := 2 } : State).Ready ∧
        s16 ({ s84 with curX := 5, curY := 2 } : State).curX + 3 = s16 s84.maxTextX ∧
        s16 ({ s84 with curX := 5, curY := 2 } : State).curY + 2 = s16 s84.maxDispY) :=
  ⟨⟨ready_atEdge, by decide⟩, ⟨ready_of_check (by decide), by decide⟩, ready_of_check (by decide), by decide⟩

/-- `PutStringCommand` and `PutStringXyCommand`: the longest string the part accepts, and one character more. -/
theorem witness_PutStringCommand :
    s84.Ready ∧ s84.cfg.hasFb = true ∧ s84.fontSel = true ∧ (4#16).toNat ≤ s84.cfg.strCap ∧
      ([0x41, 0x41, 0x41, 0x41] : List Word).length = (4#16).toNat ∧ s84.cfg.strCap < (5#16).toNat ∧
      ([0x41, 0x41, 0x41, 0x41, 0x41] : List Word).length = (5#16).toNat :=
  ⟨ready_s84, by decide⟩

/-- `WideStringStops`: "AAA" on eight columns (V4.14). -/
theorem witness_WideStringStops :
    s84.Ready ∧ (s84.cfg.hasFb = true ∧ s84.fontSel = true ∧ (3#16).toNat ≤ s84.cfg.strCap ∧ s84.width ≤ 32256 ∧
      s84.lf = false ∧ s84.cr = false ∧ s84.partialX = false ∧ s16 s84.minTextX ≤ s16 s84.curX ∧ s16 s84.curX ≤ 32256 ∧
      s16 s84.minTextX ≤ s16 s84.maxTextX) ∧
      (∀ cp ∈ ([0x41, 0x41, 0x41] : List Word), ∀ d g, s84.resolveGlyph cp = some (d, g) →
        (s84.glyphRec g).width ≤ s84.cfg.lineCap ∧ 0 ≤ (s84.glyphRec g).metrics.adv ∧
          (s84.glyphRec g).metrics.adv ≤ (s84.glyphRec g).advance) ∧
      s16 s84.maxTextX - s16 s84.minTextX < s84.stringWidth [0x41, 0x41, 0x41] ∧
      ∃ t, exec (.putString .buffered 3 [0x41, 0x41, 0x41]) s84 = .next t := by
  refine ⟨ready_s84, by decide, fun cp hcp d g h => ?_, by decide, _, rfl⟩
  have hA : s84.resolveGlyph 0x41 = some (3, 0) := by decide
  obtain rfl : cp = 0x41 := by simpa using hcp
  rw [hA] at h
  obtain ⟨rfl, rfl⟩ : 3 = d ∧ 0 = g := by simpa using h
  decide

/-- `FlushFullCommand`, `TransitionDelays`, `TransitionFrames`: a picture, a vertical wipe pending, the last step of each
algorithm. -/
theorem witness_FlushFull :
    (noFb.Ready ∧ noFb.cfg.hasFb = false) ∧ ({ painted with trans := .wipeTb } : State).Ready ∧ painted.Ready ∧
      painted.cfg.hasFb = true ∧ (3 < painted.bpr ∧ 1 < painted.height ∧ 1 < (painted.bpr + 1) / 2) ∧ ∃ t, exec .flushFull { painted with trans := .wipeTb } = .next t :=
  ⟨⟨ready_noFb, rfl⟩, ready_of_check (by decide), ready_painted, by decide, by decide, _, rfl⟩

/-- A part without a framebuffer whose interval table has `n` entries. -/
def longTable (n : Nat) : State :=
  { noFb with cfg := { noFb.cfg with ni := n }, iv := List.replicate n { first := 0x41, last := 0x42 } }

/-- R37: with no framebuffer byte at the number, a table of more than 16368 entries reads at 0x8000 and 0x8001. -/
theorem test_readback_longTable (n : Nat) (h : 16368 < n) :
    (longTable n).iv[16368]? = some { first := 0x41, last := 0x42 } ∧ (longTable n).readNumber 0x8000 = 0x41 ∧
      (longTable n).readNumber 0x8001 = 0x42 := by
  have e : (longTable n).iv[16368]? = some { first := 0x41, last := 0x42 } := by
    show (List.replicate n _)[16368]? = _
    simp [h]
  have table : ∀ k, 0x20 ≤ k → k < 0xC000 → (longTable n).readNumber k = (longTable n).readInterval k := by
    intro k h1 h2
    have hs : (longTable n).holdsShadow k = false := by
      simp [State.holdsShadow]
      omega
    unfold State.readNumber
    rw [if_neg (by omega), show (longTable n).holdsFb k = false from rfl, hs]
    rfl
  have hn : 16368 < (longTable n).cfg.ni := h
  refine ⟨e, ?_, ?_⟩
  · rw [table _ (by omega) (by omega)]
    simp [State.readInterval, hn, e]
  · rw [table _ (by omega) (by omega)]
    simp [State.readInterval, hn, e]

/-- `ReadbackPort`: an idle engine with an interval table, a framebuffer byte and a shadow entry within their ranges. -/
theorem witness_ReadbackPort :
    s84.seq ≠ .busy ∧ ctrlReserved s84.ctrl = false ∧ 1 < s84.cfg.ni ∧ s84.iv[1]? = some { first := 0x3F, last := 0x42 } ∧
      0x21 + 2 * 1 < 65536 ∧ s84.cfg.hasFb = true ∧ 3 < s84.height ∧ 3 < s84.bpr ∧ s84.offset 3 3 < 0x4000 ∧
      2 * 3 + 1 < 0x4000 := by decide

end Sys2Proof.Tests
end

/-!
SUPPORT. Where a command may come to poll for ever (20_memory.md R82, 70_reset_and_hazards.md R304): the barrier and
its callers, and what every operation leaves alone on its way to such a poll, from any state whatever.
-/
namespace Sys2Proof.Machine

/-! ### The barrier's record -/

/-- A poll that is never answered is recorded as it stands, when it is the first. -/
theorem State.dmaWait_stuck_of_dead {s : State} (hx : s.xferBusy = true) (hd : s.deadAt s.trace.length)
    (hs : s.stuck = none) : s.dmaWait.stuck = some s.polling := by
  simp [hx, hs, s.channelDead_iff.2 hd]

/-- With no transfer in flight, a channel that completes it, or a poll on record, the barrier records nothing. -/
theorem State.dmaWait_stuck_of_answered {s : State}
    (h : s.xferBusy = false ∨ ¬s.deadAt s.trace.length ∨ s.stuck ≠ none) : s.dmaWait.stuck = s.stuck := by
  rw [← s.channelDead_iff] at h
  rw [State.dmaWait_stuck]
  split
  · rename_i hc
    obtain ⟨hx, hd⟩ := Bool.and_eq_true_iff.1 hc
    have hs : s.stuck ≠ none := by simpa [hx, hd] using h
    obtain ⟨k, hk⟩ := Option.ne_none_iff_exists'.1 hs
    simp [hk]
  · rfl

/-- With no transfer in flight the barrier records nothing. -/
theorem State.dmaWait_stuck_of_quiet {s : State} (h : s.xferBusy = false) : s.dmaWait.stuck = s.stuck :=
  State.dmaWait_stuck_of_answered (.inl h)

/-- A change of bytes in place does not reach an address whose entries it leaves alone. -/
theorem Memory.read_map {m : Memory} {f : Host.Cell → Host.Cell} {a : Nat} (hf : ∀ c, (f c).1 = c.1)
    (ha : ∀ c, c.1 = a → f c = c) : Memory.read (m.map f) a = Memory.read m a := by
  induction m with
  | nil => rfl
  | cons c m ih =>
    obtain ⟨k, v⟩ := c
    rw [List.map_cons, show f (k, v) = (k, (f (k, v)).2) from Prod.ext (hf (k, v)) rfl]
    simp only [Memory.read, ih]
    split
    · rename_i hk
      rw [ha (k, v) hk.symm]
    · rfl

/-- A byte of `DISP` outside the transfer in flight is what completed writes left there (R75, R79). -/
theorem State.read_dispInFlight {s : State} {off : Nat}
    (h : off + s.inFlight < s.offset s.wpRow s.wpCol ∨ s.offset s.wpRow s.wpCol ≤ off) :
    Memory.read s.dispInFlight off = Memory.read s.disp off := by
  unfold State.dispInFlight
  refine Memory.read_map (fun c => ?_) fun c hc => if_neg (by omega)
  split <;> rfl

/-- The length of the transfer in flight is that of the last event, its start. -/
theorem State.inFlight_of_getLast {s : State} {dest len trig : Nat} {src : XferSource}
    (h : s.trace.getLast? = some (.dmaStart dest src len trig)) : s.inFlight = len := by
  unfold State.inFlight
  rw [h]

/-! ### The callers of the barrier -/

@[simp] theorem State.sendBytes_stuck (s : State) (bs : List Byte) : (s.sendBytes bs).stuck = s.stuck := by
  rw [s.sendBytes_frame]

theorem State.bulkStart_stuck (s : State) (src : XferSource) (len : Nat) : (s.bulkStart src len).stuck = s.stuck :=
  State.sendBytes_stuck _ _

theorem State.bulkWriteRun_stuck (s : State) (y b : Nat) (src : XferSource) (len : Nat) :
    (s.bulkWriteRun y b src len).stuck = s.dmaWait.stuck :=
  State.bulkStart_stuck _ _ _

theorem State.bulkContinue_stuck (s : State) (src : XferSource) (len : Nat) :
    (s.bulkContinue src len).stuck = s.dmaWait.stuck :=
  State.bulkStart_stuck _ _ _

theorem State.busWriteRun_stuck (s : State) (y b : Nat) (bs : List Byte) :
    (s.busWriteRun y b bs).stuck = s.dmaWait.stuck :=
  State.sendBytes_stuck _ _

theorem State.xferRun_stuck (s : State) (y b : Nat) (src : XferSource) (len : Nat) :
    (s.xferRun y b src len).stuck = s.dmaWait.stuck := by
  unfold State.xferRun
  split
  · exact s.bulkWriteRun_stuck y b src len
  · exact s.busWriteRun_stuck y b _

theorem streamBytes_stuck (y : Nat) (r : Run) (bs : List Nat) (s : State) :
    (bs.foldl (streamByte y r) s).stuck = s.stuck := by
  induction bs generalizing s with
  | nil => rfl
  | cons b bs ih => exact ih _

theorem streamRun_stuck (y : Nat) (s : State) (r : Run) : (streamRun y s r).stuck = s.dmaWait.stuck :=
  streamBytes_stuck y r _ _

theorem fullScreenChunk_stuck (p n : Nat) (s : State) (c : Nat) :
    (fullScreenChunk p n s c).stuck = s.dmaWait.stuck := by
  have hrun : (if c = 0 then s.bulkWriteRun 0 0 (.stage 0) (s.chunkLength c)
      else s.bulkContinue (.stage (c % 2)) (s.chunkLength c)).stuck = s.dmaWait.stuck := by
    split
    · exact s.bulkWriteRun_stuck _ _ _ _
    · exact s.bulkContinue_stuck _ _
  unfold fullScreenChunk
  simp only
  split
  · exact hrun
  · exact hrun

/-- Every whole byte of an aligned row has both its pixels in the row (R233). -/
theorem State.two_alignedBytes_le (s : State) (x : Int) (bw : Nat) : 2 * s.alignedBytes x bw ≤ bw := by
  unfold State.alignedBytes State.alignedEnd
  omega

/-- A place that was just filled reads as it was filled. -/
theorem getD_overlay {α : Type} {new old : List α} {j : Nat} (h : j < new.length) (d : α) :
    (overlay new old).getD j d = new.getD j d := by
  simp [overlay, List.getD_eq_getElem?_getD, List.getElem?_append_left h]

/-- A row of the aligned path meets the barrier, where it meets it, with its pixels and its bytes staged (R233). -/
theorem blitAlignedRow_stuck (x y : Int) (bw p k r : Nat) (s : State) :
    (blitAlignedRow x y bw p (s, k) r).1.stuck =
      if s.rowVisible (y + r) = true ∧ 0 < s.alignedBytes x bw then
        ((s.setLine (s.streamRow p (r * bw) bw)).setStage k ((List.range (s.alignedBytes x bw)).map fun j =>
          pack ((s.streamRow p (r * bw) bw).getD (2 * j) 0)
            ((s.streamRow p (r * bw) bw).getD (2 * j + 1) 0))).dmaWait.stuck
      else s.stuck := by
  have hrow : (s.setLine (s.streamRow p (r * bw) bw)).alignedBytes x bw = s.alignedBytes x bw := rfl
  have hlen : (s.streamRow p (r * bw) bw).length = bw := by simp [State.streamRow]
  have hbytes : ((List.range (s.alignedBytes x bw)).map fun j =>
      pack ((s.setLine (s.streamRow p (r * bw) bw)).line.getD (2 * j) 0#4)
        ((s.setLine (s.streamRow p (r * bw) bw)).line.getD (2 * j + 1) 0#4)) =
      (List.range (s.alignedBytes x bw)).map fun j =>
        pack ((s.streamRow p (r * bw) bw).getD (2 * j) 0) ((s.streamRow p (r * bw) bw).getD (2 * j + 1) 0) := by
    refine List.map_congr_left fun j hj => ?_
    have hj := List.mem_range.1 hj
    have := s.two_alignedBytes_le x bw
    rw [State.setLine_line, getD_overlay (by omega), getD_overlay (by omega)]
    rfl
  unfold blitAlignedRow
  simp only [hrow, hbytes]
  by_cases hv : s.rowVisible (y + r) = true ∧ 0 < s.alignedBytes x bw
  · rw [if_pos hv, if_pos (show (s.setLine _).rowVisible (y + r) = true ∧ _ from hv)]
    exact State.bulkWriteRun_stuck _ _ _ _ _
  · rw [if_neg hv, if_neg (show ¬((s.setLine _).rowVisible (y + r) = true ∧ _) from hv)]
    rfl

/-! ### What an operation leaves alone -/

/-- The state but for its display side: what a flush leaves alone. -/
def State.offDisplay (s : State) : State :=
  { s with disp := [], wpRow := 0, wpCol := 0, xferBusy := false, trace := [], stuck := none }

/-- The state but for its display side, the picture memories and the scratch memories: what a blit leaves alone. -/
def State.offPicture (s : State) : State :=
  { s.offDisplay with fb := [], shadow := [], stage0 := [], stage1 := [], line := [] }

/-- The state but for all that a layout step may change. -/
def State.offText (s : State) : State := { s.offPicture with curX := 0, curY := 0 }

/-- `t` comes from `s` with the part `part` of the state left alone, and where `t` records an endless poll that `s` did
not, that part was left alone up to the poll. -/
structure Polls (part : State → State) (s t : State) : Prop where
  same : part t = part s
  hang : ∀ h, t.stuck = some h → s.stuck = some h ∨ ∃ v, part v = part s ∧ h = v.polling

namespace Polls

variable {part : State → State} {s t u : State}

theorem refl (part : State → State) (s : State) : Polls part s s := ⟨rfl, fun _ => .inl⟩

theorem trans (h : Polls part s t) (k : Polls part t u) : Polls part s u where
  same := k.same.trans h.same
  hang m hm := by
    rcases k.hang m hm with hm | ⟨v, hv, rfl⟩
    · exact h.hang m hm
    · exact .inr ⟨v, hv.trans h.same, rfl⟩

theorem foldl {α : Type} {f : State → α → State} (h : ∀ t x, Polls part t (f t x)) (l : List α) (s : State) :
    Polls part s (l.foldl f s) := by
  induction l generalizing s with
  | nil => exact refl part s
  | cons x l ih => exact (h s x).trans (ih _)

/-- An operation that ends with a step it may leave out. -/
theorem thenIf {c : Prop} [Decidable c] (h : Polls part s t) (k : Polls part t u) :
    Polls part s (if c then u else t) := by
  split
  · exact h.trans k
  · exact h

/-- What leaves more alone leaves less alone. -/
theorem coarser {part' : State → State} (g : ∀ v, part v = part s → part' v = part' s) (h : Polls part s t) :
    Polls part' s t where
  same := g t h.same
  hang m hm := (h.hang m hm).imp id fun ⟨v, hv, e⟩ => ⟨v, g v hv, e⟩

/-- An operation that does not touch the record. -/
theorem of_stuck (hp : part t = part s) (hs : t.stuck = s.stuck) : Polls part s t :=
  ⟨hp, fun _ hm => .inl (hs ▸ hm)⟩

/-- An operation that meets the barrier once, at its beginning. -/
theorem of_dmaWait (hp : part t = part s) (hs : t.stuck = s.dmaWait.stuck) : Polls part s t where
  same := hp
  hang m hm := by
    rw [hs, State.dmaWait_stuck] at hm
    split at hm
    · cases hk : s.stuck with
      | some k => exact .inl (by simpa [hk] using hm)
      | none => exact .inr ⟨s, rfl, by simpa [hk] using hm.symm⟩
    · exact .inl hm

theorem offPicture (h : Polls State.offDisplay s t) : Polls State.offPicture s t :=
  h.coarser fun _ e => by unfold State.offPicture; rw [e]

theorem offText (h : Polls State.offPicture s t) : Polls State.offText s t :=
  h.coarser fun _ e => by unfold State.offText; rw [e]

end Polls

/-! ### Flushes -/

theorem bulkWriteRun_polls (s : State) (y b : Nat) (src : XferSource) (len : Nat) :
    Polls State.offDisplay s (s.bulkWriteRun y b src len) :=
  .of_dmaWait (by rw [s.bulkWriteRun_frame]; rfl) (s.bulkWriteRun_stuck y b src len)

theorem xferRun_polls (s : State) (y b : Nat) (src : XferSource) (len : Nat) :
    Polls State.offDisplay s (s.xferRun y b src len) :=
  .of_dmaWait (by rw [s.xferRun_frame]; rfl) (s.xferRun_stuck y b src len)

theorem dmaWait_polls (s : State) : Polls State.offDisplay s s.dmaWait := .of_dmaWait rfl rfl

theorem sendColumn_polls (s : State) (c : Nat) : Polls State.offDisplay s (s.sendColumn c) :=
  .foldl (fun t yy => xferRun_polls t yy c _ 1) _ s

theorem sendDividerColumn_polls (s : State) (c : Nat) : Polls State.offDisplay s (s.sendDividerColumn c) :=
  .foldl (fun t yy => xferRun_polls t yy c _ 1) _ s

theorem hWipeStep_polls (forward : Bool) (s : State) (i : Nat) : Polls State.offDisplay s (hWipeStep forward s i) :=
  (sendColumn_polls s _).thenIf (sendDividerColumn_polls _ _)

theorem vWipeStep_polls (downward : Bool) (s : State) (i : Nat) :
    Polls State.offDisplay s (vWipeStep downward s i) :=
  ((xferRun_polls s _ _ _ _).thenIf (xferRun_polls _ _ _ _ _)).trans
    ((dmaWait_polls _).trans (.of_stuck rfl rfl))

theorem irisStep_polls (outward : Bool) (s : State) (i : Nat) : Polls State.offDisplay s (irisStep outward s i) :=
  (sendColumn_polls s _).thenIf (sendColumn_polls _ _)

/-- The state a transition sends its first byte in: a wipe has staged the divider (R255). -/
def Transition.staged : Transition → State → State
  | .wipeLr, s | .wipeRl, s | .wipeTb, s | .wipeBt, s => s.stageDivider
  | .none, s | .irisIn, s | .irisOut, s => s

theorem runTransition_polls (k : Transition) (s : State) :
    Polls State.offDisplay (k.staged s) (runTransition k s) := by
  cases k
  case none => exact xferRun_polls s _ _ _ _
  case wipeLr => exact .foldl (hWipeStep_polls true) _ _
  case wipeRl => exact .foldl (hWipeStep_polls false) _ _
  case wipeTb => exact .foldl (vWipeStep_polls true) _ _
  case wipeBt => exact .foldl (vWipeStep_polls false) _ _
  case irisIn => exact .foldl (irisStep_polls false) _ _
  case irisOut => exact .foldl (irisStep_polls true) _ _

theorem flushRows_polls (s : State) (r : Rect) : Polls State.offDisplay s (s.flushRows r) :=
  .foldl (fun t _ => xferRun_polls t _ _ _ _) _ s

/-! ### Lines and blits -/

theorem streamByte_offPicture (y : Nat) (r : Run) (s : State) (b : Nat) :
    (streamByte y r s b).offPicture = s.offPicture := by
  simp [State.offPicture, State.offDisplay, streamByte]

theorem streamBytes_offPicture (y : Nat) (r : Run) (bs : List Nat) (s : State) :
    (bs.foldl (streamByte y r) s).offPicture = s.offPicture := by
  induction bs generalizing s with
  | nil => rfl
  | cons b bs ih => exact (ih _).trans (streamByte_offPicture y r s b)

theorem streamRun_polls (y : Nat) (s : State) (r : Run) : Polls State.offPicture s (streamRun y s r) :=
  .of_dmaWait ((streamBytes_offPicture y r _ (s.dmaWait.dispAddr y (r.col / 2))).trans rfl) (streamRun_stuck y s r)

theorem hLineBuf_polls (y : Nat) (ps : List Nibble) (x : Int) (s : State) :
    Polls State.offPicture s (hLineBuf y ps x s).1 :=
  .of_stuck (by rw [hLineBuf_frame]; rfl) (by rw [hLineBuf_frame]; rfl)

theorem hLine_polls (m : Mode) (x y : Int) (pix : List Nibble) (s : State) :
    Polls State.offPicture s (hLine m x y pix s).1 := by
  unfold hLine
  split
  · cases m
    · exact hLineBuf_polls _ pix x s
    · exact .foldl (streamRun_polls _) _ s
  · exact .refl _ s

theorem hLineRows_polls (m : Mode) (x y : Int) (pix : List Nibble) (h : Nat) (s : State) :
    Polls State.offPicture s (hLineRows m x y pix h s).1 := by
  induction h with
  | zero => exact .refl _ s
  | succ h ih =>
    rw [hLineRows_succ]
    exact ih.trans (hLine_polls m x _ pix _)

theorem blitGeneric_polls (x y : Int) (bw bh p : Nat) (m : Mode) (s : State) :
    Polls State.offPicture s (blitGeneric x y bw bh p m s) :=
  .foldl (fun t r => Polls.trans (t := t.setLine (t.streamRow p (r * bw) bw)) (.of_stuck rfl rfl)
    (hLine_polls m x (y + r) _ _)) _ s

theorem setStage_polls (s : State) (k : Nat) (bs : List Byte) : Polls State.offPicture s (s.setStage k bs) :=
  .of_stuck rfl rfl

theorem storeShadow_polls (s : State) (y b : Nat) (v : Byte) : Polls State.offPicture s (s.storeShadow y b v) :=
  .of_stuck rfl rfl

theorem fullScreenChunk_polls (p n : Nat) (s : State) (c : Nat) :
    Polls State.offPicture s (fullScreenChunk p n s c) := by
  refine .of_dmaWait ?_ (fullScreenChunk_stuck p n s c)
  have hrun : (if c = 0 then s.bulkWriteRun 0 0 (.stage 0) (s.chunkLength c)
      else s.bulkContinue (.stage (c % 2)) (s.chunkLength c)).offPicture = s.offPicture := by
    split
    · rw [s.bulkWriteRun_frame]
      rfl
    · rw [s.bulkContinue_frame]
      rfl
  unfold fullScreenChunk
  simp only
  split
  · exact hrun
  · exact hrun

theorem blitFullScreen_polls (p : Nat) (s : State) : Polls State.offPicture s (blitFullScreen p s) :=
  Polls.trans (t := fillStage p 0 s 0) (.of_stuck rfl rfl)
    ((Polls.foldl (fullScreenChunk_polls p s.chunkCount) _ _).trans
      ((dmaWait_polls _).offPicture.trans (.foldl (fun t yy => storeShadow_polls t yy _ _) _ _)))

theorem blitAlignedRow_polls (x y : Int) (bw p : Nat) (s : State) (k r : Nat) :
    Polls State.offPicture s (blitAlignedRow x y bw p (s, k) r).1 := by
  unfold blitAlignedRow
  simp only
  generalize hs1 : s.setLine (s.streamRow p (r * bw) bw) = s1
  have line : Polls State.offPicture s s1 := hs1 ▸ .of_stuck rfl rfl
  split
  · refine line.trans (Polls.trans ?_ (storeShadow_polls _ _ _ _))
    exact (setStage_polls s1 k _).trans (bulkWriteRun_polls _ _ _ _ _).offPicture
  · exact line

theorem blitAligned_polls (x y : Int) (bw bh p : Nat) (s : State) :
    Polls State.offPicture s (blitAligned x y bw bh p s) := by
  have key : ∀ (l : List Nat) (t : State) (k : Nat),
      Polls State.offPicture t (l.foldl (blitAlignedRow x y bw p) (t, k)).1 := by
    intro l
    induction l with
    | nil => exact fun t _ => .refl _ t
    | cons r l ih => exact fun t k => (blitAlignedRow_polls x y bw p t k r).trans (ih _ _)
  exact key _ s 0

theorem blitStream_polls (x y : Int) (bw bh p : Nat) (m : Mode) (s : State) :
    Polls State.offPicture s (blitStream x y bw bh p m s).1 := by
  have drawn : ∀ st, Polls State.offPicture s (blitBy st x y bw bh p m s) := by
    intro st
    cases st
    · exact blitFullScreen_polls p s
    · exact blitAligned_polls x y bw bh p s
    · exact blitGeneric_polls x y bw bh p m s
  exact (drawn _).trans (dmaWait_polls _).offPicture

/-! ### Glyphs and layout -/

theorem drawGlyphAt_polls (m : Mode) (x y : Int) (cp : Word) (s : State) :
    Polls State.offPicture s (drawGlyphAt m x y cp s).state := by
  unfold drawGlyphAt
  split
  · exact .refl _ s
  · simp only
    split
    · exact .refl _ s
    · split
      · exact .refl _ s
      · exact blitStream_polls _ _ _ _ _ m s

theorem emitGlyph_polls (m : Mode) (cp : Word) (s : State) : Polls State.offText s (s.emitGlyph m cp) :=
  (drawGlyphAt_polls m _ _ cp s).offText.trans (.of_stuck rfl rfl)

/-- The state a layout step draws from has the cursor moved at most (R193). -/
theorem State.checkRight_polls {s t : State} {mt : Metrics} (h : s.checkRight mt = some t) :
    Polls State.offText s t := by
  rw [State.checkRight_cases] at h
  split at h
  · obtain rfl := Option.some.inj h
    exact .refl _ s
  · split at h
    · obtain rfl := Option.some.inj h
      exact .of_stuck rfl rfl
    · split at h
      · obtain rfl := Option.some.inj h
        exact .refl _ s
      · cases h

theorem putCharCore_polls (m : Mode) (cp : Word) (s : State) : Polls State.offText s (putCharCore m cp s).1 := by
  unfold putCharCore
  split
  · exact .of_stuck rfl rfl
  · split
    · exact .of_stuck rfl rfl
    · split
      · exact .refl _ s
      · split
        · exact .refl _ s
        · rename_i hr
          split
          · exact (State.checkRight_polls hr).trans (emitGlyph_polls m cp _)
          · exact State.checkRight_polls hr

theorem emitString_polls (m : Mode) (cps : List Word) (s : State) :
    Polls State.offText s (emitString m cps s).1 := by
  induction cps generalizing s with
  | nil => exact .refl _ s
  | cons cp cps ih =>
    have h := putCharCore_polls m cp s
    cases hp : putCharCore m cp s with
    | mk t out =>
      rw [hp] at h
      cases out
      · rw [emitString_printed cps hp]
        exact h.trans (ih t)
      · rw [emitString_stopped cps hp]
        exact h

/-! ### Drawings that start no transfer -/

/-- Runs that begin with no transfer in flight meet the barrier in vain (R82, R156). -/
theorem streamRuns_stuck (y : Nat) {s : State} (hq : s.xferBusy = false) (rs : List Run) :
    (rs.foldl (streamRun y) s).stuck = s.stuck := by
  induction rs generalizing s with
  | nil => rfl
  | cons r rs ih =>
    exact (ih (streamRun_quiet y s r)).trans ((streamRun_stuck y s r).trans (State.dmaWait_stuck_of_quiet hq))

/-- A line starts no transfer (R152, R156). -/
theorem hLine_quiet (m : Mode) (x y : Int) (pix : List Nibble) {s : State} (hq : s.xferBusy = false) :
    (hLine m x y pix s).1.xferBusy = false ∧ (hLine m x y pix s).1.stuck = s.stuck := by
  unfold hLine
  split
  · cases m
    · simp only
      rw [hLineBuf_frame]
      exact ⟨hq, rfl⟩
    · exact ⟨streamRuns_quiet _ hq _, streamRuns_stuck _ hq _⟩
  · exact ⟨hq, rfl⟩

/-- Rows of one line start no transfer (R160). -/
theorem hLineRows_quiet (m : Mode) (x y : Int) (pix : List Nibble) (h : Nat) {s : State} (hq : s.xferBusy = false) :
    (hLineRows m x y pix h s).1.xferBusy = false ∧ (hLineRows m x y pix h s).1.stuck = s.stuck := by
  induction h with
  | zero => exact ⟨hq, rfl⟩
  | succ h ih =>
    rw [hLineRows_succ]
    obtain ⟨h1, h2⟩ := hLine_quiet m x (y + h) pix ih.1
    exact ⟨h1, h2.trans ih.2⟩

end Sys2Proof.Machine

/-!
SUPPORT. How a command ends (00_scope.md R17, 60_exceptions.md R271): what every command leaves as it found it from any
state, and what a sound state's command leaves sound, recorded and, at an endless poll, unchanged. Said once for each
command.
-/
namespace Sys2Proof

open Machine

/-! ### Words for what a command does -/

/-- The events of the power-up sequence (R121). -/
def Cfg.powerUpEvents (c : Cfg) : List Event :=
  c.pwrSeq.map (fun p => .pwrTuple p.opcode p.payload) ++ [.delay c.settleDelay]

/-- The right text bound a command draws under: narrowed by the justification of PUT_STRING_XY, else as it was (R200). -/
def Instr.margin (i : Instr) (s : State) : Word :=
  match i with
  | .putStringXy _ j x _ _ _ => reg16 (justifiedBound j (s16 x) (s16 s.maxTextX))
  | _ => s.maxTextX

/-- What is in `STAGE[0]` when a command first polls, of those that draw nothing: the divider of a wipe (R255). -/
def Instr.dividerStage (i : Instr) (s : State) : List Byte :=
  if i.opcode = .flushFull ∧ s.trans ∈ [Transition.wipeLr, .wipeRl, .wipeTb, .wipeBt] then
    List.replicate s.bpr s.cfg.divByte
  else []

/-- Which commands can come to poll for ever, and what such a command has not changed by then (R200, R230, R240, R255,
R304). -/
structure Instr.PollsAt (i : Instr) (s : State) (h : Hang) : Prop where
  starter : i.opcode ∈ [Opcode.flushWindow, .flushFull] ∨
    (i.opcode ∈ [Opcode.drawImage, .drawGlyph, .putChar, .putString, .putStringXy] ∧ i.mode = .direct)
  flush : i.opcode ∈ [Opcode.flushWindow, .flushFull] →
    h.shadow = s.shadow ∧ h.stage1 = [] ∧ h.line = [] ∧ h.stage0 = i.dividerStage s
  cursor : i.opcode ∈ [Opcode.flushWindow, .flushFull, .drawImage, .drawGlyph] → h.curX = s.curX ∧ h.curY = s.curY
  margin : h.maxTextX = i.margin s

end Sys2Proof

namespace Sys2Proof.Machine

/-! ### What a command leaves -/

/-- What no command touches: the host's side, the channel's own state, and the parameters of the run. -/
def State.outside (s : State) : State :=
  { State.reset with
    rx := s.rx, port := s.port, resetPin := s.resetPin, resetAt := s.resetAt, hangAt := s.hangAt, stray := s.stray
    hung := s.hung, cfg := s.cfg, asset := s.asset, assetDir := s.assetDir }

theorem State.hangAt_of_outside {s t : State} (h : t.outside = s.outside) : t.hangAt = s.hangAt :=
  show t.outside.hangAt = s.outside.hangAt by rw [h]

theorem State.outside_of_offText {s t : State} (h : t.offText = s.offText) : t.outside = s.outside :=
  show t.offText.outside = s.offText.outside by rw [h]

/-- How command `i`, begun in `s`, leaves the machine in `t` on a channel that completes its transfers, and where it
stands if the channel does not (R17, R224, R271, R304). -/
structure Ends (i : Instr) (s t : State) : Prop where
  outside : t.outside = s.outside
  seq : t.seq = .idle
  code : t.code ≠ .errIllegal
  quiet : s.Sound → t.xferBusy = false
  sound : s.Sound → s.cfg.fits → t.Sound
  recorded : s.Sound → s.stuck = none → t.Recorded s.trace.length
  polls : s.Sound → s.stuck = none → ∀ h, t.stuck = some h →
    (s.hangs h).dmaWait.clearScratch.Sound ∧ i.PollsAt s h

/-- The command answers a next state, which it `Ends` in. -/
def Answers (i : Instr) (s : State) (r : Result) : Prop := ∃ t, r = .next t ∧ Ends i s t

/-! ### Commands that draw nothing -/

/-- A command that writes registers and memories but starts no transfer. -/
theorem Answers.registers {i : Instr} {s w : State} {c : Code} {r0 r1 r2 r3 : Word} (hc : c ≠ .errIllegal)
    (ho : w.outside = s.outside) (hx : w.xferBusy = s.xferBusy) (hk : w.stuck = s.stuck)
    (hr : ∀ n, s.xferBusy = false → s.Recorded n → w.Recorded n) (hs : s.Sound → s.cfg.fits → w.Sound) :
    Answers i s (.next (w.endCommand c r0 r1 r2 r3)) :=
  ⟨_, rfl,
    { outside := ho
      seq := rfl
      code := hc
      quiet := fun h => hx.trans h.quiet
      sound := fun h hf => (hs h hf).endCommand c r0 r1 r2 r3
      recorded := fun h h0 => hr _ h.quiet (State.Recorded.start h.quiet h0)
      polls := fun _ h0 h hh => absurd ((hk.trans h0).symm.trans hh) (by simp) }⟩

/-- A command that writes registers or `FB` or `SHADOW` and emits no event. -/
theorem Answers.silent {i : Instr} {s w : State} {c : Code} {r0 r1 r2 r3 : Word} (hc : c ≠ .errIllegal)
    (ho : w.outside = s.outside) (hx : w.xferBusy = s.xferBusy) (hk : w.stuck = s.stuck) (ht : w.trace = s.trace)
    (hs : s.Sound → s.cfg.fits → w.Sound) : Answers i s (.next (w.endCommand c r0 r1 r2 r3)) :=
  .registers hc ho hx hk (fun _ _ h => h.congr ht hx (State.hangAt_of_outside ho) hk) hs

/-- A command that only reports (R271). -/
theorem Answers.report (i : Instr) (s : State) {c : Code} (r0 r1 r2 r3 : Word) (hc : c ≠ .errIllegal) :
    Answers i s (.next (s.endCommand c r0 r1 r2 r3)) :=
  .silent hc rfl rfl rfl rfl fun h _ => h

/-- A check that a command makes before it does anything (R276). -/
theorem Answers.guard {i : Instr} {s : State} {p : Prop} [Decidable p] {c : Code} {r0 r1 r2 r3 : Word} {r : Result}
    (hc : c ≠ .errIllegal) (h : ¬p → Answers i s r) : Answers i s (if p then failWith c s r0 r1 r2 r3 else r) := by
  split
  · exact .report i s r0 r1 r2 r3 hc
  · exact h ‹_›

/-- The check that an INIT has succeeded (R274). -/
theorem Answers.guardInited {i : Instr} {s : State} {r : Result} (h : s.inited = true → Answers i s r) :
    Answers i s (if !s.inited then failZero .errNotInit s else r) :=
  .guard (by decide) fun hi => h (by simpa using hi)

/-- A value clamped to the screen, as its register reads, lies between its bounds (R21, R123, R124). -/
theorem s16_clamp_bounds (v : Int) {b : Int} (h0 : 0 ≤ b) (hb : b < 32768) :
    0 ≤ s16 (reg16 (clamp v 0 b)) ∧ s16 (reg16 (clamp v 0 b)) ≤ b := by
  obtain ⟨h1, h2⟩ := clamp_bounds (v := v) h0
  rw [s16_reg16 (by omega) (by omega)]
  exact ⟨h1, h2⟩

/-- Other window registers and another cursor in a sound state. -/
theorem State.Sound.withWindow {s : State} (h : s.Sound) (x0 x1 y0 y1 cx cy : Word)
    (hw : s.inited = true →
      ({ s with minTextX := x0, maxTextX := x1, minDispY := y0, maxDispY := y1 } : State).windowOk) :
    ({ s with minTextX := x0, maxTextX := x1, minDispY := y0, maxDispY := y1, curX := cx, curY := cy } : State).Sound :=
  { h with window := hw }

theorem execSetTextBounds_answers (minX maxX : Word) (s : State) :
    Answers (.setTextBounds minX maxX) s (execSetTextBounds minX maxX s) := by
  refine .guardInited fun hi => .silent (by decide) rfl rfl rfl rfl fun h hf =>
    h.withWindow _ _ s.minDispY s.maxDispY s.curX s.curY fun _ => ?_
  obtain ⟨_, _, hwMax, _, _⟩ := h.geometry hi
  obtain ⟨_, _, _, _, hy⟩ := h.window hi
  have hwidth : s.width ≤ 32767 := hwMax.trans hf.1
  have lo := s16_clamp_bounds (s16 minX) (b := (s.width : Int) - 1) (by omega) (by omega)
  have up := s16_clamp_bounds (s16 maxX) (b := (s.width : Int)) (by omega) (by omega)
  exact ⟨lo.1, lo.2, up.1, up.2, hy⟩

theorem execSetDisplayWindow_answers (minY maxY : Word) (s : State) :
    Answers (.setDisplayWindow minY maxY) s (execSetDisplayWindow minY maxY s) := by
  refine .guardInited fun hi => .silent (by decide) rfl rfl rfl rfl fun h hf =>
    h.withWindow s.minTextX s.maxTextX _ _ s.curX s.curY fun _ => ?_
  obtain ⟨_, _, _, _, hhMax⟩ := h.geometry hi
  obtain ⟨hx0, hx1, hx2, hx3, _⟩ := h.window hi
  have hheight : s.height ≤ 32767 := hhMax.trans hf.2
  have lo := s16_clamp_bounds (s16 minY) (b := (s.height : Int) - 1) (by omega) (by omega)
  have up := s16_clamp_bounds (s16 maxY) (b := (s.height : Int)) (by omega) (by omega)
  exact ⟨hx0, hx1, hx2, hx3, lo.1, lo.2, up.1, up.2⟩

theorem execSetCursor_answers (x y : Word) (s : State) : Answers (.setCursor x y) s (execSetCursor x y s) := by
  exact .guardInited fun _ => .silent (by decide) rfl rfl rfl rfl fun h _ =>
    h.withWindow s.minTextX s.maxTextX s.minDispY s.maxDispY x y h.window

theorem execSetCtrl_answers (ctrl : Word) (s : State) : Answers (.setCtrl ctrl) s (execSetCtrl ctrl s) := by
  exact .guardInited fun _ => .guard (by decide) fun hr => .silent (by decide) rfl rfl rfl rfl fun h _ =>
    { h with ctrlBits := by simpa using hr }

theorem execLoadTransition_answers (kind : Word) (s : State) :
    Answers (.loadTransition kind) s (execLoadTransition kind s) := by
  refine .guardInited fun _ => ?_
  split
  · exact .report _ s _ _ _ _ (by decide)
  · exact .silent (by decide) rfl rfl rfl rfl fun h _ => { h with }

theorem execFill_answers (color : Word) (s : State) : Answers (.fill color) s (execFill color s) := by
  exact .guardInited fun _ => .guard (by decide) fun _ => .silent (by decide) rfl rfl rfl rfl fun h _ =>
    { h with
      fbBytes := fun _ _ => Memory.addresses_filled _ _
      fbWf := Memory.wf_filled _ _ }

/-- The emptied cache has one entry per row, each in the first byte column (R30). -/
theorem emptyShadow_ok {s : State} (hb : 0 < s.bpr) :
    (emptyShadow s.height).length = s.height ∧ ∀ e ∈ emptyShadow s.height, e.col.toNat < s.bpr := by
  refine ⟨List.length_replicate, fun e he => ?_⟩
  rw [List.eq_of_mem_replicate he]
  exact hb

/-- Zeroed storage, where there is one, has one byte per byte of the screen (R120, R125). -/
theorem State.zeroStorage_fb_ok (s : State) (hf : Memory.wf s.fb = true) :
    (s.cfg.hasFb = true → Memory.addresses s.zeroStorage.fb = List.range (s.height * s.bpr)) ∧
      Memory.wf s.zeroStorage.fb = true := by
  rw [State.zeroStorage_fb]
  split
  · exact ⟨fun _ => Memory.addresses_filled _ _, Memory.wf_filled _ _⟩
  · rename_i hn
    exact ⟨fun hb => absurd hb hn, hf⟩

theorem State.geometryOk.bpr_pos {s : State} (h : s.geometryOk) : 0 < s.bpr := by
  obtain ⟨h1, h2, _⟩ := h
  unfold State.bpr
  omega

theorem execClear_answers (s : State) : Answers .clear s (execClear s) := by
  exact .guardInited fun hi => .silent (by decide) rfl rfl rfl rfl fun h _ =>
    { h with
      fbBytes := fun _ hb => (s.zeroStorage_fb_ok h.fbWf).1 hb
      fbWf := (s.zeroStorage_fb_ok h.fbWf).2
      shadowRows := fun _ => emptyShadow_ok (s := s) (h.geometry hi).bpr_pos }

theorem execSelectFont_answers (fontId : Word) (s : State) :
    Answers (.selectFont fontId) s (execSelectFont fontId s) := by
  refine .guardInited fun _ => ?_
  split
  · exact .report _ s _ _ _ _ (by decide)
  · exact .silent (by decide) rfl rfl rfl rfl fun h _ =>
      { h with
        question := by simp [State.loadFont, State.intervalIndex]
        intervals := by simp [State.loadFont] }

theorem execGlyphLookup_answers (cp : Word) (s : State) : Answers (.glyphLookup cp) s (execGlyphLookup cp s) := by
  refine .guardInited fun _ => .guard (by decide) fun _ => ?_
  split
  · exact .report _ s _ _ _ _ (by decide)
  · exact .report _ s _ _ _ _ (by decide)

theorem execMeasure_answers (cp : Word) (s : State) : Answers (.measure cp) s (execMeasure cp s) := by
  refine .guardInited fun _ => .guard (by decide) fun _ => ?_
  split
  · exact .report _ s _ _ _ _ (by decide)
  · exact .report _ s _ _ _ _ (by decide)

/-! ### INIT -/

/-- What INIT accepts (R120). -/
theorem geometryBad_eq_false {c : Cfg} {w h : Word} :
    geometryBad c w h = false ↔
      0 < w.toNat ∧ 0 < h.toNat ∧ w.toNat % 2 = 0 ∧ w.toNat ≤ c.wMax ∧ h.toNat ≤ c.hMax := by
  simp only [geometryBad, Bool.or_eq_false_iff, decide_eq_false_iff_not]
  omega

/-- The power-up sequence emits its events and leaves `DISP` unspecified (R121). -/
theorem State.powerUp_eq (s : State) :
    s.powerUp = { s with disp := [], epoch := s.epoch + 1, trace := s.trace ++ s.cfg.powerUpEvents } := by
  have tuples : ∀ (l : List PwrTuple) (t : State),
      l.foldl (fun t p => t.emit (.pwrTuple p.opcode p.payload)) t =
        { t with trace := t.trace ++ l.map fun p => .pwrTuple p.opcode p.payload } := by
    intro l
    induction l with
    | nil => intro t; simp
    | cons p l ih => intro t; rw [List.foldl_cons, ih]; simp [State.emit]
  unfold State.powerUp
  rw [tuples]
  simp [State.emit, Cfg.powerUpEvents]

/-- Events outside a transfer that start none. -/
theorem State.Recorded.emitAll {n : Nat} {s : State} (h : s.Recorded n) (hq : s.xferBusy = false) {es : List Event}
    (he : ∀ e ∈ es, e.isStart = false) : (s.emitAll es).Recorded n := by
  induction es generalizing s with
  | nil => exact h.congr (by simp [State.emitAll]) rfl rfl rfl
  | cons e es ih =>
    rw [← State.emitAll_emit]
    exact ih (h.emit hq (he e (by simp))) hq fun f hf => he f (List.mem_cons_of_mem _ hf)

/-- Events that neither start nor complete a transfer keep the bus discipline (R81). -/
theorem busRun_free {es : List Event} (he : ∀ e ∈ es, busEvent false e = some false) : busRun false es = some false := by
  induction es with
  | nil => rfl
  | cons e es ih =>
    rw [← List.singleton_append, busRun_append, show busRun false [e] = some false from he e (by simp)]
    exact ih fun f hf => he f (List.mem_cons_of_mem _ hf)

theorem powerUpEvents_free (c : Cfg) :
    ∀ e ∈ c.powerUpEvents, busEvent false e = some false ∧ e.isStart = false := by
  intro e he
  rcases List.mem_append.1 he with he | he
  · obtain ⟨p, _, rfl⟩ := List.mem_map.1 he
    exact ⟨rfl, rfl⟩
  · obtain rfl := List.mem_singleton.1 he
    exact ⟨rfl, rfl⟩

/-- The state INIT leaves on a geometry it accepts, before its status (R120, R121). -/
def State.initialised (s : State) (w h : Word) : State :=
  let z := ({ s.powerUp with geomW := w, geomH := h, inited := true } : State).zeroStorage
  { z with
    minTextX := 0, maxTextX := reg16 w.toNat, minDispY := 0, maxDispY := reg16 h.toNat, curX := 0, curY := 0 }

theorem execInit_accepted {s : State} {w h : Word} (hg : geometryBad s.cfg w h = false) :
    execInit w h s = .next ((s.initialised w h).endCommand .ok w h 0 0) := by
  unfold execInit
  rw [hg]
  rfl

theorem State.Sound.initialised {s : State} {w h : Word} (hs : s.Sound) (hf : s.cfg.fits)
    (hg : geometryBad s.cfg w h = false) : (s.initialised w h).Sound := by
  obtain ⟨g1, g2, g3, g4, g5⟩ := geometryBad_eq_false.1 hg
  obtain ⟨hfw, hfh⟩ := hf
  unfold State.initialised
  rw [s.powerUp_eq]
  generalize hz : ({ s with
    disp := [], epoch := s.epoch + 1, trace := s.trace ++ s.cfg.powerUpEvents
    geomW := w, geomH := h, inited := true } : State) = z
  have hzf : Memory.wf z.fb = true := hz ▸ hs.fbWf
  have hzb : 0 < z.bpr := by
    subst hz
    show 0 < w.toNat / 2
    omega
  have fb := z.zeroStorage_fb_ok hzf
  have sh := emptyShadow_ok hzb
  subst hz
  exact
    { geometry := fun _ => ⟨g1, g3, g4, g2, g5⟩
      window := fun _ => by
        have hw : s16 (reg16 (w.toNat : Int)) = w.toNat := s16_reg16_nat (by omega)
        have hh : s16 (reg16 (h.toNat : Int)) = h.toNat := s16_reg16_nat (by omega)
        show 0 ≤ s16 0 ∧ s16 0 ≤ (w.toNat : Int) - 1 ∧ 0 ≤ s16 (reg16 w.toNat) ∧ s16 (reg16 w.toNat) ≤ w.toNat ∧
          0 ≤ s16 0 ∧ s16 0 ≤ (h.toNat : Int) - 1 ∧ 0 ≤ s16 (reg16 h.toNat) ∧ s16 (reg16 h.toNat) ≤ h.toNat
        rw [hw, hh, show s16 0 = 0 from rfl]
        omega
      ctrlBits := hs.ctrlBits
      question := hs.question
      intervals := hs.intervals
      fbBytes := fun _ hb => fb.1 hb
      fbWf := fb.2
      dispWf := rfl
      dispRange := fun a ha => absurd ha (by simp [Memory.addresses])
      assetWf := hs.assetWf
      shadowRows := fun _ => sh
      quiet := hs.quiet
      scratch := hs.scratch
      bus := by
        show busRun false (s.trace ++ s.cfg.powerUpEvents) = some false
        rw [busRun_append, hs.bus]
        exact busRun_free fun e he => (powerUpEvents_free s.cfg e he).1 }

theorem execInit_answers (w h : Word) (s : State) : Answers (.init w h) s (execInit w h s) := by
  cases hg : geometryBad s.cfg w h with
  | true =>
    unfold execInit
    rw [if_pos hg]
    exact .report _ s _ _ _ _ (by decide)
  | false =>
    rw [execInit_accepted hg]
    refine .registers (by decide) ?_ ?_ ?_ (fun n hq hr => ?_) fun hs hf => hs.initialised hf hg
    · unfold State.initialised
      rw [s.powerUp_eq]
      rfl
    · unfold State.initialised
      rw [s.powerUp_eq]
      rfl
    · unfold State.initialised
      rw [s.powerUp_eq]
      rfl
    · refine (hr.emitAll hq fun e he => (powerUpEvents_free s.cfg e he).2).congr ?_ ?_ ?_ ?_
      all_goals
        unfold State.initialised
        rw [s.powerUp_eq]
        rfl

end Sys2Proof.Machine

/-!
SUPPORT. How a command that draws or flushes ends, and where it stands if the channel never completes one of its
transfers (41_rasterizer.md, 42_font_glyph.md, 43_dma_streamer.md, 44_transition.md; 70_reset_and_hazards.md R304).
-/
namespace Sys2Proof.Machine

/-- `v` with what the end of a drawing command writes taken from `t`: the status, the margin it gives back, the pending
transition, the scratch memories it drops (R34, R200, R252, R271). -/
def State.withEndOf (v t : State) : State :=
  { v with
    seq := t.seq, code := t.code, res0 := t.res0, res1 := t.res1, res2 := t.res2, res3 := t.res3
    maxTextX := t.maxTextX, trans := t.trans, stage0 := t.stage0, stage1 := t.stage1, line := t.line }

/-- `u` is `s` with the cursor and the right text bound a drawing begins with (R200). -/
def State.Begins (s u : State) : Prop := u = { s with curX := u.curX, curY := u.curY, maxTextX := u.maxTextX }

theorem State.Begins.refl (s : State) : s.Begins s := rfl

theorem State.Sound.begins {s u : State} (h : s.Sound) (hu : s.Begins u) (hw : u.inited = true → u.windowOk) :
    u.Sound := by
  rw [hu] at hw ⊢
  exact { h with window := hw }

/-- What closes a drawing in a sound state leaves it sound, with the window it began with (R122). -/
theorem State.Sound.withEndOf {v t : State} (h : v.clearScratch.Sound) (ht : t = v.withEndOf t)
    (hc : t.clearScratch = t) (hw : t.inited = true → t.windowOk) : t.Sound := by
  have hsc := (State.clearScratch_eq_iff t).1 hc
  rw [ht] at hw hsc ⊢
  exact
    { h with
      geometry := h.geometry
      window := hw
      ctrlBits := h.ctrlBits
      question := h.question
      intervals := h.intervals
      fbBytes := h.fbBytes
      dispRange := h.dispRange
      shadowRows := h.shadowRows
      scratch := hsc }

/-- A drawing command ends. It began its drawing in `u` and had drawn all in `v`. -/
theorem Ends.drawing {i : Instr} {s u v t : State} (hi : s.inited = true) (hu : s.Begins u)
    (hw : s.windowOk → u.windowOk) (hpolls : Polls State.offText u v)
    (hdraw : u.Drawable → u.xferBusy = false → Kept u v ∧ v.xferBusy = false)
    (hat : s.Sound → u.Drawable → s.stuck = none → ∀ h, v.stuck = some h → i.PollsAt s h)
    (ht : t = v.withEndOf t) (hmargin : t.maxTextX = s.maxTextX) (hseq : t.seq = .idle) (hcode : t.code ≠ .errIllegal)
    (hscratch : s.Sound → t.clearScratch = t) : Ends i s t := by
  have hui : u.inited = true := by
    rw [hu]
    exact hi
  have uSound (h : s.Sound) : u.Sound := h.begins hu fun _ => hw (h.window hi)
  have drawn (h : s.Sound) : Kept u v ∧ v.xferBusy = false :=
    hdraw ((uSound h).drawable hui) (uSound h).quiet
  refine ⟨?_, hseq, hcode, fun h => ?_, fun h _ => ?_, fun h h0 => ?_, fun h h0 p hp => ⟨?_, ?_⟩⟩
  · have hv : t.outside = v.outside := by
      rw [ht]
      rfl
    rw [hv, State.outside_of_offText hpolls.same, hu]
    rfl
  · rw [ht]
    exact (drawn h).2
  · refine ((uSound h).of_drawing (drawn h).1 (drawn h).2).withEndOf ht (hscratch h) fun _ => ?_
    have wu : ({ u with maxTextX := s.maxTextX } : State).windowOk := by
      rw [hu]
      exact h.window hi
    have wv : ({ v with maxTextX := s.maxTextX } : State).windowOk := by
      rw [(drawn h).1.frame]
      exact wu
    rw [ht]
    show ({ v with maxTextX := t.maxTextX } : State).windowOk
    rw [hmargin]
    exact wv
  · have r := (drawn h).1.record _ (uSound h).busOk (State.Recorded.start (uSound h).quiet (by rw [hu]; exact h0))
    rw [show u.trace = s.trace by rw [hu]] at r
    exact r.congr (by rw [ht]; rfl) (by rw [ht]; rfl) (by rw [ht]; rfl) (by rw [ht]; rfl)
  · have hp' : v.stuck = some p := by
      rw [ht] at hp
      exact hp
    rcases (drawn h).1.hang p hp' with hm | w
    · rw [hu] at hm
      exact absurd (h0.symm.trans hm) (by simp)
    · refine h.hangs w hu (fun _ => ?_) hi
      have := hw (h.window hi)
      rw [hu] at this
      rw [w.maxTextX]
      exact this
  · rw [ht] at hp
    exact hat h ((uSound h).drawable hui) h0 p hp

/-! ### Where a command polls -/

theorem Polls.polled {part : State → State} {s t : State} (h : Polls part s t) (h0 : s.stuck = none) {p : Hang}
    (hp : t.stuck = some p) : ∃ v, part v = part s ∧ p = v.polling :=
  (h.hang p hp).resolve_left (by simp [h0])

/-- What is read of the part left alone is read as before. -/
theorem reads_same {α : Type} (f : State → α) {part : State → State} {s t : State} (h : part t = part s)
    (hf : ∀ v, f (part v) = f v := by exact fun _ => rfl) : f t = f s := by
  rw [← hf t, h, hf]

theorem Polls.maxTextX {s t : State} (h : Polls State.offText s t) : t.maxTextX = s.maxTextX :=
  reads_same State.maxTextX h.same

/-- Only PUT_STRING_XY draws under another margin (R200). -/
theorem margin_eq_maxTextX {i : Instr} (h : i.opcode ≠ .putStringXy) (s : State) : i.margin s = s.maxTextX := by
  cases i
  case putStringXy => exact absurd rfl h
  all_goals rfl

/-- A flush polls with nothing changed but the display side and the divider it has staged (R240, R255). -/
theorem pollsAt_flush {i : Instr} {s u v : State} (ho : i.opcode ∈ [Opcode.flushWindow, .flushFull]) (hs : s.Sound)
    (hu : u = { s with stage0 := i.dividerStage s }) (hv : v.offDisplay = u.offDisplay) : i.PollsAt s v.polling := by
  obtain ⟨_, h1, hl⟩ := hs.scratch
  subst hu
  have hne : i.opcode ≠ .putStringXy := fun e => by simp [e] at ho
  exact
    { starter := .inl ho
      flush := fun _ =>
        ⟨(reads_same State.shadow hv :), (reads_same State.stage1 hv).trans h1, (reads_same State.line hv).trans hl,
          reads_same State.stage0 hv⟩
      cursor := fun _ => ⟨(reads_same State.curX hv :), (reads_same State.curY hv :)⟩
      margin := (reads_same State.maxTextX hv).trans (margin_eq_maxTextX hne s).symm }

/-- The direct draw of an image or a glyph polls with the cursor where it was (R230, R233). -/
theorem pollsAt_blit {i : Instr} {s v : State} (ho : i.opcode ∈ [Opcode.drawImage, .drawGlyph])
    (hm : i.mode = .direct) (hv : v.offPicture = s.offPicture) : i.PollsAt s v.polling := by
  have hne : i.opcode ≠ .putStringXy := fun e => by simp [e] at ho
  have hnf : i.opcode ∉ [Opcode.flushWindow, .flushFull] := fun e => by
    rcases List.mem_pair.1 e with e | e <;> simp [e] at ho
  exact
    { starter := .inr ⟨by rcases List.mem_pair.1 ho with e | e <;> simp [e], hm⟩
      flush := fun e => absurd e hnf
      cursor := fun _ => ⟨(reads_same State.curX hv :), (reads_same State.curY hv :)⟩
      margin := (reads_same State.maxTextX hv).trans (margin_eq_maxTextX hne s).symm }

/-- A direct text command polls under the margin it draws with (R193, R200). -/
theorem pollsAt_text {i : Instr} {s u v : State} (ho : i.opcode ∈ [Opcode.putChar, .putString, .putStringXy])
    (hm : i.mode = .direct) (hu : u.maxTextX = i.margin s) (hv : v.offText = u.offText) : i.PollsAt s v.polling := by
  have hno : i.opcode ∉ [Opcode.flushWindow, .flushFull, .drawImage, .drawGlyph] := fun e => by
    simp only [List.mem_cons, List.not_mem_nil, or_false] at ho e
    rcases e with e | e | e | e <;> simp [e] at ho
  exact
    { starter := .inr ⟨List.mem_cons_of_mem _ (List.mem_cons_of_mem _ ho), hm⟩
      flush := fun e => absurd (List.mem_append_left [Opcode.drawImage, .drawGlyph] e) hno
      cursor := fun e => absurd e hno
      margin := (reads_same State.maxTextX hv).trans hu }

/-! ### Flushes -/

theorem execFlushWindow_answers (x y w h : Word) (s : State) :
    Answers (.flushWindow x y w h) s (execFlushWindow x y w h s) := by
  refine .guardInited fun hi => .guard (by decide) fun _ => ?_
  simp only
  generalize hr : s.flushRect (s16 x) (s16 y) (u16 w) (u16 h) = r
  split
  · exact .report _ s _ _ _ _ (by decide)
  · rename_i hne
    have hp := (flushRows_polls s r).trans (dmaWait_polls _)
    refine ⟨_, rfl, Ends.drawing hi (State.Begins.refl s) id hp.offPicture.offText
      (fun hd _ => ⟨?_, State.dmaWait_xferBusy _⟩) (fun hs _ h0 p hh => ?_) rfl hp.offPicture.offText.maxTextX rfl
      (show Code.ok ≠ .errIllegal by decide) fun hs => ?_⟩
    · subst hr
      obtain ⟨b1, b2, b3, b4, b5, b6, b7, b8⟩ := State.flushRect_bounds hd.geometry.2.1 (by simpa using hne)
      exact (State.flushRows_spec b1 b2 b3 b4 b5 b6 b8).1.kept.trans (Kept.dmaWait _)
    · obtain ⟨v, hv, rfl⟩ := hp.polled h0 hh
      refine pollsAt_flush (by simp [Instr.opcode]) hs ?_ hv
      rw [show Instr.dividerStage (.flushWindow x y w h) s = s.stage0 from hs.scratch.1.symm]
    · obtain ⟨e0, e1, el⟩ := hs.scratch
      exact (State.clearScratch_eq_iff _).2 ⟨(reads_same State.stage0 hp.same).trans e0,
        (reads_same State.stage1 hp.same).trans e1, (reads_same State.line hp.same).trans el⟩

/-- Staging the divider leaves all but the scratch memories alone. -/
theorem staged_polls (k : Transition) (s : State) : Polls State.offPicture s (k.staged s) := by
  cases k
  case none | irisIn | irisOut => exact .refl _ s
  all_goals exact setStage_polls s 0 _

/-- What a transition has staged when it sends its first byte (R255). -/
theorem staged_eq (k : Transition) {s : State} (hg : s.geometryOk) (h0 : s.stage0 = []) :
    k.staged s = { s with
      stage0 := if k ∈ [Transition.wipeLr, .wipeRl, .wipeTb, .wipeBt] then List.replicate s.bpr s.cfg.divByte
        else [] } := by
  have wipe : s.stageDivider = { s with stage0 := List.replicate s.bpr s.cfg.divByte } := by
    conv_lhs => rw [show s.stageDivider = { s with stage0 := s.stageDivider.stage0 } from rfl]
    rw [State.stageDivider_stage0 hg h0]
    rfl
  have plain : s = { s with stage0 := [] } := by rw [← h0]
  cases k
  case none | irisIn | irisOut => exact plain
  all_goals exact wipe

theorem execFlushFull_answers (s : State) : Answers .flushFull s (execFlushFull s) := by
  refine .guardInited fun hi => .guard (by decide) fun _ => ?_
  have hp := (runTransition_polls s.trans s).trans (dmaWait_polls _)
  have hall := ((staged_polls s.trans s).trans hp.offPicture).offText
  refine ⟨_, rfl, Ends.drawing hi (State.Begins.refl s) id hall (fun hd _ => ⟨?_, State.dmaWait_xferBusy _⟩)
    (fun hs hd h0 p hh => ?_) rfl hall.maxTextX rfl (show Code.ok ≠ .errIllegal by decide) fun _ => rfl⟩
  · exact (runTransition_spec s.trans hd.geometry.bpr_pos).1.kept.trans (Kept.dmaWait _)
  · have hu := staged_eq s.trans hd.geometry hs.scratch.1
    obtain ⟨v, hv, rfl⟩ := hp.polled (by rw [hu]; exact h0) hh
    refine pollsAt_flush (by simp [Instr.opcode]) hs (hu.trans ?_) hv
    rw [Instr.dividerStage, if_congr (and_iff_right (show Instr.opcode .flushFull = .flushFull from rfl)) rfl rfl]

/-! ### Lines and images -/

theorem execWriteHline_answers (m : Mode) (x y n : Word) (payload : List Byte) (s : State) :
    Answers (.writeHline m x y n payload) s (execWriteHline m x y n payload s) := by
  refine .guardInited fun hi => .guard (by decide) fun _ => .guard (by decide) fun _ => ?_
  have hl := Polls.of_stuck (part := State.offPicture) (s := s)
    (t := s.setLine (payloadPixels (u16 n) payload)) rfl rfl
  have kl := Kept.setLine s (payloadPixels (u16 n) payload)
  simp only
  generalize hs1 : s.setLine (payloadPixels (u16 n) payload) = s1 at *
  have hp := ((hl.trans (hLine_polls m (s16 x) (s16 y) (s1.line.take (u16 n)) s1)).trans
    (dmaWait_polls _).offPicture).offText
  refine ⟨_, rfl, Ends.drawing hi (State.Begins.refl s) id hp (fun hd _ => ⟨?_, State.dmaWait_xferBusy _⟩)
    (fun hs _ h0 p hh => ?_) rfl hp.maxTextX rfl (show Code.ok ≠ .errIllegal by decide) fun _ => rfl⟩
  · exact (kl.trans (hLine_spec _ _ _ (kl.drawable hd)).2).trans (Kept.dmaWait _)
  · obtain ⟨q, k⟩ := hLine_quiet m (s16 x) (s16 y) (s1.line.take (u16 n)) (s := s1) (by subst hs1; exact hs.quiet)
    rw [State.dmaWait_stuck_of_quiet q, k, ← hs1, State.setLine_stuck, h0] at hh
    cases hh

/-- A draw that stages nothing keeps the scratch memories. -/
theorem State.withDrawOf_scratch {m : Mode} {s t : State} (h : t = s.withDrawOf m t)
    (hs : s.stage0 = [] ∧ s.stage1 = [] ∧ s.line = []) : t.stage0 = [] ∧ t.stage1 = [] ∧ t.line = [] := by
  rw [h]
  cases m
  · exact hs
  · exact hs

theorem execDrawRect_answers (m : Mode) (x y w h color : Word) (s : State) :
    Answers (.drawRect m x y w h color) s (execDrawRect m x y w h color s) := by
  refine .guardInited fun hi => .guard (by decide) fun _ => ?_
  simp only
  generalize List.replicate (u16 w) (colour color) = pix
  have hp := ((hLineRows_polls m (s16 x) (s16 y) pix (u16 h) s).trans (dmaWait_polls _).offPicture).offText
  refine ⟨_, rfl, Ends.drawing hi (State.Begins.refl s) id hp (fun hd _ => ⟨?_, State.dmaWait_xferBusy _⟩)
    (fun hs _ h0 p hh => ?_) rfl hp.maxTextX rfl (show Code.ok ≠ .errIllegal by decide) fun hs => ?_⟩
  · exact (hLineRows_spec _ _ _ _ hd).2.trans (Kept.dmaWait _)
  · obtain ⟨q, k⟩ := hLineRows_quiet m (s16 x) (s16 y) pix (u16 h) hs.quiet
    rw [State.dmaWait_stuck_of_quiet q, k, h0] at hh
    cases hh
  · have hf := (hLineRows_spec (m := m) (s16 x) (s16 y) pix (u16 h) (hs.drawable hi)).1
    exact (State.clearScratch_eq_iff _).2 (State.withDrawOf_scratch hf hs.scratch :)

/-- A buffered blit neither starts a transfer nor meets one. -/
theorem stuck_of_bufferedBlit {s t : State} (h : t = s.withBlitOf .buffered t) : t.stuck = s.stuck := by
  rw [h]
  rfl

/-- A command ends that blits an image or a glyph and drops what it has staged (R165, R191). -/
theorem Ends.blit {i : Instr} {m : Mode} {s v t : State} (hi : s.inited = true)
    (ho : i.opcode ∈ [Opcode.drawImage, .drawGlyph]) (hm : i.mode = m) (hp : Polls State.offPicture s v)
    (spec : s.Drawable → s.xferBusy = false → Kept s v ∧ v = s.withBlitOf m v ∧ v.xferBusy = false)
    (ht : t = v.withEndOf t) (hx : t.maxTextX = v.maxTextX) (hseq : t.seq = .idle) (hcode : t.code ≠ .errIllegal)
    (hscratch : t.clearScratch = t) : Ends i s t := by
  refine .drawing hi (State.Begins.refl s) id hp.offText (fun hd hq => ⟨(spec hd hq).1, (spec hd hq).2.2⟩)
    (fun hs hd h0 p hh => ?_) ht (hx.trans hp.offText.maxTextX) hseq hcode fun _ => hscratch
  cases m with
  | buffered => simp [stuck_of_bufferedBlit (spec hd hs.quiet).2.1, h0] at hh
  | direct =>
    obtain ⟨w, hw, rfl⟩ := hp.polled h0 hh
    exact pollsAt_blit ho hm hw

theorem execDrawImage_answers (m : Mode) (x y fileId : Word) (s : State) :
    Answers (.drawImage m x y fileId) s (execDrawImage m x y fileId s) := by
  refine .guardInited fun hi => .guard (by decide) fun _ => ?_
  split
  · exact .report _ s _ _ _ _ (by decide)
  · exact .guard (by decide) fun _ => ⟨_, rfl, Ends.blit hi (by simp [Instr.opcode]) rfl
      (blitStream_polls _ _ _ _ _ m s) (blitStream_spec _ _ _ _ _) rfl rfl rfl
      (show Code.ok ≠ .errIllegal by decide) rfl⟩

/-! ### Glyphs and text -/

theorem drawGlyphAt_code (m : Mode) (x y : Int) (cp : Word) (s : State) :
    (drawGlyphAt m x y cp s).code ≠ .errIllegal := by
  unfold drawGlyphAt
  split
  · simp
  · simp only
    split
    · simp
    · split
      · simp
      · simp

theorem execDrawGlyph_answers (m : Mode) (x y cp : Word) (s : State) :
    Answers (.drawGlyph m x y cp) s (execDrawGlyph m x y cp s) := by
  refine .guardInited fun hi => .guard (by decide) fun _ => .guard (by decide) fun _ => ?_
  have hcode := drawGlyphAt_code m (s16 x) (s16 y) cp s
  simp only
  split
  · exact ⟨_, rfl, Ends.blit hi (by simp [Instr.opcode]) rfl (drawGlyphAt_polls m _ _ cp s)
      (drawGlyphAt_spec m _ _ cp) rfl rfl rfl hcode rfl⟩
  · exact .report _ s _ _ _ _ hcode

theorem layoutCode_ne_errIllegal (all : Bool) : layoutCode all ≠ .errIllegal := by
  cases all
  · decide
  · decide

/-- Buffered text neither starts a transfer nor meets one. -/
theorem LaidOut.stuck {s t : State} (h : LaidOut .buffered s t) : t.stuck = s.stuck := by
  rw [h.frame]
  rfl

/-- A text command ends: it laid out its text from `u` to `v` and gives the margin back (R193, R200). -/
theorem Ends.text {i : Instr} {m : Mode} {s u v t : State} (hi : s.inited = true)
    (ho : i.opcode ∈ [Opcode.putChar, .putString, .putStringXy]) (hm : i.mode = m) (hu : s.Begins u)
    (hmargin : u.maxTextX = i.margin s) (hw : s.windowOk → u.windowOk) (hp : Polls State.offText u v)
    (hl : u.Drawable → u.xferBusy = false → LaidOut m u v) (ht : t = v.withEndOf t) (hx : t.maxTextX = s.maxTextX)
    (hseq : t.seq = .idle) (hcode : t.code ≠ .errIllegal) (hscratch : t.clearScratch = t) : Ends i s t := by
  refine .drawing hi hu hw hp (fun hd hq => ⟨(hl hd hq).kept, (hl hd hq).quiet⟩) (fun hs hd h0 p hh => ?_) ht hx hseq
    hcode fun _ => hscratch
  have hu0 : u.stuck = none := by
    rw [hu]
    exact h0
  have huq : u.xferBusy = false := by
    rw [hu]
    exact hs.quiet
  cases m with
  | buffered => simp [(hl hd huq).stuck, hu0] at hh
  | direct =>
    obtain ⟨w, hw, rfl⟩ := hp.polled hu0 hh
    exact pollsAt_text ho hm hmargin hw

theorem execPutChar_answers (m : Mode) (cp : Word) (s : State) :
    Answers (.putChar m cp) s (execPutChar m cp s) := by
  refine .guardInited fun hi => .guard (by decide) fun _ => .guard (by decide) fun _ => ?_
  have hp := putCharCore_polls m cp s
  exact ⟨_, rfl, Ends.text hi (by simp [Instr.opcode]) rfl (State.Begins.refl s) rfl id hp
    (putCharCore_laidOut m cp) rfl hp.maxTextX rfl (layoutCode_ne_errIllegal _) rfl⟩

theorem execPutString_answers (m : Mode) (n : Word) (chars : List Word) (s : State) :
    Answers (.putString m n chars) s (execPutString m n chars s) := by
  refine .guardInited fun hi => .guard (by decide) fun _ => .guard (by decide) fun _ => .guard (by decide) fun _ => ?_
  have hp := emitString_polls m chars s
  exact ⟨_, rfl, Ends.text hi (by simp [Instr.opcode]) rfl (State.Begins.refl s) rfl id hp
    (emitString_laidOut m chars) rfl hp.maxTextX rfl (layoutCode_ne_errIllegal _) rfl⟩

/-- The margin of a justified string keeps the window invariant (R122, R200). -/
theorem State.windowOk.justified {s : State} (h : s.windowOk) (j : Justify) (x : Int) :
    0 ≤ s16 (reg16 (justifiedBound j x (s16 s.maxTextX))) ∧
      s16 (reg16 (justifiedBound j x (s16 s.maxTextX))) ≤ s.width := by
  obtain ⟨_, _, h0, h1, _⟩ := h
  have hr : s16 (reg16 (s16 s.maxTextX)) = s16 s.maxTextX := by rw [reg16_s16]
  cases j
  case left | center => exact hr.symm ▸ ⟨h0, h1⟩
  case right =>
    have := s16_clamp_bounds x h0 (s16_upper s.maxTextX)
    exact ⟨this.1, this.2.trans h1⟩

theorem execPutStringXy_answers (m : Mode) (j : Justify) (x y n : Word) (chars : List Word) (s : State) :
    Answers (.putStringXy m j x y n chars) s (execPutStringXy m j x y n chars s) := by
  refine .guardInited fun hi => .guard (by decide) fun _ => .guard (by decide) fun _ => .guard (by decide) fun _ => ?_
  simp only
  generalize reg16 (max (justifiedStart j (s16 x) (s.stringWidth chars)) (s16 s.minTextX)) = sx
  generalize hu : ({ s with
    maxTextX := reg16 (justifiedBound j (s16 x) (s16 s.maxTextX)), curX := sx, curY := y } : State) = u
  have hb : s.Begins u := by
    subst hu
    rfl
  have hm : u.maxTextX = Instr.margin (.putStringXy m j x y n chars) s := by
    subst hu
    rfl
  refine ⟨_, rfl, Ends.text hi (by simp [Instr.opcode]) rfl hb hm (fun h => ?_) (emitString_polls m chars u)
    (emitString_laidOut m chars) rfl rfl rfl (layoutCode_ne_errIllegal _) rfl⟩
  have hj := h.justified j (s16 x)
  obtain ⟨w1, w2, _, _, w3⟩ := h
  subst hu
  exact ⟨w1, w2, hj.1, hj.2, w3⟩

/-! ### Every command -/

/-- Every command answers a next state, whatever state it begins in (R17, R271). -/
theorem exec_answers (i : Instr) (s : State) : Answers i s (exec i s) := by
  cases i
  case init w h => exact execInit_answers w h s
  case setTextBounds a b => exact execSetTextBounds_answers a b s
  case setDisplayWindow a b => exact execSetDisplayWindow_answers a b s
  case clear => exact execClear_answers s
  case fill c => exact execFill_answers c s
  case flushWindow x y w h => exact execFlushWindow_answers x y w h s
  case flushFull => exact execFlushFull_answers s
  case setCtrl c => exact execSetCtrl_answers c s
  case setCursor x y => exact execSetCursor_answers x y s
  case writeHline m x y n payload => exact execWriteHline_answers m x y n payload s
  case drawRect m x y w h c => exact execDrawRect_answers m x y w h c s
  case drawImage m x y f => exact execDrawImage_answers m x y f s
  case selectFont f => exact execSelectFont_answers f s
  case glyphLookup c => exact execGlyphLookup_answers c s
  case measure c => exact execMeasure_answers c s
  case drawGlyph m x y c => exact execDrawGlyph_answers m x y c s
  case putChar m c => exact execPutChar_answers m c s
  case putString m n cs => exact execPutString_answers m n cs s
  case putStringXy m j x y n cs => exact execPutStringXy_answers m j x y n cs s
  case loadTransition k => exact execLoadTransition_answers k s

theorem exec_ends {i : Instr} {s t : State} (h : exec i s = .next t) : Ends i s t := by
  obtain ⟨u, hu, e⟩ := exec_answers i s
  rw [hu] at h
  injection h with h
  exact h ▸ e

end Sys2Proof.Machine

/-!
SUPPORT. What a step and a run keep (10_state.md R20, 40_framebuffer_manager.md R122, 70_reset_and_hazards.md R290,
R291, R304), and the statements on the sequencer's four outcomes (00_scope.md R17).
-/
namespace Sys2Proof.Machine

/-! ### The invariant from the state before -/

/-- The invariant of a state in which no command polls for ever. -/
theorem State.Inv.of_sound {s : State} (h : s.Sound) (hh : s.hung = false) (hk : s.stuck = none)
    (hb : s.seq = .busy ↔ s.rx ≠ []) (hr : decode s.rx = .incomplete)
    (hc : s.code = .errIllegal ↔ s.seq = .halted) : s.Inv where
  sound _ := h
  hangSound e := by simp [hh] at e
  guard := h.quiet.trans hh.symm
  unstuck := hk
  busyRx := by simpa [hh] using hb
  rxIncomplete := hr
  haltedCode := hc

/-- The invariant of an engine that is idle with nothing taken. -/
theorem State.Inv.of_idle {s : State} (h : s.Sound) (hh : s.hung = false) (hk : s.stuck = none) (hs : s.seq = .idle)
    (hr : s.rx = []) (hc : s.code ≠ .errIllegal) : s.Inv :=
  .of_sound h hh hk (by simp [hs, hr]) (by rw [hr]; rfl) (by simp [hs, hc])

/-- The bus discipline held so far, in an engine that polls for ever too. -/
theorem State.Inv.busRun {s : State} (h : s.Inv) : ∃ g, Machine.busRun false s.trace = some g := by
  cases hh : s.hung with
  | false => exact ⟨_, (h.sound hh).bus⟩
  | true =>
    have hx : s.xferBusy = true := h.guard.trans hh
    have hb := (h.hangSound hh).bus
    rw [State.clearScratch_trace, State.dmaWait_trace, hx, if_pos rfl] at hb
    simpa using busRun_take hb s.trace.length

theorem State.Inv.assetWf {s : State} (h : s.Inv) : Memory.wf s.asset = true := by
  cases hh : s.hung with
  | false => exact (h.sound hh).assetWf
  | true => exact (h.hangSound hh).assetWf

/-- Reset establishes the invariant (R290). -/
theorem State.Inv.applyReset {s : State} (h : s.Inv) : s.applyReset.Inv := by
  obtain ⟨g, hg⟩ := h.busRun
  exact .of_idle (State.applyReset_sound h.assetWf hg) rfl rfl rfl rfl (show Code.ok ≠ .errIllegal by decide)

/-- Every part begins in the invariant (R38). -/
theorem State.boot_inv (c : Cfg) {asset : Memory} (dir : List DirEntry) (h : Memory.wf asset = true) :
    (State.boot c asset dir).Inv := by
  have r : (State.boot c asset dir).applyReset.Sound := State.applyReset_sound (g := false) h rfl
  refine .of_idle ?_ rfl rfl rfl rfl (show Code.ok ≠ .errIllegal by decide)
  exact { r with bus := rfl }

/-! ### A command keeps the invariant -/

/-- A poll that is recorded is one for a transfer that the channel never completes (R304). -/
theorem Ends.hangAt_of_stuck {i : Instr} {s t : State} (e : Ends i s t) (hs : s.Sound) (h0 : s.stuck = none) {h : Hang}
    (hk : t.stuck = some h) : s.hangAt.isSome = true := by
  obtain ⟨_, _, _, ⟨m, hm, _⟩, _⟩ := (e.recorded hs h0).2.2.2 h hk
  rw [← State.hangAt_of_outside e.outside, hm]
  rfl

/-- On a sound state the record is what comes of the command (R304). -/
theorem Ends.hangOf {i : Instr} {s t : State} (e : Ends i s t) (hs : s.Sound) (h0 : s.stuck = none) :
    s.hangOf t = t.stuck := by
  cases hk : t.stuck with
  | none => unfold State.hangOf; split <;> simp [hk]
  | some h => exact State.hangOf_eq_some.2 ⟨e.hangAt_of_stuck hs h0 hk, hk⟩

/-- Whatever comes of a command keeps the invariant (R122, R291, R304). -/
theorem Ends.outcome_inv {i : Instr} {s t : State} (e : Ends i s t) (hs : s.Sound) (hf : s.cfg.fits)
    (h0 : s.stuck = none) (hh : s.hung = false) (hrx : s.rx = []) (hc : s.code ≠ .errIllegal) : (s.outcome t).Inv := by
  rcases s.outcome_cases t with ⟨ho, hn, _⟩ | ⟨n, _, ho, _⟩ | ⟨h, hk, ho, _⟩
  · rw [ho]
    rw [e.hangOf hs h0] at hn
    exact .of_idle (e.sound hs hf) ((reads_same State.hung e.outside).trans hh) hn e.seq
      ((reads_same State.rx e.outside).trans hrx) e.code
  · rw [ho]
    exact .of_idle (hs.abandon (e.sound hs hf) n) rfl rfl rfl rfl (show Code.ok ≠ .errIllegal by decide)
  · rw [ho]
    rw [e.hangOf hs h0] at hk
    exact
      { sound := fun e' => by cases e'
        hangSound := fun _ => (e.polls hs h0 h hk).1
        guard := rfl
        unstuck := h0
        busyRx := ⟨fun _ => .inr rfl, fun _ => rfl⟩
        rxIncomplete := show decode s.rx = .incomplete by rw [hrx]; rfl
        haltedCode := show s.code = .errIllegal ↔ Seq.busy = .halted by simp [hc] }

/-- Every step keeps the invariant (R17, R20, R122, R290, R291, R304). -/
theorem State.Inv.step {s t : State} (h : s.Inv) (hf : s.cfg.fits) (hstep : Machine.step s = .next t) : t.Inv := by
  rcases step_cases hstep with ⟨_, rfl⟩ | ⟨_, _, rfl⟩ | ⟨_, hh, hseq, hnext⟩
  · exact h.applyReset
  · exact h
  · have hs := h.sound hh
    have hc : s.code ≠ .errIllegal := fun e => hseq (h.haltedCode.1 e)
    rcases hnext with ⟨i, rest, _, _, hrun⟩ | ⟨_, hdr, rest, _, rfl⟩ | ⟨hw, rfl⟩
    · obtain ⟨u, hu, rfl⟩ := State.runCommand_cases hrun
      exact (exec_ends hu).outcome_inv (hs.takePacket rest) hf h.unstuck hh rfl hc
    · exact .of_sound (hs.haltIllegal hdr rest) hh h.unstuck (by simp) rfl (by simp)
    · refine .of_sound hs.waitForBytes hh h.unstuck ?_ hw ?_
      · cases hb : s.rx ++ s.port <;> simp [hb]
      · cases hb : s.rx ++ s.port <;> simp [hb, hc]

/-- No step changes the parameters of the run (R16, R76). -/
theorem step_parameters {s t : State} (h : step s = .next t) :
    t.cfg = s.cfg ∧ t.asset = s.asset ∧ t.assetDir = s.assetDir := by
  rcases step_cases h with ⟨_, rfl⟩ | ⟨_, _, rfl⟩ | ⟨_, _, _, hnext⟩
  · exact ⟨rfl, rfl, rfl⟩
  · exact ⟨rfl, rfl, rfl⟩
  · rcases hnext with ⟨i, rest, _, _, hrun⟩ | ⟨_, hdr, rest, _, rfl⟩ | ⟨_, rfl⟩
    · obtain ⟨u, hu, rfl⟩ := State.runCommand_cases hrun
      have ho := (exec_ends hu).outside
      rcases (s.takePacket rest).outcome_cases u with ⟨e, _⟩ | ⟨n, _, e, _⟩ | ⟨p, _, e, _⟩
      · rw [e]
        exact ⟨(reads_same State.cfg ho :), (reads_same State.asset ho :), (reads_same State.assetDir ho :)⟩
      · rw [e]
        exact ⟨rfl, rfl, rfl⟩
      · rw [e]
        exact ⟨rfl, rfl, rfl⟩
    · exact ⟨rfl, rfl, rfl⟩
    · exact ⟨rfl, rfl, rfl⟩

/-! ### Between steps -/

/-- What the host, the platform and the channel may do between steps: offer bytes, move the reset input, set when reset
or the channel's failing will come, stop a stray transfer. -/
theorem State.Inv.between {s : State} (h : s.Inv) (port : List Byte) (pin : Bool) (resetAt hangAt : Option Nat)
    (stray : Bool) :
    ({ s with port := port, resetPin := pin, resetAt := resetAt, hangAt := hangAt, stray := stray } : State).Inv where
  sound e := { h.sound e with }
  hangSound e := { h.hangSound e with }
  guard := h.guard
  unstuck := h.unstuck
  busyRx := h.busyRx
  rxIncomplete := h.rxIncomplete
  haltedCode := h.haltedCode

/-- A run keeps the invariant and the parameters it began with. -/
theorem Reachable.inv {s0 s : State} (hr : Reachable s0 s) (h0 : s0.Inv) (hf : s0.cfg.fits) :
    s.Inv ∧ s.cfg = s0.cfg ∧ s.asset = s0.asset ∧ s.assetDir = s0.assetDir := by
  induction hr with
  | start => exact ⟨h0, rfl, rfl, rfl⟩
  | step _ hs ih =>
    obtain ⟨hi, hc, ha, hd⟩ := ih
    obtain ⟨hc', ha', hd'⟩ := step_parameters hs
    exact ⟨hi.step (hc ▸ hf) hs, hc'.trans hc, ha'.trans ha, hd'.trans hd⟩
  | @offer s bytes _ ih => exact ⟨ih.1.between _ s.resetPin s.resetAt s.hangAt s.stray, ih.2⟩
  | @pin s b _ ih => exact ⟨ih.1.between s.port b s.resetAt s.hangAt s.stray, ih.2⟩
  | @pinDuring s n _ ih => exact ⟨ih.1.between s.port s.resetPin n s.hangAt s.stray, ih.2⟩
  | @hangs s n _ ih => exact ⟨ih.1.between s.port s.resetPin s.resetAt n s.stray, ih.2⟩
  | @drain s _ ih => exact ⟨ih.1.between s.port s.resetPin s.resetAt s.hangAt false, ih.2⟩

/-- Settles O13: the invariant holds at boot, every step keeps it (`State.Inv.step`), and so does all that may happen
between steps. -/
theorem reachableStates : Obligations.ReachableStates := by
  intro c asset dir s hf ha hr
  exact hr.inv (State.boot_inv c dir ha) hf

/-! ### The illegal header -/

/-- An illegal header is read off the front of the stream (R102, R104). -/
theorem decode_illegal {op fl : Byte} {rest : List Byte} {why : IllegalHeader}
    (h : decodeHeader (headerWord op fl) = .error why) :
    decode (op :: fl :: rest) = .illegal why (headerWord op fl) rest := by
  simp [decode, h]

/-- The header word of two bytes, as a number (R10, R91). -/
theorem headerWord_eq_ofNat (op fl : Byte) : headerWord op fl = BitVec.ofNat 16 (op.toNat + 256 * fl.toNat) := by
  apply BitVec.eq_of_toNat_eq
  have ho := op.isLt
  have hf := fl.isLt
  rw [headerWord, le16, BitVec.toNat_append, BitVec.toNat_ofNat, ← Nat.shiftLeft_add_eq_or_of_lt ho, Nat.shiftLeft_eq]
  omega

/-- An engine that is neither halted nor hung, with the reset input low, takes an illegal header and halts (R104). -/
theorem step_illegal {s : State} {why : IllegalHeader} {hdr : Word} {rest : List Byte} (hp : s.resetPin = false)
    (hh : s.hung = false) (hs : s.seq ≠ .halted) (hf : s.fetch = .illegal why hdr rest) :
    step s = .next (s.haltIllegal hdr rest) := by
  unfold step
  cases hq : s.seq with
  | halted => exact absurd hq hs
  | idle => simp [hp, hh, hf]
  | busy => simp [hp, hh, hf]

/-- A halted engine does not step while the reset input is low (R17). -/
theorem step_halted {s : State} (hp : s.resetPin = false) (hh : s.hung = false) (hs : s.seq = .halted) :
    step s = .fault .halted := by
  unfold step
  simp [hp, hh, hs]

/-- With the reset input high a step is a reset, which does not depend on that input (R290). -/
theorem step_reset (s : State) : step { s with resetPin := true } = .next s.applyReset := rfl

/-- Settles O8: one step of the decoder and the sequencer takes the header (`step_illegal`); the halted state then faults
(`step_halted`), answers reads, and serves the reset input. -/
theorem illegalHeaderHalts : Obligations.IllegalHeaderHalts := by
  intro s op fl rest why hp hh hs hbytes hdec
  have hf : s.fetch = .illegal why (headerWord op fl) rest := by
    unfold State.fetch
    rw [hbytes]
    exact decode_illegal hdec
  refine ⟨s.haltIllegal (headerWord op fl) rest, step_illegal hp hh hs hf, ?_, rfl, fun bytes => ?_, fun occ n => ?_,
    step_reset _⟩
  · rw [headerWord_eq_ofNat]
    rfl
  · exact step_halted hp hh rfl
  · exact if_neg fun e => absurd e.1 (show Seq.halted ≠ .busy by decide)

/-! ### Every command completes, or polls for ever -/

/-- What no command changes, field by field. -/
theorem Ends.host {i : Instr} {s t : State} (e : Ends i s t) :
    t.rx = s.rx ∧ t.port = s.port ∧ t.resetPin = s.resetPin ∧ t.resetAt = s.resetAt ∧ t.hangAt = s.hangAt ∧
      t.stray = s.stray ∧ t.hung = s.hung :=
  ⟨reads_same State.rx e.outside, reads_same State.port e.outside, reads_same State.resetPin e.outside,
    reads_same State.resetAt e.outside, reads_same State.hangAt e.outside, reads_same State.stray e.outside,
    reads_same State.hung e.outside⟩

/-- A whole packet is taken and its command runs, to whatever comes of it (R20, R99). -/
theorem step_packet {s : State} {i : Instr} {rest : List Byte} (hp : s.resetPin = false) (hh : s.hung = false)
    (hst : s.stray = false) (hs : s.seq ≠ .halted) (hf : s.fetch = .packet i rest) :
    step s = (s.takePacket rest).runCommand i := by
  unfold step
  cases hq : s.seq with
  | halted => exact absurd hq hs
  | idle => simp [hp, hh, hf, hst]
  | busy => simp [hp, hh, hf, hst]

/-- A command's end has a record exactly where one of its transfers is never completed (R82, R304). -/
theorem Ends.stuck_eq_none_iff {i : Instr} {s t : State} (e : Ends i s t) (hs : s.Sound) (h0 : s.stuck = none) :
    t.stuck = none ↔ ∀ j, s.trace.length ≤ j → t.startsAt j → ¬s.deadAt (j + 1) := by
  have hd (n : Nat) : t.deadAt n ↔ s.deadAt n := by
    unfold State.deadAt
    rw [State.hangAt_of_outside e.outside]
  obtain ⟨_, _, hnone, hsome⟩ := e.recorded hs h0
  constructor
  · intro hk j hj hst hdead
    have := (hnone hk j hj hst ((hd _).2 hdead)).1
    simp [e.quiet hs] at this
  · intro hall
    cases hk : t.stuck with
    | none => rfl
    | some h =>
      obtain ⟨j, hj, hst, hdead, _⟩ := hsome h hk
      exact absurd ((hd _).1 hdead) (hall j hj hst)

/-- The record of a command's end is the poll for the first transfer never completed (R82, R304). -/
theorem Ends.stuck_first {i : Instr} {s t : State} (e : Ends i s t) (hs : s.Sound) (h0 : s.stuck = none) {h : Hang}
    (hk : t.stuck = some h) :
    ∃ j, s.trace.length ≤ j ∧ t.startsAt j ∧ s.deadAt (j + 1) ∧ h.trace = t.trace.take (j + 1) ∧
      ∀ k, s.trace.length ≤ k → k < j → t.startsAt k → ¬s.deadAt (k + 1) := by
  have r := (e.recorded hs h0).2.2.2 h hk
  unfold State.deadAt at r ⊢
  rwa [State.hangAt_of_outside e.outside] at r

/-- The registers and memories of a state that a reset has just left (R38, R290). -/
theorem State.applyReset_atReset (s : State) : s.applyReset.AtReset := by
  refine ⟨rfl, rfl, rfl, rfl, rfl, rfl, rfl, rfl, rfl, rfl, rfl, rfl, rfl, rfl, rfl, rfl, rfl, rfl, rfl, rfl, rfl, rfl,
    rfl, rfl, rfl, rfl, fun off => ⟨rfl, rfl⟩, fun y => ⟨rfl, rfl⟩⟩

/-- The run of a command that has an end, with what reset and the channel make of it. -/
theorem State.runCommand_of_next {s t : State} {i : Instr} (h : exec i s = .next t) :
    s.runCommand i = .next (s.outcome t) := by
  unfold State.runCommand
  rw [h]

/-- A command polls for ever where its poll comes before any reset (R291, R304). -/
theorem State.outcome_of_hang {s t : State} {h : Hang} (hk : s.hangOf t = some h)
    (hr : ∀ n, s.resetAt = some n → h.trace.length < s.trace.length + n) : s.outcome t = s.hangs h := by
  rcases s.outcome_cases t with ⟨_, hn, _⟩ | ⟨n, hn, _, hle⟩ | ⟨h', hk', ho, _⟩
  · rw [hk] at hn
    cases hn
  · have := hr n hn
    have := hle h hk
    omega
  · obtain rfl : h = h' := by simpa [hk] using hk'
    exact ho

/-- A command runs to its end where there is neither a reset nor a poll without end. -/
theorem State.outcome_of_none {s t : State} (hk : s.hangOf t = none) (hr : s.resetAt = none) : s.outcome t = t := by
  unfold State.outcome
  rw [hk, hr]

/-- An engine that polls for ever steps to the state it is in (R17, R304). -/
theorem step_hung {s : State} (hp : s.resetPin = false) (hh : s.hung = true) : step s = .next s := by
  unfold step
  simp [hp, hh]

/-- What a command that never ends has come to, and what there is after it (R17, R291, R304). -/
theorem step_polls_for_ever {s : State} {i : Instr} {rest : List Byte} {u : State} {h : Hang} (hs : s.Sound)
    (h0 : s.stuck = none) (hp : s.resetPin = false) (hh : s.hung = false) (hst : s.stray = false)
    (hseq : s.seq ≠ .halted) (hf : s.fetch = .packet i rest) (he : exec i (s.takePacket rest) = .next u)
    (hk : u.stuck = some h) (hr : ∀ n, s.resetAt = some n → h.trace.length < s.trace.length + n) :
    let t := (s.takePacket rest).hangs h
    step s = .next t ∧
      (∀ bytes, step { t with port := t.port ++ bytes } = .next { t with port := t.port ++ bytes }) ∧
      ∃ v, step { t with resetPin := true } = .next v ∧ v.AtReset ∧ v.stray = true := by
  have hang := (exec_ends he).hangOf (hs.takePacket rest) h0
  refine ⟨?_, fun bytes => step_hung hp rfl, _, step_reset _, State.applyReset_atReset _, Bool.or_true _⟩
  rw [step_packet hp hh hst hseq hf, State.runCommand_of_next he, State.outcome_of_hang (hang.trans hk) hr]

/-- The barrier's record in full, where it is the first (R75, R79, R82, R304). -/
theorem State.dmaWait_records {v : State} (hx : v.xferBusy = true) (hd : v.deadAt v.trace.length)
    (h0 : v.stuck = none) :
    ∃ h : Hang, v.dmaWait.stuck = some h ∧ h.trace = v.trace ∧ h.shadow = v.shadow ∧ h.stage0 = v.stage0 ∧
      h.stage1 = v.stage1 ∧ h.line = v.line ∧ h.curX = v.curX ∧ h.curY = v.curY ∧ h.maxTextX = v.maxTextX ∧
      ∀ (dest trig : Nat) (src : XferSource) (len off : Nat),
        v.trace.getLast? = some (.dmaStart dest src len trig) →
        off + len < v.offset v.wpRow v.wpCol ∨ v.offset v.wpRow v.wpCol ≤ off →
        Memory.read h.disp off = Memory.read v.disp off := by
  refine ⟨v.polling, State.dmaWait_stuck_of_dead hx hd h0, rfl, rfl, rfl, rfl, rfl, rfl, rfl, rfl,
    fun dest trig src len off hlast hoff => State.read_dispInFlight ?_⟩
  rwa [State.inFlight_of_getLast hlast]

/-- Settles O14: `exec_answers` proves command by command how each `Ends`; the endless poll is what `step` makes of the
record that end leaves; the last clause is the barrier and its callers, one equation each. -/
theorem everyCommandCompletes : Obligations.EveryCommandCompletes := by
  refine ⟨fun i s => ?_, fun s u i rest hs h0 hp hh hst hseq hdec he => ?_, fun v => ?_⟩
  · obtain ⟨t, ht, e⟩ := exec_answers i s
    obtain ⟨hrx, hport, hpin, hat, hhang, hstray, hhung⟩ := e.host
    exact ⟨t, ht, e.seq, hrx, hport, hpin, hat, hhang, hstray, hhung, e.quiet⟩
  · have he : exec i (s.takePacket rest) = .next u := he
    have e := exec_ends he
    have hs' := hs.takePacket rest
    refine ⟨fun hk hr => ?_, e.stuck_eq_none_iff hs' h0, fun h hk => ?_⟩
    · rw [step_packet hp hh hst hseq hdec, State.runCommand_of_next he,
        State.outcome_of_none ((e.hangOf hs' h0).trans hk) hr]
    · obtain ⟨starter, flush, cursor, margin⟩ := (e.polls hs' h0 h hk).2
      refine ⟨e.stuck_first hs' h0 hk, fun hr => ?_, starter, flush, cursor, margin.trans ?_⟩
      · obtain ⟨hstep, hoffer, hreset⟩ := step_polls_for_ever hs h0 hp hh hst hseq hdec he hk hr
        exact ⟨_, hstep, rfl, hoffer, hreset⟩
      · cases i with
        | putStringXy m j x y n cs =>
          cases j with
          | right => rfl
          | left | center => exact reg16_s16 _
        | _ => rfl
  · exact ⟨State.dmaWait_records, State.dmaWait_stuck_of_answered,
      fun y b len src bytes r => ⟨v.bulkWriteRun_stuck y b src len, v.bulkContinue_stuck src len,
        v.busWriteRun_stuck y b bytes, v.xferRun_stuck y b src len, streamRun_stuck y v r⟩,
      fun p n c => fullScreenChunk_stuck p n v c, fun x y bw p k r => blitAlignedRow_stuck x y bw p k r v⟩

end Sys2Proof.Machine

/-!
SUPPORT. The statements on the sequencer that a step's cases already give (10_state.md R20, R38, 30_encoding.md R99,
70_reset_and_hazards.md R290, R291): packets, waiting, reset, the invariant.
-/
namespace Sys2Proof

/-! ### What the decoder reads is well formed -/

/-- The operand reader answers a command whose payload is as long as its count says (R92 to R96). -/
theorem wellFormed_of_decodeBody {h : Header} {bs rest : List Byte} {i : Instr}
    (hd : decodeBody h bs = some (i, rest)) : i.wellFormed = true := by
  obtain ⟨op, m, j⟩ := h
  cases op
  all_goals
    simp only [decodeBody, Option.bind_eq_bind, Option.bind_eq_some_iff, Option.some.injEq, Prod.mk.injEq, Prod.exists]
      at hd
  case writeHline =>
    obtain ⟨x, _, _, y, _, _, n, _, _, px, _, hpx, rfl, _⟩ := hd
    simp [Instr.wellFormed, (readBytes_some hpx).1]
  case putString =>
    obtain ⟨n, _, _, cs, _, hcs, rfl, _⟩ := hd
    simp [Instr.wellFormed, (readWords_some hcs).1]
  case putStringXy =>
    obtain ⟨x, _, _, y, _, _, n, _, _, cs, _, hcs, rfl, _⟩ := hd
    simp [Instr.wellFormed, (readWords_some hcs).1]
  all_goals grind [Instr.wellFormed]

/-- What the decoder accepts is well formed (R93 to R95, R99). -/
theorem wellFormed_of_decode {bs rest : List Byte} {i : Instr} (h : decode bs = .packet i rest) :
    i.wellFormed = true := by
  match bs, h with
  | op :: fl :: tail, h =>
    simp only [decode] at h
    split at h
    · cases h
    · split at h
      · rename_i hb
        injection h with hi hr
        subst hi
        exact wellFormed_of_decodeBody hb
      · cases h

end Sys2Proof

namespace Sys2Proof.Machine

/-! ### Taking packets and waiting -/

/-- With bytes of the packet missing the engine takes those at hand and waits (R20, R301). -/
theorem step_incomplete {s : State} (hp : s.resetPin = false) (hh : s.hung = false) (hs : s.seq ≠ .halted)
    (hf : s.fetch = .incomplete) : step s = .next s.waitForBytes := by
  unfold step
  cases hq : s.seq with
  | halted => exact absurd hq hs
  | idle => simp [hp, hh, hf]
  | busy => simp [hp, hh, hf]

/-- A command that comes while a transfer from before a reset is in flight is a fault (U10). -/
theorem step_stray {s : State} {i : Instr} {rest : List Byte} (hp : s.resetPin = false) (hh : s.hung = false)
    (hst : s.stray = true) (hs : s.seq ≠ .halted) (hf : s.fetch = .packet i rest) :
    step s = .fault .strayTransfer := by
  unfold step
  cases hq : s.seq with
  | halted => exact absurd hq hs
  | idle => simp [hp, hh, hf, hst]
  | busy => simp [hp, hh, hf, hst]

/-- Settles O7: what is decoded is well formed (`wellFormed_of_decode`), the step takes it (`step_packet`), and an
undisturbed command runs to its end. -/
theorem stepRunsDecoded : Obligations.StepRunsDecoded := by
  intro s i rest ⟨hp, hr, hc, hst, hh, hs⟩ hdec
  refine ⟨wellFormed_of_decode hdec, ?_⟩
  rw [step_packet hp hh hst hs hdec]
  exact State.runCommand_of_none (s := s.takePacket rest) hr hc i

/-- Settles O9, by `step_incomplete`. -/
theorem waitsForPacket : Obligations.WaitsForPacket := by
  intro s hp hh hs hdec
  rw [step_incomplete hp hh hs hdec]
  simp only [State.waitForBytes, List.isEmpty_iff]

/-! ### Reset -/

/-- The registers and memories after a reset that cut a command short are those after any reset (R38, R291). -/
theorem State.abandon_atReset (s t : State) (n : Nat) : (s.abandon t n).AtReset :=
  State.applyReset_atReset { s with
    trace := t.trace.take (s.trace.length + n)
    xferBusy := busRun false (t.trace.take (s.trace.length + n)) == some true }

/-- A reset during a command comes where the command does not poll for ever before it (R291, R304). -/
theorem State.outcome_of_reset {s t : State} {n : Nat} (hr : s.resetAt = some n)
    (hk : ∀ h, s.hangOf t = some h → s.trace.length + n ≤ h.trace.length) : s.outcome t = s.abandon t n := by
  rcases s.outcome_cases t with ⟨_, _, hn⟩ | ⟨n', hn, ho, _⟩ | ⟨h, hh, _, hlt⟩
  · rw [hr] at hn
    cases hn
  · obtain rfl : n = n' := by simpa [hr] using hn
    exact ho
  · have := hk h hh
    have := hlt n hr
    omega

/-- Settles O10: between commands the step is `State.applyReset`, during a command it is `State.abandon` of what the
command would have left; both leave the registers at reset. -/
theorem resetValues : Obligations.ResetValues := by
  refine ⟨fun s hp => ?_, fun s i rest hp hh hs hdec => ⟨fun hst => ?_, fun hst => step_stray hp hh hst hs hdec⟩⟩
  · have hstep : step s = .next s.applyReset := by
      unfold step
      rw [if_pos hp]
    exact ⟨_, hstep, s.applyReset_atReset, rfl, rfl, rfl, rfl, rfl, rfl, rfl, rfl, rfl, rfl, rfl, rfl, rfl⟩
  · obtain ⟨u, hu, _⟩ := exec_answers i (s.takePacket rest)
    refine ⟨u, hu, fun n hn hk => ⟨(s.takePacket rest).abandon u n, ?_, State.abandon_atReset _ _ _, rfl, rfl, ?_,
      rfl, rfl, rfl, rfl, rfl, rfl, rfl, rfl⟩⟩
    · rw [step_packet hp hh hst hs hdec, State.runCommand_of_next hu,
        State.outcome_of_reset (s := s.takePacket rest) hn hk]
    · show (s.stray || (busRun false (u.trace.take (s.trace.length + n)) == some true)) = true ↔ _
      rw [hst]
      simp

/-! ### The invariant -/

/-- Settles O11: the state at reset is one of the boot states (`State.boot_inv`). -/
theorem invAtReset : Obligations.InvAtReset :=
  ⟨State.boot_inv Config.cfg Config.assetDir (asset := []) rfl, fun c _ dir h => State.boot_inv c dir h⟩

/-- Settles O12, by the cases of a step: a reset, another poll, a command with whatever comes of it, a halt, a wait
(`State.Inv.step`). -/
theorem stepKeepsInv : Obligations.StepKeepsInv :=
  fun _ _ hf h hstep => h.step hf hstep

end Sys2Proof.Machine

/-!
SUPPORT. What each command may write (R24 to R28, R30, R32, R33, R61, R76, R85, R251, R306, R307): the table of writers
as one frame of the state, and that every command keeps to it.
-/
namespace Sys2Proof

open Machine

/-- The commands that may move the cursor (R26). -/
abbrev Instr.MovesCursor (i : Instr) : Prop :=
  i.opcode ∈ [Opcode.init, .clear, .setCursor, .putChar, .putString, .putStringXy]

/-- The commands that may write `FB` (R61). -/
abbrev Instr.WritesFb (i : Instr) : Prop :=
  i.opcode ∈ [Opcode.init, .clear, .fill] ∨ (i.opcode ∈ drawingOpcodes ∧ i.mode = .buffered)

/-- The commands that may write `SHADOW` (R30, R61). -/
abbrev Instr.WritesShadow (i : Instr) : Prop :=
  i.opcode ∈ [Opcode.init, .clear] ∨ (i.opcode ∈ drawingOpcodes ∧ i.mode = .direct)

/-- The commands that may send to the display (R61, R85). -/
abbrev Instr.WritesDisp (i : Instr) : Prop :=
  i.opcode ∈ [Opcode.init, .flushWindow, .flushFull] ∨ (i.opcode ∈ drawingOpcodes ∧ i.mode = .direct)

/-- `s` with what the table of writers lets a command change taken from `t`. The host's side, the status and results, the
guard, the scratch memories and the record of an endless poll are not in the table. -/
def Instr.frame (i : Instr) (s t : State) : State :=
  { t with
    cfg := s.cfg, asset := s.asset, assetDir := s.assetDir
    inited := if i.opcode = .init then t.inited else s.inited
    geomW := if i.opcode = .init then t.geomW else s.geomW
    geomH := if i.opcode = .init then t.geomH else s.geomH
    epoch := if i.opcode = .init then t.epoch else s.epoch
    minTextX := if i.opcode ∈ [Opcode.init, .setTextBounds] then t.minTextX else s.minTextX
    maxTextX := if i.opcode ∈ [Opcode.init, .setTextBounds] then t.maxTextX else s.maxTextX
    minDispY := if i.opcode ∈ [Opcode.init, .setDisplayWindow] then t.minDispY else s.minDispY
    maxDispY := if i.opcode ∈ [Opcode.init, .setDisplayWindow] then t.maxDispY else s.maxDispY
    curX := if i.MovesCursor then t.curX else s.curX
    curY := if i.MovesCursor then t.curY else s.curY
    ctrl := if i.opcode = .setCtrl then t.ctrl else s.ctrl
    trans := if i.opcode ∈ [Opcode.flushFull, .loadTransition] then t.trans else s.trans
    fontSel := if i.opcode = .selectFont then t.fontSel else s.fontSel
    qmark := if i.opcode = .selectFont then t.qmark else s.qmark
    fontBase := if i.opcode = .selectFont then t.fontBase else s.fontBase
    fontGh := if i.opcode = .selectFont then t.fontGh else s.fontGh
    fontTotal := if i.opcode = .selectFont then t.fontTotal else s.fontTotal
    fontDesc := if i.opcode = .selectFont then t.fontDesc else s.fontDesc
    iv := if i.opcode = .selectFont then t.iv else s.iv
    fb := if i.WritesFb then t.fb else s.fb
    shadow := if i.WritesShadow then t.shadow else s.shadow
    disp := if i.WritesDisp then t.disp else s.disp
    wpRow := if i.WritesDisp then t.wpRow else s.wpRow
    wpCol := if i.WritesDisp then t.wpCol else s.wpCol
    trace := if i.WritesDisp then t.trace else s.trace }

end Sys2Proof

namespace Sys2Proof.Machine

/-- The command answers a next state that keeps to its row of the table of writers. -/
def Framed (i : Instr) (s : State) (r : Result) : Prop := ∃ t, r = .next t ∧ t = i.frame s t

/-- A command that only reports writes nothing of the table (R271). -/
theorem Framed.report (i : Instr) (s : State) (c : Code) (r0 r1 r2 r3 : Word) :
    Framed i s (.next (s.endCommand c r0 r1 r2 r3)) :=
  ⟨_, rfl, by simp [Instr.frame, State.endCommand]⟩

/-- A check that a command makes before it does anything (R276). -/
theorem Framed.guard {i : Instr} {s : State} {p : Prop} [Decidable p] {c : Code} {r0 r1 r2 r3 : Word} {r : Result}
    (h : ¬p → Framed i s r) : Framed i s (if p then failWith c s r0 r1 r2 r3 else r) := by
  split
  · exact .report i s c r0 r1 r2 r3
  · exact h ‹_›

/-- The check that an INIT has succeeded (R274). -/
theorem Framed.guardInited {i : Instr} {s : State} {r : Result} (h : s.inited = true → Framed i s r) :
    Framed i s (if !s.inited then failZero .errNotInit s else r) :=
  .guard fun hi => h (by simpa using hi)

/-! ### Registers, `FB`, `SHADOW` -/

theorem execInit_framed (w h : Word) (s : State) : Framed (.init w h) s (execInit w h s) := by
  cases hg : geometryBad s.cfg w h with
  | true =>
    unfold execInit
    rw [if_pos hg]
    exact .report _ s _ _ _ _ _
  | false =>
    refine ⟨_, execInit_accepted hg, ?_⟩
    unfold State.initialised
    rw [s.powerUp_eq]
    rfl

theorem execSetTextBounds_framed (minX maxX : Word) (s : State) :
    Framed (.setTextBounds minX maxX) s (execSetTextBounds minX maxX s) :=
  .guardInited fun _ => ⟨_, rfl, rfl⟩

theorem execSetDisplayWindow_framed (minY maxY : Word) (s : State) :
    Framed (.setDisplayWindow minY maxY) s (execSetDisplayWindow minY maxY s) :=
  .guardInited fun _ => ⟨_, rfl, rfl⟩

theorem execClear_framed (s : State) : Framed .clear s (execClear s) :=
  .guardInited fun _ => ⟨_, rfl, rfl⟩

theorem execFill_framed (color : Word) (s : State) : Framed (.fill color) s (execFill color s) :=
  .guardInited fun _ => .guard fun _ => ⟨_, rfl, rfl⟩

theorem execSetCtrl_framed (ctrl : Word) (s : State) : Framed (.setCtrl ctrl) s (execSetCtrl ctrl s) :=
  .guardInited fun _ => .guard fun _ => ⟨_, rfl, rfl⟩

theorem execSetCursor_framed (x y : Word) (s : State) : Framed (.setCursor x y) s (execSetCursor x y s) :=
  .guardInited fun _ => ⟨_, rfl, rfl⟩

theorem execLoadTransition_framed (kind : Word) (s : State) :
    Framed (.loadTransition kind) s (execLoadTransition kind s) := by
  refine .guardInited fun _ => ?_
  split
  · exact .report _ s _ _ _ _ _
  · exact ⟨_, rfl, rfl⟩

theorem execSelectFont_framed (fontId : Word) (s : State) :
    Framed (.selectFont fontId) s (execSelectFont fontId s) := by
  refine .guardInited fun _ => ?_
  split
  · exact .report _ s _ _ _ _ _
  · exact ⟨_, rfl, rfl⟩

theorem execGlyphLookup_framed (cp : Word) (s : State) : Framed (.glyphLookup cp) s (execGlyphLookup cp s) := by
  refine .guardInited fun _ => .guard fun _ => ?_
  split
  · exact .report _ s _ _ _ _ _
  · exact .report _ s _ _ _ _ _

theorem execMeasure_framed (cp : Word) (s : State) : Framed (.measure cp) s (execMeasure cp s) := by
  refine .guardInited fun _ => .guard fun _ => ?_
  split
  · exact .report _ s _ _ _ _ _
  · exact .report _ s _ _ _ _ _

/-! ### Flushes -/

/-- What leaves all but the display side alone changes at most the display side. -/
theorem State.withDispOf_of_offDisplay {s t : State} (h : t.offDisplay = s.offDisplay) : t = s.withDispOf t :=
  calc t = t.offDisplay.withDispOf t := rfl
    _ = s.offDisplay.withDispOf t := by rw [h]
    _ = s.withDispOf t := rfl

theorem execFlushWindow_framed (x y w h : Word) (s : State) :
    Framed (.flushWindow x y w h) s (execFlushWindow x y w h s) := by
  refine .guardInited fun _ => .guard fun _ => ?_
  simp only
  generalize s.flushRect (s16 x) (s16 y) (u16 w) (u16 h) = r
  split
  · exact .report _ s _ _ _ _ _
  · have hv := State.withDispOf_of_offDisplay ((flushRows_polls s r).trans (dmaWait_polls _)).same
    generalize (s.flushRows r).dmaWait = v at *
    refine ⟨_, rfl, ?_⟩
    rw [hv]
    rfl

/-- Staging the divider leaves all but the scratch memories as they were (R255). -/
theorem staged_frame (k : Transition) (s : State) : k.staged s = s.withScratchOf (k.staged s) := by
  cases k
  all_goals rfl

theorem execFlushFull_framed (s : State) : Framed .flushFull s (execFlushFull s) := by
  refine .guardInited fun _ => .guard fun _ => ?_
  have hv := State.withDispOf_of_offDisplay ((runTransition_polls s.trans s).trans (dmaWait_polls _)).same
  rw [staged_frame] at hv
  simp only
  generalize (runTransition s.trans s).dmaWait = v at *
  refine ⟨_, rfl, ?_⟩
  rw [hv]
  rfl

/-! ### Draws -/

/-- At the end of a blit of a sound command its last barrier adds nothing but what a draw of its mode may change. -/
theorem State.withBlitOf_dmaWait {m : Mode} {s t : State} (hq : s.xferBusy = false) (h : t = s.withBlitOf m t) :
    t.dmaWait = s.withBlitOf m t.dmaWait := by
  cases m with
  | direct => exact State.withBlitOf_dmaWait_direct h
  | buffered =>
    have ht : t.xferBusy = false := by
      rw [h]
      exact hq
    rwa [State.dmaWait_eq_of_quiet ht]

/-- A drawing command keeps to its row where it leaves what a blit of its mode may. -/
theorem frame_of_blit {i : Instr} {m : Mode} {s v : State} (ho : i.opcode ∈ drawingOpcodes) (hm : i.mode = m)
    (h : v = s.withBlitOf m v) (c : Code) (r0 r1 r2 r3 : Word) :
    v.endCommand c r0 r1 r2 r3 = i.frame s (v.endCommand c r0 r1 r2 r3) := by
  rw [h]
  cases m
  · have hfb : i.WritesFb := .inr ⟨ho, hm⟩
    simp only [Instr.frame, hfb, if_true, State.withBlitOf, State.withDrawOf, State.withFbOf, State.withScratchOf,
      State.endCommand, ite_self]
  · have hsh : i.WritesShadow := .inr ⟨ho, hm⟩
    have hd : i.WritesDisp := .inr ⟨ho, hm⟩
    simp only [Instr.frame, hsh, hd, if_true, State.withBlitOf, State.withDrawOf, State.withDirectOf,
      State.withScratchOf, State.endCommand, ite_self]

/-- A text command keeps to its row where it leaves what layout in its mode may. -/
theorem frame_of_typing {i : Instr} {m : Mode} {s v : State}
    (ho : i.opcode ∈ [Opcode.putChar, .putString, .putStringXy]) (hm : i.mode = m) (h : v = s.withTypingOf m v)
    (c : Code) (r0 r1 r2 r3 : Word) :
    v.endCommand c r0 r1 r2 r3 = i.frame s (v.endCommand c r0 r1 r2 r3) := by
  have hdraw : i.opcode ∈ drawingOpcodes :=
    List.mem_append_right [Opcode.writeHline, .drawRect, .drawImage, .drawGlyph] ho
  have hc : i.MovesCursor := List.mem_append_right [Opcode.init, .clear, .setCursor] ho
  rw [h]
  cases m
  · have hfb : i.WritesFb := .inr ⟨hdraw, hm⟩
    simp only [Instr.frame, hfb, hc, if_true, State.withTypingOf, State.withLayoutOf, State.withDrawOf, State.withFbOf,
      State.withScratchOf, State.endCommand, ite_self]
  · have hsh : i.WritesShadow := .inr ⟨hdraw, hm⟩
    have hd : i.WritesDisp := .inr ⟨hdraw, hm⟩
    simp only [Instr.frame, hsh, hd, hc, if_true, State.withTypingOf, State.withLayoutOf, State.withDrawOf,
      State.withDirectOf, State.withScratchOf, State.endCommand, ite_self]

/-- What a blit may change, its end may: the scratch memories are dropped there (R34). -/
theorem State.withBlitOf_clearScratch {m : Mode} {s t : State} (h : t = s.withBlitOf m t) :
    t.clearScratch = s.withBlitOf m t.clearScratch :=
  State.withBlitOf_trans h (State.withBlitOf_of_scratch m rfl)

theorem execWriteHline_framed (m : Mode) (x y n : Word) (payload : List Byte) {s : State} (hs : s.Sound) :
    Framed (.writeHline m x y n payload) s (execWriteHline m x y n payload s) := by
  refine .guardInited fun hi => .guard fun _ => .guard fun _ => ⟨_, rfl, ?_⟩
  refine frame_of_blit (m := m) (by simp [Instr.opcode, drawingOpcodes]) rfl (State.withBlitOf_clearScratch ?_) _ _ _ _ _
  have kl := Kept.setLine s (payloadPixels (u16 n) payload)
  exact State.withBlitOf_dmaWait hs.quiet (State.withBlitOf_trans (State.withBlitOf_of_scratch m rfl)
    (State.withBlitOf_of_draw (hLine_spec _ _ _ (kl.drawable (hs.drawable hi))).1))

theorem execDrawRect_framed (m : Mode) (x y w h color : Word) {s : State} (hs : s.Sound) :
    Framed (.drawRect m x y w h color) s (execDrawRect m x y w h color s) :=
  .guardInited fun hi => .guard fun _ => ⟨_, rfl,
    frame_of_blit (m := m) (by simp [Instr.opcode, drawingOpcodes]) rfl (State.withBlitOf_dmaWait hs.quiet
      (State.withBlitOf_of_draw (hLineRows_spec _ _ _ _ (hs.drawable hi)).1)) _ _ _ _ _⟩

theorem execDrawImage_framed (m : Mode) (x y fileId : Word) {s : State} (hs : s.Sound) :
    Framed (.drawImage m x y fileId) s (execDrawImage m x y fileId s) := by
  refine .guardInited fun hi => .guard fun _ => ?_
  split
  · exact .report _ s _ _ _ _ _
  · exact .guard fun _ => ⟨_, rfl,
      frame_of_blit (m := m) (by simp [Instr.opcode, drawingOpcodes]) rfl
        (State.withBlitOf_clearScratch (blitStream_spec _ _ _ _ _ (hs.drawable hi) hs.quiet).2.1) _ _ _ _ _⟩

theorem execDrawGlyph_framed (m : Mode) (x y cp : Word) {s : State} (hs : s.Sound) :
    Framed (.drawGlyph m x y cp) s (execDrawGlyph m x y cp s) := by
  refine .guardInited fun hi => .guard fun _ => .guard fun _ => ?_
  obtain ⟨_, hf, _⟩ := drawGlyphAt_spec m (s16 x) (s16 y) cp (hs.drawable hi) hs.quiet
  simp only
  split
  · exact ⟨_, rfl, frame_of_blit (m := m) (by simp [Instr.opcode, drawingOpcodes]) rfl
      (State.withBlitOf_clearScratch hf) _ _ _ _ _⟩
  · exact .report _ s _ _ _ _ _

/-! ### Text -/

/-- What layout may change, its end may: the scratch memories are dropped there (R34). -/
theorem State.withTypingOf_clearScratch {m : Mode} {s t : State} (h : t = s.withTypingOf m t) :
    t.clearScratch = s.withTypingOf m t.clearScratch := by
  rw [h]
  cases m
  · rfl
  · rfl

theorem execPutChar_framed (m : Mode) (cp : Word) {s : State} (hs : s.Sound) :
    Framed (.putChar m cp) s (execPutChar m cp s) :=
  .guardInited fun hi => .guard fun _ => .guard fun _ => ⟨_, rfl,
    frame_of_typing (m := m) (by simp [Instr.opcode]) rfl
      (State.withTypingOf_clearScratch (putCharCore_laidOut m cp (hs.drawable hi) hs.quiet).frame) _ _ _ _ _⟩

theorem execPutString_framed (m : Mode) (n : Word) (chars : List Word) {s : State} (hs : s.Sound) :
    Framed (.putString m n chars) s (execPutString m n chars s) :=
  .guardInited fun hi => .guard fun _ => .guard fun _ => .guard fun _ => ⟨_, rfl,
    frame_of_typing (m := m) (by simp [Instr.opcode]) rfl
      (State.withTypingOf_clearScratch (emitString_laidOut m chars (hs.drawable hi) hs.quiet).frame) _ _ _ _ _⟩

/-- The state a justified string is laid out from: another margin and another cursor (R200). -/
def State.justified (s : State) (j : Justify) (x : Int) (cx cy : Word) : State :=
  { s with maxTextX := reg16 (justifiedBound j x (s16 s.maxTextX)), curX := cx, curY := cy }

/-- The state a justified string is laid out from can be drawn in (R122, R200). -/
theorem State.Drawable.justified {s : State} (h : s.Drawable) (j : Justify) (x : Int) (cx cy : Word) :
    (s.justified j x cx cy).Drawable where
  geometry := h.geometry
  window := by
    obtain ⟨w1, w2, _, _, w3⟩ := h.window
    obtain ⟨lo, up⟩ := h.window.justified j x
    exact ⟨w1, w2, lo, up, w3⟩
  shadow := h.shadow

/-- A command that lays out text from another cursor and margin, and gives the margin back, leaves what layout may
change (R200). -/
theorem State.withTypingOf_begins {m : Mode} {s u v : State} (hu : s.Begins u) (h : v = u.withTypingOf m v) :
    { v with maxTextX := s.maxTextX } = s.withTypingOf m { v with maxTextX := s.maxTextX } := by
  rw [h, hu]
  cases m
  · rfl
  · rfl

theorem State.justified_begins (s : State) (j : Justify) (x : Int) (cx cy : Word) :
    s.Begins (s.justified j x cx cy) := rfl

theorem execPutStringXy_framed (m : Mode) (j : Justify) (x y n : Word) (chars : List Word) {s : State} (hs : s.Sound) :
    Framed (.putStringXy m j x y n chars) s (execPutStringXy m j x y n chars s) := by
  refine .guardInited fun hi => .guard fun _ => .guard fun _ => .guard fun _ => ?_
  simp only
  generalize reg16 (max (justifiedStart j (s16 x) (s.stringWidth chars)) (s16 s.minTextX)) = sx
  have hf := (emitString_laidOut m chars ((hs.drawable hi).justified j (s16 x) sx y) hs.quiet).frame
  have hv := State.withTypingOf_begins (s.justified_begins j (s16 x) sx y) (State.withTypingOf_clearScratch hf)
  exact ⟨_, rfl, frame_of_typing (m := m) (by simp [Instr.opcode]) rfl hv _ _ _ _ _⟩

/-! ### Every command -/

/-- Every command of a sound state keeps to its row of the table of writers. -/
theorem exec_framed (i : Instr) {s : State} (hs : s.Sound) : Framed i s (exec i s) := by
  cases i
  case init w h => exact execInit_framed w h s
  case setTextBounds a b => exact execSetTextBounds_framed a b s
  case setDisplayWindow a b => exact execSetDisplayWindow_framed a b s
  case clear => exact execClear_framed s
  case fill c => exact execFill_framed c s
  case flushWindow x y w h => exact execFlushWindow_framed x y w h s
  case flushFull => exact execFlushFull_framed s
  case setCtrl c => exact execSetCtrl_framed c s
  case setCursor x y => exact execSetCursor_framed x y s
  case writeHline m x y n payload => exact execWriteHline_framed m x y n payload hs
  case drawRect m x y w h c => exact execDrawRect_framed m x y w h c hs
  case drawImage m x y f => exact execDrawImage_framed m x y f hs
  case selectFont f => exact execSelectFont_framed f s
  case glyphLookup c => exact execGlyphLookup_framed c s
  case measure c => exact execMeasure_framed c s
  case drawGlyph m x y c => exact execDrawGlyph_framed m x y c hs
  case putChar m c => exact execPutChar_framed m c hs
  case putString m n cs => exact execPutString_framed m n cs hs
  case putStringXy m j x y n cs => exact execPutStringXy_framed m j x y n cs hs
  case loadTransition k => exact execLoadTransition_framed k s

theorem exec_frame {i : Instr} {s t : State} (hs : s.Sound) (h : exec i s = .next t) : t = i.frame s t := by
  obtain ⟨u, hu, hf⟩ := exec_framed i hs
  rw [hu] at h
  injection h with h
  exact h ▸ hf

/-- Settles O17: every command keeps to its row of the table of writers (`exec_frame`), which is read off field by
field. -/
theorem writers : Obligations.Writers := by
  intro i s t hs h
  have hf := exec_frame hs h
  refine ⟨?_, fun hn => ?_, fun hn => ?_, fun hn => ?_, fun hn => ?_, fun hn => ?_, fun hn => ?_, fun hn => ?_,
    fun hn hd => ?_, fun hn hd => ?_, fun hn hd => ?_⟩
  all_goals rw [hf]
  · exact ⟨rfl, rfl, rfl⟩
  · exact ⟨if_neg hn, if_neg hn, if_neg hn, if_neg hn⟩
  · exact ⟨if_neg hn, if_neg hn⟩
  · exact ⟨if_neg hn, if_neg hn⟩
  · exact ⟨if_neg hn, if_neg hn⟩
  · exact if_neg hn
  · exact if_neg hn
  · exact ⟨if_neg hn, if_neg hn, if_neg hn, if_neg hn, if_neg hn, if_neg hn, if_neg hn⟩
  · exact if_neg (not_or.2 ⟨hn, hd⟩)
  · exact if_neg (not_or.2 ⟨hn, hd⟩)
  · have hw : ¬i.WritesDisp := not_or.2 ⟨hn, hd⟩
    exact ⟨if_neg hw, if_neg hw, if_neg hw, if_neg hw⟩

end Sys2Proof.Machine

/-!
SUPPORT. One direct run as the host sees it (10_state.md R31, 41_rasterizer.md R156): the events, the screen, the shadow
entry.
-/
namespace Sys2Proof.Machine

/-- The last byte column of a run (R156). -/
def Run.lastCol (r : Run) : Nat := (r.col + r.pix.length - 1) / 2

@[simp] theorem State.emitAll_disp (s : State) (es : List Event) : (s.emitAll es).disp = s.disp := rfl
@[simp] theorem State.emitAll_wpRow (s : State) (es : List Event) : (s.emitAll es).wpRow = s.wpRow := rfl
@[simp] theorem State.emitAll_wpCol (s : State) (es : List Event) : (s.emitAll es).wpCol = s.wpCol := rfl
@[simp] theorem State.emitAll_bpr (s : State) (es : List Event) : (s.emitAll es).bpr = s.bpr := rfl
@[simp] theorem State.emitAll_trace (s : State) (es : List Event) : (s.emitAll es).trace = s.trace ++ es := rfl

/-- A run's byte columns, from its first. -/
theorem State.sentBytes_eq (s : State) (y : Nat) {r : Run} (hr : r.pix ≠ []) :
    s.sentBytes y r = (List.range (r.lastCol + 1 - r.col / 2)).map fun k => s.sentByte y r (r.col / 2 + k) := by
  have hl : 0 < r.pix.length := List.length_pos_iff.2 hr
  unfold State.sentBytes Run.byteCols Run.lastCol
  rw [List.map_map]
  rfl

/-- The events of a direct run (R78, R156). -/
theorem streamRun_trace {y : Nat} {s : State} {r : Run} (hq : s.xferBusy = false) (hy : y < s.shadow.length)
    (hr : r.pix ≠ []) (hw : r.col + r.pix.length ≤ 65536) :
    (streamRun y s r).trace =
      s.trace ++ .busCmd (addrCmds s.cfg y (r.col / 2)) :: (s.sentBytes y r).map fun v => .busData [v] := by
  rw [streamRun_eq hy hr hw, State.storeShadow_trace, State.sendBytes_frame, State.dmaWait_eq_of_quiet hq]
  simp [State.emitAll, State.dispAddr, State.emit]

/-- The shadow entry a direct run leaves (R30, R156). -/
theorem streamRun_shadow {y : Nat} {s : State} {r : Run} (hy : y < s.shadow.length) (hr : r.pix ≠ [])
    (hw : r.col + r.pix.length ≤ 65536) :
    (streamRun y s r).shadow = s.shadow.set y { col := reg16 r.lastCol, byte := s.sentByte y r r.lastCol } := by
  rw [streamRun_eq hy hr hw, State.storeShadow_shadow, State.sendBytes_frame]
  rfl

/-- A shadow entry is not on the screen. -/
theorem SentAt.storeShadow {s t : State} {off : Nat} {bs : List Byte} (h : SentAt s t off bs) (y b : Nat) (v : Byte) :
    SentAt s (t.storeShadow y b v) off bs :=
  ⟨h.read, h.col, h.next, h.wf⟩

/-- The bytes a direct run puts on the screen (R79, R156). -/
theorem streamRun_sentAt {y : Nat} {s : State} {r : Run} (hy : y < s.shadow.length) (hr : r.pix ≠ [])
    (hw : r.col + r.pix.length ≤ s.width) (he : s.width % 2 = 0) :
    SentAt s (streamRun y s r) (s.offset y (r.col / 2)) (s.sentBytes y r) := by
  have hmax : s.width < 65536 := s.geomW.isLt
  have hl : 0 < r.pix.length := List.length_pos_iff.2 hr
  have hb : r.col / 2 < s.bpr := State.half_lt_bpr he (by omega)
  rw [streamRun_eq hy hr (by omega)]
  refine .storeShadow (State.sendBytes_sentAt _ ?_ ?_ ?_) _ _ _
  · simp
  · simpa using hb
  · simp [State.offset]

/-- Settles O36: `streamRun_eq` gives one run in closed form; `streamRun_trace`, `streamRun_sentAt` and `streamRun_shadow`
read the events, the screen and the cache off it. -/
theorem directRun : Obligations.DirectRun := by
  intro s y r ⟨hs, hi⟩ hy hr hw
  obtain ⟨hlen, _⟩ := hs.shadowRows hi
  obtain ⟨_, he, _⟩ := hs.geometry hi
  have hmax : s.width < 65536 := s.geomW.isLt
  have hl : 0 < r.pix.length := List.length_pos_iff.2 hr
  have hrow : y < s.shadow.length := hlen.symm ▸ hy
  have hframe := streamRun_frame hrow hr (show r.col + r.pix.length ≤ 65536 by omega)
  have hsent := streamRun_sentAt hrow hr hw he
  have hbytes := s.sentBytes_eq y hr
  have hat (off : Nat) : (streamRun y s r).dispAt off =
      (Memory.read (streamRun y s r).disp off).getD (Config.dispFree s.epoch off) := by
    rw [hframe]
    rfl
  have hoff (y' b : Nat) : (streamRun y s r).offset y' b = s.offset y' b := by
    rw [hframe]
    rfl
  refine ⟨hframe, streamRun_quiet y s r, ?_, fun b h1 h2 => ?_, fun off hne => ?_, ?_⟩
  · rw [streamRun_trace hs.quiet hrow hr (by omega), hbytes, List.map_map]
    rfl
  · have hcount : b - r.col / 2 < r.lastCol + 1 - r.col / 2 := by unfold Run.lastCol; omega
    have hpos : s.offset y b = s.offset y (r.col / 2) + (b - r.col / 2) := by unfold State.offset; omega
    have hcol : r.col / 2 + (b - r.col / 2) = b := by omega
    unfold State.dispByte
    rw [hat, hoff, hsent.read, hpos, hbytes]
    simp [hcount, hcol]
  · rw [hat, hsent.read, if_neg]
    · rfl
    · rintro ⟨h1, h2⟩
      have hcount : (s.sentBytes y r).length = r.lastCol + 1 - r.col / 2 := by simp [hbytes]
      rw [hcount] at h2
      refine hne (r.col / 2 + (off - s.offset y (r.col / 2))) (by omega) ?_ ?_
      · unfold Run.lastCol at h2
        omega
      · unfold State.offset at *
        omega
  · rw [streamRun_shadow hrow hr (by omega),
      show reg16 (r.lastCol : Int) = BitVec.ofNat 16 r.lastCol from BitVec.ofInt_natCast ..]
    rfl

end Sys2Proof.Machine

/-!
SUPPORT. What each number of the readback port holds (10_state.md R23, R37; 70_reset_and_hazards.md R300).
-/
namespace Sys2Proof.Machine

/-! ### Words put together from flags -/

/-- A word put together from two parts, as a number. -/
theorem toNat_append_eq {n m : Nat} (x : BitVec n) (y : BitVec m) : (x ++ y).toNat = x.toNat * 2 ^ m + y.toNat := by
  rw [BitVec.toNat_append, ← Nat.shiftLeft_add_eq_or_of_lt y.isLt, Nat.shiftLeft_eq]

theorem toNat_flagBit (b : Bool) : (flagBit b).toNat = if b then 1 else 0 := by
  cases b <;> rfl

/-- `STATUS` as the sum of its code and its flags (R23). -/
theorem State.status_toNat (s : State) :
    s.status.toNat = s.code.number.toNat + (if s.seq = .busy then 256 else 0) + (if s.seq = .halted then 512 else 0) +
      (if s.inited then 1024 else 0) + (if s.xferBusy then 2048 else 0) := by
  have hseq (q : Seq) : (if (s.seq == q) = true then 1 else 0) = if s.seq = q then 1 else 0 :=
    if_congr beq_iff_eq rfl rfl
  unfold State.status
  simp only [toNat_append_eq, toNat_flagBit, hseq, BitVec.toNat_ofNat]
  split_ifs <;> omega

/-- `FONT_STAT` as the sum of its flags (R37). -/
theorem State.fontStat_toNat (s : State) :
    s.fontStat.toNat = (if s.fontSel then 1 else 0) + (if s.qmark then 2 else 0) := by
  unfold State.fontStat
  simp only [toNat_append_eq, toNat_flagBit, BitVec.toNat_ofNat]
  split_ifs <;> omega

/-- The two halves of `FONT_BASE` (R37). -/
theorem halves_toNat (a : Addr) : (a.extractLsb' 0 16).toNat + 65536 * (a.extractLsb' 16 16).toNat = a.toNat := by
  have h := a.isLt
  simp only [BitVec.extractLsb'_toNat, Nat.shiftRight_eq_div_pow]
  omega

/-- A byte read at a number is that byte (R37). -/
theorem toNat_setWidth_byte (b : Byte) : (b.setWidth 16).toNat = b.toNat := by
  have h := b.isLt
  rw [BitVec.toNat_setWidth]
  omega

/-- Bits 15:5 of `CTRL` read as 0 (R27, R37). -/
theorem ctrl_and_mask {w : Word} (h : ctrlReserved w = false) : w &&& 0x001F#16 = w := by
  have h5 : w >>> 5 = 0#16 := by simpa [ctrlReserved] using h
  have hlt : w.toNat < 32 := by
    have := congrArg BitVec.toNat h5
    simp only [BitVec.toNat_ushiftRight, Nat.shiftRight_eq_div_pow, BitVec.toNat_ofNat] at this
    omega
  apply BitVec.eq_of_toNat_eq
  rw [BitVec.toNat_and]
  exact (Nat.and_two_pow_sub_one_eq_mod w.toNat 5).trans (Nat.mod_eq_of_lt hlt)

/-! ### The port -/

/-- `STATUS` reads at any time (R37, R300). -/
theorem State.readback_status (s : State) (occasion : Nat) : s.readback occasion 0 = s.status :=
  if_neg fun h => h.2 rfl

/-- An engine that is not busy answers with what the number holds (R37). -/
theorem State.readback_of_idle {s : State} (h : s.seq ≠ .busy) (occasion : Nat) (n : Word) :
    s.readback occasion n = s.readNumber n.toNat :=
  if_neg fun hb => h hb.1

/-- The same for a number written as a natural number. -/
theorem State.readback_ofNat {s : State} (h : s.seq ≠ .busy) (occasion : Nat) {n : Nat} (hn : n < 65536) :
    s.readback occasion (BitVec.ofNat 16 n) = s.readNumber n := by
  rw [State.readback_of_idle h, BitVec.toNat_ofNat, Nat.mod_eq_of_lt (by omega)]

/-- The number is one of `FB` or `SHADOW` (R37). -/
def State.holdsMemory (s : State) (n : Nat) : Prop :=
  (s.cfg.hasFb = true ∧ 0x8000 ≤ n ∧ n < 0xC000 ∧ n < 0x8000 + s.height * s.bpr) ∨
    (0xC000 ≤ n ∧ n < 0xC000 + 2 * s.height)

theorem State.holdsFb_iff (s : State) (n : Nat) :
    s.holdsFb n = true ↔ s.cfg.hasFb = true ∧ 0x8000 ≤ n ∧ n < 0xC000 ∧ n < 0x8000 + s.height * s.bpr := by
  unfold State.holdsFb
  rw [Bool.and_eq_true, decide_eq_true_eq]
  refine and_congr_right fun _ => ?_
  omega

theorem State.holdsShadow_iff (s : State) (n : Nat) :
    s.holdsShadow n = true ↔ 0xC000 ≤ n ∧ n < 0xC000 + 2 * s.height := by
  unfold State.holdsShadow
  rw [decide_eq_true_eq]
  omega

/-- A number of the register table (R37). -/
theorem State.readNumber_register (s : State) {n : Nat} (h : n < 0x20) : s.readNumber n = s.readRegister n :=
  if_pos h

/-- A number of `FB` (R37). -/
theorem State.readNumber_fb {s : State} {n : Nat} (h : s.holdsFb n = true) : s.readNumber n = s.readFb n := by
  have := ((s.holdsFb_iff n).1 h).2.1
  unfold State.readNumber
  rw [if_neg (by omega), if_pos h]

/-- A number of `SHADOW` (R37). -/
theorem State.readNumber_shadow {s : State} {n : Nat} (h : s.holdsShadow n = true) :
    s.readNumber n = s.readShadow n := by
  have hn := ((s.holdsShadow_iff n).1 h).1
  have hfb : ¬s.holdsFb n = true := fun hf => by
    have := ((s.holdsFb_iff n).1 hf).2.2.1
    omega
  unfold State.readNumber
  rw [if_neg (by omega), if_neg hfb, if_pos h]

/-- Any other number is one of the interval table (R37). -/
theorem State.readNumber_interval {s : State} {n : Nat} (h : 0x20 ≤ n) (hm : ¬s.holdsMemory n) :
    s.readNumber n = s.readInterval n := by
  obtain ⟨hfb, hsh⟩ := not_or.1 hm
  unfold State.readNumber
  rw [if_neg (by omega), if_neg (mt (s.holdsFb_iff n).1 hfb), if_neg (mt (s.holdsShadow_iff n).1 hsh)]

/-- The two words of an interval slot (R33, R37). -/
theorem State.readInterval_slot {s : State} {i : Nat} {e : Interval} (hi : i < s.cfg.ni) (he : s.iv[i]? = some e) :
    s.readInterval (0x20 + 2 * i) = e.first ∧ s.readInterval (0x21 + 2 * i) = e.last := by
  have h0 : (0x20 + 2 * i - 0x20) / 2 = i := by omega
  have h1 : (0x21 + 2 * i - 0x20) / 2 = i := by omega
  have m0 : (0x20 + 2 * i) % 2 = 0 := by omega
  have m1 : (0x21 + 2 * i) % 2 ≠ 0 := by omega
  simp only [State.readInterval, h0, h1, if_pos hi, if_pos m0, if_neg m1, List.getD_eq_getElem?_getD, he,
    Option.getD_some, and_self]

/-- Past the interval table nothing is held (R37). -/
theorem State.readInterval_beyond {s : State} {n : Nat} (h : 0x20 + 2 * s.cfg.ni ≤ n) : s.readInterval n = 0 :=
  if_neg (by omega)

/-- The words of the shadow entries, two each (R30, R37). -/
theorem State.readShadow_add (s : State) (k : Nat) :
    s.readShadow (0xC000 + k) =
      if k % 2 = 0 then (s.shadowAt (k / 2)).col else (s.shadowAt (k / 2)).byte.setWidth 16 := by
  have hmod : (0xC000 + k) % 2 = k % 2 := by omega
  unfold State.readShadow
  simp only [Nat.add_sub_cancel_left, hmod]

/-- The column of a shadow entry (R37). -/
theorem State.readShadow_col (s : State) (y : Nat) : s.readShadow (0xC000 + 2 * y) = (s.shadowAt y).col := by
  rw [s.readShadow_add, if_pos (by omega), show 2 * y / 2 = y by omega]

/-- The byte of a shadow entry (R37). -/
theorem State.readShadow_byte (s : State) (y : Nat) :
    s.readShadow (0xC001 + 2 * y) = (s.shadowAt y).byte.setWidth 16 := by
  rw [show 0xC001 + 2 * y = 0xC000 + (2 * y + 1) by omega, s.readShadow_add, if_neg (by omega),
    show (2 * y + 1) / 2 = y by omega]

/-- Between the register table and the interval table nothing is held (R37). -/
theorem State.readRegister_beyond (s : State) {n : Nat} (h : 0x15 ≤ n) : s.readRegister n = 0 := by
  obtain ⟨k, rfl⟩ := Nat.exists_eq_add_of_le' h
  rfl

/-- Settles O60: which part of the port a number belongs to is said once for each part (`State.readNumber_register`,
`State.readNumber_fb`, `State.readNumber_shadow`, `State.readNumber_interval`), and then what the part holds there. -/
theorem readbackPort : Obligations.ReadbackPort := by
  intro s occasion
  refine ⟨s.readback_status occasion, s.status_toNat, fun hb => ?_⟩
  have reg (n : Word) (hn : n.toNat < 0x20) : s.readback occasion n = s.readRegister n.toNat := by
    rw [State.readback_of_idle hb, s.readNumber_register hn]
  refine ⟨?_, fun hc => ?_, reg _ (by decide), ?_, ?_, reg _ (by decide), reg _ (by decide), ?_,
    fun i e hi he => ⟨fun hn hm => ?_, fun hn hm => ?_⟩, fun y b hf hy hbb ho => ?_, fun y hy h2 => ⟨?_, ?_⟩,
    fun n hn => ?_⟩
  · rw [List.map_congr_left (g := fun n : Word => s.readRegister n.toNat) fun n hn => reg n ?_]
    · rfl
    · simp only [List.mem_cons, List.not_mem_nil, or_false] at hn
      bv_omega
  · exact (reg _ (by decide)).trans (ctrl_and_mask hc)
  · rw [reg _ (by decide)]
    exact s.fontStat_toNat
  · rw [reg _ (by decide)]
    exact toNat_setWidth_byte _
  · rw [reg _ (by decide), reg _ (by decide)]
    exact halves_toNat _
  · rw [State.readback_ofNat hb occasion hn, State.readNumber_interval (by omega) hm]
    exact (State.readInterval_slot hi he).1
  · rw [State.readback_ofNat hb occasion hn, State.readNumber_interval (by omega) hm]
    exact (State.readInterval_slot hi he).2
  · have hlt : s.offset y b < s.height * s.bpr := Kept.offset_lt hy hbb
    have hh : s.holdsFb (0x8000 + s.offset y b) = true := (s.holdsFb_iff _).2 ⟨hf, by omega, by omega, by omega⟩
    rw [State.readback_ofNat hb occasion (by omega), State.readNumber_fb hh, State.readFb, toNat_setWidth_byte,
      Nat.add_sub_cancel_left]
    rfl
  · have hh : s.holdsShadow (0xC000 + 2 * y) = true := (s.holdsShadow_iff _).2 ⟨by omega, by omega⟩
    rw [State.readback_ofNat hb occasion (by omega), State.readNumber_shadow hh]
    exact s.readShadow_col y
  · have hh : s.holdsShadow (0xC001 + 2 * y) = true := (s.holdsShadow_iff _).2 ⟨by omega, by omega⟩
    rw [State.readback_ofNat hb occasion (by omega), State.readNumber_shadow hh, s.readShadow_byte]
    exact toNat_setWidth_byte _
  · rw [State.readback_of_idle hb]
    rcases hn with ⟨h1, h2⟩ | ⟨h1, hm⟩
    · rw [s.readNumber_register h2, s.readRegister_beyond h1]
    · rw [State.readNumber_interval (by omega) hm, State.readInterval_beyond h1]

end Sys2Proof.Machine

/-!
SUPPORT. Packed pixels (20_memory.md R62, R63).
-/
namespace Sys2Proof.Machine

/-- `pack` as the bit formula of the spec (R63). -/
theorem pack_eq_or (p q : Nibble) : pack p q = p.setWidth 8 <<< 4 ||| q.setWidth 8 := by
  revert p q
  decide

/-- `SetPix` writes the byte of its pixel and no other (R63). -/
theorem State.fbAt_setPix_other (s : State) (x y : Nat) (p : Nibble) {off : Nat} (h : off ≠ s.offset y (x / 2)) :
    (s.setPix x y p).fbAt off = s.fbAt off := by
  unfold State.fbAt
  rw [State.setPix_fb, Memory.read_write_other _ _ h, State.setPix_epoch]

/-- Settles O31: the packing laws, and `State.fbPixel_setPix` at the pixel itself and at any other. -/
theorem pixelHelpers : Obligations.PixelHelpers := by
  refine ⟨fun b p q => ⟨pack_eq_or p q, pack_unpack b, hiNib_pack p q, loNib_pack p q, rfl, rfl, rfl, rfl⟩,
    fun s x y p he hx => ⟨rfl, rfl, ?_, fun x' y' hx' hne => ?_, fun off => s.fbAt_setPix_other x y p⟩⟩
  · rw [s.fbPixel_setPix he p hx hx, if_pos ⟨rfl, rfl⟩]
  · rw [s.fbPixel_setPix he p hx hx', if_neg hne]

end Sys2Proof.Machine

/-!
SUPPORT. Buffered drawings row by row (41_rasterizer.md R152, R157, R166): what a stack of buffered lines leaves in the
framebuffer, and DRAW_IMAGE in buffered mode as one.
-/
namespace Sys2Proof.Machine

/-- A buffered drawing row by row, `rows r` the pixels of its row `r` (R152, R157). -/
def bufferedRows (x y : Int) (rows : Nat → List Nibble) (h : Nat) (s : State) : State :=
  (List.range h).foldl (fun (t : State) (r : Nat) => (hLine .buffered x (y + r) (rows r) t).1) s

/-- Pixel `i` of row `r` of a drawing lands at column `d` of the visible row `y'` (R151, R154). -/
def State.Lands (s : State) (x y : Int) (rows : Nat → List Nibble) (h r i d : Nat) (y' : Int) : Prop :=
  r < h ∧ i < (rows r).length ∧ y' = y + r ∧ s.rowVisible y' = true ∧ s.mapCol (x + i) = some d

/-! ### One line -/

/-- A buffered line reads nothing of the scratch memories (R152). -/
theorem hLineBuf_withLine (y : Nat) (ps : List Nibble) (x : Int) (s : State) (l : List Nibble) :
    (hLineBuf y ps x (s.withLine l)).1 = (hLineBuf y ps x s).1.withLine l := by
  induction ps generalizing x s with
  | nil => rfl
  | cons p ps ih =>
    have hm : (s.withLine l).mapCol x = s.mapCol x := rfl
    simp only [hLineBuf, hm]
    split
    · exact ih (x + 1) s
    · exact ih (x + 1) (s.setPix _ y p)

theorem hLine_buffered_withLine (x y : Int) (ps : List Nibble) (s : State) (l : List Nibble) :
    (hLine .buffered x y ps (s.withLine l)).1 = (hLine .buffered x y ps s).1.withLine l := by
  have hv : (s.withLine l).rowVisible y = s.rowVisible y := rfl
  unfold hLine
  rw [hv]
  split
  · exact hLineBuf_withLine _ ps x s l
  · rfl

/-- In a row of the screen that is visible, the last pixel of a buffered line that is aimed at a column wins (R152). -/
theorem hLine_buffered_pixel {s : State} (he : s.width % 2 = 0) {x y : Int} {ps : List Nibble} {i d y' : Nat}
    (hd : d < s.width) (hy : (y' : Int) = y) (hv : s.rowVisible y = true) (hi : i < ps.length)
    (hm : s.mapCol (x + i) = some d) (hlast : ∀ j : Nat, i < j → j < ps.length → s.mapCol (x + j) ≠ some d) :
    (hLine .buffered x y ps s).1.fbPixel d y' = ps[i] := by
  subst hy
  unfold hLine
  rw [if_pos hv]
  exact (hLineBuf_pixel (y' := y') ps x he hd).1 i hi hm hlast

/-- A buffered line leaves the pixels it does not land on (R152, R157). -/
theorem hLine_buffered_pixel_other {s : State} (hs : s.Drawable) {x y : Int} {ps : List Nibble} {d y' : Nat}
    (hd : d < s.width)
    (h : (y' : Int) = y → s.rowVisible y = true → ∀ i : Nat, i < ps.length → s.mapCol (x + i) ≠ some d) :
    (hLine .buffered x y ps s).1.fbPixel d y' = s.fbPixel d y' := by
  unfold hLine
  split
  · rename_i hv
    have hy := State.rowVisible_bounds hs.window hv
    refine (hLineBuf_pixel ps x hs.geometry.2.1 hd).2 ?_
    by_cases hy' : (y' : Int) = y
    · exact .inr (h hy' hv)
    · exact .inl (by omega)
  · rfl

/-- A buffered line leaves the bytes its pixels do not land in (R152, R157). -/
theorem hLine_buffered_fbAt_other {s : State} (hs : s.Drawable) {x y : Int} {ps : List Nibble} {off : Nat}
    (h : ∀ i d y' : Nat, i < ps.length → (y' : Int) = y → s.rowVisible y = true → s.mapCol (x + i) = some d →
      off ≠ s.offset y' (d / 2)) : (hLine .buffered x y ps s).1.fbAt off = s.fbAt off := by
  have hf := (hLine_spec (m := .buffered) x y ps hs).1
  have he : (hLine .buffered x y ps s).1.epoch = s.epoch := by
    rw [hf]
    rfl
  unfold State.fbAt
  rw [he]
  congr 1
  unfold hLine
  split
  · rename_i hv
    have hy := State.rowVisible_bounds hs.window hv
    exact hLineBuf_read ps x fun i d hi hm => h i d y.toNat hi (by omega) hv hm
  · rfl

/-! ### Rows -/

theorem bufferedRows_succ (x y : Int) (rows : Nat → List Nibble) (h : Nat) (s : State) :
    bufferedRows x y rows (h + 1) s = (hLine .buffered x (y + h) (rows h) (bufferedRows x y rows h s)).1 := by
  unfold bufferedRows
  rw [List.range_succ, List.foldl_append]
  rfl

/-- A buffered drawing changes `FB` alone, and keeps the memories in bounds (R61). -/
theorem bufferedRows_spec (x y : Int) (rows : Nat → List Nibble) (h : Nat) {s : State} (hs : s.Drawable) :
    bufferedRows x y rows h s = s.withFbOf (bufferedRows x y rows h s) ∧ Kept s (bufferedRows x y rows h s) := by
  induction h with
  | zero => exact ⟨rfl, Kept.refl s⟩
  | succ h ih =>
    rw [bufferedRows_succ]
    obtain ⟨hf, hk⟩ := hLine_spec (m := .buffered) x (y + h) (rows h) (ih.2.drawable hs)
    exact ⟨State.withDrawOf_trans (m := .buffered) ih.1 hf, ih.2.trans hk⟩

/-- A buffered drawing leaves every pixel that none of its pixels lands on. -/
theorem bufferedRows_pixel_other {x y : Int} {rows : Nat → List Nibble} {h : Nat} {s : State} (hs : s.Drawable)
    {d y' : Nat} (hd : d < s.width) (hl : ∀ r i : Nat, ¬s.Lands x y rows h r i d y') :
    (bufferedRows x y rows h s).fbPixel d y' = s.fbPixel d y' := by
  induction h with
  | zero => rfl
  | succ h ih =>
    have hk := (bufferedRows_spec x y rows h hs).2
    rw [bufferedRows_succ, hLine_buffered_pixel_other (hk.drawable hs) (hk.width.symm ▸ hd) ?_, ih ?_]
    · exact fun r i ⟨hr, hin⟩ => hl r i ⟨by omega, hin⟩
    · intro hy hv i hi hm
      rw [hk.rowVisible] at hv
      rw [hk.mapCol] at hm
      exact hl h i ⟨by omega, hi, hy, hy ▸ hv, hm⟩

/-- The last pixel of a drawing's row that lands at a column is what the drawing leaves there: no other row of the
drawing reaches that row of the screen. -/
theorem bufferedRows_pixel {x y : Int} {rows : Nat → List Nibble} {h : Nat} {s : State} (hs : s.Drawable)
    {r i d y' : Nat} (hl : s.Lands x y rows h r i d y')
    (hlast : ∀ j : Nat, i < j → j < (rows r).length → s.mapCol (x + j) ≠ some d) :
    (bufferedRows x y rows h s).fbPixel d y' = (rows r).getD i 0 := by
  obtain ⟨hr, hi, hy, hv, hm⟩ := hl
  have hd : d < s.width := (State.mapCol_lt hm).1
  induction h with
  | zero => omega
  | succ h ih =>
    have hk := (bufferedRows_spec x y rows h hs).2
    have hdt := hk.width.symm ▸ hd
    rw [bufferedRows_succ]
    by_cases hrh : r = h
    · subst hrh
      rw [hLine_buffered_pixel (hk.drawable hs).geometry.2.1 hdt hy (by rw [hk.rowVisible, ← hy]; exact hv) hi
        (by rw [hk.mapCol]; exact hm) (fun j => by rw [hk.mapCol]; exact hlast j)]
      exact (List.getD_eq_getElem _ _ hi).symm
    · rw [hLine_buffered_pixel_other (hk.drawable hs) hdt (by omega)]
      exact ih (by omega)

/-- A buffered drawing leaves every byte that none of its pixels lands in. -/
theorem bufferedRows_fbAt_other {x y : Int} {rows : Nat → List Nibble} {h : Nat} {s : State} (hs : s.Drawable)
    {off : Nat} (hl : ∀ r i d y' : Nat, s.Lands x y rows h r i d y' → off ≠ s.offset y' (d / 2)) :
    (bufferedRows x y rows h s).fbAt off = s.fbAt off := by
  induction h with
  | zero => rfl
  | succ h ih =>
    have hk := (bufferedRows_spec x y rows h hs).2
    have ho (y' b : Nat) : (bufferedRows x y rows h s).offset y' b = s.offset y' b := by
      unfold State.offset
      rw [hk.bpr]
    rw [bufferedRows_succ, hLine_buffered_fbAt_other (hk.drawable hs) ?_, ih ?_]
    · exact fun r i d y' ⟨hr, hin⟩ => hl r i d y' ⟨by omega, hin⟩
    · intro i d y' hi hy hv hm
      rw [ho]
      rw [hk.rowVisible] at hv
      rw [hk.mapCol] at hm
      exact hl h i d y' ⟨by omega, hi, hy, hy ▸ hv, hm⟩

/-! ### Images -/

/-- The pixels of row `r` of an image `bw` pixels wide whose pixel data is at `p` (R70, R166). -/
def State.imageRow (s : State) (p bw r : Nat) : List Nibble := s.streamRow p (r * bw) bw

@[simp] theorem State.length_imageRow (s : State) (p bw r : Nat) : (s.imageRow p bw r).length = bw := by
  simp [State.imageRow, State.streamRow]

theorem State.imageRow_getD (s : State) (p r : Nat) {bw i : Nat} (h : i < bw) :
    (s.imageRow p bw r).getD i 0 = s.pixelStream p (r * bw + i) := by
  simp [State.imageRow, State.streamRow, h]

/-- The generic strategy in buffered mode is a buffered drawing of the image's rows, but for the pixels left in `LINE`
(R166). -/
theorem blitGeneric_buffered {s : State} (hs : s.Drawable) (x y : Int) (bw bh p : Nat) (l : List Nibble) :
    (blitGeneric x y bw bh p .buffered s).withLine l = (bufferedRows x y (s.imageRow p bw) bh s).withLine l := by
  unfold blitGeneric
  induction bh with
  | zero => rfl
  | succ n ih =>
    have k : Kept s ((List.range n).foldl (blitGenericRow x y bw p .buffered) s) := blitGeneric_kept x y bw n p hs
    rw [List.range_succ, List.foldl_append, bufferedRows_succ]
    simp only [List.foldl_cons, List.foldl_nil]
    generalize (List.range n).foldl (blitGenericRow x y bw p .buffered) s = t at *
    have hrow : t.streamRow p (n * bw) bw = s.imageRow p bw n := List.map_congr_left fun i _ => k.pixelStream p _
    rw [blitGenericRow_eq, hrow, ← hLine_buffered_withLine, ← hLine_buffered_withLine, ← ih]
    rfl

/-- A buffered blit takes the generic strategy and meets no transfer (R167, R169, R224). -/
theorem blitStream_buffered {s : State} (hs : s.Drawable) (hq : s.xferBusy = false) (x y : Int) (bw bh p : Nat) :
    blitStream x y bw bh p .buffered s = (blitGeneric x y bw bh p .buffered s, .generic) := by
  have hb : (blitGeneric x y bw bh p .buffered s).xferBusy = false := by
    rw [blitGeneric_frame x y bw bh p hs]
    exact hq
  unfold blitStream
  rw [State.selectStrategy_buffered]
  exact congrArg (·, Strategy.generic) (State.dmaWait_eq_of_quiet hb)

/-- At the command's end a buffered blit has left the buffered drawing of the image's rows and nothing else (R34,
R166). -/
theorem blitStream_buffered_clear {s : State} (hs : s.Drawable) (hq : s.xferBusy = false) (hc : s.clearScratch = s)
    (x y : Int) (bw bh p : Nat) :
    (blitStream x y bw bh p .buffered s).1.clearScratch = bufferedRows x y (s.imageRow p bw) bh s := by
  have hf := (bufferedRows_spec x y (s.imageRow p bw) bh hs).1
  have hl := congrArg State.clearScratch (blitGeneric_buffered hs x y bw bh p [])
  rw [blitStream_buffered hs hq]
  generalize bufferedRows x y (s.imageRow p bw) bh s = t at *
  calc (blitGeneric x y bw bh p .buffered s).clearScratch
      = t.clearScratch := hl
    _ = s.clearScratch.withFbOf t := by rw [hf]; rfl
    _ = t := by rw [hc, ← hf]

/-- DRAW_IMAGE in buffered mode of an image that the line buffer holds (R165, R167). -/
theorem execDrawImage_buffered {x y fileId : Word} {s : State} {a : Addr} (hs : s.Ready) (hf : s.cfg.hasFb = true)
    (ha : s.assetAddr fileId s.cfg.typeBitmap = some a) (hw : (s.assetField16 a.toNat).toNat ≤ s.cfg.lineCap) :
    execDrawImage .buffered x y fileId s =
      let bw := s.assetField16 a.toNat
      let bh := s.assetField16 (a.toNat + 2)
      .next ((bufferedRows (s16 x) (s16 y) (s.imageRow (a.toNat + 8) bw.toNat) bh.toNat s).endCommand .ok bw bh 3 0) := by
  obtain ⟨hsound, hi⟩ := hs
  have hd := hsound.drawable hi
  unfold execDrawImage
  rw [hi, ha]
  simp only [State.lacksFb, hf, u16, gt_iff_lt, if_neg (Nat.not_lt.2 hw),
    ← blitStream_buffered_clear hd hsound.quiet hsound.clear, blitStream_buffered hd hsound.quiet]
  rfl

/-- Settles O42: the command leaves the buffered drawing of the image's rows (`execDrawImage_buffered`), whose pixels and
bytes `bufferedRows_pixel` and its companions say. -/
theorem drawImageBuffered : Obligations.DrawImageBuffered := by
  intro s x y fileId a hs hfb ha bw bh hw lands
  have hd := hs.1.drawable hs.2
  have hlands (r i d : Nat) (y' : Int) :
      lands r i d y' ↔ s.Lands (s16 x) (s16 y) (s.imageRow (a.toNat + 8) bw) bh r i d y' := by
    unfold State.Lands
    rw [State.length_imageRow]
  simp only [hlands]
  refine ⟨bufferedRows (s16 x) (s16 y) (s.imageRow (a.toNat + 8) bw) bh s, ?_, (bufferedRows_spec _ _ _ _ hd).1,
    fun r i d y' hl hlast => ?_, fun d y' hdw hl => bufferedRows_pixel_other hd hdw fun r i => hl r i,
    fun off hl => bufferedRows_fbAt_other hd hl⟩
  · simp only [bw, bh, BitVec.ofNat_toNat, BitVec.setWidth_eq]
    exact execDrawImage_buffered hs hfb ha hw
  · have hi := hl.2.1
    rw [State.length_imageRow] at hi
    rw [bufferedRows_pixel hd hl (by simpa using hlast), s.imageRow_getD _ r hi]

end Sys2Proof.Machine

/-!
SUPPORT. The fields of a font asset, and the font they select (20_memory.md R64, R69; 42_font_glyph.md R181, R182).
-/
namespace Sys2Proof.Machine

/-- A two-byte asset field as a number; with `ASSET_LE` false its first byte is the more significant (R64;
notes/assumptions/25.md). -/
theorem State.assetField16_toNat (s : State) (k : Nat) :
    (s.assetField16 k).toNat =
      if s.cfg.assetLe then (s.assetByte k).toNat + 256 * (s.assetByte (k + 1)).toNat
      else 256 * (s.assetByte k).toNat + (s.assetByte (k + 1)).toNat := by
  unfold State.assetField16 assetWord
  split
  · rw [toNat_append_eq]
    omega
  · rw [toNat_append_eq]
    omega

/-- The scan of an interval table finds an index exactly when some interval in use contains the codepoint (R184). -/
theorem intervalScan_isSome (es : List Interval) (off : Nat) (cp : Word) :
    (intervalScan es off cp).isSome = true ↔ ∃ e ∈ es, e.contains cp := by
  classical
  induction es generalizing off with
  | nil => simp [intervalScan]
  | cons e es ih =>
    rw [intervalScan_cons, List.exists_mem_cons_iff]
    by_cases h : e.contains cp
    · simp [h]
    · simp [h, ih]

/-- The fallback flag of a font just selected (R182). -/
theorem State.loadFont_qmark (s : State) (a : Addr) :
    (s.loadFont a).qmark = true ↔ ∃ e ∈ (s.loadFont a).iv, e.contains questionMark :=
  intervalScan_isSome _ 0 questionMark

/-- SELECT_FONT of a font the Asset Store does not hold (R181). -/
theorem execSelectFont_missing {s : State} {fontId : Word} (hi : s.inited = true)
    (ha : s.assetAddr fontId s.cfg.typeFont = none) :
    execSelectFont fontId s = .next (s.endCommand .errNotFound 0 0 0 0) := by
  unfold execSelectFont
  rw [hi, ha]
  rfl

/-- SELECT_FONT of a font at `a` (R181). -/
theorem execSelectFont_found {s : State} {fontId : Word} {a : Addr} (hi : s.inited = true)
    (ha : s.assetAddr fontId s.cfg.typeFont = some a) :
    execSelectFont fontId s = .next ((s.loadFont a).endCommand .ok ((s.assetByte a.toNat).setWidth 16)
      (s.loadFont a).fontTotal (s.loadFont a).fontDesc (if (s.loadFont a).qmark then 1 else 0)) := by
  unfold execSelectFont
  rw [hi, ha]
  rfl

/-- Settles O46: the command's two outcomes, and each field of the asset as a number. -/
theorem selectFontCommand : Obligations.SelectFontCommand := by
  intro s fontId hi
  refine ⟨execSelectFont_missing hi, fun a ha => ?_⟩
  have field (k : Nat) : BitVec.ofNat 16 (if s.cfg.assetLe then
      (s.assetByte (a.toNat + k)).toNat + 256 * (s.assetByte (a.toNat + (k + 1))).toNat
      else 256 * (s.assetByte (a.toNat + k)).toNat + (s.assetByte (a.toNat + (k + 1))).toNat) =
      s.assetField16 (a.toNat + k) := by
    rw [← Nat.add_assoc, ← s.assetField16_toNat, BitVec.ofNat_toNat, BitVec.setWidth_eq]
  refine ⟨s.loadFont a, ?_, rfl, rfl, s.assetField16_toNat _, s.assetField16_toNat _,
    List.map_congr_left fun i _ => ?_, s.loadFont_qmark a⟩
  · simp only [Nat.add_zero, BitVec.ofNat_toNat]
    exact execSelectFont_found hi ha
  · rw [field, field, ← Nat.add_assoc, ← Nat.add_assoc]
    rfl

end Sys2Proof.Machine

/-!
SUPPORT. A part without the Bulk Transfer Channel (20_memory.md R74, 43_dma_streamer.md R226): every operation that sends
to the display sends over the bus.
-/
namespace Sys2Proof.Machine

/-- The part has no Bulk Transfer Channel, and no transfer is in flight (R226). -/
def State.NoBulk (s : State) : Prop := s.cfg.hasDma = false ∧ s.xferBusy = false

/-- From a part without the Bulk Transfer Channel `t` comes as one, with no event of a bulk transfer since `s`. -/
def BusOnly (s t : State) : Prop :=
  s.NoBulk → t.NoBulk ∧ ∃ es : List Event, t.trace = s.trace ++ es ∧ ∀ e ∈ es, e.isBulk = false

namespace BusOnly

variable {s t u : State}

/-- An operation that records certain events, none of a bulk transfer. -/
theorem of_events (hc : t.cfg = s.cfg) (hx : t.xferBusy = s.xferBusy) {es : List Event} (ht : t.trace = s.trace ++ es)
    (he : ∀ e ∈ es, e.isBulk = false) : BusOnly s t :=
  fun ⟨h1, h2⟩ => ⟨⟨hc ▸ h1, hx.trans h2⟩, es, ht, he⟩

/-- An operation that records no event. -/
theorem silent (hc : t.cfg = s.cfg) (hx : t.xferBusy = s.xferBusy) (ht : t.trace = s.trace) : BusOnly s t :=
  of_events hc hx (es := []) (by rw [ht, List.append_nil]) (by simp)

theorem refl (s : State) : BusOnly s s := silent rfl rfl rfl

theorem trans (h : BusOnly s t) (k : BusOnly t u) : BusOnly s u := by
  intro hs
  obtain ⟨ht, es, hes, he⟩ := h hs
  obtain ⟨hu, fs, hfs, hf⟩ := k ht
  refine ⟨hu, es ++ fs, by rw [hfs, hes, List.append_assoc], fun e hm => ?_⟩
  rcases List.mem_append.1 hm with hm | hm
  · exact he e hm
  · exact hf e hm

theorem foldl {α : Type} {f : State → α → State} (h : ∀ t x, BusOnly t (f t x)) (l : List α) (s : State) :
    BusOnly s (l.foldl f s) := by
  induction l generalizing s with
  | nil => exact refl s
  | cons x l ih => exact (h s x).trans (ih _)

/-- An operation that ends with a step it may leave out. -/
theorem thenIf {c : Prop} [Decidable c] (h : BusOnly s t) (k : BusOnly t u) : BusOnly s (if c then u else t) := by
  split
  · exact h.trans k
  · exact h

end BusOnly

/-! ### The primitives -/

/-- With no transfer in flight the barrier does nothing. -/
theorem dmaWait_busOnly (s : State) : BusOnly s s.dmaWait := by
  intro hs
  rw [State.dmaWait_eq_of_quiet hs.2]
  exact BusOnly.refl s hs

theorem emit_busOnly (s : State) {e : Event} (he : e.isBulk = false) : BusOnly s (s.emit e) :=
  .of_events rfl rfl rfl (by simpa using he)

theorem dispAddr_busOnly (s : State) (y b : Nat) : BusOnly s (s.dispAddr y b) :=
  (emit_busOnly s rfl).trans (.silent rfl rfl rfl)

theorem busWriteRun_busOnly (s : State) (y b : Nat) (bs : List Byte) : BusOnly s (s.busWriteRun y b bs) :=
  (dmaWait_busOnly s).trans (.of_events (by rw [s.busWriteRun_frame]; rfl)
    ((s.busWriteRun_xferBusy y b bs).trans s.dmaWait_xferBusy.symm) (s.busWriteRun_trace y b bs)
    (by simp [Event.isBulk]))

/-- Without the channel a run of a flush or of a transition goes over the bus (R79, R226, R258). -/
theorem xferRun_busOnly (s : State) (y b : Nat) (src : XferSource) (len : Nat) : BusOnly s (s.xferRun y b src len) := by
  intro hs
  unfold State.xferRun
  rw [if_neg (by simp [hs.1])]
  exact busWriteRun_busOnly s y b _ hs

/-! ### Flushes and transitions -/

theorem flushRows_busOnly (s : State) (r : Rect) : BusOnly s (s.flushRows r) :=
  .foldl (fun t _ => xferRun_busOnly t _ _ _ _) _ s

theorem sendColumn_busOnly (s : State) (c : Nat) : BusOnly s (s.sendColumn c) :=
  .foldl (fun t yy => xferRun_busOnly t yy c _ 1) _ s

theorem sendDividerColumn_busOnly (s : State) (c : Nat) : BusOnly s (s.sendDividerColumn c) :=
  .foldl (fun t yy => xferRun_busOnly t yy c _ 1) _ s

theorem stageDivider_busOnly (s : State) : BusOnly s s.stageDivider := .silent rfl rfl rfl

theorem hWipe_busOnly (forward : Bool) (s : State) : BusOnly s (hWipe forward s) :=
  (stageDivider_busOnly s).trans (.foldl (fun t _ =>
    (sendColumn_busOnly t _).thenIf (sendDividerColumn_busOnly _ _)) _ _)

theorem vWipe_busOnly (downward : Bool) (s : State) : BusOnly s (vWipe downward s) :=
  (stageDivider_busOnly s).trans (.foldl (fun t _ =>
    ((xferRun_busOnly t _ _ _ _).thenIf (xferRun_busOnly _ _ _ _ _)).trans
      ((dmaWait_busOnly _).trans (emit_busOnly _ rfl))) _ _)

theorem iris_busOnly (outward : Bool) (s : State) : BusOnly s (iris outward s) :=
  .foldl (fun t _ => (sendColumn_busOnly t _).thenIf (sendColumn_busOnly _ _)) _ s

theorem runTransition_busOnly (k : Transition) (s : State) : BusOnly s (runTransition k s) := by
  cases k
  case none => exact xferRun_busOnly s _ _ _ _
  case wipeLr | wipeRl => exact hWipe_busOnly _ s
  case wipeTb | wipeBt => exact vWipe_busOnly _ s
  case irisIn | irisOut => exact iris_busOnly _ s

/-! ### Lines, blits and text -/

theorem streamByte_busOnly (y : Nat) (r : Run) (s : State) (b : Nat) : BusOnly s (streamByte y r s b) :=
  (emit_busOnly s rfl).trans (.silent rfl rfl rfl)

theorem streamRun_busOnly (y : Nat) (s : State) (r : Run) : BusOnly s (streamRun y s r) :=
  (dmaWait_busOnly s).trans ((dispAddr_busOnly _ y _).trans (.foldl (streamByte_busOnly y r) _ _))

theorem hLine_busOnly (m : Mode) (x y : Int) (pix : List Nibble) (s : State) : BusOnly s (hLine m x y pix s).1 := by
  unfold hLine
  split
  · cases m
    · simp only
      rw [hLineBuf_frame]
      exact .silent rfl rfl rfl
    · exact .foldl (streamRun_busOnly _) _ s
  · exact .refl s

theorem hLineRows_busOnly (m : Mode) (x y : Int) (pix : List Nibble) (h : Nat) (s : State) :
    BusOnly s (hLineRows m x y pix h s).1 := by
  induction h with
  | zero => exact .refl s
  | succ h ih =>
    rw [hLineRows_succ]
    exact ih.trans (hLine_busOnly m x _ pix _)

theorem setLine_busOnly (s : State) (pix : List Nibble) : BusOnly s (s.setLine pix) := .silent rfl rfl rfl

theorem blitGeneric_busOnly (x y : Int) (bw bh p : Nat) (m : Mode) (s : State) :
    BusOnly s (blitGeneric x y bw bh p m s) :=
  .foldl (fun t _ => (setLine_busOnly t _).trans (hLine_busOnly m x _ _ _)) _ s

/-- Without the channel every image and every glyph is drawn by the generic strategy (R167, R226). -/
theorem selectStrategy_noBulk {s : State} (hs : s.NoBulk) (x y : Int) (bw bh : Nat) (m : Mode) :
    s.selectStrategy x y bw bh m = .generic := by
  rcases s.selectStrategy_cases x y bw bh m with ⟨_, _, hd, _⟩ | ⟨_, _, hd, _⟩ | h
  · simp [hs.1] at hd
  · simp [hs.1] at hd
  · exact h

theorem blitStream_busOnly (x y : Int) (bw bh p : Nat) (m : Mode) (s : State) :
    BusOnly s (blitStream x y bw bh p m s).1 := by
  intro hs
  unfold blitStream
  rw [selectStrategy_noBulk hs]
  exact (blitGeneric_busOnly x y bw bh p m s).trans (dmaWait_busOnly _) hs

theorem drawGlyphAt_busOnly (m : Mode) (x y : Int) (cp : Word) (s : State) :
    BusOnly s (drawGlyphAt m x y cp s).state := by
  unfold drawGlyphAt
  split
  · exact .refl s
  · simp only
    split
    · exact .refl s
    · split
      · exact .refl s
      · exact blitStream_busOnly _ _ _ _ _ m s

theorem emitGlyph_busOnly (m : Mode) (cp : Word) (s : State) : BusOnly s (s.emitGlyph m cp) :=
  (drawGlyphAt_busOnly m _ _ cp s).trans (.silent rfl rfl rfl)

theorem checkRight_busOnly {s t : State} {mt : Metrics} (h : s.checkRight mt = some t) : BusOnly s t := by
  rw [State.checkRight_cases] at h
  split at h
  · exact Option.some.inj h ▸ .refl s
  · split at h
    · exact Option.some.inj h ▸ .silent rfl rfl rfl
    · split at h
      · exact Option.some.inj h ▸ .refl s
      · cases h

theorem putCharCore_busOnly (m : Mode) (cp : Word) (s : State) : BusOnly s (putCharCore m cp s).1 := by
  unfold putCharCore
  split
  · exact .silent rfl rfl rfl
  · split
    · exact .silent rfl rfl rfl
    · split
      · exact .refl s
      · split
        · exact .refl s
        · rename_i hr
          split
          · exact (checkRight_busOnly hr).trans (emitGlyph_busOnly m cp _)
          · exact checkRight_busOnly hr

theorem emitString_busOnly (m : Mode) (cps : List Word) (s : State) : BusOnly s (emitString m cps s).1 := by
  induction cps generalizing s with
  | nil => exact .refl s
  | cons cp cps ih =>
    have h := putCharCore_busOnly m cp s
    unfold emitString
    split
    · rename_i t hp
      rw [hp] at h
      exact h
    · rename_i t hp
      rw [hp] at h
      exact h.trans (ih t)

/-! ### Commands -/

/-- The command answers a next state, and reaches it by bus traffic alone on a part without the channel. -/
def Sends (s : State) (r : Result) : Prop := ∃ t, r = .next t ∧ BusOnly s t

/-- The end of a command, from the state `v` it has drawn or sent, records no event (R271). -/
theorem Sends.ends {s v t : State} (h : BusOnly s v) (hc : t.cfg = v.cfg) (hx : t.xferBusy = v.xferBusy)
    (ht : t.trace = v.trace) : Sends s (.next t) :=
  ⟨t, rfl, h.trans (.silent hc hx ht)⟩

/-- A command that only reports (R271). -/
theorem Sends.report (s : State) (c : Code) (r0 r1 r2 r3 : Word) : Sends s (.next (s.endCommand c r0 r1 r2 r3)) :=
  .ends (.refl s) rfl rfl rfl

/-- A check that a command makes before it does anything (R276). -/
theorem Sends.guard {s : State} {p : Prop} [Decidable p] {c : Code} {r0 r1 r2 r3 : Word} {r : Result}
    (h : ¬p → Sends s r) : Sends s (if p then failWith c s r0 r1 r2 r3 else r) := by
  split
  · exact .report s c r0 r1 r2 r3
  · exact h ‹_›

/-- Power-up sends no event of a bulk transfer (R121). -/
theorem powerUpEvents_isBulk (c : Cfg) : ∀ e ∈ c.powerUpEvents, e.isBulk = false := by
  intro e he
  rcases List.mem_append.1 he with he | he
  · obtain ⟨p, _, rfl⟩ := List.mem_map.1 he
    rfl
  · obtain rfl := List.mem_singleton.1 he
    rfl

theorem execInit_sends (w h : Word) (s : State) : Sends s (execInit w h s) := by
  cases hg : geometryBad s.cfg w h with
  | true =>
    unfold execInit
    rw [if_pos hg]
    exact .report s _ _ _ _ _
  | false =>
    rw [execInit_accepted hg]
    refine .ends (v := s.initialised w h)
      (.of_events (es := s.cfg.powerUpEvents) ?_ ?_ ?_ (powerUpEvents_isBulk s.cfg)) rfl rfl rfl
    all_goals
      unfold State.initialised
      rw [s.powerUp_eq]
      rfl

theorem execFlushWindow_sends (x y w h : Word) (s : State) : Sends s (execFlushWindow x y w h s) := by
  refine .guard fun _ => .guard fun _ => ?_
  simp only
  split
  · exact .report s _ _ _ _ _
  · exact .ends ((flushRows_busOnly s _).trans (dmaWait_busOnly _)) rfl rfl rfl

theorem execFlushFull_sends (s : State) : Sends s (execFlushFull s) :=
  .guard fun _ => .guard fun _ => .ends ((runTransition_busOnly s.trans s).trans (dmaWait_busOnly _)) rfl rfl rfl

theorem execWriteHline_sends (m : Mode) (x y n : Word) (payload : List Byte) (s : State) :
    Sends s (execWriteHline m x y n payload s) :=
  .guard fun _ => .guard fun _ => .guard fun _ => .ends
    ((setLine_busOnly s _).trans ((hLine_busOnly m _ _ _ _).trans (dmaWait_busOnly _))) rfl rfl rfl

theorem execDrawRect_sends (m : Mode) (x y w h color : Word) (s : State) : Sends s (execDrawRect m x y w h color s) :=
  .guard fun _ => .guard fun _ => .ends ((hLineRows_busOnly m _ _ _ _ s).trans (dmaWait_busOnly _)) rfl rfl rfl

theorem execDrawImage_sends (m : Mode) (x y fileId : Word) (s : State) : Sends s (execDrawImage m x y fileId s) := by
  refine .guard fun _ => .guard fun _ => ?_
  split
  · exact .report s _ _ _ _ _
  · exact .guard fun _ => .ends (blitStream_busOnly _ _ _ _ _ m s) rfl rfl rfl

theorem execDrawGlyph_sends (m : Mode) (x y cp : Word) (s : State) : Sends s (execDrawGlyph m x y cp s) := by
  refine .guard fun _ => .guard fun _ => .guard fun _ => ?_
  simp only
  split
  · exact .ends (drawGlyphAt_busOnly m _ _ cp s) rfl rfl rfl
  · exact .report s _ _ _ _ _

theorem execPutChar_sends (m : Mode) (cp : Word) (s : State) : Sends s (execPutChar m cp s) :=
  .guard fun _ => .guard fun _ => .guard fun _ => .ends (putCharCore_busOnly m cp s) rfl rfl rfl

theorem execPutString_sends (m : Mode) (n : Word) (chars : List Word) (s : State) :
    Sends s (execPutString m n chars s) :=
  .guard fun _ => .guard fun _ => .guard fun _ => .guard fun _ => .ends (emitString_busOnly m chars s) rfl rfl rfl

theorem execPutStringXy_sends (m : Mode) (j : Justify) (x y n : Word) (chars : List Word) (s : State) :
    Sends s (execPutStringXy m j x y n chars s) := by
  refine .guard fun _ => .guard fun _ => .guard fun _ => .guard fun _ => ?_
  simp only
  generalize reg16 (max (justifiedStart j (s16 x) (s.stringWidth chars)) (s16 s.minTextX)) = sx
  have hu : BusOnly s (s.justified j (s16 x) sx y) := .silent rfl rfl rfl
  exact .ends (hu.trans (emitString_busOnly m chars _)) rfl rfl rfl

/-- The commands that may send to the display, one by one (R61, R85). -/
theorem exec_sends {i : Instr} (hw : i.WritesDisp) (s : State) : Sends s (exec i s) := by
  cases i
  case init w h => exact execInit_sends w h s
  case flushWindow x y w h => exact execFlushWindow_sends x y w h s
  case flushFull => exact execFlushFull_sends s
  case writeHline m x y n payload => exact execWriteHline_sends m x y n payload s
  case drawRect m x y w h c => exact execDrawRect_sends m x y w h c s
  case drawImage m x y f => exact execDrawImage_sends m x y f s
  case drawGlyph m x y c => exact execDrawGlyph_sends m x y c s
  case putChar m c => exact execPutChar_sends m c s
  case putString m n cs => exact execPutString_sends m n cs s
  case putStringXy m j x y n cs => exact execPutStringXy_sends m j x y n cs s
  all_goals exact absurd hw (by simp [Instr.opcode, drawingOpcodes])

/-- Settles O16: a command that may send to the display sends over the bus (`exec_sends`), and any other records no event
(`exec_frame`). -/
theorem withoutBulkChannel : Obligations.WithoutBulkChannel := by
  intro i s t hs hd h
  by_cases hw : i.WritesDisp
  · obtain ⟨u, hu, hb⟩ := exec_sends hw s
    rw [h] at hu
    injection hu with hu
    exact hu ▸ (hb ⟨hd, hs.quiet⟩).2
  · have ht : t.trace = s.trace := by
      rw [exec_frame hs h]
      exact if_neg hw
    exact ⟨[], by rw [ht, List.append_nil], by simp⟩

end Sys2Proof.Machine

/-!
SUPPORT. The header (30_encoding.md R91, R96, R97, R100, R101): which rows a header matches, and the two header bytes of
every legal header.
-/
namespace Sys2Proof

/-! ### Opcode bytes -/

/-- The row the decoder looks up for an opcode's own code is that opcode (R96). -/
theorem find_opcode_code (o : Opcode) : (opcodes.find? fun o' => o'.code == o.code) = some o := by
  cases o <;> rfl

/-- No two rows have one opcode byte (R96). -/
theorem Opcode.code_injective {o o' : Opcode} (h : o.code = o'.code) : o = o' := by
  have hf := find_opcode_code o
  rw [h, find_opcode_code o'] at hf
  exact (Option.some.inj hf).symm

/-- The row the decoder looks up for an opcode byte (R96). -/
theorem find_opcode_eq_some_iff (op : Byte) (o : Opcode) :
    (opcodes.find? fun o' => o'.code == op) = some o ↔ op = o.code := by
  constructor
  · intro h
    have hp : (o.code == op) = true := List.find?_some (p := fun o' : Opcode => o'.code == op) h
    exact (eq_of_beq hp).symm
  · rintro rfl
    exact find_opcode_code o

theorem mem_opcodes (o : Opcode) : o ∈ opcodes :=
  List.mem_of_find?_eq_some (find_opcode_code o)

/-- The opcode bytes are those that R100 does not reserve. -/
theorem exists_code_iff (op : Byte) :
    (∃ o : Opcode, op = o.code) ↔
      ¬(op.toNat = 0x00 ∨ (0x0A ≤ op.toNat ∧ op.toNat ≤ 0x0F) ∨ (0x13 ≤ op.toNat ∧ op.toNat ≤ 0x1F) ∨
        (0x27 ≤ op.toNat ∧ op.toNat ≤ 0x2F) ∨ 0x31 ≤ op.toNat) := by
  have table : ∀ b : Byte, (∃ o ∈ opcodes, b = o.code) ↔
      ¬(b.toNat = 0x00 ∨ (0x0A ≤ b.toNat ∧ b.toNat ≤ 0x0F) ∨ (0x13 ≤ b.toNat ∧ b.toNat ≤ 0x1F) ∨
        (0x27 ≤ b.toNat ∧ b.toNat ≤ 0x2F) ∨ 0x31 ≤ b.toNat) := by decide
  rw [← table op]
  exact ⟨fun ⟨o, h⟩ => ⟨o, mem_opcodes o, h⟩, fun ⟨o, _, h⟩ => ⟨o, h⟩⟩

/-- The opcode bytes of the rows that list `M` (R96). -/
theorem code_mem_drawing_iff (o : Opcode) :
    o.code.toNat ∈ [0x10, 0x11, 0x12, 0x23, 0x24, 0x25, 0x26] ↔ o ∈ drawingOpcodes := by
  cases o <;> decide

/-- The opcode byte of the row that lists `J` (R96). -/
theorem code_eq_putStringXy_iff (o : Opcode) : o.code.toNat = 0x26 ↔ o = .putStringXy := by
  cases o <;> decide

/-! ### Matching a row -/

/-- The flag bits that a row fixes at 0 (R97). -/
def Opcode.fixedFlags (o : Opcode) : Byte := o.mask.extractLsb' 8 8

/-- A row fixes the whole opcode byte (R97). -/
theorem Opcode.mask_eq (o : Opcode) : o.mask = headerWord 0xFF o.fixedFlags := by
  cases o <;> rfl

theorem headerWord_inj {op fl op' fl' : Byte} : headerWord op fl = headerWord op' fl' ↔ op = op' ∧ fl = fl' := by
  constructor
  · intro h
    exact ⟨by simpa [headerWord] using congrArg (·.extractLsb' 0 8) h,
      by simpa [headerWord] using congrArg (·.extractLsb' 8 8) h⟩
  · rintro ⟨rfl, rfl⟩
    rfl

/-- Every header word is one of its two bytes (R91). -/
theorem headerWord_bytes (hdr : Word) : headerWord (hdr.extractLsb' 0 8) (hdr.extractLsb' 8 8) = hdr :=
  le16_wordBytes hdr

/-- A header matches a row when its opcode byte is the row's and the flags the row fixes are 0 (R97). -/
theorem headerWord_matches_iff (o : Opcode) (op fl : Byte) :
    headerWord op fl &&& o.mask = o.code.setWidth 16 ↔ op = o.code ∧ fl &&& o.fixedFlags = 0 := by
  have hcode : o.code.setWidth 16 = headerWord o.code 0 := by cases o <;> rfl
  have hand : headerWord op fl &&& headerWord 0xFF o.fixedFlags =
      headerWord (op &&& BitVec.allOnes 8) (fl &&& o.fixedFlags) := BitVec.and_append
  rw [o.mask_eq, hand, hcode, headerWord_inj, BitVec.and_allOnes]

/-- A header that matches a row has the row's opcode byte (R97). -/
theorem opcode_of_matches {hdr : Word} {o : Opcode} (h : hdr &&& o.mask = o.code.setWidth 16) :
    hdr.extractLsb' 0 8 = o.code := by
  rw [← headerWord_bytes hdr, headerWord_matches_iff] at h
  exact h.1

/-- No header matches two rows (R97). -/
theorem Opcode.eq_of_matches {hdr : Word} {o o' : Opcode} (h : hdr &&& o.mask = o.code.setWidth 16)
    (h' : hdr &&& o'.mask = o'.code.setWidth 16) : o = o' :=
  Opcode.code_injective ((opcode_of_matches h).symm.trans (opcode_of_matches h'))

/-- The legal headers: those that match a row and whose justification is not reserved (R97, R101). -/
theorem decodeHeader_ok_iff (hdr : Word) (h : Header) :
    decodeHeader hdr = .ok h ↔
      hdr &&& h.op.mask = h.op.code.setWidth 16 ∧ h.m = headerMode hdr ∧ headerJustify hdr = some h.j := by
  obtain ⟨op, m, j⟩ := h
  unfold decodeHeader
  constructor
  · intro hd
    split at hd
    · cases hd
    · split at hd
      · split at hd
        · injection hd with hd
          injection hd with ho hm hj
          subst ho hm hj
          exact ⟨‹_›, rfl, ‹_›⟩
        · cases hd
      · cases hd
  · rintro ⟨hmatch, rfl, hj⟩
    rw [(find_opcode_eq_some_iff _ op).2 (opcode_of_matches hmatch)]
    simp only [if_pos hmatch, hj]

/-- Settles O4: the rows are a finite table, and a match gives back the opcode byte (`opcode_of_matches`). -/
theorem headerRows : Obligations.HeaderRows :=
  ⟨by decide, mem_opcodes, fun _ _ _ => Opcode.eq_of_matches, decodeHeader_ok_iff⟩

/-! ### The two bytes of a legal header -/

/-- A row leaves free the flags below this bound: none, `M`, or `M` and `J` (R97). -/
def Opcode.flagBound (o : Opcode) : Nat :=
  if o = .putStringXy then 8 else if o ∈ drawingOpcodes then 2 else 1

/-- The flags byte keeps to what the row fixes when it is below the row's bound (R97). -/
theorem and_fixedFlags_iff (o : Opcode) (fl : Byte) : fl &&& o.fixedFlags = 0 ↔ fl.toNat < o.flagBound := by
  have noFlag : ∀ b : Byte, b &&& 0xFF#8 = 0 ↔ b.toNat < 1 := by decide
  have modeFlag : ∀ b : Byte, b &&& 0xFE#8 = 0 ↔ b.toNat < 2 := by decide
  have bothFlags : ∀ b : Byte, b &&& 0xF8#8 = 0 ↔ b.toNat < 8 := by decide
  cases o
  case putStringXy => exact bothFlags fl
  case writeHline | drawRect | drawImage | drawGlyph | putChar | putString => exact modeFlag fl
  all_goals exact noFlag fl

/-- The flags bytes of a mode and a justification are those below 6 (R91). -/
theorem exists_flagsByte_iff (fl : Byte) : (∃ m j, fl = flagsByte m j) ↔ fl.toNat < 6 := by
  constructor
  · rintro ⟨m, j, rfl⟩
    cases m <;> cases j <;> decide
  · intro h
    have hfl : fl = BitVec.ofNat 8 fl.toNat := by simp
    generalize fl.toNat = k at *
    subst hfl
    interval_cases k
    · exact ⟨.buffered, .left, rfl⟩
    · exact ⟨.direct, .left, rfl⟩
    · exact ⟨.buffered, .center, rfl⟩
    · exact ⟨.direct, .center, rfl⟩
    · exact ⟨.buffered, .right, rfl⟩
    · exact ⟨.direct, .right, rfl⟩

/-- The mode is read back from the flags byte (R91). -/
theorem headerMode_flagsByte (op : Byte) (m : Mode) (j : Justify) : headerMode (headerWord op (flagsByte m j)) = m := by
  unfold headerMode headerWord
  rw [getLsbD_le16]
  cases m <;> cases j <;> rfl

/-- The justification is read back from the flags byte (R91). -/
theorem headerJustify_flagsByte (op : Byte) (m : Mode) (j : Justify) :
    headerJustify (headerWord op (flagsByte m j)) = some j := by
  unfold headerJustify headerWord
  rw [getLsbD_le16, getLsbD_le16]
  cases m <;> cases j <;> rfl

/-- Of the flags without a reserved bit 7:3, those from 6 on hold the reserved justification (R91, R101). -/
theorem flags_lt_six_of_headerJustify {op fl : Byte} {j : Justify} (h : fl.toNat < 8)
    (hj : headerJustify (headerWord op fl) = some j) : fl.toNat < 6 := by
  have table : ∀ b : Byte, b.toNat < 8 → 6 ≤ b.toNat → b.getLsbD 2 = true ∧ b.getLsbD 1 = true := by decide
  by_contra h6
  obtain ⟨h2, h1⟩ := table fl h (by omega)
  unfold headerJustify headerWord at hj
  simp only [getLsbD_le16, Nat.reduceLT, if_false, Nat.reduceSub, h2, h1, reduceCtorEq] at hj

/-- Flags without a reserved bit 7:3 hold a mode and a justification exactly when they are the flags byte of these
(R91). -/
theorem flags_eq_iff (op : Byte) {fl : Byte} (m : Mode) (j : Justify) (h : fl.toNat < 8) :
    (m = headerMode (headerWord op fl) ∧ headerJustify (headerWord op fl) = some j) ↔ fl = flagsByte m j := by
  constructor
  · rintro ⟨rfl, hj⟩
    obtain ⟨m', j', rfl⟩ := (exists_flagsByte_iff fl).2 (flags_lt_six_of_headerJustify h hj)
    rw [headerJustify_flagsByte] at hj
    rw [headerMode_flagsByte, Option.some.inj hj]
  · rintro rfl
    exact ⟨(headerMode_flagsByte op m j).symm, headerJustify_flagsByte op m j⟩

/-- The legal headers by their two bytes: a row's opcode, and the flags byte of a mode and a justification that the row
lists (R91, R97, R101). -/
theorem decodeHeader_bytes_iff (op fl : Byte) (h : Header) :
    decodeHeader (headerWord op fl) = .ok h ↔
      op = h.op.code ∧ fl.toNat < h.op.flagBound ∧ fl = flagsByte h.m h.j := by
  have hle : h.op.flagBound ≤ 8 := by
    unfold Opcode.flagBound
    split_ifs <;> omega
  rw [decodeHeader_ok_iff, headerWord_matches_iff, and_fixedFlags_iff, and_assoc]
  refine and_congr_right fun _ => and_congr_right fun hfl => ?_
  exact flags_eq_iff op h.m h.j (by omega)

/-- A header is legal when its opcode is a row's, and its flags are listed by the row and leave `J` below 3 (R100,
R101). -/
theorem exists_decodeHeader_ok_iff (op fl : Byte) :
    (∃ h, decodeHeader (headerWord op fl) = .ok h) ↔ ∃ o : Opcode, op = o.code ∧ fl.toNat < o.flagBound ∧ fl.toNat < 6 := by
  simp only [decodeHeader_bytes_iff, ← exists_flagsByte_iff]
  constructor
  · rintro ⟨h, hop, hlt, hfl⟩
    exact ⟨h.op, hop, hlt, h.m, h.j, hfl⟩
  · rintro ⟨o, hop, hlt, m, j, hfl⟩
    exact ⟨{ op := o, m := m, j := j }, hop, hlt, hfl⟩

/-- The flags a row rejects are those that R101 reserves. -/
theorem reservedFlags_iff (o : Opcode) (n : Nat) :
    ¬(n < o.flagBound ∧ n < 6) ↔
      8 ≤ n ∨ (n % 2 = 1 ∧ o ∉ drawingOpcodes) ∨ (n / 2 % 4 ≠ 0 ∧ o ≠ .putStringXy) ∨
        (n / 2 % 4 = 3 ∧ o = .putStringXy) := by
  unfold Opcode.flagBound
  by_cases hj : o = .putStringXy
  · subst hj
    have hm : Opcode.putStringXy ∈ drawingOpcodes := by decide
    simp only [hm, if_true, not_true, ne_eq, and_false, and_true, false_or]
    omega
  · by_cases hm : o ∈ drawingOpcodes
    · simp only [hj, hm, if_true, if_false, not_true, ne_eq, not_false_eq_true, and_false, and_true, false_or, or_false]
      omega
    · simp only [hj, hm, if_false, ne_eq, not_false_eq_true, and_false, and_true, or_false]
      omega

/-- Settles O5: a header is illegal when it is not one of `exists_decodeHeader_ok_iff`. -/
theorem reservedHeaders : Obligations.ReservedHeaders := by
  intro op fl
  have herr : (∃ why, decodeHeader (headerWord op fl) = .error why) ↔
      ¬∃ h, decodeHeader (headerWord op fl) = .ok h := by
    cases decodeHeader (headerWord op fl) <;> simp
  rw [herr, exists_decodeHeader_ok_iff]
  by_cases hop : ∃ o : Opcode, op = o.code
  · have hfree := (exists_code_iff op).1 hop
    obtain ⟨o, rfl⟩ := hop
    have hunique : (∃ o' : Opcode, o.code = o'.code ∧ fl.toNat < o'.flagBound ∧ fl.toNat < 6) ↔
        fl.toNat < o.flagBound ∧ fl.toNat < 6 :=
      ⟨fun ⟨o', hc, hf⟩ => Opcode.code_injective hc ▸ hf, fun hf => ⟨o, rfl, hf⟩⟩
    rw [hunique, reservedFlags_iff, code_mem_drawing_iff, ne_eq o.code.toNat, code_eq_putStringXy_iff,
      or_iff_right hfree]
  · have hreserved := not_not.1 (mt (exists_code_iff op).2 hop)
    exact iff_of_true (fun ⟨o, h, _⟩ => hop ⟨o, h⟩) (.inl hreserved)

end Sys2Proof

/-!
SUPPORT. Packets (30_encoding.md R90 to R103): decoding what was encoded, encoding what was decoded, the lengths of R93,
and operand values that make a command fail and not its packet.
-/
namespace Sys2Proof

/-! ### Decoding what was encoded -/

/-- The operands and payload of every well-formed command are read back (R92 to R95). -/
theorem decodeBody_encode (i : Instr) : Laws.BodyRoundTrip.Statement i := by
  cases i
  case init w h => exact Laws.BodyRoundTrip.init w h
  case setTextBounds a b => exact Laws.BodyRoundTrip.setTextBounds a b
  case setDisplayWindow a b => exact Laws.BodyRoundTrip.setDisplayWindow a b
  case clear => exact Laws.BodyRoundTrip.clear
  case fill c => exact Laws.BodyRoundTrip.fill c
  case flushWindow x y w h => exact Laws.BodyRoundTrip.flushWindow x y w h
  case flushFull => exact Laws.BodyRoundTrip.flushFull
  case setCtrl c => exact Laws.BodyRoundTrip.setCtrl c
  case setCursor x y => exact Laws.BodyRoundTrip.setCursor x y
  case writeHline m x y n px => exact Laws.BodyRoundTrip.writeHline m x y n px
  case drawRect m x y w h c => exact Laws.BodyRoundTrip.drawRect m x y w h c
  case drawImage m x y f => exact Laws.BodyRoundTrip.drawImage m x y f
  case selectFont f => exact Laws.BodyRoundTrip.selectFont f
  case glyphLookup c => exact Laws.BodyRoundTrip.glyphLookup c
  case measure c => exact Laws.BodyRoundTrip.measure c
  case drawGlyph m x y c => exact Laws.BodyRoundTrip.drawGlyph m x y c
  case putChar m c => exact Laws.BodyRoundTrip.putChar m c
  case putString m n cs => exact Laws.BodyRoundTrip.putString m n cs
  case putStringXy m j x y n cs => exact Laws.BodyRoundTrip.putStringXy m j x y n cs
  case loadTransition k => exact Laws.BodyRoundTrip.loadTransition k

/-- The decoder has a packet exactly when the header is legal and the operands and payload are there (R99, R276). -/
theorem decode_packet_iff (bs : List Byte) (i : Instr) (rest : List Byte) :
    decode bs = .packet i rest ↔ ∃ op fl body h,
      bs = op :: fl :: body ∧ decodeHeader (headerWord op fl) = .ok h ∧ decodeBody h body = some (i, rest) := by
  constructor
  · intro hd
    match bs, hd with
    | op :: fl :: body, hd =>
      simp only [decode] at hd
      split at hd
      · cases hd
      · split at hd
        · injection hd with hi hr
          subst hi hr
          exact ⟨op, fl, body, _, rfl, ‹_›, ‹_›⟩
        · cases hd
  · rintro ⟨op, fl, body, h, rfl, hh, hb⟩
    simp only [decode, hh, hb]

/-- The bytes of a packet and what follows it, in port order (R90 to R95). -/
theorem encode_append (i : Instr) (rest : List Byte) :
    encode i ++ rest =
      i.opcode.code :: flagsByte i.mode i.justify :: (i.operands.flatMap wordBytes ++ (i.payload ++ rest)) := by
  simp only [encode, List.cons_append, List.append_assoc]

/-- Settles O1: the header decodes to the command's (`decodeHeader_encode`), and the rest to its operands and payload
(`decodeBody_encode`). -/
theorem decodeEncode : Obligations.DecodeEncode := by
  intro i rest hw
  exact (decode_packet_iff _ i rest).2
    ⟨_, _, _, _, encode_append i rest, decodeHeader_encode i, decodeBody_encode i hw rest⟩

/-! ### Encoding what was decoded -/

/-- The header fields that a command of an opcode can carry: `M` and `J` only where its row lists them (R91, R96). -/
def Header.listed (h : Header) : Header :=
  { op := h.op
    m := if h.op ∈ drawingOpcodes then h.m else .buffered
    j := if h.op = .putStringXy then h.j else .left }

/-- Flags below 2 hold no justification (R91). -/
theorem flagsByte_lt_two_iff (m : Mode) (j : Justify) : (flagsByte m j).toNat < 2 ↔ j = .left := by
  cases m <;> cases j <;> decide

/-- Flags below 1 hold no mode either (R91). -/
theorem flagsByte_lt_one_iff (m : Mode) (j : Justify) : (flagsByte m j).toNat < 1 ↔ m = .buffered ∧ j = .left := by
  cases m <;> cases j <;> decide

/-- A legal header sets no flag that its row does not list (R97, R101). -/
theorem Header.listed_of_legal {h : Header} (hlt : (flagsByte h.m h.j).toNat < h.op.flagBound) : h.listed = h := by
  obtain ⟨op, m, j⟩ := h
  unfold Header.listed
  unfold Opcode.flagBound at hlt
  by_cases hj : op = .putStringXy
  · subst hj
    rfl
  · by_cases hm : op ∈ drawingOpcodes
    · simp only [hj, hm, if_true, if_false, flagsByte_lt_two_iff] at hlt ⊢
      rw [hlt]
    · simp only [hj, hm, if_false, flagsByte_lt_one_iff] at hlt ⊢
      rw [hlt.1, hlt.2]

/-- A word is read when the bytes begin with its two (R92). -/
theorem readWord_eq_some_iff {bs rest : List Byte} {w : Word} :
    readWord bs = some (w, rest) ↔ bs = wordBytes w ++ rest := by
  constructor
  · exact readWord_some
  · rintro rfl
    exact readWord_wordBytes w rest

/-- What the operand reader took is the command's operands and payload, and the command carries the header's opcode and
those of its flags that the row lists (R92 to R96). -/
theorem decodeBody_some {h : Header} {bs rest : List Byte} {i : Instr} (hd : decodeBody h bs = some (i, rest)) :
    ({ op := i.opcode, m := i.mode, j := i.justify } : Header) = h.listed ∧
      bs = i.operands.flatMap wordBytes ++ (i.payload ++ rest) := by
  obtain ⟨op, m, j⟩ := h
  cases op
  all_goals
    simp only [decodeBody, Option.bind_eq_bind, Option.bind_eq_some_iff, Option.some.injEq, Prod.mk.injEq, Prod.exists,
      readWord_eq_some_iff] at hd
  case clear | flushFull =>
    obtain ⟨rfl, rfl⟩ := hd
    exact ⟨rfl, rfl⟩
  case fill | setCtrl | selectFont | glyphLookup | measure | putChar | loadTransition =>
    obtain ⟨a, _, rfl, rfl, rfl⟩ := hd
    exact ⟨rfl, by simp [Instr.operands, Instr.payload]⟩
  case init | setTextBounds | setDisplayWindow | setCursor =>
    obtain ⟨a, _, rfl, b, _, rfl, rfl, rfl⟩ := hd
    exact ⟨rfl, by simp [Instr.operands, Instr.payload]⟩
  case drawImage | drawGlyph =>
    obtain ⟨a, _, rfl, b, _, rfl, c, _, rfl, rfl, rfl⟩ := hd
    exact ⟨rfl, by simp [Instr.operands, Instr.payload]⟩
  case flushWindow =>
    obtain ⟨a, _, rfl, b, _, rfl, c, _, rfl, d, _, rfl, rfl, rfl⟩ := hd
    exact ⟨rfl, by simp [Instr.operands, Instr.payload]⟩
  case drawRect =>
    obtain ⟨a, _, rfl, b, _, rfl, c, _, rfl, d, _, rfl, e, _, rfl, rfl, rfl⟩ := hd
    exact ⟨rfl, by simp [Instr.operands, Instr.payload]⟩
  case writeHline =>
    obtain ⟨a, _, rfl, b, _, rfl, n, _, rfl, px, _, hpx, rfl, rfl⟩ := hd
    obtain ⟨_, rfl⟩ := readBytes_some hpx
    exact ⟨rfl, by simp [Instr.operands, Instr.payload]⟩
  case putString =>
    obtain ⟨n, _, rfl, cs, _, hcs, rfl, rfl⟩ := hd
    obtain ⟨_, rfl⟩ := readWords_some hcs
    exact ⟨rfl, by simp [Instr.operands, Instr.payload]⟩
  case putStringXy =>
    obtain ⟨a, _, rfl, b, _, rfl, n, _, rfl, cs, _, hcs, rfl, rfl⟩ := hd
    obtain ⟨_, rfl⟩ := readWords_some hcs
    exact ⟨rfl, by simp [Instr.operands, Instr.payload]⟩

/-- The bytes of a packet that was decoded are the command's encoding (R91 to R97). -/
theorem eq_encode_of_decode {bs rest : List Byte} {i : Instr} (hd : decode bs = .packet i rest) :
    bs = encode i ++ rest := by
  obtain ⟨op, fl, body, h, rfl, hh, hb⟩ := (decode_packet_iff bs i rest).1 hd
  obtain ⟨rfl, hlt, rfl⟩ := (decodeHeader_bytes_iff op fl h).1 hh
  obtain ⟨hi, rfl⟩ := decodeBody_some hb
  rw [Header.listed_of_legal hlt] at hi
  subst hi
  exact (encode_append i rest).symm

/-- Settles O2: `wellFormed_of_decode` and `eq_encode_of_decode`. -/
theorem encodeDecode : Obligations.EncodeDecode :=
  fun _ _ _ hd => ⟨wellFormed_of_decode hd, eq_encode_of_decode hd⟩

/-! ### Lengths -/

theorem length_flatMap_wordBytes (ws : List Word) : (ws.flatMap wordBytes).length = 2 * ws.length := by
  induction ws with
  | nil => rfl
  | cons w ws ih => simp only [List.flatMap_cons, List.length_append, length_wordBytes, ih, List.length_cons]; omega

/-- The length of a packet: the header, two bytes per operand, the payload (R93). -/
theorem length_encode (i : Instr) : (encode i).length = 2 + 2 * i.operands.length + i.payload.length := by
  simp only [encode, List.length_cons, List.length_append, length_flatMap_wordBytes]
  omega

/-- Settles O3: R93's sum (`length_encode`) for each command, and `eq_encode_of_decode`. -/
theorem packetLengths : Obligations.PacketLengths := by
  refine ⟨fun i hw => ?_, fun bs i rest hd => ?_⟩
  · rw [length_encode]
    cases i
    case writeHline m x y n px =>
      have hl : px.length = (n.toNat + 1) / 2 := by simpa [Instr.wellFormed] using hw
      simp [Instr.operands, Instr.payload, hl]
    case putString m n cs =>
      have hl : cs.length = n.toNat := by simpa [Instr.wellFormed] using hw
      simp only [Instr.operands, Instr.payload, length_flatMap_wordBytes, hl, List.length_cons, List.length_nil]
    case putStringXy m j x y n cs =>
      have hl : cs.length = n.toNat := by simpa [Instr.wellFormed] using hw
      simp only [Instr.operands, Instr.payload, length_flatMap_wordBytes, hl, List.length_cons, List.length_nil]
    all_goals rfl
  · rw [eq_encode_of_decode hd, List.length_append]

/-- Settles O6: each list of bytes is the encoding of its command, followed by the bytes left over (`decodeEncode`). -/
theorem wordsDecode : Obligations.WordsDecode :=
  ⟨decodeEncode (.init 256 64) [] (by decide), decodeEncode (.flushWindow 0xFFFD 0 6 5) [] (by decide),
    decodeEncode (.writeHline .buffered 1 0 3 [0xAB, 0xC0]) [] (by decide),
    decodeEncode (.drawRect .direct 1 0 2 2 15) [0x04] (by decide),
    decodeEncode (.putStringXy .direct .right 8 0 1 [0x41]) [] (by decide), decodeEncode (.loadTransition 5) [] (by decide)⟩

end Sys2Proof

namespace Sys2Proof.Machine

/-! ### Reserved operand values -/

/-- A buffered draw has a framebuffer to draw in (R275). -/
theorem State.lacksFb_eq_false {s : State} {m : Mode} (h : m = .buffered → s.cfg.hasFb = true) : s.lacksFb m = false := by
  cases m
  · simp [State.lacksFb, h rfl]
  · rfl

/-- The transition kinds from 7 on name no transition (R103). -/
theorem transitionOf_reserved {kind : Word} (h : 7 ≤ kind.toNat) : transitionOf kind = Option.none := by
  unfold transitionOf
  obtain ⟨k, hk⟩ := Nat.exists_eq_add_of_le' h
  rw [hk]
  rfl

/-- `ctrl` has a bit 15:5 set when it is 32 or more (R103). -/
theorem ctrlReserved_of_le {ctrl : Word} (h : 32 ≤ ctrl.toNat) : ctrlReserved ctrl = true := by
  unfold ctrlReserved
  rw [decide_eq_true_eq]
  bv_omega

/-- A colour is its low four bits (R92, R103). -/
theorem colour_and_low (color : Word) : colour (color &&& 15) = colour color := by
  unfold colour
  ext i hi
  interval_cases i <;> simp

theorem execLoadTransition_reserved {kind : Word} {s : State} (hi : s.inited = true) (h : 7 ≤ kind.toNat) :
    execLoadTransition kind s = .next (s.endCommand .errOperand 0 0 0 0) := by
  simp only [execLoadTransition, hi, transitionOf_reserved h]
  rfl

theorem execSetCtrl_reserved {ctrl : Word} {s : State} (hi : s.inited = true) (h : 32 ≤ ctrl.toNat) :
    execSetCtrl ctrl s = .next (s.endCommand .errOperand 0 0 0 0) := by
  simp only [execSetCtrl, hi, ctrlReserved_of_le h]
  rfl

/-- A line longer than the line buffer (R103, R150). -/
theorem execWriteHline_tooWide {m : Mode} {x y n : Word} {payload : List Byte} {s : State} (hi : s.inited = true)
    (hf : m = .buffered → s.cfg.hasFb = true) (h : s.cfg.lineCap < n.toNat) :
    execWriteHline m x y n payload s = .next (s.endCommand .errTooWide 0 0 0 0) := by
  simp only [execWriteHline, hi, State.lacksFb_eq_false hf, u16, gt_iff_lt, h]
  rfl

/-- A string longer than the part accepts (R103, R198). -/
theorem execPutString_tooLong {m : Mode} {n : Word} {chars : List Word} {s : State} (hi : s.inited = true)
    (hf : m = .buffered → s.cfg.hasFb = true) (h : s.cfg.strCap < n.toNat) :
    execPutString m n chars s = .next (s.endCommand .errOperand 0 0 0 0) := by
  simp only [execPutString, hi, State.lacksFb_eq_false hf, u16, gt_iff_lt, h]
  rfl

/-- A placed string longer than the part accepts (R103, R200). -/
theorem execPutStringXy_tooLong {m : Mode} {j : Justify} {x y n : Word} {chars : List Word} {s : State}
    (hi : s.inited = true) (hf : m = .buffered → s.cfg.hasFb = true) (h : s.cfg.strCap < n.toNat) :
    execPutStringXy m j x y n chars s = .next (s.endCommand .errOperand 0 0 0 0) := by
  simp only [execPutStringXy, hi, State.lacksFb_eq_false hf, u16, gt_iff_lt, h]
  rfl

/-- Only the two string commands carry a string (R103). -/
theorem exec_tooLong {i : Instr} {s : State} (hi : s.inited = true) (hl : i.tooLong s.cfg)
    (hf : i.needsFb → s.cfg.hasFb = true) : exec i s = .next (s.endCommand .errOperand 0 0 0 0) := by
  have hmode (hd : i.opcode ∈ drawingOpcodes) (hm : i.mode = .buffered) : s.cfg.hasFb = true := hf (.inr ⟨hd, hm⟩)
  cases i
  case putString m n cs => exact execPutString_tooLong hi (hmode (by simp [Instr.opcode, drawingOpcodes])) hl
  case putStringXy m j x y n cs =>
    exact execPutStringXy_tooLong hi (hmode (by simp [Instr.opcode, drawingOpcodes])) hl
  all_goals exact hl.elim

/-- Settles O22: the packets decode (`decodeEncode`), each reserved value meets its command's check, and a colour is its
low four bits. -/
theorem reservedOperands : Obligations.ReservedOperands := by
  refine ⟨fun i rest _ hw => decodeEncode i rest hw, fun s hi => ⟨fun kind => execLoadTransition_reserved hi,
    fun ctrl => execSetCtrl_reserved hi, fun i => exec_tooLong hi, fun m x y n payload => execWriteHline_tooWide hi,
    fun color => ?_, fun m x y w h color => ?_⟩⟩
  · show execFill color s = execFill (color &&& 15) s
    unfold execFill
    rw [colour_and_low]
  · show execDrawRect m x y w h color s = execDrawRect m x y w h (color &&& 15) s
    unfold execDrawRect
    rw [colour_and_low]

end Sys2Proof.Machine

/-!
SUPPORT. A buffered line as its pixels one by one (41_rasterizer.md R106, R152; property S1).
-/
namespace Sys2Proof.Machine

/-! ### A line in two parts -/

/-- A buffered line writes its first pixels, then the others from the column after them (R152). -/
theorem hLineBuf_append (y : Nat) (ps qs : List Nibble) (x : Int) (s : State) :
    (hLineBuf y (ps ++ qs) x s).1 = (hLineBuf y qs (x + ps.length) (hLineBuf y ps x s).1).1 := by
  induction ps generalizing x s with
  | nil => simp [hLineBuf]
  | cons p ps ih =>
    have hx : x + ((p :: ps).length : Int) = x + 1 + ps.length := by
      rw [List.length_cons]
      push_cast
      ring
    rw [hx]
    simp only [List.cons_append, hLineBuf]
    split
    · exact ih (x + 1) s
    · exact ih (x + 1) (s.setPix _ y p)

theorem hLine_buffered_append {s : State} (hs : s.Drawable) (x y : Int) (ps qs : List Nibble) :
    (hLine .buffered x y (ps ++ qs) s).1 = (hLine .buffered (x + ps.length) y qs (hLine .buffered x y ps s).1).1 := by
  have hv := (hLine_spec (m := .buffered) x y ps hs).2.rowVisible y
  cases h : s.rowVisible y with
  | true =>
    simp only [hLine, h, if_true] at hv ⊢
    simp only [hv, if_true]
    exact hLineBuf_append y.toNat ps qs x s
  | false => simp only [hLine, h, Bool.false_eq_true, if_false]

/-! ### Results and the sequencer -/

/-- The ends of two commands differ only by what the later one writes (R271). -/
@[simp] theorem State.endCommand_endCommand (s : State) (c c' : Code) (r0 r1 r2 r3 q0 q1 q2 q3 : Word) :
    (s.endCommand c r0 r1 r2 r3).endCommand c' q0 q1 q2 q3 = s.endCommand c' q0 q1 q2 q3 := rfl

/-- A buffered line reads nothing of the results and of the sequencer, and leaves them (R152). -/
theorem hLineBuf_endCommand (y : Nat) (ps : List Nibble) (x : Int) (s : State) (c : Code) (r0 r1 r2 r3 : Word) :
    (hLineBuf y ps x (s.endCommand c r0 r1 r2 r3)).1 = (hLineBuf y ps x s).1.endCommand c r0 r1 r2 r3 := by
  induction ps generalizing x s with
  | nil => rfl
  | cons p ps ih =>
    have hm : (s.endCommand c r0 r1 r2 r3).mapCol x = s.mapCol x := rfl
    simp only [hLineBuf, hm]
    split
    · exact ih (x + 1) s
    · exact ih (x + 1) (s.setPix _ y p)

theorem hLine_buffered_endCommand (x y : Int) (ps : List Nibble) (s : State) (c : Code) (r0 r1 r2 r3 : Word) :
    (hLine .buffered x y ps (s.endCommand c r0 r1 r2 r3)).1 =
      (hLine .buffered x y ps s).1.endCommand c r0 r1 r2 r3 := by
  have hv : (s.endCommand c r0 r1 r2 r3).rowVisible y = s.rowVisible y := rfl
  unfold hLine
  rw [hv]
  split
  · exact hLineBuf_endCommand _ ps x s c r0 r1 r2 r3
  · rfl

/-- Whether a state is ready does not depend on the results and the sequencer. -/
theorem State.ready_endCommand_iff (s : State) (c : Code) (r0 r1 r2 r3 : Word) :
    (s.endCommand c r0 r1 r2 r3).Ready ↔ s.Ready :=
  ⟨fun ⟨h, hi⟩ => ⟨{ h with }, hi⟩, fun ⟨h, hi⟩ => ⟨h.endCommand c r0 r1 r2 r3, hi⟩⟩

/-! ### WRITE_HLINE in buffered mode -/

/-- A buffered line that begins at a command's start leaves a state a command can start in (R61). -/
theorem hLine_buffered_ready {s : State} (hs : s.Ready) (x y : Int) (ps : List Nibble) :
    (hLine .buffered x y ps s).1.Ready ∧ (hLine .buffered x y ps s).1.cfg = s.cfg := by
  obtain ⟨hsound, hi⟩ := hs
  obtain ⟨hf, hk⟩ := hLine_spec (m := .buffered) x y ps (hsound.drawable hi)
  refine ⟨⟨hsound.of_kept hk ?_ ?_, ?_⟩, hk.cfg⟩
  · rw [hf]
    exact hsound.quiet
  · rw [State.clearScratch_eq_iff, hf]
    exact hsound.scratch
  · rw [hf]
    exact hi

/-- At the end of a command that staged pixels in `LINE` and started no transfer, nothing is staged (R34). -/
theorem State.Sound.withLine_clear {s : State} (h : s.Sound) (ps : List Nibble) :
    (s.withLine ps).dmaWait.clearScratch = s := by
  rw [State.dmaWait_eq_of_quiet (s := s.withLine ps) h.quiet]
  exact h.clear

/-- Staging pixels at a command's start puts them in `LINE` alone (R34). -/
theorem State.Sound.setLine_eq {s : State} (h : s.Sound) (ps : List Nibble) : s.setLine ps = s.withLine ps := by
  simp [State.setLine, State.withLine, overlay, h.scratch]

/-- WRITE_HLINE in buffered mode is the buffered line of its payload (R150). -/
theorem execWriteHline_buffered {s : State} (hs : s.Ready) (hfb : s.cfg.hasFb = true) (x y : Word) {n : Word}
    (payload : List Byte) (hn : n.toNat ≤ s.cfg.lineCap) :
    ∃ r : Word, execWriteHline .buffered x y n payload s =
      .next ((hLine .buffered (s16 x) (s16 y) (payloadPixels n.toNat payload) s).1.endCommand .ok r 0 0 0) := by
  have hlen := payloadPixels_length n.toNat payload
  unfold execWriteHline
  simp only [hs.2, State.lacksFb_eq_false fun _ => hfb, u16, gt_iff_lt, if_neg (Nat.not_lt.2 hn), hs.1.setLine_eq]
  generalize payloadPixels n.toNat payload = ps at *
  obtain ⟨hready, -⟩ := hLine_buffered_ready hs (s16 x) (s16 y) ps
  have htake : (s.withLine ps).line.take n.toNat = ps := List.take_of_length_le hlen.le
  rw [htake, hLine_buffered_withLine, hready.1.withLine_clear]
  exact ⟨_, rfl⟩

/-! ### Pixels one by one -/

/-- The pixels of a payload one longer (R94). -/
theorem payloadPixels_succ (n : Nat) (payload : List Byte) :
    payloadPixels (n + 1) payload = payloadPixels n payload ++ [nibbleAt (payload.getD (n / 2) 0) n] := by
  simp [payloadPixels, List.range_succ]

/-- The payload of a single pixel (R94, R106). -/
theorem payloadPixels_one (p : Nibble) : payloadPixels 1 [pack p 0] = [p] := by
  simp [payloadPixels, nibbleAt]

/-- Commands in sequence, the last one apart. -/
theorem execAll_append_singleton {is : List Instr} {i : Instr} {s t u : State} (hs : execAll is s = some t)
    (ht : exec i t = .next u) : execAll (is ++ [i]) s = some u := by
  induction is generalizing s with
  | nil =>
    obtain rfl : s = t := Option.some.inj hs
    simp [execAll, ht]
  | cons j js ih =>
    simp only [execAll, List.cons_append] at hs ⊢
    split at hs
    · exact ih hs
    · cases hs
    · cases hs

/-- A packet `DRAW_PIXEL` is the buffered line of its one pixel (R106). -/
theorem exec_drawPixel {s : State} (hs : s.Ready) (hfb : s.cfg.hasFb = true) (hcap : 1 ≤ s.cfg.lineCap) {x : Int}
    (h0 : -32768 ≤ x) (h1 : x < 32768) (y : Word) (p : Nibble) :
    ∃ r : Word, exec (.writeHline .buffered (reg16 x) y 1 [pack p 0]) s =
      .next ((hLine .buffered x (s16 y) [p] s).1.endCommand .ok r 0 0 0) := by
  obtain ⟨r, hr⟩ := execWriteHline_buffered hs hfb (reg16 x) y (n := 1) [pack p 0] hcap
  rw [s16_reg16 h0 h1, show (1 : Word).toNat = 1 from rfl, payloadPixels_one] at hr
  exact ⟨r, hr⟩

/-- The first `k` pixels of a line as packets `DRAW_PIXEL` leave, but for the results, what the buffered line of these
pixels leaves (R106, R152). -/
theorem execAll_drawPixels {s : State} (hs : s.Ready) (hfb : s.cfg.hasFb = true) (x y : Word) (payload : List Byte)
    (k : Nat) (hcap : k ≤ s.cfg.lineCap) (hx : s16 x + k ≤ 32768) :
    ∃ u : State,
      execAll ((List.range k).map fun i : Nat =>
        Instr.writeHline .buffered (reg16 (s16 x + i)) y 1 [pack (nibbleAt (payload.getD (i / 2) 0) i) 0]) s = some u ∧
      u.endCommand .ok 0 0 0 0 =
        (hLine .buffered (s16 x) (s16 y) (payloadPixels k payload) s).1.endCommand .ok 0 0 0 0 := by
  induction k with
  | zero =>
    refine ⟨s, rfl, ?_⟩
    rw [← hLine_buffered_endCommand]
    unfold hLine
    split <;> rfl
  | succ k ih =>
    obtain ⟨u, hu, heq⟩ := ih (by omega) (by omega)
    have hlow := s16_lower x
    obtain ⟨hready, hcfg⟩ := hLine_buffered_ready hs (s16 x) (s16 y) (payloadPixels k payload)
    have hur : u.Ready := by rwa [← u.ready_endCommand_iff, heq, State.ready_endCommand_iff]
    have hucfg : u.cfg = s.cfg := (congrArg State.cfg heq).trans hcfg
    obtain ⟨r, hr⟩ := exec_drawPixel hur (hucfg ▸ hfb) (by rw [hucfg]; omega) (x := s16 x + k) (by omega) (by omega) y
      (nibbleAt (payload.getD (k / 2) 0) k)
    rw [List.range_succ, List.map_append]
    refine ⟨_, execAll_append_singleton hu hr, ?_⟩
    rw [State.endCommand_endCommand, ← hLine_buffered_endCommand, heq, hLine_buffered_endCommand, payloadPixels_succ,
      hLine_buffered_append (hs.1.drawable hs.2), payloadPixels_length]

/-- Settles O33: the line is its pixels' buffered line (`execWriteHline_buffered`), and so are the packets of its pixels,
one after the other (`execAll_drawPixels`). -/
theorem lineEqualsSinglePixels : Obligations.LineEqualsSinglePixels := by
  intro s x y n payload hs hfb hn _ hx
  obtain ⟨r, hr⟩ := execWriteHline_buffered hs hfb x y payload hn
  obtain ⟨u, hu, heq⟩ := execAll_drawPixels hs hfb x y payload n.toNat hn hx
  exact ⟨_, u, hr, hu, heq⟩

end Sys2Proof.Machine

/-!
SUPPORT. The Framebuffer Manager's commands, but for FLUSH_FULL (40_framebuffer_manager.md R120 to R133): storage filled
with one byte, registers clamped and written, the flush rectangle, and what a windowed flush shows and sends.
-/
namespace Sys2Proof.Machine

/-! ### Storage filled with one byte -/

/-- A byte of a framebuffer that a fill has just listed (R120, R125, R126). -/
theorem State.fbByte_of_filled {s : State} {v : Byte} (hf : s.fb = Memory.filled (s.height * s.bpr) v) {y b : Nat}
    (hy : y < s.height) (hb : b < s.bpr) : s.fbByte y b = v := by
  unfold State.fbByte State.fbAt
  rw [hf, Memory.read_filled, if_pos (Kept.offset_lt hy hb), Option.getD_some]

/-- The state FILL leaves, before its status: every byte of the framebuffer is `v` (R126). -/
def State.filled (s : State) (v : Byte) : State := { s with fb := Memory.filled (s.height * s.bpr) v }

/-- A filled framebuffer reads as the byte it was filled with (R126). -/
theorem State.fbByte_filled (s : State) (v : Byte) {y b : Nat} (hy : y < s.height) (hb : b < s.bpr) :
    (s.filled v).fbByte y b = v :=
  State.fbByte_of_filled (s := s.filled v) rfl hy hb

/-- Zeroed storage reads as zero bytes (R120, R125). -/
theorem State.fbByte_zeroStorage {s : State} (hf : s.cfg.hasFb = true) {y b : Nat} (hy : y < s.height)
    (hb : b < s.bpr) : s.zeroStorage.fbByte y b = 0 :=
  State.fbByte_of_filled (s := s.zeroStorage) (if_pos hf) hy hb

/-- An emptied shadow entry gives a zero nibble for every byte column (R31, R125). -/
theorem State.shadowNibbles_zeroStorage (s : State) {y : Nat} (hy : y < s.height) (b : Nat) :
    s.zeroStorage.shadowHi y b = 0 ∧ s.zeroStorage.shadowLo y b = 0 := by
  have he : s.zeroStorage.shadowAt y = { col := 0, byte := 0 } := by
    simp [State.shadowAt, emptyShadow, hy]
  unfold State.shadowHi State.shadowLo
  rw [he]
  constructor
  · split <;> rfl
  · split <;> rfl

/-- The byte of two pixels of one colour as a number (R126). -/
theorem colourByte_toNat (color : Word) : (colourByte (colour color)).toNat = 17 * (color.toNat % 16) := by
  have key : ∀ c : Nibble, (colourByte c).toNat = 17 * c.toNat := by decide
  rw [key, colour, BitVec.toNat_setWidth]

/-- Both pixels of a colour's byte are the colour (R126). -/
theorem nibbleAt_colourByte (c : Nibble) (k : Nat) : nibbleAt (colourByte c) k = c := by
  unfold nibbleAt colourByte
  split
  · exact hiNib_pack c c
  · exact loNib_pack c c

/-! ### INIT, CLEAR and FILL -/

/-- A number of 16 bits goes into a register as it is (R21). -/
theorem reg16_toNat (w : Word) : reg16 (w.toNat : Int) = w := by
  simp [reg16]

/-- INIT of a geometry it does not accept (R120). -/
theorem execInit_rejected {s : State} {w h : Word} (hg : geometryBad s.cfg w h = true) :
    execInit w h s = .next (s.endCommand .errGeometry 0 0 0 0) :=
  if_pos hg

/-- What INIT leaves, register by register and memory by memory (R120, R121). -/
theorem State.initialised_eq (s : State) (w h : Word) :
    s.initialised w h = { s with
      geomW := w, geomH := h, inited := true
      fb := if s.cfg.hasFb then Memory.filled (h.toNat * (w.toNat / 2)) 0 else s.fb
      shadow := List.replicate h.toNat { col := 0, byte := 0 }
      minTextX := 0, maxTextX := w, minDispY := 0, maxDispY := h, curX := 0, curY := 0
      disp := [], epoch := s.epoch + 1
      trace := s.trace ++ s.cfg.pwrSeq.map (fun p => Event.pwrTuple p.opcode p.payload) ++
        [.delay s.cfg.settleDelay] } := by
  unfold State.initialised
  rw [s.powerUp_eq, reg16_toNat, reg16_toNat, Cfg.powerUpEvents, ← List.append_assoc]
  rfl

/-- Settles O24: INIT's two outcomes (`execInit_accepted`, `execInit_rejected`), and the state the first leaves
(`State.initialised_eq`). -/
theorem initCommand : Obligations.InitCommand := by
  intro s w h
  refine ⟨fun ⟨hw, hh, he, hwm, hhm⟩ => ?_, fun hill => ?_⟩
  · have hg : geometryBad s.cfg w h = false := geometryBad_eq_false.2 ⟨by omega, by omega, he, hwm, hhm⟩
    refine ⟨_, execInit_accepted hg, s.initialised_eq w h, fun hf y b hy hb => ?_, fun _ _ => rfl, fun off => ?_⟩
    · rw [s.initialised_eq]
      exact State.fbByte_of_filled (if_pos hf) hy hb
    · rw [s.initialised_eq]
      rfl
  · refine execInit_rejected (Bool.eq_true_of_not_eq_false fun hg => hill ?_)
    obtain ⟨hw, hh, he, hwm, hhm⟩ := geometryBad_eq_false.1 hg
    exact ⟨by omega, by omega, he, hwm, hhm⟩

theorem execClear_ready {s : State} (hi : s.inited = true) :
    execClear s = .next ({ s.zeroStorage with curX := 0, curY := 0 }.endCommand .ok 0 0 0 0) := by
  unfold execClear
  rw [hi]
  rfl

theorem execFill_ready {s : State} (hi : s.inited = true) (hf : s.cfg.hasFb = true) (color : Word) :
    execFill color s =
      .next ((s.filled (colourByte (colour color))).endCommand .ok
        (BitVec.ofNat 16 (17 * (color.toNat % 16))) 0 0 0) := by
  have hres : (colourByte (colour color)).setWidth 16 = BitVec.ofNat 16 (17 * (color.toNat % 16)) := by
    rw [← colourByte_toNat, BitVec.ofNat_toNat]
  unfold execFill State.filled
  rw [hi, hf, ← hres]
  rfl

theorem execFill_unsupported {s : State} (hi : s.inited = true) (hf : s.cfg.hasFb = false) (color : Word) :
    execFill color s = .next (s.endCommand .errUnsupported 0 0 0 0) := by
  unfold execFill
  rw [hi, hf]
  rfl

/-- Settles O26: CLEAR leaves zeroed storage (`execClear_ready`), FILL a framebuffer of the colour's byte
(`execFill_ready`), and both are read off a filled memory (`State.fbByte_zeroStorage`,
`State.fbByte_filled`). -/
theorem clearAndFill : Obligations.ClearAndFill := by
  intro s hi
  refine ⟨⟨_, execClear_ready hi, rfl, fun hf => ?_, fun hf y b hy hb => State.fbByte_zeroStorage hf hy hb,
    fun hf => ?_, fun y b hy => s.shadowNibbles_zeroStorage hy b⟩,
    fun hf color => ⟨_, execFill_ready hi hf color, rfl, Memory.addresses_filled _ _, fun y b hy hb => ?_,
      fun he x y hx hy => ?_⟩,
    fun hf => execFill_unsupported hi hf⟩
  · show Memory.addresses s.zeroStorage.fb = _
    rw [s.zeroStorage_fb, if_pos hf]
    exact Memory.addresses_filled _ _
  · show s.zeroStorage.fb = s.fb
    rw [s.zeroStorage_fb, if_neg (by simp [hf])]
  · rw [s.fbByte_filled _ hy hb]
    exact colourByte_toNat color
  · unfold State.fbPixel
    rw [s.fbByte_filled _ hy (State.half_lt_bpr he hx), nibbleAt_colourByte]
    exact BitVec.eq_of_toNat_eq (by simp [colour])

/-! ### Windows, `CTRL` and the cursor -/

/-- A value clamped to a screen extent reads back from a register as it was written (R21, R123, R124). -/
theorem s16_reg16_clamp (v : Int) {b : Int} (h0 : 0 ≤ b) (h1 : b ≤ 32767) :
    s16 (reg16 (clamp v 0 b)) = clamp v 0 b := by
  obtain ⟨hlo, hhi⟩ := clamp_bounds (v := v) h0
  exact s16_reg16 (by omega) (by omega)

theorem execSetTextBounds_ready {s : State} (hi : s.inited = true) (a b : Word) :
    execSetTextBounds a b s =
      .next ({ s with
        minTextX := reg16 (clamp (s16 a) 0 (s.width - 1))
        maxTextX := reg16 (clamp (s16 b) 0 s.width) }.endCommand .ok
          (reg16 (clamp (s16 a) 0 (s.width - 1))) (reg16 (clamp (s16 b) 0 s.width)) 0 0) := by
  unfold execSetTextBounds
  rw [hi]
  rfl

theorem execSetDisplayWindow_ready {s : State} (hi : s.inited = true) (a b : Word) :
    execSetDisplayWindow a b s =
      .next ({ s with
        minDispY := reg16 (clamp (s16 a) 0 (s.height - 1))
        maxDispY := reg16 (clamp (s16 b) 0 s.height) }.endCommand .ok
          (reg16 (clamp (s16 a) 0 (s.height - 1))) (reg16 (clamp (s16 b) 0 s.height)) 0 0) := by
  unfold execSetDisplayWindow
  rw [hi]
  rfl

/-- Settles O25: the screen's extents fit a signed register, so the clamped values do (`s16_reg16_clamp`). -/
theorem windowCommands : Obligations.WindowCommands := by
  intro s a b ⟨hs, hi⟩ ⟨hfw, hfh⟩
  obtain ⟨hw, _, hwm, hh, hhm⟩ := hs.geometry hi
  exact ⟨⟨_, _, execSetTextBounds_ready hi a b, s16_reg16_clamp _ (by omega) (by omega),
      s16_reg16_clamp _ (by omega) (by omega)⟩,
    _, _, execSetDisplayWindow_ready hi a b, s16_reg16_clamp _ (by omega) (by omega),
      s16_reg16_clamp _ (by omega) (by omega)⟩

/-- `ctrl` has no bit 15:5 set when it is below 32 (R103, R132). -/
theorem ctrlReserved_of_lt {ctrl : Word} (h : ctrl.toNat < 32) : ctrlReserved ctrl = false := by
  unfold ctrlReserved
  rw [decide_eq_false_iff_not, not_not]
  bv_omega

/-- Bit `k` of a word, by its value. -/
theorem getLsbD_iff_div (w : Word) (k : Nat) : w.getLsbD k = true ↔ w.toNat / 2 ^ k % 2 = 1 := by
  rw [BitVec.getLsbD, Nat.testBit_eq_decide_div_mod_eq, decide_eq_true_eq]

theorem execSetCtrl_legal {ctrl : Word} {s : State} (hi : s.inited = true) (h : ctrl.toNat < 32) :
    execSetCtrl ctrl s = .next ({ s with ctrl := ctrl }.endCommand .ok ctrl 0 0 0) := by
  simp only [execSetCtrl, hi, ctrlReserved_of_lt h]
  rfl

theorem execSetCursor_ready {s : State} (hi : s.inited = true) (x y : Word) :
    execSetCursor x y s = .next ({ s with curX := x, curY := y }.endCommand .ok x y 0 0) := by
  unfold execSetCursor
  rw [hi]
  rfl

/-- Settles O29: the outcomes of the two commands, and each flag as its bit of `CTRL` (`getLsbD_iff_div`). -/
theorem ctrlAndCursor : Obligations.CtrlAndCursor := by
  intro s hi
  refine ⟨fun ctrl h => ⟨_, execSetCtrl_legal hi h, rfl, ?_, getLsbD_iff_div ctrl 1, getLsbD_iff_div ctrl 2,
    getLsbD_iff_div ctrl 3, getLsbD_iff_div ctrl 4⟩, fun ctrl => execSetCtrl_reserved hi, execSetCursor_ready hi⟩
  rw [← Nat.div_one ctrl.toNat]
  exact getLsbD_iff_div ctrl 0

/-! ### The flush rectangle -/

/-- Settles O27: an odd start moves down by one column, and a width is made even by at most one column more. -/
theorem flushRectangle : Obligations.FlushRectangle := by
  intro s x y w h he r g
  have hg : (if s.cfg.flushGrows ∧ mod2 x = 1 then 1 else 0 : Int) = g := rfl
  have hstart : x - mod2 x = 2 * (x / 2) := by
    unfold mod2
    omega
  have hwidth : (w + g) + mod2 (w + g) = 2 * ((w + g + 1) / 2) := by
    unfold mod2
    omega
  have hxa : r.xa = max (2 * (x / 2)) 0 := by
    rw [← hstart]
    rfl
  have hxb : r.xb = min (2 * (x / 2) + 2 * ((w + g + 1) / 2)) s.width := by
    rw [← hstart, ← hwidth]
    rfl
  refine ⟨hxa, hxb, rfl, rfl, by omega, by omega, ?_, fun hgrow c h0 h1 h2 h3 => ?_⟩
  · simp [Rect.isEmpty]
  · have hmoved : g = x % 2 := by
      rw [← hg]
      simp only [hgrow, mod2, true_and]
      omega
    omega

/-! ### FLUSH_WINDOW -/

theorem State.fbRunEvents_withDispOf (s t : State) (y b n : Nat) :
    (s.withDispOf t).fbRunEvents y b n = s.fbRunEvents y b n := rfl

/-- Once its transfer is complete, a run of framebuffer bytes has recorded its events (R79, R240). -/
theorem State.xferRun_fb_trace (s : State) (y b n : Nat) :
    (s.xferRun y b (.fb (s.offset y b)) n).dmaWait.trace = s.dmaWait.trace ++ s.fbRunEvents y b n := by
  have e := State.xferRun_dmaWait_trace (s := s) y b (src := .fb (s.offset y b))
    (bytes := (List.range n).map fun j => s.fbAt (s.offset y b + j)) (by simp [State.sourceBytes])
  rw [List.length_map, List.length_range] at e
  exact e

/-- Rows of framebuffer bytes record their events one after the other (R128). -/
theorem xferRows_trace (y0 b n : Nat) (rows : List Nat) (s : State) :
    (rows.foldl (fun t i => t.xferRun (y0 + i) b (.fb (t.offset (y0 + i) b)) n) s).dmaWait.trace =
      s.dmaWait.trace ++ rows.flatMap fun i => s.fbRunEvents (y0 + i) b n := by
  induction rows generalizing s with
  | nil => simp
  | cons i rows ih =>
    rw [List.foldl_cons, ih, s.xferRun_fb_trace, List.flatMap_cons, List.append_assoc, s.xferRun_frame]
    rfl

/-- A row's events with the bytes named by row and byte column (R128). -/
theorem State.fbRunEvents_eq (s : State) (y b n : Nat) :
    s.fbRunEvents y b n = Event.busCmd (addrCmds s.cfg y b) ::
      if s.cfg.hasDma then [.dmaStart s.cfg.dmaDest (.fb (s.offset y b)) n s.cfg.dmaTrig, .dmaDone]
      else [.busData ((List.range n).map fun j => s.fbByte y (b + j))] := by
  simp [State.fbRunEvents, State.runEvents, State.fbByte, State.offset, Nat.add_assoc]

/-- What a windowed flush changes: the display side (R128). -/
theorem State.flushRows_frame (s : State) (r : Rect) :
    (s.flushRows r).dmaWait = s.withDispOf (s.flushRows r).dmaWait :=
  State.withDispOf_of_offDisplay ((flushRows_polls s r).trans (dmaWait_polls _)).same

/-- What the display shows after a windowed flush: the framebuffer in the rectangle, elsewhere what it showed (R128). -/
theorem State.flushRows_dispAt {s : State} (he : s.width % 2 = 0) {x y : Int} {w h : Nat}
    (hne : (s.flushRect x y w h).isEmpty = false) {row b : Nat} (hb : b < s.bpr) :
    let r := s.flushRect x y w h
    (s.flushRows r).dmaWait.dispAt (s.offset row b) =
      if r.ya ≤ row ∧ (row : Int) < r.yb ∧ r.xa ≤ 2 * (b : Int) ∧ 2 * (b : Int) < r.xb then s.fbByte row b
      else s.dispAt (s.offset row b) := by
  intro r
  obtain ⟨b1, b2, b3, b4, b5, b6, _, b8⟩ := State.flushRect_bounds he hne
  obtain ⟨hfl, _, hread⟩ := State.flushRows_spec b1 b2 b3 b4 b5 b6 b8
  have hepoch : (s.flushRows r).dmaWait.epoch = s.epoch := by
    rw [s.flushRows_frame]
    rfl
  unfold State.dispAt
  rw [State.dmaWait_disp, hread row b hb, hepoch]
  split
  · rfl
  · rfl

theorem execFlushWindow_unsupported {s : State} (hi : s.inited = true) (hf : s.cfg.hasFb = false) (x y w h : Word) :
    execFlushWindow x y w h s = .next (s.endCommand .errUnsupported 0 0 0 0) := by
  unfold execFlushWindow
  rw [hi, hf]
  rfl

theorem execFlushWindow_empty {s : State} (hi : s.inited = true) (hf : s.cfg.hasFb = true) {x y w h : Word}
    (he : (s.flushRect (s16 x) (s16 y) w.toNat h.toNat).isEmpty = true) :
    execFlushWindow x y w h s = .next (s.endCommand .ok 0 0 0 0) := by
  simp only [execFlushWindow, hi, hf, u16, he]
  rfl

theorem execFlushWindow_drawn {s : State} (hi : s.inited = true) (hf : s.cfg.hasFb = true) {x y w h : Word}
    (he : (s.flushRect (s16 x) (s16 y) w.toNat h.toNat).isEmpty = false) :
    let r := s.flushRect (s16 x) (s16 y) w.toNat h.toNat
    execFlushWindow x y w h s =
      .next ((s.flushRows r).dmaWait.endCommand .ok (reg16 r.xa) (reg16 r.ya) (reg16 (r.xb - r.xa))
        (reg16 (r.yb - r.ya))) := by
  simp only [execFlushWindow, hi, hf, u16, he]
  rfl

/-- Settles O28: the command's three outcomes; of the last, the screen (`State.flushRows_dispAt`) and the events
(`xferRows_trace`). -/
theorem flushWindowCommand : Obligations.FlushWindowCommand := by
  intro s x y w h ⟨hs, hi⟩ r b0 nb
  have hpos : 0 < s.bpr := (hs.geometry hi).bpr_pos
  obtain ⟨_, heven, _⟩ := hs.geometry hi
  refine ⟨fun hf => execFlushWindow_unsupported hi hf x y w h, fun hf => execFlushWindow_empty hi hf,
    fun hf hne => ⟨_, execFlushWindow_drawn hi hf hne, s.flushRows_frame r, State.dmaWait_xferBusy _,
      fun row b h1 h2 h3 h4 => ?_, ?_, fun off hoff => ?_⟩⟩
  · have hxb : r.xb ≤ s.width := min_le_right _ _
    have hb : b < s.bpr := by
      unfold State.bpr
      omega
    have hoffset : (s.flushRows r).dmaWait.offset row b = s.offset row b := by
      rw [s.flushRows_frame]
      rfl
    unfold State.dispByte
    rw [hoffset, State.flushRows_dispAt heven hne hb, if_pos ⟨h1, h2, h3, h4⟩]
  · have htrace := xferRows_trace r.ya.toNat b0 nb (List.range (r.yb - r.ya).toNat) s
    rw [State.dmaWait_eq_of_quiet hs.quiet] at htrace
    simp only [State.fbRunEvents_eq] at htrace
    exact htrace
  · have hsplit : off = s.offset (off / s.bpr) (off % s.bpr) := (Nat.div_add_mod' off s.bpr).symm
    rw [hsplit, State.flushRows_dispAt heven hne (Nat.mod_lt off hpos), if_neg]
    rintro ⟨h1, h2, h3, h4⟩
    exact hoff _ _ h1 h2 h3 h4 hsplit

end Sys2Proof.Machine

/-!
SUPPORT. Clipping (41_rasterizer.md R151, R154), the strategy of a blit (R167), the runs of a line (R155) and the
byte-building form of a buffered line (R153).
-/
namespace Sys2Proof.Machine

/-! ### Where a pixel lands -/

/-- Where a pixel aimed at a column lands: on the screen, left of the margin, where it is aimed or, with wrap, one screen
width beside (R151). -/
theorem State.mapCol_eq_some_iff (s : State) (c : Int) (d : Nat) :
    s.mapCol c = some d ↔
      d < s.width ∧ (d : Int) < s16 s.maxTextX ∧
        (c = d ∨ (s.wrap = true ∧ (c = d - s.width ∨ c = d + s.width))) := by
  have hclip (c' : Int) : (if c' < 0 ∨ c' ≥ s.width then none else if c' ≥ s16 s.maxTextX then none
      else some c'.toNat) = some d ↔ d < s.width ∧ (d : Int) < s16 s.maxTextX ∧ c' = d := by
    split
    · simp only [reduceCtorEq, false_iff]
      omega
    · split
      · simp only [reduceCtorEq, false_iff]
        omega
      · simp only [Option.some.injEq]
        omega
  unfold State.mapCol State.wrapCol
  by_cases h0 : 0 ≤ c ∧ c < s.width
  · simp only [if_pos h0, hclip]
    omega
  · cases hw : s.wrap with
    | false =>
      simp only [if_neg h0, Bool.false_eq_true, false_and, if_false, or_false, reduceCtorEq, false_iff]
      omega
    | true =>
      by_cases hneg : c < 0
      · simp only [if_neg h0, true_and, if_pos hneg, hclip]
        omega
      · simp only [if_neg h0, true_and, if_neg hneg, if_pos (show c ≥ s.width by omega), hclip]
        omega

theorem State.rowVisible_iff (s : State) (y : Int) :
    s.rowVisible y = true ↔ s16 s.minDispY ≤ y ∧ y < s16 s.maxDispY := by
  simp [State.rowVisible]

/-- A line in a row that is not visible writes nothing (R157). -/
theorem hLine_invisible {s : State} {y : Int} (h : s.rowVisible y = false) (m : Mode) (x : Int) (pix : List Nibble) :
    hLine m x y pix s = (s, 0) := by
  unfold hLine
  rw [if_neg (by simp [h])]

/-- Settles O30: the two tests of a pixel as `↔`, and a line's own test of its row. -/
theorem clipping : Obligations.Clipping := by
  refine fun s => ⟨s.mapCol_eq_some_iff, fun y => ⟨s.rowVisible_iff y, fun hw hv => ?_, hLine_invisible⟩⟩
  obtain ⟨h0, h1, _⟩ := State.rowVisible_bounds hw hv
  exact ⟨h0, h1⟩

/-! ### The strategy of a blit -/

/-- Settles O40: the branches of `SelectStrategy`, each with its number. -/
theorem strategySelection : Obligations.StrategySelection := by
  intro s x y bw bh m full even
  have hcases : s.selectStrategy x y bw bh m = .fullScreen ∧ full ∨
      s.selectStrategy x y bw bh m = .aligned ∧ ¬full ∧ even ∨
      s.selectStrategy x y bw bh m = .generic ∧ ¬full ∧ ¬even := by
    unfold State.selectStrategy
    split
    · exact .inl ⟨rfl, ‹_›⟩
    · split
      · exact .inr (.inl ⟨rfl, ‹_›, ‹_›⟩)
      · exact .inr (.inr ⟨rfl, ‹_›, ‹_›⟩)
  have hnumber : ((s.selectStrategy x y bw bh m).number = 1 ↔ full) ∧
      ((s.selectStrategy x y bw bh m).number = 2 ↔ ¬full ∧ even) ∧
      ((s.selectStrategy x y bw bh m).number = 3 ↔ ¬full ∧ ¬even) := by
    rcases hcases with ⟨h, hf⟩ | ⟨h, hf, he⟩ | ⟨h, hf, he⟩
    · rw [h]
      exact ⟨iff_of_true rfl hf, iff_of_false (by decide) fun e => e.1 hf, iff_of_false (by decide) fun e => e.1 hf⟩
    · rw [h]
      exact ⟨iff_of_false (by decide) hf, iff_of_true rfl ⟨hf, he⟩, iff_of_false (by decide) fun e => e.2 he⟩
    · rw [h]
      exact ⟨iff_of_false (by decide) hf, iff_of_false (by decide) fun e => he e.2, iff_of_true rfl ⟨hf, he⟩⟩
  obtain ⟨h1, h2, h3⟩ := hnumber
  refine ⟨h1, h2, h3, fun hm => ?_, fun hg he => ?_⟩
  · rw [hm, State.selectStrategy_buffered]
    rfl
  · rw [State.selectStrategy_empty hg x y m he]
    rfl

/-! ### The runs of a line -/

/-- By how many columns a line's pixels may land beside where they are aimed: not at all or, with wrap, by one screen
width, in the order in which the line meets them (R151, R155). -/
def State.shifts (s : State) : List Int := if s.wrap then [(s.width : Int), 0, -(s.width : Int)] else [0]

/-- The run of the pixels that land shifted by `k`, where there are such pixels. -/
def State.piece (s : State) (pix : List Nibble) (x k : Int) : List Run :=
  [s.segment pix x k].filter fun r => !r.pix.isEmpty

theorem State.mapCol_iff_shift (s : State) (c : Int) (d : Nat) :
    s.mapCol c = some d ↔ d < s.width ∧ (d : Int) < s16 s.maxTextX ∧ ∃ k ∈ s.shifts, c + k = d := by
  rw [s.mapCol_eq_some_iff]
  unfold State.shifts
  cases s.wrap with
  | false => simp
  | true =>
    simp only [if_true, List.mem_cons, List.not_mem_nil, or_false, exists_eq_or_imp, exists_eq_left, true_and]
    omega

/-- The pixels past the screen or the margin make no run. -/
theorem State.piece_past {s : State} {pix : List Nibble} {x k : Int}
    (h : (s.width : Int) ≤ x + k ∨ s16 s.maxTextX ≤ x + k) : s.piece pix x k = [] := by
  have hn : (min (x + k + pix.length) (min (s.width : Int) (s16 s.maxTextX)) - max (x + k) 0).toNat = 0 := by omega
  simp [State.piece, State.segment, hn]

/-- A first pixel left of the screen belongs to no run. -/
theorem State.segment_before {s : State} {p : Nibble} {ps : List Nibble} {x k : Int} (h : x + k < 0) :
    s.segment (p :: ps) x k = s.segment ps (x + 1) k := by
  have hlo : max (x + k) 0 = max (x + 1 + k) 0 := by omega
  have hdrop : (max (x + 1 + k) 0 - (x + k)).toNat = (max (x + 1 + k) 0 - (x + 1 + k)).toNat + 1 := by omega
  have hend : x + k + ((p :: ps).length : Int) = x + 1 + k + ps.length := by
    rw [List.length_cons]
    push_cast
    ring
  unfold State.segment
  simp only [hlo, hdrop, hend, List.drop_succ_cons]

/-- A first pixel that lands begins its run. -/
theorem State.segment_landed {s : State} {p : Nibble} {ps : List Nibble} {x k : Int} (h0 : 0 ≤ x + k)
    (h1 : x + k < s.width) (h2 : x + k < s16 s.maxTextX) :
    s.segment (p :: ps) x k = { col := (x + k).toNat, pix := p :: (s.segment ps (x + 1) k).pix } := by
  have hdrop : (max (x + k) 0 - (x + k)).toNat = 0 := by omega
  have hdrop' : (max (x + 1 + k) 0 - (x + 1 + k)).toNat = 0 := by omega
  have htake : (min (x + k + ((p :: ps).length : Int)) (min (s.width : Int) (s16 s.maxTextX)) - max (x + k) 0).toNat =
      (min (x + 1 + k + ps.length) (min (s.width : Int) (s16 s.maxTextX)) - max (x + 1 + k) 0).toNat + 1 := by
    rw [List.length_cons]
    push_cast
    omega
  unfold State.segment
  simp only
  rw [htake, hdrop, hdrop', List.drop_zero, List.drop_zero, List.take_succ_cons, max_eq_left h0]

/-- A shift that the line meets later is a screen width less. -/
theorem State.shifts_pairwise (s : State) : s.shifts.Pairwise fun a b => b + (s.width : Int) ≤ a := by
  unfold State.shifts
  split
  · simp
  · simp

/-- A first pixel that is dropped belongs to no run. -/
theorem State.pieces_cons_dropped {s : State} {x : Int} (h : s.mapCol x = none) (p : Nibble) (ps : List Nibble) :
    s.shifts.flatMap (s.piece (p :: ps) x) = s.shifts.flatMap (s.piece ps (x + 1)) := by
  refine List.flatMap_congr fun k hk => ?_
  by_cases hneg : x + k < 0
  · rw [State.piece, State.piece, State.segment_before hneg]
  · have hout : ¬((x + k).toNat < s.width ∧ ((x + k).toNat : Int) < s16 s.maxTextX) := fun ⟨h1, h2⟩ => by
      rw [(s.mapCol_iff_shift x (x + k).toNat).2 ⟨h1, h2, k, hk, by omega⟩] at h
      cases h
    rw [State.piece_past (by omega), State.piece_past (by omega)]

/-- A first pixel that lands, shifted by `k`, begins the first run; the runs of greater shifts are past, and those of lesser
shifts, `rs`, do not begin yet. -/
theorem State.pieces_cons_landed {s : State} {x : Int} {d : Nat} (h : s.mapCol x = some d) (p : Nibble)
    (ps : List Nibble) :
    ∃ k ∈ s.shifts, ∃ rs, x + k = d ∧
      s.shifts.flatMap (s.piece (p :: ps) x) = { col := d, pix := p :: (s.segment ps (x + 1) k).pix } :: rs ∧
      s.shifts.flatMap (s.piece ps (x + 1)) = s.piece ps (x + 1) k ++ rs := by
  obtain ⟨h1, h2, k, hk, hxk⟩ := (s.mapCol_iff_shift x d).1 h
  obtain ⟨before, after, hsplit⟩ := List.append_of_mem hk
  have hsep := s.shifts_pairwise
  rw [hsplit, List.pairwise_append] at hsep
  obtain ⟨_, hafter, hbefore⟩ := hsep
  have hpast (qs : List Nibble) (x' : Int) (hx' : x ≤ x') : before.flatMap (s.piece qs x') = [] := by
    rw [List.flatMap_eq_nil_iff]
    intro k' hk'
    have := hbefore k' hk' k (List.mem_cons_self ..)
    exact State.piece_past (by omega)
  have hlater : after.flatMap (s.piece (p :: ps) x) = after.flatMap (s.piece ps (x + 1)) := by
    refine List.flatMap_congr fun k' hk' => ?_
    have := List.rel_of_pairwise_cons hafter hk'
    rw [State.piece, State.piece, State.segment_before (by omega)]
  have hfirst : s.piece (p :: ps) x k = [{ col := d, pix := p :: (s.segment ps (x + 1) k).pix }] := by
    rw [State.piece, State.segment_landed (by omega) (by omega) (by omega), hxk]
    simp
  refine ⟨k, hk, after.flatMap (s.piece ps (x + 1)), hxk, ?_, ?_⟩
  · rw [hsplit, List.flatMap_append, hpast _ x le_rfl, List.flatMap_cons, hlater, hfirst]
    rfl
  · rw [hsplit, List.flatMap_append, hpast _ (x + 1) (by omega), List.flatMap_cons, List.nil_append]

/-- A pixel whose next neighbour does not land on the next column is a run of its own (R155). -/
theorem State.runs_cons_alone {s : State} {x : Int} {d : Nat} (h : s.mapCol x = some d) (p : Nibble) {ps : List Nibble}
    (hnext : ps = [] ∨ s.mapCol (x + 1) ≠ some (d + 1)) :
    s.runs (p :: ps) x = { col := d, pix := [p] } :: s.runs ps (x + 1) := by
  simp only [State.runs, h]
  split
  · rename_i d' r rs hd' hrs
    have hne : d' ≠ d + 1 := by
      rintro rfl
      rcases hnext with rfl | hnext
      · cases hrs
      · exact hnext hd'
    rw [if_neg hne, hrs]
  · rfl

/-- The runs of a line (R155): one for each shift by which some of its pixels land, in the order of the shifts. -/
theorem State.runs_eq_pieces (s : State) (pix : List Nibble) (x : Int) :
    s.runs pix x = s.shifts.flatMap (s.piece pix x) := by
  induction pix generalizing x with
  | nil => simp [State.runs, State.piece, State.segment]
  | cons p ps ih =>
    cases hm : s.mapCol x with
    | none =>
      rw [State.pieces_cons_dropped hm, ← ih]
      simp only [State.runs, hm]
    | some d =>
      obtain ⟨k, hk, rs, hxk, hwith, hwithout⟩ := State.pieces_cons_landed hm p ps
      rw [hwith]
      rw [← ih] at hwithout
      by_cases hnext : ps ≠ [] ∧ (d : Int) + 1 < s.width ∧ (d : Int) + 1 < s16 s.maxTextX
      · obtain ⟨hne, h1, h2⟩ := hnext
        obtain ⟨q, qs, rfl⟩ := List.exists_cons_of_ne_nil hne
        have hm' : s.mapCol (x + 1) = some (d + 1) :=
          (s.mapCol_iff_shift (x + 1) (d + 1)).2 ⟨by omega, by omega, k, hk, by push_cast; omega⟩
        have hseg := State.segment_landed (s := s) (p := q) (ps := qs) (x := x + 1) (k := k) (by omega) (by omega)
          (by omega)
        rw [show (x + 1 + k).toNat = d + 1 by omega] at hseg
        rw [State.piece, hseg] at hwithout
        rw [State.runs, hm, hm', hwithout, hseg]
        simp
      · have hempty : (s.segment ps (x + 1) k).pix = [] := by
          rcases not_and_or.1 hnext with hnil | hpast
          · simp [State.segment, not_not.1 hnil]
          · by_contra hne
            have := State.piece_past (s := s) (pix := ps) (x := x + 1) (k := k) (by omega)
            simp [State.piece, hne] at this
        have hnone : s.piece ps (x + 1) k = [] := by simp [State.piece, hempty]
        rw [hnone, List.nil_append] at hwithout
        rw [hempty, ← hwithout]
        refine State.runs_cons_alone hm p ((not_and_or.1 hnext).imp not_not.1 fun hpast hd => hpast ?_)
        have := State.mapCol_lt hd
        push_cast at this
        omega

/-- Settles O35: `State.runs_eq_pieces`, with the shifts written out. -/
theorem runsOfLine : Obligations.RunsOfLine := by
  intro s pix x _
  rw [s.runs_eq_pieces]
  unfold State.shifts State.piece
  split
  · simp only [List.flatMap_cons, List.flatMap_nil, List.append_nil]
    rw [← List.filter_append, ← List.filter_append]
    rfl
  · simp

/-! ### The byte-building form -/

/-- A byte of the framebuffer holds the pixels of its two columns (R62). -/
theorem State.fbByte_eq_pack (s : State) (y b : Nat) :
    s.fbByte y b = pack (s.fbPixel (2 * b) y) (s.fbPixel (2 * b + 1) y) := by
  have heven : 2 * b / 2 = b := by omega
  have hodd : (2 * b + 1) / 2 = b := by omega
  rw [State.fbPixel, State.fbPixel, heven, hodd, nibbleAt, nibbleAt, if_pos (by omega), if_neg (by omega), pack_unpack]

/-- A buffered line that lands on consecutive columns leaves its pixels there, and every other pixel as it was (R152). -/
theorem hLineBuf_fbPixel_consecutive {s : State} (he : s.width % 2 = 0) (y : Nat) {d0 c : Nat} {pix : List Nibble}
    (hw : d0 + pix.length ≤ s.width) (hm : ((d0 + pix.length : Nat) : Int) ≤ s16 s.maxTextX) (hc : c < s.width) :
    (hLineBuf y pix d0 s).1.fbPixel c y =
      if d0 ≤ c ∧ c < d0 + pix.length then pix.getD (c - d0) 0 else s.fbPixel c y := by
  have hland (i : Nat) (hi : i < pix.length) : s.mapCol ((d0 : Int) + i) = some (d0 + i) := by
    rw [State.mapCol_inside (by omega) (by omega) (by omega)]
    congr 1
  obtain ⟨hon, hoff⟩ := hLineBuf_pixel (y := y) (y' := y) pix d0 he hc
  split
  · rename_i hin
    have hi : c - d0 < pix.length := by omega
    rw [hon (c - d0) hi (by rw [hland _ hi]; congr 1; omega), List.getD_eq_getElem _ _ hi]
    intro j hj hlen
    rw [hland j hlen, ne_eq, Option.some.injEq]
    omega
  · refine hoff (.inr fun i hi => ?_)
    rw [hland i hi, ne_eq, Option.some.injEq]
    omega

/-- A byte of the row of such a line: each nibble the line covers is its pixel, each other nibble stays (R153). -/
theorem hLineBuf_fbByte_consecutive {s : State} (he : s.width % 2 = 0) (y : Nat) {d0 b : Nat} {pix : List Nibble}
    (hw : d0 + pix.length ≤ s.width) (hm : ((d0 + pix.length : Nat) : Int) ≤ s16 s.maxTextX) (hb : 2 * b < s.width) :
    (hLineBuf y pix d0 s).1.fbByte y b =
      pack (if d0 ≤ 2 * b ∧ 2 * b < d0 + pix.length then pix.getD (2 * b - d0) 0 else hiNib (s.fbByte y b))
        (if d0 ≤ 2 * b + 1 ∧ 2 * b + 1 < d0 + pix.length then pix.getD (2 * b + 1 - d0) 0
          else loNib (s.fbByte y b)) := by
  rw [State.fbByte_eq_pack, hLineBuf_fbPixel_consecutive he y hw hm hb,
    hLineBuf_fbPixel_consecutive he y hw hm (by omega), s.fbByte_eq_pack y b, hiNib_pack, loNib_pack]

/-- Settles O34: in each byte of the form, which of its two nibbles the line covers
(`hLineBuf_fbByte_consecutive`). -/
theorem byteBuildingForm : Obligations.ByteBuildingForm := by
  intro s y d0 pix ⟨_, he, _⟩ hw hm t src m b0
  have hbyte (b : Nat) (hb : 2 * b < s.width) := hLineBuf_fbByte_consecutive he y hw hm hb
  refine ⟨fun hodd hpos => ⟨?_, fun j h1 h2 => ?_, fun hlast => ?_⟩, fun heven => ⟨fun j hj => ?_, fun hlast => ?_⟩⟩
  · rw [hbyte b0 (by omega), if_neg (by omega), if_pos (by omega), show 2 * b0 + 1 - d0 = 2 * 0 by omega, mergeLo,
      hiNib_pack]
  · rw [hbyte (b0 + j) (by omega), if_pos (by omega), if_pos (by omega), loNib_pack, hiNib_pack,
      show 2 * (b0 + j) - d0 = 2 * (j - 1) + 1 by omega, show 2 * (b0 + j) + 1 - d0 = 2 * j by omega]
  · rw [hbyte (b0 + m / 2) (by omega), if_pos (by omega), if_neg (by omega), loNib_pack, mergeHi,
      show 2 * (b0 + m / 2) - d0 = 2 * (m / 2 - 1) + 1 by omega]
  · rw [hbyte (b0 + j) (by omega), if_pos (by omega), if_pos (by omega), show 2 * (b0 + j) - d0 = 2 * j by omega,
      show 2 * (b0 + j) + 1 - d0 = 2 * j + 1 by omega]
  · rw [hbyte (b0 + (m - 1) / 2) (by omega), if_pos (by omega), if_neg (by omega), hiNib_pack, mergeHi,
      show 2 * (b0 + (m - 1) / 2) - d0 = 2 * ((m - 1) / 2) by omega]

end Sys2Proof.Machine

/-!
SUPPORT. What direct lines leave (41_rasterizer.md R155 to R157): the columns of a line's runs, and which bytes of the
display and which shadow entries runs, lines and rows of lines may change.
-/
namespace Sys2Proof.Machine

/-! ### The columns of runs -/

/-- The byte columns of a run are those of its columns (R156). -/
theorem Run.mem_byteCols_iff {r : Run} (hr : r.pix ≠ []) (b : Nat) :
    b ∈ r.byteCols ↔ ∃ d, r.col ≤ d ∧ d < r.col + r.pix.length ∧ b = d / 2 := by
  have hl : 0 < r.pix.length := List.length_pos_iff.2 hr
  rw [Run.byteCols_eq hr, List.mem_range'_1]
  constructor
  · intro h
    exact ⟨max r.col (2 * b), by omega, by omega, by omega⟩
  · rintro ⟨d, h1, h2, rfl⟩
    omega

/-- Every column of a run is one that a pixel of the line lands on (R155). -/
theorem State.lands_of_mem_runs {s : State} {pix : List Nibble} {x : Int} {r : Run} (hr : r ∈ s.runs pix x) {d : Nat}
    (h0 : r.col ≤ d) (h1 : d < r.col + r.pix.length) : ∃ i : Nat, i < pix.length ∧ s.mapCol (x + i) = some d := by
  rw [s.runs_eq_pieces, List.mem_flatMap] at hr
  obtain ⟨k, hk, hr⟩ := hr
  obtain rfl : r = s.segment pix x k := List.mem_singleton.1 (List.mem_filter.1 hr).1
  simp only [State.segment, List.length_take, List.length_drop] at h0 h1
  exact ⟨(d - (x + k)).toNat, by omega, (s.mapCol_iff_shift _ d).2 ⟨by omega, by omega, k, hk, by omega⟩⟩

/-- A nibble that a run covers is the run's pixel (R156). -/
theorem State.nibbleAt_sentByte (s : State) (y : Nat) {r : Run} {d : Nat} (h0 : r.col ≤ d)
    (h1 : d < r.col + r.pix.length) : nibbleAt (s.sentByte y r (d / 2)) d = r.pix.getD (d - r.col) 0 := by
  unfold State.sentByte
  rcases Nat.mod_two_eq_zero_or_one d with hd | hd
  · have he : 2 * (d / 2) = d := by omega
    rw [nibbleAt_even _ _ hd, he, if_pos ⟨h0, h1⟩]
    rfl
  · have ho : 2 * (d / 2) + 1 = d := by omega
    rw [nibbleAt_odd _ _ hd, ho, if_pos ⟨h0, h1⟩]
    rfl

/-! ### What a direct drawing may change -/

/-- `t` comes from `s` by a direct drawing that hits column `d` of row `y` only where `hit d y`: it changes the display side
and `SHADOW` alone, of the screen only bytes with a column that is hit, of `SHADOW` only rows with one. -/
structure DirectDrawn (s t : State) (hit : Nat → Nat → Prop) : Prop where
  ready : t.Ready
  kept : Kept s t
  frame : t = s.withDirectOf t
  disp : ∀ off, (∀ d y, hit d y → off ≠ s.offset y (d / 2)) → t.dispAt off = s.dispAt off
  shadow : ∀ y : Nat, (∀ d, ¬hit d y) → t.shadow[y]? = s.shadow[y]?

namespace DirectDrawn

variable {s t u : State} {hit hit' : Nat → Nat → Prop}

theorem refl (hs : s.Ready) (hit : Nat → Nat → Prop) : DirectDrawn s s hit :=
  ⟨hs, Kept.refl s, rfl, fun _ _ => rfl, fun _ _ => rfl⟩

theorem mono (h : DirectDrawn s t hit) (himp : ∀ d y, hit d y → hit' d y) : DirectDrawn s t hit' where
  ready := h.ready
  kept := h.kept
  frame := h.frame
  disp off ho := h.disp off fun d y hd => ho d y (himp d y hd)
  shadow y hy := h.shadow y fun d hd => hy d (himp d y hd)

theorem offset (h : DirectDrawn s t hit) (y b : Nat) : t.offset y b = s.offset y b := by
  unfold State.offset
  rw [h.kept.bpr]

theorem trans (h : DirectDrawn s t hit) (k : DirectDrawn t u hit) : DirectDrawn s u hit where
  ready := k.ready
  kept := h.kept.trans k.kept
  frame := State.withDrawOf_trans (m := .direct) h.frame k.frame
  disp off ho := (k.disp off fun d y hd => by rw [h.offset]; exact ho d y hd).trans (h.disp off ho)
  shadow y hy := (k.shadow y hy).trans (h.shadow y hy)

/-- A row that is not hit shows what it showed. -/
theorem dispPixel_other (h : DirectDrawn s t hit) (hs : s.geometryOk) (hcol : ∀ d y, hit d y → d < s.width) {d y : Nat}
    (hd : d < s.width) (hy : ∀ d', ¬hit d' y) : t.dispPixel d y = s.dispPixel d y := by
  obtain ⟨_, he, _⟩ := hs
  unfold State.dispPixel State.dispByte
  rw [h.offset, h.disp]
  intro d' y' hit' ho
  obtain ⟨rfl, _⟩ := (State.offset_inj (State.half_lt_bpr he hd) (State.half_lt_bpr he (hcol d' y' hit'))).1 ho
  exact hy d' hit'

end DirectDrawn

/-- One run (R156). -/
theorem streamRun_drawn {s : State} (hs : s.Ready) {y : Nat} (hy : y < s.height) {r : Run} (hr : r.pix ≠ [])
    (hw : r.col + r.pix.length ≤ s.width) :
    DirectDrawn s (streamRun y s r) fun d y' => y' = y ∧ r.col ≤ d ∧ d < r.col + r.pix.length := by
  obtain ⟨hframe, hquiet, _, _, hdisp, hshadow⟩ := directRun s y r hs hy hr hw
  obtain ⟨hsound, hi⟩ := hs
  obtain ⟨hlen, _⟩ := hsound.shadowRows hi
  have hk := streamRun_kept (hlen.symm ▸ hy) hy (hsound.geometry hi).2.1 hr hw
  refine ⟨⟨hsound.of_kept hk hquiet ?_, ?_⟩, hk, hframe, fun off ho => hdisp off fun b h1 h2 => ?_, fun y' hy' => ?_⟩
  · rw [State.clearScratch_eq_iff, hframe]
    exact hsound.scratch
  · rw [hframe]
    exact hi
  · have hb : b ∈ r.byteCols := by
      rw [Run.byteCols_eq hr, List.mem_range'_1]
      omega
    obtain ⟨d, h3, h4, rfl⟩ := (Run.mem_byteCols_iff hr b).1 hb
    exact ho d y ⟨rfl, h3, h4⟩
  · have hpos : 0 < r.pix.length := List.length_pos_iff.2 hr
    have hne : y ≠ y' := fun e => hy' r.col ⟨e.symm, le_rfl, by omega⟩
    rw [hshadow, List.getElem?_set_ne hne]

/-- The runs of a line, one after the other (R156). -/
theorem streamRuns_drawn {s : State} (hs : s.Ready) {y : Nat} (hy : y < s.height) {rs : List Run}
    (hrs : ∀ r ∈ rs, r.pix ≠ [] ∧ r.col + r.pix.length ≤ s.width) :
    DirectDrawn s (rs.foldl (streamRun y) s) fun d y' =>
      y' = y ∧ ∃ r ∈ rs, r.col ≤ d ∧ d < r.col + r.pix.length := by
  induction rs generalizing s with
  | nil => exact .refl hs _
  | cons r rs ih =>
    obtain ⟨hr, hw⟩ := hrs r (List.mem_cons_self ..)
    have h1 := streamRun_drawn hs hy hr hw
    have h2 := ih h1.ready (by rw [h1.kept.height]; exact hy)
      fun r' hr' => by rw [h1.kept.width]; exact hrs r' (List.mem_cons_of_mem _ hr')
    exact (h1.mono fun d y' ⟨e, hd⟩ => ⟨e, r, List.mem_cons_self .., hd⟩).trans
      (h2.mono fun d y' ⟨e, r', hr', hd⟩ => ⟨e, r', List.mem_cons_of_mem _ hr', hd⟩)

/-- The runs of a line in a row of the screen (R155, R156). -/
theorem lineRuns_drawn {s t : State} (ht : t.Ready) (hk : Kept s t) {y : Nat} (hy : y < s.height) (pix : List Nibble)
    (x : Int) :
    DirectDrawn t ((s.runs pix x).foldl (streamRun y) t) fun d y' =>
      y' = y ∧ ∃ i : Nat, i < pix.length ∧ s.mapCol (x + i) = some d := by
  refine (streamRuns_drawn ht (hk.height.symm ▸ hy) fun r hr => ?_).mono fun d y' ⟨e, r, hr, h0, h1⟩ =>
    ⟨e, State.lands_of_mem_runs hr h0 h1⟩
  obtain ⟨h1, h2, _⟩ := State.runs_bounds.1 r hr
  exact ⟨h1, hk.width.symm ▸ h2⟩

/-! ### WRITE_HLINE -/

/-- A line reads nothing of `LINE`, and leaves it (R150). -/
theorem hLine_withLine (m : Mode) (x y : Int) (pix : List Nibble) {s : State} (hq : s.xferBusy = false)
    (l : List Nibble) : (hLine m x y pix (s.withLine l)).1 = (hLine m x y pix s).1.withLine l := by
  cases m with
  | buffered => exact hLine_buffered_withLine x y pix s l
  | direct =>
    have hruns : (s.withLine l).runs pix x = s.runs pix x := (Kept.of_scratch rfl).runs pix x
    rw [hLine_direct, hLine_direct, hruns, show (s.withLine l).rowVisible y = s.rowVisible y from rfl]
    split
    · exact streamRuns_withLine _ hq _ l
    · rfl

/-- A draw leaves nothing staged where nothing was. -/
theorem State.Sound.clear_of_draw {s t : State} (h : s.Sound) {m : Mode} (ht : t = s.withDrawOf m t) :
    t.clearScratch = t := by
  rw [State.clearScratch_eq_iff, ht]
  cases m with
  | buffered => exact h.scratch
  | direct => exact h.scratch

/-- WRITE_HLINE is the line of its payload, and returns how many pixels landed (R150, R157). -/
theorem execWriteHline_ready {s : State} (hs : s.Ready) {m : Mode} (hf : m = .buffered → s.cfg.hasFb = true)
    (x y : Word) {n : Word} (payload : List Byte) (hn : n.toNat ≤ s.cfg.lineCap) :
    let t := hLine m (s16 x) (s16 y) (payloadPixels n.toNat payload) s
    execWriteHline m x y n payload s = .next (t.1.endCommand .ok (BitVec.ofNat 16 t.2) 0 0 0) := by
  obtain ⟨hsound, hi⟩ := hs
  have hlen := payloadPixels_length n.toNat payload
  simp only [execWriteHline, hi, State.lacksFb_eq_false hf, u16, gt_iff_lt, if_neg (Nat.not_lt.2 hn), hsound.setLine_eq]
  generalize payloadPixels n.toNat payload = ps at *
  have htake : (s.withLine ps).line.take n.toNat = ps := List.take_of_length_le hlen.le
  have hcount : (hLine m (s16 x) (s16 y) ps (s.withLine ps)).2 = (hLine m (s16 x) (s16 y) ps s).2 := by
    rw [hLine_count, hLine_count]
    rfl
  have hquiet := (hLine_quiet m (s16 x) (s16 y) ps hsound.quiet).1
  have hclear := hsound.clear_of_draw (hLine_spec (m := m) (s16 x) (s16 y) ps (hsound.drawable hi)).1
  rw [htake, hcount, hLine_withLine m _ _ _ hsound.quiet]
  generalize hLine m (s16 x) (s16 y) ps s = t at *
  have hend : (t.1.withLine ps).dmaWait.clearScratch = t.1 :=
    (congrArg State.clearScratch (State.dmaWait_eq_of_quiet (s := t.1.withLine ps) hquiet)).trans hclear
  rw [hend, reg16, BitVec.ofInt_natCast]
  rfl

/-- WRITE_HLINE in a row that is not visible (R154, R157). -/
theorem execWriteHline_invisible {s : State} (hs : s.Ready) {m : Mode} (hf : m = .buffered → s.cfg.hasFb = true)
    (x : Word) {y n : Word} (payload : List Byte) (hn : n.toNat ≤ s.cfg.lineCap) (hv : s.rowVisible (s16 y) = false) :
    execWriteHline m x y n payload s = .next (s.endCommand .ok 0 0 0 0) := by
  rw [execWriteHline_ready hs hf x y payload hn, hLine_invisible hv]
  rfl

/-- WRITE_HLINE in a visible row (R150). -/
theorem execWriteHline_visible {s : State} (hs : s.Ready) {m : Mode} (hf : m = .buffered → s.cfg.hasFb = true)
    (x : Word) {y n : Word} (payload : List Byte) (hn : n.toNat ≤ s.cfg.lineCap) (hv : s.rowVisible (s16 y) = true) :
    execWriteHline m x y n payload s =
      .next ((hLine m (s16 x) (s16 y) (payloadPixels n.toNat payload) s).1.endCommand .ok
        (BitVec.ofNat 16 ((List.range n.toNat).countP fun i : Nat => (s.mapCol (s16 x + i)).isSome)) 0 0 0) := by
  rw [execWriteHline_ready hs hf x y payload hn, hLine_count, if_pos hv, payloadPixels_length]

/-- Settles O32: the command is the buffered line of its payload (`execWriteHline_visible`), whose pixels and bytes the laws
of a buffered line give. -/
theorem writeHlineBuffered : Obligations.WriteHlineBuffered := by
  intro s x y n payload hs hfb hn _
  have hd := hs.1.drawable hs.2
  have hlen := payloadPixels_length n.toNat payload
  refine ⟨execWriteHline_invisible hs (fun _ => hfb) x payload hn, fun hv =>
    ⟨_, execWriteHline_visible hs (fun _ => hfb) x payload hn hv,
      (hLine_spec (m := .buffered) (s16 x) (s16 y) _ hd).1, fun i d hi hm hlast => ?_, fun d y' hdw h => ?_,
      fun off ho => ?_⟩⟩
  · have hrow : ((s16 y).toNat : Int) = s16 y := Int.toNat_of_nonneg (State.rowVisible_bounds hd.window hv).1
    rw [hLine_buffered_pixel hd.geometry.2.1 (State.mapCol_lt hm).1 hrow hv (by rwa [hlen]) hm (by rwa [hlen]),
      ← List.getD_eq_getElem _ 0 (by rwa [hlen])]
    exact payloadPixels_getD hi payload
  · refine hLine_buffered_pixel_other hd hdw fun hy _ i hi => ?_
    rw [hlen] at hi
    exact h.resolve_left (absurd hy) i hi
  · refine hLine_buffered_fbAt_other hd fun i d y' hi hy _ hm => ?_
    rw [hlen] at hi
    obtain rfl : y' = (s16 y).toNat := by omega
    exact ho i d hi hm

/-- Settles O37: the command streams the runs of its payload (`execWriteHline_visible`); `streamRuns_drawn` says what runs
may change, `directRun` what a single one shows. -/
theorem writeHlineDirect : Obligations.WriteHlineDirect := by
  intro s x y n payload hs hn _ rs
  have hd := hs.1.drawable hs.2
  have hf (h : Mode.direct = .buffered) : s.cfg.hasFb = true := by cases h
  refine ⟨execWriteHline_invisible hs hf x payload hn, fun hv => ?_⟩
  obtain ⟨_, _, hy⟩ := State.rowVisible_bounds hd.window hv
  have hbounds (r : Run) (hr : r ∈ rs) : r.pix ≠ [] ∧ r.col + r.pix.length ≤ s.width := by
    obtain ⟨h1, h2, _⟩ := State.runs_bounds.1 r hr
    exact ⟨h1, h2⟩
  have hline : (hLine .direct (s16 x) (s16 y) (payloadPixels n.toNat payload) s).1 =
      rs.foldl (streamRun (s16 y).toNat) s := by
    rw [hLine_direct, if_pos hv]
  have hdrawn := streamRuns_drawn hs hy hbounds
  refine ⟨_, execWriteHline_visible hs hf x payload hn hv, hline, hline ▸ hdrawn.frame, hline ▸ hdrawn.ready.1.quiet,
    fun y' hy' => ?_, fun off ho => ?_, fun r hr b hb => ?_⟩
  · rw [hline]
    exact hdrawn.shadow y' fun d ⟨e, _⟩ => hy' (by omega)
  · rw [hline]
    refine hdrawn.disp off fun d y' ⟨e, r, hr, h0, h1⟩ => ?_
    subst e
    exact ho r hr (d / 2) ((Run.mem_byteCols_iff (hbounds r hr).1 _).2 ⟨d, h0, h1, rfl⟩)
  · obtain ⟨hne, hw⟩ := hbounds r (hr ▸ List.mem_singleton_self r)
    obtain ⟨_, _, _, hshow, _⟩ := directRun s (s16 y).toNat r hs hy hne hw
    have hpos : 0 < r.pix.length := List.length_pos_iff.2 hne
    rw [Run.byteCols_eq hne, List.mem_range'_1] at hb
    rw [hline, hr]
    exact hshow b hb.1 (by omega)

end Sys2Proof.Machine

/-!
SUPPORT. Rectangles (41_rasterizer.md R160): both modes as drawings row by row, and what a direct drawing row by row leaves.
-/
namespace Sys2Proof.Machine

/-! ### Direct drawings row by row -/

theorem directRows_succ (x y : Int) (rows : Nat → List Nibble) (h : Nat) (s : State) :
    directRows x y rows (h + 1) s =
      if s.rowVisible (y + h) then (s.runs (rows h) x).foldl (streamRun (y + h).toNat) (directRows x y rows h s)
      else directRows x y rows h s := by
  unfold directRows
  rw [List.range_succ, List.foldl_append]
  rfl

/-- A direct drawing row by row changes only bytes and rows that one of its pixels lands in (R156, R157). -/
theorem directRows_drawn {s : State} (hs : s.Ready) (x y : Int) (rows : Nat → List Nibble) (h : Nat) :
    DirectDrawn s (directRows x y rows h s) fun d y' => ∃ r i : Nat, s.Lands x y rows h r i d y' := by
  induction h with
  | zero => exact .refl hs _
  | succ h ih =>
    have hbefore : DirectDrawn s (directRows x y rows h s) fun d y' =>
        ∃ r i : Nat, s.Lands x y rows (h + 1) r i d y' := ih.mono fun d y' ⟨r, i, hr, hin⟩ => ⟨r, i, by omega, hin⟩
    rw [directRows_succ]
    split
    · rename_i hv
      obtain ⟨h0, _, hy⟩ := State.rowVisible_bounds (hs.1.window hs.2) hv
      refine hbefore.trans ((lineRuns_drawn ih.ready ih.kept hy (rows h) x).mono fun d y' ⟨e, i, hi, hm⟩ => ?_)
      have hy' : (y' : Int) = y + h := by omega
      exact ⟨h, i, by omega, hi, hy', hy' ▸ hv, hm⟩
    · exact hbefore

/-- Without wrap a direct line in a row of the screen shows each of its pixels that lands (R155, R156). -/
theorem lineRuns_dispPixel {s t : State} (ht : t.Ready) (hk : Kept s t) (hwrap : s.wrap = false) {y : Nat}
    (hy : y < s.height) {pix : List Nibble} {x : Int} {i d : Nat} (hi : i < pix.length)
    (hm : s.mapCol (x + i) = some d) :
    ((s.runs pix x).foldl (streamRun y) t).dispPixel d y = pix.getD i 0 := by
  obtain ⟨h1, h2, k, hk0, hd⟩ := (s.mapCol_iff_shift (x + i) d).1 hm
  obtain rfl : k = 0 := by simpa [State.shifts, hwrap] using hk0
  have hcol : (s.segment pix x 0).col ≤ d := by
    simp only [State.segment]
    omega
  have hlen : d < (s.segment pix x 0).col + (s.segment pix x 0).pix.length := by
    simp only [State.segment, List.length_take, List.length_drop]
    omega
  have hne : (s.segment pix x 0).pix ≠ [] := List.length_pos_iff.1 (by omega)
  have hruns : s.runs pix x = [s.segment pix x 0] := by
    rw [s.runs_eq_pieces]
    simp [State.shifts, hwrap, State.piece, hne]
  have hpix : (s.segment pix x 0).pix.getD (d - (s.segment pix x 0).col) 0 = pix.getD i 0 := by
    simp only [State.segment, List.getD_eq_getElem?_getD, List.getElem?_take, List.getElem?_drop]
    rw [if_pos (by omega)]
    congr 2
    omega
  obtain ⟨_, hw, _⟩ := (State.runs_bounds (s := s) (pix := pix) (x := x)).1 _ (hruns ▸ List.mem_singleton_self _)
  obtain ⟨_, _, _, hshow, _⟩ := directRun t y _ ht (hk.height.symm ▸ hy) hne (hk.width.symm ▸ hw)
  rw [hruns, List.foldl_cons, List.foldl_nil, State.dispPixel, hshow (d / 2) (by omega) (by omega),
    t.nibbleAt_sentByte y hcol hlen, hpix]

/-- Without wrap a direct drawing row by row shows each of its pixels that lands: no other row of the drawing reaches that
row of the screen. -/
theorem directRows_dispPixel {s : State} (hs : s.Ready) (hwrap : s.wrap = false) {x y : Int} {rows : Nat → List Nibble}
    {h r i d y' : Nat} (hl : s.Lands x y rows h r i d y') :
    (directRows x y rows h s).dispPixel d y' = (rows r).getD i 0 := by
  obtain ⟨hr, hi, hy, hv, hm⟩ := hl
  have hd := hs.1.drawable hs.2
  have hdw : d < s.width := (State.mapCol_lt hm).1
  induction h with
  | zero => omega
  | succ h ih =>
    have hdrawn := directRows_drawn hs x y rows h
    rw [directRows_succ]
    by_cases hrh : r = h
    · subst hrh
      obtain ⟨_, _, hrow⟩ := State.rowVisible_bounds hd.window hv
      rw [← hy, if_pos hv, Int.toNat_natCast]
      exact lineRuns_dispPixel hdrawn.ready hdrawn.kept hwrap hrow hi hm
    · rw [← ih (by omega)]
      split
      · rename_i hv'
        obtain ⟨_, _, hrow⟩ := State.rowVisible_bounds hd.window hv'
        refine (lineRuns_drawn hdrawn.ready hdrawn.kept hrow (rows h) x).dispPixel_other
          (hdrawn.kept.geometryOk hd.geometry) ?_ (hdrawn.kept.width.symm ▸ hdw) fun d' ⟨e, _⟩ => by omega
        rintro d' _ ⟨_, j, _, hj⟩
        exact hdrawn.kept.width.symm ▸ (State.mapCol_lt hj).1
      · rfl

/-! ### DRAW_RECT -/

/-- DRAW_RECT's rows in buffered mode are a buffered drawing (R160). -/
theorem hLineRows_buffered (x y : Int) (pix : List Nibble) (h : Nat) (s : State) :
    (hLineRows .buffered x y pix h s).1 = bufferedRows x y (fun _ => pix) h s := by
  induction h with
  | zero => rfl
  | succ h ih => rw [hLineRows_succ, bufferedRows_succ, ih]

/-- How many pixels rows of one line write: as many in each visible row (R160). -/
theorem hLineRows_count {m : Mode} (x y : Int) (pix : List Nibble) (h : Nat) {s : State} (hs : s.Drawable) :
    (hLineRows m x y pix h s).2 = ((List.range h).countP fun r : Nat => s.rowVisible (y + r)) *
      ((List.range pix.length).countP fun i : Nat => (s.mapCol (x + i)).isSome) := by
  induction h with
  | zero => simp [hLineRows]
  | succ h ih =>
    have hk := (hLineRows_spec (m := m) x y pix h hs).2
    rw [hLineRows_succ, hLine_count, hk.rowVisible, ih, List.range_succ, List.countP_append, List.countP_singleton]
    simp only [hk.mapCol]
    split
    · ring
    · ring

theorem colour_eq_ofNat (color : Word) : colour color = BitVec.ofNat 4 (color.toNat % 16) :=
  BitVec.eq_of_toNat_eq (by simp [colour])

/-- DRAW_RECT draws its rows and returns the 32-bit count of the pixels drawn (R160). -/
theorem execDrawRect_ready {s : State} (hs : s.Ready) {m : Mode} (hf : m = .buffered → s.cfg.hasFb = true)
    (x y w h color : Word) :
    let pix := List.replicate w.toNat (BitVec.ofNat 4 (color.toNat % 16))
    let cnt := ((List.range h.toNat).countP fun r : Nat => s.rowVisible (s16 y + r)) *
      ((List.range w.toNat).countP fun i : Nat => (s.mapCol (s16 x + i)).isSome)
    execDrawRect m x y w h color s =
      .next ((hLineRows m (s16 x) (s16 y) pix h.toNat s).1.endCommand .ok (BitVec.ofNat 16 cnt)
        (BitVec.ofNat 16 (cnt / 65536)) 0 0) := by
  intro pix cnt
  obtain ⟨hsound, hi⟩ := hs
  have hquiet := (hLineRows_quiet m (s16 x) (s16 y) pix h.toNat hsound.quiet).1
  have hcount : (hLineRows m (s16 x) (s16 y) pix h.toNat s).2 = cnt := by
    rw [hLineRows_count _ _ _ _ (hsound.drawable hi), List.length_replicate]
  have hhigh : ((cnt : Int) / 2 ^ 16) = ((cnt / 65536 : Nat) : Int) := by
    push_cast
    rfl
  simp only [execDrawRect, hi, State.lacksFb_eq_false hf, u16, colour_eq_ofNat]
  rw [show List.replicate w.toNat (BitVec.ofNat 4 (color.toNat % 16)) = pix from rfl, hcount,
    State.dmaWait_eq_of_quiet hquiet, hhigh, reg16, reg16, BitVec.ofInt_natCast, BitVec.ofInt_natCast]
  rfl

/-- The pixels of a rectangle that land, by their place on the screen (R160). -/
theorem State.lands_replicate_iff (s : State) (x y : Int) (w h : Nat) (c : Nibble) (d y' : Nat) :
    (∃ r i : Nat, s.Lands x y (fun _ => List.replicate w c) h r i d y') ↔
      s.rowVisible y' = true ∧ y ≤ y' ∧ (y' : Int) < y + h ∧ ∃ i : Nat, i < w ∧ s.mapCol (x + i) = some d := by
  simp only [State.Lands, List.length_replicate]
  constructor
  · rintro ⟨r, i, hr, hi, hy, hv, hm⟩
    exact ⟨hv, by omega, by omega, i, hi, hm⟩
  · rintro ⟨hv, h0, h1, i, hi, hm⟩
    exact ⟨((y' : Int) - y).toNat, i, by omega, hi, by omega, hv, hm⟩

/-- Of the pixels of a line aimed at a column there is a last one. -/
theorem State.exists_last_landing {s : State} {x : Int} {n i d : Nat} (hi : i < n) (hm : s.mapCol (x + i) = some d) :
    ∃ i' : Nat, i' < n ∧ s.mapCol (x + i') = some d ∧ ∀ j : Nat, i' < j → j < n → s.mapCol (x + j) ≠ some d := by
  have hle := Nat.findGreatest_le (P := fun j : Nat => s.mapCol (x + j) = some d) (n - 1)
  exact ⟨Nat.findGreatest (fun j : Nat => s.mapCol (x + j) = some d) (n - 1), by omega,
    Nat.findGreatest_spec (P := fun j : Nat => s.mapCol (x + j) = some d) (show i ≤ n - 1 by omega) hm,
    fun j h1 h2 => Nat.findGreatest_is_greatest h1 (by omega)⟩

/-- Settles O38: the command leaves the buffered drawing of equal rows (`hLineRows_buffered`); at each place it hits, the
last pixel that lands there has the one colour. -/
theorem drawRectBuffered : Obligations.DrawRectBuffered := by
  intro s x y w h color hs hfb inside cnt
  have hd := hs.1.drawable hs.2
  have hinside (d y' : Nat) := s.lands_replicate_iff (s16 x) (s16 y) w.toNat h.toNat
    (BitVec.ofNat 4 (color.toNat % 16)) d y'
  have hrows := hLineRows_buffered (s16 x) (s16 y) (List.replicate w.toNat (BitVec.ofNat 4 (color.toNat % 16))) h.toNat s
  refine ⟨_, execDrawRect_ready hs (fun _ => hfb) x y w h color, (hLineRows_spec (m := .buffered) _ _ _ _ hd).1,
    fun d y' hin => ?_, fun d y' hdw hout => ?_, fun off ho => ?_⟩
  · obtain ⟨r, i, hr, hi, hy, hv, hm⟩ := (hinside d y').2 hin
    obtain ⟨i', hi', hm', hlast⟩ := State.exists_last_landing hi hm
    rw [hrows, bufferedRows_pixel hd ⟨hr, hi', hy, hv, hm'⟩ hlast, List.getD_eq_getElem _ _ hi',
      List.getElem_replicate]
  · rw [hrows]
    exact bufferedRows_pixel_other hd hdw fun r i hl => hout ((hinside d y').1 ⟨r, i, hl⟩)
  · rw [hrows]
    exact bufferedRows_fbAt_other hd fun r i d y' hl => ho d y' ((hinside d y').1 ⟨r, i, hl⟩)

/-- Settles O39: the command leaves the direct drawing of equal rows (`hLineRows_direct`), of which `directRows_drawn` says
what it may change and `directRows_dispPixel` what it shows. -/
theorem drawRectDirect : Obligations.DrawRectDirect := by
  intro s x y w h color hs inside cnt
  have hinside (d y' : Nat) := s.lands_replicate_iff (s16 x) (s16 y) w.toNat h.toNat
    (BitVec.ofNat 4 (color.toNat % 16)) d y'
  have hrows := hLineRows_direct (hs.1.drawable hs.2) (s16 x) (s16 y)
    (List.replicate w.toNat (BitVec.ofNat 4 (color.toNat % 16))) h.toNat
  have hdrawn := directRows_drawn hs (s16 x) (s16 y)
    (fun _ => List.replicate w.toNat (BitVec.ofNat 4 (color.toNat % 16))) h.toNat
  refine ⟨_, execDrawRect_ready hs (fun e => by cases e) x y w h color, hrows, hrows ▸ hdrawn.frame,
    hrows ▸ hdrawn.ready.1.quiet, fun hwrap d y' hin => ?_, fun off ho => ?_, fun y' hout => ?_⟩
  · obtain ⟨r, i, hl⟩ := (hinside d y').2 hin
    rw [hrows, directRows_dispPixel hs hwrap hl, List.getD_eq_getElem _ _ hl.2.1, List.getElem_replicate]
  · rw [hrows]
    exact hdrawn.disp off fun d y' hl => ho d y' ((hinside d y').1 hl)
  · rw [hrows]
    exact hdrawn.shadow y' fun d hl => hout d ((hinside d y').1 hl)

end Sys2Proof.Machine

/-!
SUPPORT. DRAW_IMAGE and DRAW_GLYPH (41_rasterizer.md R165, R166; 42_font_glyph.md R191, R192): the outcomes of the two
commands, and the blit of each as a drawing row by row.
-/
namespace Sys2Proof.Machine

/-! ### Blits at a command's end -/

/-- At the command's end the generic strategy has left, in direct mode, the direct drawing of the image's rows and nothing
else (R34, R166). -/
theorem blitGeneric_direct_clear {s : State} (hs : s.Ready) (x y : Int) (bw bh p : Nat) :
    (blitGeneric x y bw bh p .direct s).dmaWait.clearScratch = directRows x y (s.imageRow p bw) bh s := by
  have hline := blitGeneric_direct (hs.1.drawable hs.2) hs.1.quiet x y bw bh p []
  have hquiet : (blitGeneric x y bw bh p .direct s).xferBusy = false :=
    (congrArg State.xferBusy hline).trans (directRows_quiet hs.1.quiet x y _ bh)
  calc (blitGeneric x y bw bh p .direct s).dmaWait.clearScratch
      = (blitGeneric x y bw bh p .direct s).clearScratch := by rw [State.dmaWait_eq_of_quiet hquiet]
    _ = (directRows x y (s.imageRow p bw) bh s).clearScratch := (congrArg State.clearScratch hline :)
    _ = directRows x y (s.imageRow p bw) bh s := (directRows_drawn hs x y _ bh).ready.1.clear

/-- A blit in direct mode that takes the generic strategy is the direct drawing of the image's rows (R166). -/
theorem blitStream_direct_generic {s : State} (hs : s.Ready) {x y : Int} {bw bh p : Nat} {m : Mode} (hm : m = .direct)
    (hst : s.selectStrategy x y bw bh m = .generic) :
    (blitStream x y bw bh p m s).1.clearScratch = directRows x y (s.imageRow p bw) bh s := by
  subst hm
  rw [← blitGeneric_direct_clear hs, blitStream, hst]
  rfl

/-- What a blit has changed at the command's end (R61, R224). -/
theorem blitStream_clear_spec {s : State} (hs : s.Ready) (x y : Int) (bw bh p : Nat) (m : Mode) :
    let t := (blitStream x y bw bh p m s).1.clearScratch
    t = s.withDrawOf m t ∧ t.xferBusy = false := by
  obtain ⟨_, hframe, hquiet⟩ := blitStream_spec (m := m) x y bw bh p (hs.1.drawable hs.2) hs.1.quiet
  exact ⟨State.clearScratch_of_blit hs.1.clear hframe, hquiet⟩

/-! ### DRAW_IMAGE -/

section

variable {s : State} {m : Mode} {x y fileId : Word}

theorem execDrawImage_missing (hi : s.inited = true) (hf : m = .buffered → s.cfg.hasFb = true)
    (ha : s.assetAddr fileId s.cfg.typeBitmap = none) :
    execDrawImage m x y fileId s = .next (s.endCommand .errNotFound 0 0 0 0) := by
  simp only [execDrawImage, hi, State.lacksFb_eq_false hf, ha]
  rfl

/-- DRAW_IMAGE of a bitmap wider than the line buffer (R165). -/
theorem execDrawImage_tooWide (hi : s.inited = true) (hf : m = .buffered → s.cfg.hasFb = true) {a : Addr}
    (ha : s.assetAddr fileId s.cfg.typeBitmap = some a) (hw : s.cfg.lineCap < (s.assetField16 a.toNat).toNat) :
    execDrawImage m x y fileId s =
      .next (s.endCommand .errTooWide (s.assetField16 a.toNat) (s.assetField16 (a.toNat + 2)) 0 0) := by
  simp only [execDrawImage, hi, State.lacksFb_eq_false hf, ha, u16, gt_iff_lt, if_pos hw]
  rfl

/-- DRAW_IMAGE of a bitmap that the line buffer holds (R165). -/
theorem execDrawImage_drawn (hi : s.inited = true) (hf : m = .buffered → s.cfg.hasFb = true) {a : Addr}
    (ha : s.assetAddr fileId s.cfg.typeBitmap = some a) (hw : (s.assetField16 a.toNat).toNat ≤ s.cfg.lineCap) :
    let bw := s.assetField16 a.toNat
    let bh := s.assetField16 (a.toNat + 2)
    execDrawImage m x y fileId s =
      .next ((blitStream (s16 x) (s16 y) bw.toNat bh.toNat (a.toNat + 8) m s).1.clearScratch.endCommand .ok bw bh
        (s.selectStrategy (s16 x) (s16 y) bw.toNat bh.toNat m).number 0) := by
  simp only [execDrawImage, hi, State.lacksFb_eq_false hf, ha, u16, gt_iff_lt, if_neg (Nat.not_lt.2 hw)]
  rfl

end

/-- Settles O41: the command's three outcomes; the state that the last leaves is the blit's, at the command's end. -/
theorem drawImageCommand : Obligations.DrawImageCommand := by
  intro s m x y fileId hs hf
  refine ⟨execDrawImage_missing hs.2 hf, fun a ha => ⟨execDrawImage_tooWide hs.2 hf ha, fun hw => ?_⟩⟩
  obtain ⟨hframe, hquiet⟩ := blitStream_clear_spec hs (s16 x) (s16 y) (s.assetField16 a.toNat).toNat
    (s.assetField16 (a.toNat + 2)).toNat (a.toNat + 8) m
  exact ⟨_, execDrawImage_drawn hs.2 hf ha hw, rfl, blitStream_direct_generic hs, hframe, hquiet⟩

/-! ### DRAW_GLYPH -/

section

variable {s : State} {m : Mode} {x y cp : Word} {d : Nat} {g : Word}

/-- DRAW_GLYPH of a glyph that `DrawGlyph` refuses (R191, R272). -/
theorem execDrawGlyph_refused (hi : s.inited = true) (hf : m = .buffered → s.cfg.hasFb = true) (hfont : s.fontSel = true)
    {c : Code} (hc : c ≠ .ok) (hd : drawGlyphAt m (s16 x) (s16 y) cp s = { state := s, code := c, adv := 0 }) :
    execDrawGlyph m x y cp s = .next (s.endCommand c 0 0 0 0) := by
  simp only [execDrawGlyph, hi, State.lacksFb_eq_false hf, hfont, hd, if_neg hc]
  rfl

/-- DRAW_GLYPH of any other glyph (R191). -/
theorem execDrawGlyph_ok (hi : s.inited = true) (hf : m = .buffered → s.cfg.hasFb = true) (hfont : s.fontSel = true)
    {t : State} {adv : Int} (hd : drawGlyphAt m (s16 x) (s16 y) cp s = { state := t, code := .ok, adv := adv }) :
    execDrawGlyph m x y cp s = .next (t.clearScratch.endCommand .ok (reg16 adv) 0 0 0) := by
  simp only [execDrawGlyph, hi, State.lacksFb_eq_false hf, hfont, hd]
  rfl

theorem drawGlyphAt_notRenderable (x y : Int) (h : s.resolveGlyph cp = none) :
    drawGlyphAt m x y cp s = { state := s, code := .notRenderable, adv := 0 } := by
  unfold drawGlyphAt
  rw [h]

/-- A space draws nothing and has the advance of its record (R188, R191). -/
theorem drawGlyphAt_space (x y : Int) (h : s.resolveGlyph cp = some (d, g)) (hb : (s.glyphRec g).boff = 0xFFFFFFFF) :
    drawGlyphAt m x y cp s = { state := s, code := .ok, adv := (s.glyphRec g).advance } := by
  unfold drawGlyphAt
  rw [h]
  exact if_pos (decide_eq_true hb)

theorem Glyph.isSpace_eq_false {r : Glyph} (hb : r.boff ≠ 0xFFFFFFFF) : r.isSpace = false := decide_eq_false hb

/-- A glyph wider than the line buffer (R191). -/
theorem drawGlyphAt_tooWide (x y : Int) (h : s.resolveGlyph cp = some (d, g)) (hb : (s.glyphRec g).boff ≠ 0xFFFFFFFF)
    (hw : s.cfg.lineCap < (s.glyphRec g).width) :
    drawGlyphAt m x y cp s = { state := s, code := .errTooWide, adv := 0 } := by
  unfold drawGlyphAt
  rw [h]
  simp only [Glyph.isSpace_eq_false hb, gt_iff_lt, if_pos hw]
  rfl

/-- Any other glyph is blitted at the shifted origin (R191, R192). -/
theorem drawGlyphAt_drawn (x y : Int) (h : s.resolveGlyph cp = some (d, g)) (hb : (s.glyphRec g).boff ≠ 0xFFFFFFFF)
    (hw : (s.glyphRec g).width ≤ s.cfg.lineCap) :
    let r := s.glyphRec g
    drawGlyphAt m x y cp s =
      { state := (blitStream (x + r.xo) (y + r.yo) r.width r.height (s.fontBase.toNat + s.bitOff + r.boff.toNat) m s).1
        code := .ok
        adv := r.advance } := by
  unfold drawGlyphAt
  rw [h]
  simp only [Glyph.isSpace_eq_false hb, gt_iff_lt, if_neg (Nat.not_lt.2 hw)]
  rfl

end

/-- Settles O51: the outcomes of `DrawGlyph`; of a glyph that is drawn, the blit as a drawing row by row in either mode. -/
theorem drawGlyphCommand : Obligations.DrawGlyphCommand := by
  intro s m x y cp hs hf hfont
  refine ⟨fun h => execDrawGlyph_refused hs.2 hf hfont (by decide) (drawGlyphAt_notRenderable _ _ h), ?_⟩
  intro d g h r adv data
  refine ⟨fun hb => ?_, fun hb hw => execDrawGlyph_refused hs.2 hf hfont (by decide) (drawGlyphAt_tooWide _ _ h hb hw),
    fun hb hw => ?_⟩
  · have hexec := execDrawGlyph_ok hs.2 hf hfont (drawGlyphAt_space (m := m) (s16 x) (s16 y) h hb)
    rwa [hs.1.clear] at hexec
  · have hexec := execDrawGlyph_ok hs.2 hf hfont (drawGlyphAt_drawn (m := m) (s16 x) (s16 y) h hb hw)
    obtain ⟨hframe, hquiet⟩ := blitStream_clear_spec hs (s16 x + r.xo) (s16 y + r.yo) r.width r.height data m
    refine ⟨_, hexec, rfl, fun he => ?_, fun hm => ?_, fun hm hst => blitStream_direct_generic hs hm hst, hframe, hquiet⟩
    · rw [blitStream_empty hs _ _ _ _ he, hs.1.clear]
    · subst hm
      intro lands
      have hd := hs.1.drawable hs.2
      have hrows := blitStream_buffered_clear hd hs.1.quiet hs.1.clear (s16 x + r.xo) (s16 y + r.yo) r.width r.height data
      have hlands (k i d : Nat) (y' : Int) :
          lands k i d y' ↔ s.Lands (s16 x + r.xo) (s16 y + r.yo) (s.imageRow data r.width) r.height k i d y' := by
        unfold State.Lands
        rw [State.length_imageRow]
      simp only [hlands]
      rw [show s.fontBase.toNat + s.bitOff + (s.glyphRec g).boff.toNat = data from rfl, hrows]
      refine ⟨fun k i d y' hl hlast => ?_, fun d y' hdw hl => bufferedRows_pixel_other hd hdw hl,
        fun off ho => bufferedRows_fbAt_other hd ho⟩
      have hi := hl.2.1
      rw [State.length_imageRow] at hi
      rw [bufferedRows_pixel hd hl (by simpa using hlast), s.imageRow_getD _ k hi]

end Sys2Proof.Machine

/-!
SUPPORT. The three blit strategies leave the same state but for the events (41_rasterizer.md R168, 43_dma_streamer.md R230,
R233, R236): each is, but for the events, whole bytes written row by row.
-/
namespace Sys2Proof.Machine

/-! ### The state but for the events -/

/-- The state but for the events, the guard and the record that go with them, and the scratch memories. -/
def State.offEvents (s : State) : State :=
  { s with xferBusy := false, trace := [], stuck := none, stage0 := [], stage1 := [], line := [] }

/-- Where two blits agree but for the events, so do the states they leave at the command's end. -/
theorem State.eq_of_offEvents {t g : State} (h : t.offEvents = g.offEvents) :
    t.dmaWait.clearScratch =
      { g.dmaWait.clearScratch with
        trace := t.dmaWait.clearScratch.trace, stuck := t.dmaWait.clearScratch.stuck } :=
  calc t.dmaWait.clearScratch
      = { t.offEvents with trace := t.dmaWait.clearScratch.trace, stuck := t.dmaWait.clearScratch.stuck } := rfl
    _ = { g.offEvents with trace := t.dmaWait.clearScratch.trace, stuck := t.dmaWait.clearScratch.stuck } := by rw [h]
    _ = _ := rfl

theorem State.sendBytes_offEvents (s : State) (bs : List Byte) : (s.sendBytes bs).offEvents = s.offEvents.sendBytes bs := by
  induction bs generalizing s with
  | nil => rfl
  | cons b bs ih => exact ih (s.sendByte b)

/-- The write pointer put at a byte, without the event of doing so (R79). -/
def State.pointAt (s : State) (y b : Nat) : State := { s with wpRow := y, wpCol := b }

theorem State.pointAt_self {s : State} {y b : Nat} (hy : s.wpRow = y) (hb : s.wpCol = b) : s.pointAt y b = s := by
  subst hy hb
  rfl

/-- The bytes of a run on the display, without the run's events (R79). -/
def State.writeRun (s : State) (y b : Nat) (bs : List Byte) : State := (s.pointAt y b).sendBytes bs

theorem State.bulkStart_offEvents (s : State) (src : XferSource) (len : Nat) :
    (s.bulkStart src len).offEvents = s.offEvents.sendBytes (s.sourceBytes src len) :=
  State.sendBytes_offEvents _ _

theorem State.dispAddr_offEvents (s : State) (y b : Nat) :
    (s.dmaWait.dispAddr y b).offEvents = s.offEvents.pointAt y b := rfl

theorem State.bulkWriteRun_offEvents (s : State) (y b : Nat) (src : XferSource) (len : Nat) :
    (s.bulkWriteRun y b src len).offEvents = s.offEvents.writeRun y b (s.sourceBytes src len) := by
  have hsrc : (s.dmaWait.dispAddr y b).sourceBytes src len = s.sourceBytes src len := by
    cases src <;> rfl
  rw [State.bulkWriteRun, State.bulkStart_offEvents, State.dispAddr_offEvents, hsrc, State.writeRun]

theorem State.storeShadow_writeRun (u : State) (y b y' b' : Nat) (v : Byte) (bs : List Byte) :
    (u.storeShadow y b v).writeRun y' b' bs = (u.writeRun y' b' bs).storeShadow y b v :=
  State.sendBytes_storeShadow (u.pointAt y' b') bs y b v

/-! ### Whole bytes of a row -/

/-- `n` bytes of pixels (R62). -/
def wholeBytes (pix : Nat → Nibble) (n : Nat) : List Byte :=
  (List.range n).map fun j => pack (pix (2 * j)) (pix (2 * j + 1))

@[simp] theorem length_wholeBytes (pix : Nat → Nibble) (n : Nat) : (wholeBytes pix n).length = n := by
  simp [wholeBytes]

theorem wholeBytes_congr {pix pix' : Nat → Nibble} {n : Nat} (h : ∀ i, i < 2 * n → pix i = pix' i) :
    wholeBytes pix n = wholeBytes pix' n := by
  refine List.map_congr_left fun j hj => ?_
  rw [List.mem_range] at hj
  rw [h _ (by omega), h _ (by omega)]

/-- What `n` whole bytes of a row leave, without their events: the bytes on the display, and the row's shadow entry at the
last of them (R156, R233). -/
def State.writeRow (s : State) (y b n : Nat) (pix : Nat → Nibble) : State :=
  (s.writeRun y b (wholeBytes pix n)).storeShadow y (b + n - 1) ((wholeBytes pix n).getD (n - 1) 0)

/-- A direct run of whole bytes (R156). -/
theorem streamRun_offEvents {s : State} {y b n : Nat} {r : Run} (hy : y < s.shadow.length) (hn : 0 < n)
    (hcol : r.col = 2 * b) (hlen : r.pix.length = 2 * n) (hw : r.col + r.pix.length ≤ 65536) :
    (streamRun y s r).offEvents = s.offEvents.writeRow y b n fun i => r.pix.getD i 0 := by
  have hne : r.pix ≠ [] := List.length_pos_iff.1 (by omega)
  have hlast : (r.col + r.pix.length - 1) / 2 = b + n - 1 := by omega
  have hfirst : r.col / 2 = b := by omega
  have hcount : r.lastCol + 1 - r.col / 2 = n := by
    unfold Run.lastCol
    omega
  have hbyte (j : Nat) (hj : j < n) :
      s.sentByte y r (b + j) = pack (r.pix.getD (2 * j) 0) (r.pix.getD (2 * j + 1) 0) := by
    unfold State.sentByte
    simp only
    rw [if_pos (by omega), if_pos (by omega), show 2 * (b + j) - r.col = 2 * j by omega,
      show 2 * (b + j) + 1 - r.col = 2 * j + 1 by omega]
    rfl
  have hbytes : s.sentBytes y r = wholeBytes (fun i => r.pix.getD i 0) n := by
    rw [s.sentBytes_eq y hne, hcount, hfirst]
    exact List.map_congr_left fun j hj => hbyte j (List.mem_range.1 hj)
  have hlastByte : s.sentByte y r (b + n - 1) = (wholeBytes (fun i => r.pix.getD i 0) n).getD (n - 1) 0 := by
    rw [show b + n - 1 = b + (n - 1) by omega, hbyte (n - 1) (by omega)]
    simp [wholeBytes, hn]
  rw [streamRun_eq hy hne hw, hlast, hlastByte, hbytes, hfirst]
  exact congrArg (State.storeShadow · y _ _) (State.sendBytes_offEvents _ _)

/-! ### Rows without wrap -/

/-- The pixels left of the screen make no run. -/
theorem State.piece_before {s : State} {pix : List Nibble} {x k : Int} (h : x + k + pix.length ≤ 0) :
    s.piece pix x k = [] := by
  have hn : (min (x + k + pix.length) (min (s.width : Int) (s16 s.maxTextX)) - max (x + k) 0).toNat = 0 := by omega
  simp [State.piece, State.segment, hn]

/-- A line on the screen, or right of its left edge without wrap, has at most one run (R155). -/
theorem State.runs_unwrapped {s : State} {pix : List Nibble} {x : Int} (hx : 0 ≤ x)
    (h : x + pix.length ≤ s.width ∨ s.wrap = false) : s.runs pix x = s.piece pix x 0 := by
  rw [s.runs_eq_pieces]
  unfold State.shifts
  split
  · rename_i hw
    have hfit : x + pix.length ≤ s.width := h.resolve_right (by simp [hw])
    simp [State.piece_past (s := s) (pix := pix) (x := x) (k := s.width) (by omega),
      State.piece_before (s := s) (pix := pix) (x := x) (k := -s.width) (by omega)]
  · simp

/-- What the aligned strategy asks of a bitmap, as the full-screen strategy does too (R167). -/
structure State.Aligned (s : State) (x : Int) (bw : Nat) : Prop where
  start : 0 ≤ x
  even : x % 2 = 0
  width : bw % 2 = 0
  margin : s16 s.maxTextX % 2 = 0
  unwrapped : x + bw ≤ s.width ∨ s.wrap = false

/-- The runs of an aligned row: its whole bytes left of the margin and the screen's edge, where there are such bytes. -/
theorem State.Aligned.runs {s : State} {x : Int} {bw : Nat} (h : s.Aligned x bw) (hw : s.width % 2 = 0)
    {pix : List Nibble} (hlen : pix.length = bw) :
    s.runs pix x = if 0 < s.alignedBytes x bw then
      [{ col := 2 * (x / 2).toNat, pix := pix.take (2 * s.alignedBytes x bw) }] else [] := by
  obtain ⟨h0, h1, h2, h3, h4⟩ := h
  rw [State.runs_unwrapped h0 (by rwa [hlen])]
  have hend : min (x + 0 + bw) (min (s.width : Int) (s16 s.maxTextX)) = s.alignedEnd x bw := by
    rw [State.alignedEnd, add_zero, min_comm (s.width : Int), min_assoc]
  have heven : s.alignedEnd x bw % 2 = 0 := by
    unfold State.alignedEnd
    omega
  have hcount : (s.alignedEnd x bw - max (x + 0) 0).toNat = 2 * s.alignedBytes x bw := by
    unfold State.alignedBytes
    omega
  have hcol : (max (x + 0) 0).toNat = 2 * (x / 2).toNat := by omega
  have hdrop : (max (x + 0) 0 - (x + 0)).toNat = 0 := by omega
  simp only [State.piece, State.segment, hlen, hend, hcount, hcol, hdrop, List.drop_zero]
  have hle := s.two_alignedBytes_le x bw
  split
  · have hne : pix.take (2 * s.alignedBytes x bw) ≠ [] := List.length_pos_iff.1 (by rw [List.length_take]; omega)
    simp [hne]
  · simp [show s.alignedBytes x bw = 0 by omega]

/-- An aligned row of an image drawn directly, in a row of the screen (R156, R233). -/
theorem State.Aligned.lineRuns_offEvents {s t : State} {x : Int} {bw : Nat} (h : s.Aligned x bw) (hs : s.Drawable)
    (hk : Kept s t) {y : Nat} (hy : y < s.height) (p r : Nat) :
    ((s.runs (s.imageRow p bw r) x).foldl (streamRun y) t).offEvents =
      if 0 < s.alignedBytes x bw then
        t.offEvents.writeRow y (x / 2).toNat (s.alignedBytes x bw) fun i => s.pixelStream p (r * bw + i)
      else t.offEvents := by
  have he : s.width % 2 = 0 := hs.geometry.2.1
  have hmax : s.width < 65536 := s.geomW.isLt
  rw [h.runs he (s.length_imageRow p bw r)]
  split
  · rename_i hn
    have hb := State.alignedBytes_bounds h.start he hn
    have hle := s.two_alignedBytes_le x bw
    have hrow : y < t.shadow.length := by
      rw [(hk.shadow hs.shadow).1, hk.height]
      exact hy
    have hlen : ((s.imageRow p bw r).take (2 * s.alignedBytes x bw)).length = 2 * s.alignedBytes x bw := by
      rw [List.length_take, State.length_imageRow]
      omega
    unfold State.bpr at hb
    rw [List.foldl_cons, List.foldl_nil, streamRun_offEvents hrow hn rfl hlen (by simp only [hlen]; omega)]
    have hpix : wholeBytes (fun i => ((s.imageRow p bw r).take (2 * s.alignedBytes x bw)).getD i 0)
        (s.alignedBytes x bw) = wholeBytes (fun i => s.pixelStream p (r * bw + i)) (s.alignedBytes x bw) := by
      refine wholeBytes_congr fun i hi => ?_
      rw [← s.imageRow_getD p r (show i < bw by omega), List.getD_eq_getElem?_getD, List.getElem?_take, if_pos hi,
        List.getD_eq_getElem?_getD]
    unfold State.writeRow
    rw [hpix]
  · rfl

/-! ### The aligned strategy -/

/-- Bytes filled into a staging buffer that holds them are what a transfer from it sends (R75, R233). -/
theorem State.sourceBytes_setStage (s : State) (k : Nat) {bs : List Byte} (h : bs.length ≤ s.cfg.stageSize) :
    (s.setStage k bs).sourceBytes (.stage k) bs.length = bs := by
  rw [State.sourceBytes, State.stage_setStage k h, take_overlay]

/-- A transfer of bytes just staged in a buffer that holds them, and the store of the last of them in the row's shadow entry
(R233). -/
theorem State.stagedRow_offEvents (s : State) (y b k : Nat) {bs : List Byte} (h0 : 0 < bs.length)
    (h : bs.length ≤ s.cfg.stageSize) :
    let t := (s.setStage k bs).bulkWriteRun y b (.stage k) bs.length
    (t.storeShadow y (b + bs.length - 1) ((t.stage k).getD (bs.length - 1) 0)).offEvents =
      (s.offEvents.writeRun y b bs).storeShadow y (b + bs.length - 1) (bs.getD (bs.length - 1) 0) := by
  intro t
  have hstage : t.stage k = overlay bs (s.stage k) := by
    rw [← State.stage_setStage k h, show t = (s.setStage k bs).withDispOf t from State.bulkWriteRun_frame ..]
    rfl
  have hwrite : t.offEvents = s.offEvents.writeRun y b bs := by
    rw [State.bulkWriteRun_offEvents, s.sourceBytes_setStage k h]
    rfl
  rw [hstage, getD_overlay (by omega), ← hwrite]
  rfl

/-- A row of the aligned strategy (R233). -/
theorem blitAlignedRow_offEvents {x y : Int} {t : State} (ht : t.Drawable) (hx : 0 ≤ x) (bw p k r : Nat) :
    (blitAlignedRow x y bw p (t, k) r).1.offEvents =
      if t.rowVisible (y + r) = true ∧ 0 < t.alignedBytes x bw then
        t.offEvents.writeRow (y + r).toNat (x / 2).toNat (t.alignedBytes x bw) fun i => t.pixelStream p (r * bw + i)
      else t.offEvents := by
  generalize hn : t.alignedBytes x bw = n
  have hle : 2 * n ≤ bw := hn ▸ t.two_alignedBytes_le x bw
  have hfit : n ≤ t.cfg.stageSize := hn ▸ State.alignedBytes_le_stageSize bw hx ht.geometry
  have hbytes : wholeBytes ((t.setLine (t.streamRow p (r * bw) bw)).line.getD · 0) n =
      wholeBytes (fun i => t.pixelStream p (r * bw + i)) n := by
    refine wholeBytes_congr fun i hi => ?_
    have hi' : i < (t.streamRow p (r * bw) bw).length := by
      rw [State.streamRow, List.length_map, List.length_range]
      omega
    rw [← t.imageRow_getD p r (show i < bw by omega)]
    exact getD_overlay hi' 0
  have hrow := (t.setLine (t.streamRow p (r * bw) bw)).stagedRow_offEvents (y + r).toNat (x / 2).toNat k
    (bs := wholeBytes ((t.setLine (t.streamRow p (r * bw) bw)).line.getD · 0) n)
  rw [length_wholeBytes] at hrow
  have hvis : (t.setLine (t.streamRow p (r * bw) bw)).rowVisible (y + r) = t.rowVisible (y + r) := rfl
  unfold blitAlignedRow
  simp only [hvis, show (t.setLine (t.streamRow p (r * bw) bw)).alignedBytes x bw = n from hn]
  by_cases hv : t.rowVisible (y + r) = true ∧ 0 < n
  · rw [if_pos hv, if_pos hv]
    refine (hrow hv.2 hfit).trans ?_
    rw [hbytes]
    rfl
  · rw [if_neg hv, if_neg hv]
    rfl

/-- The aligned strategy leaves, but for the events, the direct drawing of the image's rows (R168, R236). -/
theorem blitAligned_offEvents {s : State} (hs : s.Ready) {x : Int} {bw : Nat} (h : s.Aligned x bw) (y : Int)
    (bh p : Nat) :
    (blitAligned x y bw bh p s).offEvents = (directRows x y (s.imageRow p bw) bh s).offEvents := by
  have hd := hs.1.drawable hs.2
  unfold blitAligned
  induction bh with
  | zero => rfl
  | succ n ih =>
    have hk : Kept s ((List.range n).foldl (blitAlignedRow x y bw p) (s, 0)).1 := blitAligned_kept y bw n p hd h.start
    have hdrawn := directRows_drawn hs x y (s.imageRow p bw) n
    rw [List.range_succ, List.foldl_append, List.foldl_cons, List.foldl_nil, directRows_succ]
    generalize (List.range n).foldl (blitAlignedRow x y bw p) (s, 0) = acc at *
    obtain ⟨t, k⟩ := acc
    rw [blitAlignedRow_offEvents (hk.drawable hd) h.start, hk.rowVisible, hk.alignedBytes, ih]
    simp only [hk.pixelStream]
    by_cases hv : s.rowVisible (y + n) = true
    · have hy := (State.rowVisible_bounds hd.window hv).2.2
      simp only [hv, true_and, if_true]
      exact (h.lineRuns_offEvents hd hdrawn.kept hy p n).symm
    · simp only [hv, Bool.false_eq_true, false_and, if_false]

/-! ### The full-screen strategy -/

/-- Bytes that fill whole rows from the top leave the write pointer at the start of the next row, where a run of that row
would put it (R79). -/
theorem State.writeRun_nextRow {u : State} (hb : 0 < u.bpr) {n : Nat} {bs : List Byte} (h : bs.length = n * u.bpr)
    (cs : List Byte) : (u.writeRun 0 0 bs).writeRun n 0 cs = u.writeRun 0 0 (bs ++ cs) := by
  obtain ⟨_, hcol, hnext, _⟩ := State.sendBytes_spec (u.pointAt 0 0) bs hb
  have hpos : u.offset (u.writeRun 0 0 bs).wpRow (u.writeRun 0 0 bs).wpCol = u.offset n 0 := by
    refine hnext.trans ?_
    rw [h]
    simp [State.offset, State.pointAt]
  obtain ⟨hrow, hstart⟩ := (State.offset_inj (s := u) hcol hb).1 hpos
  calc (u.writeRun 0 0 bs).writeRun n 0 cs
      = (u.writeRun 0 0 bs).sendBytes cs := by rw [State.writeRun, State.pointAt_self hrow hstart]
    _ = u.writeRun 0 0 (bs ++ cs) := (State.sendBytes_append _ bs cs).symm

/-- A fold of shadow stores and a run of bytes do not meet. -/
theorem storeShadow_fold_writeRun (l : List Nat) (b y c : Nat) (v : Nat → Byte) (u : State) (bs : List Byte) :
    (l.foldl (fun t yy => t.storeShadow yy b (v yy)) u).writeRun y c bs =
      l.foldl (fun t yy => t.storeShadow yy b (v yy)) (u.writeRun y c bs) := by
  induction l generalizing u with
  | nil => rfl
  | cons yy l ih => rw [List.foldl_cons, ih, List.foldl_cons, State.storeShadow_writeRun]

/-- What the first `n` rows of a full-screen stream leave, but for the events: their bytes in order, and in the shadow entry
of each of these rows its last byte (R230). -/
def State.fullRows (s : State) (p n : Nat) : State :=
  (List.range n).foldl (fun t yy => t.storeShadow yy (s.bpr - 1) (s.lastByte p yy))
    (s.offEvents.writeRun 0 0 (s.screenBytes p (n * s.bpr)))

/-- The bytes of row `n` of a screen (R230). -/
theorem State.screenBytes_succ_row {s : State} (he : s.width % 2 = 0) (p n : Nat) :
    s.screenBytes p ((n + 1) * s.bpr) =
      s.screenBytes p (n * s.bpr) ++ wholeBytes (fun i => s.pixelStream p (n * s.width + i)) s.bpr := by
  have hw : s.width = 2 * s.bpr := by
    unfold State.bpr
    omega
  unfold State.screenBytes wholeBytes State.screenByte
  rw [Nat.add_mul, Nat.one_mul, List.range_add, List.map_append, List.map_map]
  congr 1
  refine List.map_congr_left fun j _ => ?_
  have hpos : 2 * (n * s.bpr + j) = n * s.width + 2 * j := by
    rw [hw]
    ring
  simp only [Function.comp, hpos, Nat.add_assoc]

/-- The last byte of row `n` of a screen (R230). -/
theorem State.lastByte_eq {s : State} (hg : s.geometryOk) (p n : Nat) :
    s.lastByte p n = (wholeBytes (fun i => s.pixelStream p (n * s.width + i)) s.bpr).getD (s.bpr - 1) 0 := by
  have hb := hg.bpr_pos
  obtain ⟨_, he, _⟩ := hg
  have hw : s.width = 2 * s.bpr := by
    unfold State.bpr
    omega
  have h1 : n * s.width + s.width - 2 = n * s.width + 2 * (s.bpr - 1) := by omega
  have h2 : n * s.width + s.width - 1 = n * s.width + (2 * (s.bpr - 1) + 1) := by omega
  rw [State.lastByte, h1, h2]
  simp [wholeBytes, hb]

/-- One more row of a full-screen stream. -/
theorem State.fullRows_succ {s : State} (hg : s.geometryOk) (p n : Nat) :
    s.fullRows p (n + 1) =
      (s.fullRows p n).writeRow n 0 s.bpr fun i => s.pixelStream p (n * s.width + i) := by
  have hlen : (s.screenBytes p (n * s.bpr)).length = n * s.bpr := s.length_screenBytes p _
  unfold State.fullRows State.writeRow
  rw [List.range_succ, List.foldl_append, storeShadow_fold_writeRun,
    State.writeRun_nextRow (u := s.offEvents) hg.bpr_pos hlen, ← State.screenBytes_succ_row hg.2.1, Nat.zero_add,
    ← State.lastByte_eq hg]
  rfl

/-- The direct drawing of an image that covers the screen leaves, but for the events, all its rows (R230, R236). -/
theorem directRows_fullScreen {s : State} (hs : s.Ready) (p : Nat) (h0 : s16 s.minDispY = 0)
    (h1 : s16 s.maxDispY = s.height) (h2 : s16 s.maxTextX = s.width) {n : Nat} (hn : n < s.height) :
    (directRows 0 0 (s.imageRow p s.width) (n + 1) s).offEvents = s.fullRows p (n + 1) := by
  have hd := hs.1.drawable hs.2
  have hg := hd.geometry
  have he := hg.2.1
  have haligned : s.Aligned 0 s.width := ⟨le_rfl, rfl, he, by omega, .inl (by omega)⟩
  have hnb : s.alignedBytes 0 s.width = s.bpr := by
    unfold State.alignedBytes State.alignedEnd State.bpr
    omega
  have hstep (k : Nat) (hk : k < s.height) :
      (directRows 0 0 (s.imageRow p s.width) (k + 1) s).offEvents =
        (directRows 0 0 (s.imageRow p s.width) k s).offEvents.writeRow k 0 s.bpr
          fun i => s.pixelStream p (k * s.width + i) := by
    have hv : s.rowVisible (0 + k) = true := (s.rowVisible_iff _).2 ⟨by omega, by omega⟩
    have hrow := haligned.lineRuns_offEvents hd (directRows_drawn hs 0 0 (s.imageRow p s.width) k).kept hk p k
    rw [hnb, if_pos hg.bpr_pos] at hrow
    rw [directRows_succ, if_pos hv, show ((0 : Int) + k).toNat = k by omega, hrow]
    rfl
  induction n with
  | zero =>
    have hnone : s.fullRows p 0 = s.offEvents.pointAt 0 0 := by
      simp [State.fullRows, State.writeRun, State.screenBytes, State.sendBytes]
    rw [hstep 0 hn, State.fullRows_succ hg, hnone]
    rfl
  | succ n ih => rw [hstep (n + 1) hn, ih (by omega), ← State.fullRows_succ hg]

/-- The chunks of a full-screen stream, all sent, are the screen's bytes in order (R222, R230). -/
theorem ChunkState.offEvents {p : Nat} {s t : State} (h : ChunkState p s t s.chunkCount) (hpos : 0 < s.chunkCount) :
    t.offEvents = s.offEvents.writeRun 0 0 (s.screenBytes p (s.height * s.bpr)) := by
  have hside := h.sent hpos
  rw [if_neg (lt_irrefl _)] at hside
  have hsent := State.sendBytes_frame (s.dispAddr 0 0) (s.screenBytes p (s.height * s.bpr))
  have hwrite : s.offEvents.writeRun 0 0 (s.screenBytes p (s.height * s.bpr)) =
      ((s.dispAddr 0 0).sendBytes (s.screenBytes p (s.height * s.bpr))).offEvents := by
    rw [State.sendBytes_offEvents]
    rfl
  generalize (s.dispAddr 0 0).sendBytes (s.screenBytes p (s.height * s.bpr)) = u at *
  rw [hwrite, hsent, ← hside.disp, ← hside.wpRow, ← hside.wpCol, h.frame]
  rfl

/-- The full-screen strategy leaves, but for the events, all rows of its stream (R230). -/
theorem blitFullScreen_offEvents {s : State} (hs : s.Drawable) (hf : 0 < s.cfg.fsChunk) (p : Nat) :
    (blitFullScreen p s).offEvents = s.fullRows p s.height := by
  obtain ⟨t, hchunks, heq⟩ := blitFullScreen_eq p hs hf
  have hlen : t.offEvents.shadow.length = s.height := by
    show t.shadow.length = s.height
    rw [(hchunks.kept.shadow hs.shadow).1, hchunks.kept.height]
  rw [State.fullRows, ← hchunks.offEvents (State.chunkCount_pos hs.geometry hf),
    storeShadow_fold _ _ _ hlen.ge, ← hlen, List.drop_length, List.append_nil, hlen, heq]
  rfl

/-! ### The three strategies -/

/-- Every strategy leaves, but for the events, what the generic strategy leaves (R168, R236). -/
theorem blitBy_offEvents {s : State} (hs : s.Ready) (hf : 0 < s.cfg.fsChunk) (x y : Int) (bw bh p : Nat) (m : Mode) :
    (blitBy (s.selectStrategy x y bw bh m) x y bw bh p m s).offEvents = (blitGeneric x y bw bh p m s).offEvents := by
  have hd := hs.1.drawable hs.2
  have hgeneric : (blitGeneric x y bw bh p .direct s).offEvents =
      (directRows x y (s.imageRow p bw) bh s).offEvents :=
    (congrArg State.offEvents (blitGeneric_direct hd hs.1.quiet x y bw bh p []) :)
  rcases s.selectStrategy_cases x y bw bh m with ⟨h, rfl, _, rfl, rfl, rfl, rfl, h0, h1, h2⟩ |
    ⟨h, rfl, _, _, _, hbw, hx, hmargin, hx0, hfit⟩ | h
  · obtain ⟨n, hn⟩ : ∃ n, s.height = n + 1 := Nat.exists_eq_succ_of_ne_zero hd.geometry.2.2.2.1.ne'
    rw [h, hgeneric]
    refine (blitFullScreen_offEvents hd hf p).trans ?_
    rw [hn, directRows_fullScreen hs p h0 h1 h2 (by omega)]
  · rw [h, hgeneric]
    exact blitAligned_offEvents hs ⟨hx0, hx, hbw, hmargin, hfit⟩ y bh p
  · rw [h]
    rfl

/-- Settles O43: at the command's end each strategy has left what the generic one has, but for the events
(`blitBy_offEvents`). -/
theorem strategyEquivalence : Obligations.StrategyEquivalence := by
  intro s x y bw bh p m hs hf t g
  have heq : t = { g with trace := t.trace, stuck := t.stuck } :=
    State.eq_of_offEvents (blitBy_offEvents hs hf x y bw bh p m)
  refine ⟨heq, ?_, ?_, ?_⟩
  all_goals rw [heq]

end Sys2Proof.Machine

/-!
SUPPORT. Looking up a glyph and measuring it (42_font_glyph.md R180, R184 to R189): the interval scan by its slots, the two
fallback paths, the outcomes of GLYPH_LOOKUP and MEASURE, and what every font command does with no font selected.
-/
namespace Sys2Proof.Machine

/-! ### The interval scan -/

/-- Slot `i` is the first that contains the codepoint, and `d` the described index it gives (R184). -/
def DescribedBy (l : List Interval) (cp : Word) (d i : Nat) (e : Interval) : Prop :=
  l[i]? = some e ∧ e.contains cp ∧ (∀ j e', j < i → l[j]? = some e' → ¬e'.contains cp) ∧
    d = ((l.take i).map fun e => e.length).sum + (cp.toNat - e.first.toNat)

theorem describedBy_zero {e e' : Interval} {l : List Interval} {cp : Word} {d : Nat} :
    DescribedBy (e :: l) cp d 0 e' ↔ e = e' ∧ e.contains cp ∧ d = cp.toNat - e.first.toNat := by
  unfold DescribedBy
  constructor
  · rintro ⟨he, hc, _, hd⟩
    obtain rfl : e = e' := by simpa using he
    exact ⟨rfl, hc, by simpa using hd⟩
  · rintro ⟨rfl, hc, hd⟩
    exact ⟨rfl, hc, by simp, by simpa using hd⟩

/-- A slot after the first is the first to contain the codepoint among those behind it, and the first slot's length goes
on top. -/
theorem describedBy_succ {e e' : Interval} {l : List Interval} {cp : Word} {d i : Nat} :
    DescribedBy (e :: l) cp d (i + 1) e' ↔
      ¬e.contains cp ∧ ∃ d', DescribedBy l cp d' i e' ∧ d = e.length + d' := by
  unfold DescribedBy
  constructor
  · rintro ⟨he, hc, hfirst, hd⟩
    refine ⟨hfirst 0 e (Nat.succ_pos i) rfl, _, ⟨he, hc, fun j u hj hu => hfirst (j + 1) u (by omega) hu, rfl⟩, ?_⟩
    rw [hd, List.take_succ_cons, List.map_cons, List.sum_cons, Nat.add_assoc]
  · rintro ⟨hne, d', ⟨he, hc, hfirst, rfl⟩, rfl⟩
    refine ⟨he, hc, fun j u hj hu => ?_, ?_⟩
    · cases j with
      | zero =>
        obtain rfl : e = u := by simpa using hu
        exact hne
      | succ j => exact hfirst j u (by omega) hu
    · rw [List.take_succ_cons, List.map_cons, List.sum_cons, Nat.add_assoc]

/-- The scan answers what its first containing slot gives (R184). -/
theorem intervalScan_eq_some {l : List Interval} {cp : Word} {d : Nat} :
    intervalScan l 0 cp = some d ↔ ∃ i e, DescribedBy l cp d i e := by
  classical
  induction l generalizing d with
  | nil => simp [intervalScan, DescribedBy]
  | cons e l ih =>
    rw [intervalScan_cons, Nat.zero_add, Nat.zero_add]
    split
    · rename_i hc
      constructor
      · intro h
        exact ⟨0, e, describedBy_zero.2 ⟨rfl, hc, by simpa using h.symm⟩⟩
      · rintro ⟨i, e', h⟩
        cases i with
        | zero =>
          obtain ⟨_, _, rfl⟩ := describedBy_zero.1 h
          rfl
        | succ i => exact absurd hc (describedBy_succ.1 h).1
    · rename_i hc
      rw [intervalScan_offset, Option.map_eq_some_iff]
      constructor
      · rintro ⟨d', h, rfl⟩
        obtain ⟨i, e', h⟩ := ih.1 h
        exact ⟨i + 1, e', describedBy_succ.2 ⟨hc, d', h, rfl⟩⟩
      · rintro ⟨i, e', h⟩
        cases i with
        | zero => exact absurd (describedBy_zero.1 h).2.1 hc
        | succ i =>
          obtain ⟨_, d', htail, rfl⟩ := describedBy_succ.1 h
          exact ⟨d', ih.2 ⟨i, e', htail⟩, rfl⟩

/-! ### Glyph resolution -/

/-- A glyph resolves through its described index where it has one (R185). -/
theorem State.resolveGlyph_eq {s : State} {cp : Word} {d : Nat} (h : s.describedIndex cp = some d) :
    s.resolveGlyph cp =
      (s.resolveIndex d).bind fun r => if s.fontTotal.toNat ≤ r.2.toNat then none else some r := by
  simp only [State.resolveGlyph, h]
  cases s.resolveIndex d with
  | none => rfl
  | some r => rfl

theorem State.describedIndex_inside {s : State} {cp : Word} {d : Nat} (h : s.intervalIndex cp = some d) :
    s.describedIndex cp = some d := by
  unfold State.describedIndex
  rw [h]

/-- Path A looks for the question mark instead (R185). -/
theorem State.describedIndex_outside {s : State} {cp : Word} (h : s.intervalIndex cp = none) (hq : s.qmark = true) :
    s.describedIndex cp = s.intervalIndex questionMark := by
  simp [State.describedIndex, h, hq]

theorem State.resolveIndex_sentinel {s : State} {d : Nat} (h : s.indexEntry d = indexSentinel) :
    s.resolveIndex d = s.resolveSentinel := if_pos h

/-- Path B resolves the question mark, whose own sentinel entry gives no glyph (R185). -/
theorem State.resolveSentinel_supported {s : State} {d : Nat} (hq : s.qmark = true)
    (h : s.intervalIndex questionMark = some d) : s.resolveSentinel = s.resolveIndex d := by
  unfold State.resolveIndex
  split
  · rfl
  · rename_i he
    simp [State.resolveSentinel, hq, h, he]

/-- Path B where the question mark's own entry is the sentinel (R185). -/
theorem State.resolveSentinel_of_questionMark {s : State} {d : Nat} (h : s.intervalIndex questionMark = some d)
    (he : s.indexEntry d = indexSentinel) : s.resolveSentinel = none := by
  simp [State.resolveSentinel, h, he]

/-- With fallback support the question mark lies in an interval (R182). -/
theorem State.Sound.questionMark_inside {s : State} (h : s.Sound) (hq : s.qmark = true) :
    ∃ d, s.intervalIndex questionMark = some d := by
  have hsel := h.question
  rw [hq, eq_comm, Bool.and_eq_true] at hsel
  exact Option.isSome_iff_exists.1 hsel.2

/-- Path A: a codepoint in no interval (R185). -/
theorem State.Sound.resolveGlyph_pathA {s : State} (h : s.Sound) {cp : Word} (hn : s.intervalIndex cp = none) :
    s.resolveGlyph cp = if s.qmark then s.resolveGlyph questionMark else none := by
  cases hq : s.qmark with
  | false => exact State.resolveGlyph_outside hn hq
  | true =>
    obtain ⟨d, hd⟩ := h.questionMark_inside hq
    rw [if_pos rfl, State.resolveGlyph_eq ((State.describedIndex_outside hn hq).trans hd),
      State.resolveGlyph_eq (State.describedIndex_inside hd)]

/-- Path B: a codepoint with a sentinel entry (R185). -/
theorem State.Sound.resolveGlyph_pathB {s : State} (h : s.Sound) {cp : Word} {d : Nat}
    (hd : s.intervalIndex cp = some d) (he : s.indexEntry d = indexSentinel) :
    s.resolveGlyph cp = if s.qmark then s.resolveGlyph questionMark else none := by
  rw [State.resolveGlyph_eq (State.describedIndex_inside hd), State.resolveIndex_sentinel he]
  cases hq : s.qmark with
  | false =>
    rw [State.resolveSentinel_unsupported hq]
    rfl
  | true =>
    obtain ⟨q, hmark⟩ := h.questionMark_inside hq
    rw [if_pos rfl, State.resolveSentinel_supported hq hmark,
      State.resolveGlyph_eq (State.describedIndex_inside hmark)]

/-- Settles O48: a described glyph, and the two fallback paths. -/
theorem glyphResolution : Obligations.GlyphResolution := by
  intro s cp hs
  refine ⟨fun d => s.indexEntry_beyond, fun d hd => if_neg (Nat.not_le.2 hd), fun d hd he => ?_,
    hs.resolveGlyph_pathA, fun d hd he => hs.resolveGlyph_pathB hd he, fun d hd he => ?_⟩
  · rw [State.resolveGlyph_described hd he]
    simp only [← Nat.not_le, ite_not]
  · rw [State.resolveGlyph_eq (State.describedIndex_inside hd), State.resolveIndex_sentinel he,
      State.resolveSentinel_of_questionMark hd he]
    rfl

/-! ### The checks before a font command -/

section

variable {s : State} {m : Mode} {n : Word}

/-- A drawing command passes the checks for an INIT and for a framebuffer (R274, R275). -/
theorem drawing_checks_pass (hi : s.inited = true) (hf : m = .buffered → s.cfg.hasFb = true) (r : Result) :
    (if !s.inited then failZero .errNotInit s else if s.lacksFb m then failZero .errUnsupported s else r) = r := by
  simp [hi, State.lacksFb_eq_false hf]

/-- A string the part accepts passes the check of its length (R103). -/
theorem length_check_passes (h : n.toNat ≤ s.cfg.strCap) (r : Result) :
    (if u16 n > s.cfg.strCap then failZero .errOperand s else r) = r := if_neg (Nat.not_lt.2 h)

/-- A command that draws nothing passes the check for an INIT (R274). -/
theorem init_check_passes (hi : s.inited = true) (r : Result) :
    (if !s.inited then failZero .errNotInit s else r) = r := by
  simp [hi]

theorem font_check_passes (h : s.fontSel = true) (r : Result) :
    (if !s.fontSel then failZero .errNoFont s else r) = r := by
  simp [h]

/-- With no font selected a command ends at the font check (R180). -/
theorem font_check_fails (h : s.fontSel = false) (r : Result) :
    (if !s.fontSel then failZero .errNoFont s else r) = .next (s.endCommand .errNoFont 0 0 0 0) := by
  simp only [h]
  rfl

end

/-- Settles O21: in each of the six commands the font check comes after checks that the premises pass (R180, R276). -/
theorem noFontSelected : Obligations.NoFontSelected := by
  intro i s hi hsel hfont hfb hlong
  have hmode (hd : i.opcode ∈ drawingOpcodes) (hm : i.mode = .buffered) : s.cfg.hasFb = true := hfb (.inr ⟨hd, hm⟩)
  cases i with
  | glyphLookup cp => exact (init_check_passes hi _).trans (font_check_fails hsel _)
  | measure cp => exact (init_check_passes hi _).trans (font_check_fails hsel _)
  | drawGlyph m x y cp =>
    have hm := hmode (by simp [Instr.opcode, drawingOpcodes])
    exact (drawing_checks_pass hi hm _).trans (font_check_fails hsel _)
  | putChar m cp =>
    have hm := hmode (by simp [Instr.opcode, drawingOpcodes])
    exact (drawing_checks_pass hi hm _).trans (font_check_fails hsel _)
  | putString m n cs =>
    have hm := hmode (by simp [Instr.opcode, drawingOpcodes])
    exact ((drawing_checks_pass hi hm _).trans (length_check_passes (Nat.not_lt.1 hlong) _)).trans
      (font_check_fails hsel _)
  | putStringXy m j x y n cs =>
    have hm := hmode (by simp [Instr.opcode, drawingOpcodes])
    exact ((drawing_checks_pass hi hm _).trans (length_check_passes (Nat.not_lt.1 hlong) _)).trans
      (font_check_fails hsel _)
  | _ => simp [Instr.opcode, fontOpcodes] at hfont

/-! ### GLYPH_LOOKUP and MEASURE -/

/-- Settles O49: the two outcomes of the lookup. -/
theorem glyphLookupCommand : Obligations.GlyphLookupCommand := by
  intro s cp hi hfont
  refine ⟨fun h => ((init_check_passes hi _).trans (font_check_passes hfont _)).trans ?_, fun d g h =>
    ((init_check_passes hi _).trans (font_check_passes hfont _)).trans ?_⟩
  · rw [h]
    rfl
  · rw [h]
    simp only [reg16, BitVec.ofInt_natCast]
    rfl

/-- A character is measured by the glyph it resolves to (R189). -/
theorem State.measure_eq_some {s : State} {cp : Word} {mt : Metrics} :
    s.measure cp = some mt ↔ ∃ d g, s.resolveGlyph cp = some (d, g) ∧ (s.glyphRec g).metrics = mt := by
  rw [State.measure, Option.map_eq_some_iff, Prod.exists]

theorem State.measure_eq_none {s : State} {cp : Word} : s.measure cp = none ↔ s.resolveGlyph cp = none :=
  Option.map_eq_none_iff

theorem Glyph.metrics_space {r : Glyph} (h : r.boff = spaceSentinel) : r.metrics = { adv := r.width, rh := 0 } :=
  if_pos (decide_eq_true h)

theorem Glyph.metrics_drawn {r : Glyph} (h : r.boff ≠ spaceSentinel) :
    r.metrics = { adv := r.advance, rh := r.yo + r.height } := by
  unfold Glyph.metrics
  rw [Glyph.isSpace_eq_false h]
  rfl

/-- MEASURE of a character that has a measure (R189). -/
theorem execMeasure_measured {s : State} {cp : Word} {mt : Metrics} (hi : s.inited = true) (hfont : s.fontSel = true)
    (h : s.measure cp = some mt) : execMeasure cp s = .next (s.endCommand .ok (reg16 mt.adv) (reg16 mt.rh) 0 0) := by
  refine ((init_check_passes hi _).trans (font_check_passes hfont _)).trans ?_
  rw [h]
  rfl

/-- Settles O50: the two outcomes of the measure, and the metrics of a space and of any other glyph. -/
theorem measureCommand : Obligations.MeasureCommand := by
  intro s cp hi hfont
  refine ⟨fun h => ((init_check_passes hi _).trans (font_check_passes hfont _)).trans ?_, fun d g h => ?_⟩
  · rw [State.measure_eq_none.2 h]
    rfl
  · intro a off space
    refine (execMeasure_measured hi hfont (State.measure_eq_some.2 ⟨d, g, h, rfl⟩)).trans ?_
    by_cases hsp : space
    · rw [if_pos hsp, if_pos hsp, Glyph.metrics_space hsp]
      simp only [reg16, BitVec.ofInt_natCast]
      rfl
    · rw [if_neg hsp, if_neg hsp, Glyph.metrics_drawn hsp]
      rfl

end Sys2Proof.Machine

namespace Sys2Proof

open Machine

/-- Settles O47: the scan by its first containing slot (`intervalScan_eq_some`). -/
theorem intervalScan : Obligations.IntervalScan :=
  fun _ _ _ => intervalScan_eq_some

end Sys2Proof

/-!
SUPPORT. One layout step (42_font_glyph.md R193, R196, R197): its outcomes, one equation each, what a step that goes on has
done, and PUT_CHAR.
-/
namespace Sys2Proof.Machine

/-! ### Where a glyph may go -/

section

variable {s u : State} {mt : Metrics}

/-- A glyph past the right bound stops the layout where there is neither a wrap nor room for a part of it (R193). -/
theorem State.checkRight_stops (hwide : s16 s.maxTextX < s16 s.curX + mt.adv) (hlf : s.lf = false)
    (hroom : ¬(s.partialX = true ∧ s16 s.curX < s16 s.maxTextX)) : s.checkRight mt = none := by
  rw [State.checkRight_cases, if_neg (Int.not_le.2 hwide), hlf, if_neg Bool.false_ne_true, if_neg hroom]

/-- Any other glyph goes to the cursor, or to the start of the next line (R193). -/
theorem State.checkRight_goes
    (h : s16 s.maxTextX < s16 s.curX + mt.adv → s.lf = true ∨ (s.partialX = true ∧ s16 s.curX < s16 s.maxTextX)) :
    s.checkRight mt = some (if s16 s.maxTextX < s16 s.curX + mt.adv ∧ s.lf = true then s.newLine else s) := by
  rw [State.checkRight_cases]
  by_cases hwide : s16 s.maxTextX < s16 s.curX + mt.adv
  · rw [if_neg (Int.not_le.2 hwide)]
    by_cases hlf : s.lf = true
    · rw [if_pos hlf, if_pos ⟨hwide, hlf⟩]
    · rw [if_neg hlf, if_pos ((h hwide).resolve_left hlf), if_neg fun e => hlf e.2]
  · rw [if_pos (Int.not_lt.1 hwide), if_neg fun e => hwide e.1]

/-- With neither a wrap nor a part of a glyph allowed, a glyph goes where it fits, and to the cursor (R193). -/
theorem State.checkRight_fits (h : s.checkRight mt = some u) (hlf : s.lf = false) (hpart : s.partialX = false) :
    u = s ∧ s16 s.curX + mt.adv ≤ s16 s.maxTextX := by
  by_cases hwide : s16 s.maxTextX < s16 s.curX + mt.adv
  · rw [State.checkRight_stops hwide hlf (by simp [hpart])] at h
    cases h
  · rw [State.checkRight_goes (absurd · hwide), if_neg fun e => hwide e.1] at h
    exact ⟨(Option.some.inj h).symm, Int.not_lt.1 hwide⟩

end

/-! ### One layout step -/

/-- The character is a line feed that acts as one (R193). -/
def State.feeds (s : State) (cp : Word) : Prop := cp = lineFeed ∧ s.lf = true

/-- The character is a carriage return that acts as one (R193). -/
def State.returns (s : State) (cp : Word) : Prop := cp = carriageReturn ∧ s.cr = true

section

variable {s t u : State} {m : Mode} {cp : Word} {mt : Metrics}

theorem putCharCore_feeds (h : s.feeds cp) : putCharCore m cp s = (s.newLine, .printed) := if_pos h

theorem putCharCore_returns (h : s.returns cp) : putCharCore m cp s = ({ s with curX := 0 }, .printed) := by
  have hn : ¬(cp = lineFeed ∧ s.lf = true) := fun e => absurd (e.1.symm.trans h.1) (by decide)
  exact (if_neg hn).trans (if_pos h)

/-- A character without a glyph is skipped (R197). -/
theorem putCharCore_skips (hlf : ¬s.feeds cp) (hcr : ¬s.returns cp) (h : s.measure cp = none) :
    putCharCore m cp s = (s, .printed) := by
  refine ((if_neg hlf).trans (if_neg hcr)).trans ?_
  rw [h]

/-- A glyph that may not go to the right stops the layout (R193). -/
theorem putCharCore_noColumn (hlf : ¬s.feeds cp) (hcr : ¬s.returns cp) (h : s.measure cp = some mt)
    (hr : s.checkRight mt = none) : putCharCore m cp s = (s, .stopped) := by
  refine ((if_neg hlf).trans (if_neg hcr)).trans ?_
  rw [h]
  simp only [hr]

/-- A glyph that may not go below stops the layout, after any wrap (R193). -/
theorem putCharCore_noRow (hlf : ¬s.feeds cp) (hcr : ¬s.returns cp) (h : s.measure cp = some mt)
    (hr : s.checkRight mt = some u) (hb : u.checkBottom mt = false) : putCharCore m cp s = (u, .stopped) := by
  refine ((if_neg hlf).trans (if_neg hcr)).trans ?_
  rw [h]
  simp only [hr, hb, Bool.false_eq_true, if_false]

/-- Any other glyph is drawn, after any wrap (R193). -/
theorem putCharCore_draws (hlf : ¬s.feeds cp) (hcr : ¬s.returns cp) (h : s.measure cp = some mt)
    (hr : s.checkRight mt = some u) (hb : u.checkBottom mt = true) :
    putCharCore m cp s = (u.emitGlyph m cp, .printed) := by
  refine ((if_neg hlf).trans (if_neg hcr)).trans ?_
  rw [h]
  simp only [hr, hb, if_true]

/-- What a layout step that goes on has done (R193, R197). -/
theorem putCharCore_printed_cases (h : putCharCore m cp s = (t, .printed)) :
    (s.feeds cp ∧ t = s.newLine) ∨ (s.returns cp ∧ t = { s with curX := 0 }) ∨ (s.measure cp = none ∧ t = s) ∨
      ∃ mt u, s.measure cp = some mt ∧ s.checkRight mt = some u ∧ t = u.emitGlyph m cp := by
  by_cases hlf : s.feeds cp
  · rw [putCharCore_feeds hlf] at h
    exact .inl ⟨hlf, (Prod.mk.inj h).1.symm⟩
  by_cases hcr : s.returns cp
  · rw [putCharCore_returns hcr] at h
    exact .inr (.inl ⟨hcr, (Prod.mk.inj h).1.symm⟩)
  cases hm : s.measure cp with
  | none =>
    rw [putCharCore_skips hlf hcr hm] at h
    exact .inr (.inr (.inl ⟨rfl, (Prod.mk.inj h).1.symm⟩))
  | some mt =>
    cases hr : s.checkRight mt with
    | none => simp [putCharCore_noColumn hlf hcr hm hr] at h
    | some u =>
      cases hb : u.checkBottom mt with
      | false => simp [putCharCore_noRow hlf hcr hm hr hb] at h
      | true =>
        rw [putCharCore_draws hlf hcr hm hr hb] at h
        exact .inr (.inr (.inr ⟨mt, u, rfl, hr, (Prod.mk.inj h).1.symm⟩))

/-! ### Drawing at the cursor -/

/-- Drawing a glyph does not move the cursor (R191). -/
theorem drawGlyphAt_cursor (m : Mode) (x y : Int) (cp : Word) (hs : s.Drawable) (hq : s.xferBusy = false) :
    (drawGlyphAt m x y cp s).state.curX = s.curX ∧ (drawGlyphAt m x y cp s).state.curY = s.curY := by
  rw [(drawGlyphAt_spec m x y cp hs hq).2.1]
  cases m
  · exact ⟨rfl, rfl⟩
  · exact ⟨rfl, rfl⟩

/-- A layout step that draws leaves the drawing, and the cursor moved by the drawn advance (R193). -/
theorem emitGlyph_eq (m : Mode) (cp : Word) (hs : s.Drawable) (hq : s.xferBusy = false) :
    s.emitGlyph m cp =
      { (drawGlyphAt m (s16 s.curX) (s16 s.curY) cp s).state with
        curX := reg16 (s16 s.curX + (drawGlyphAt m (s16 s.curX) (s16 s.curY) cp s).adv) } := by
  unfold State.emitGlyph
  simp only [(drawGlyphAt_cursor m (s16 s.curX) (s16 s.curY) cp hs hq).1]

/-- A glyph that is no wider than the line buffer is drawn with its record's advance (R191). -/
theorem drawGlyphAt_adv (m : Mode) (x y : Int) {d : Nat} {g : Word} (h : s.resolveGlyph cp = some (d, g))
    (hw : (s.glyphRec g).width ≤ s.cfg.lineCap) : (drawGlyphAt m x y cp s).adv = (s.glyphRec g).advance := by
  by_cases hb : (s.glyphRec g).boff = 0xFFFFFFFF
  · rw [drawGlyphAt_space x y h hb]
  · rw [drawGlyphAt_drawn x y h hb hw]

end

/-! ### PUT_CHAR -/

section

variable {s t : State} {m : Mode} {cp : Word}

/-- PUT_CHAR of a character after which the layout goes on (R196). -/
theorem execPutChar_printed (hi : s.inited = true) (hf : m = .buffered → s.cfg.hasFb = true) (hfont : s.fontSel = true)
    (h : putCharCore m cp s = (t, .printed)) :
    exec (.putChar m cp) s = .next (t.clearScratch.endCommand .ok 1 t.curX t.curY 0) := by
  refine ((drawing_checks_pass hi hf _).trans (font_check_passes hfont _)).trans ?_
  rw [h]
  rfl

/-- PUT_CHAR of a character that stops the layout (R196). -/
theorem execPutChar_stopped (hi : s.inited = true) (hf : m = .buffered → s.cfg.hasFb = true) (hfont : s.fontSel = true)
    (h : putCharCore m cp s = (t, .stopped)) :
    exec (.putChar m cp) s = .next (t.clearScratch.endCommand .errLayoutStop 0 t.curX t.curY 0) := by
  refine ((drawing_checks_pass hi hf _).trans (font_check_passes hfont _)).trans ?_
  rw [h]
  rfl

end

/-- A state that differs from a sound one in the cursor alone holds nothing in the scratch memories. -/
theorem State.Sound.clear_cursor {s : State} (h : s.Sound) (x y : Word) :
    ({ s with curX := x, curY := y } : State).clearScratch = { s with curX := x, curY := y } :=
  (State.clearScratch_eq_iff _).2 h.scratch

/-- What PUT_CHAR leaves of a glyph that it draws (R193). -/
theorem emitGlyph_clearScratch {u : State} (m : Mode) (cp : Word) (hd : u.Drawable) (hq : u.xferBusy = false)
    (hc : u.clearScratch = u) :
    let dr := drawGlyphAt m (s16 u.curX) (s16 u.curY) cp u
    let x' := reg16 (s16 u.curX + dr.adv)
    let t := (u.emitGlyph m cp).clearScratch
    t = { dr.state.clearScratch with curX := x' } ∧ t = { u.withDrawOf m t with curX := x' } ∧ t.xferBusy = false ∧
      t.curX = x' ∧ t.curY = u.curY := by
  intro dr x' t
  obtain ⟨_, hframe, hquiet⟩ := drawGlyphAt_spec m (s16 u.curX) (s16 u.curY) cp hd hq
  have ht : t = { dr.state.clearScratch with curX := x' } := congrArg State.clearScratch (emitGlyph_eq m cp hd hq)
  have hdr : dr.state.clearScratch = u.withDrawOf m dr.state.clearScratch := State.clearScratch_of_blit hc hframe
  refine ⟨ht, ?_, ?_, ?_, ?_⟩
  · rw [ht]
    conv_lhs => rw [hdr]
    cases m
    · rfl
    · rfl
  · rw [ht]
    exact hquiet
  · rw [ht]
  · rw [ht]
    exact (drawGlyphAt_cursor m _ _ cp hd hq).2

/-- Settles O52: one outcome of a layout step after the other. -/
theorem putCharCommand : Obligations.PutCharCommand := by
  intro s m cp hs hf hfont down nextLine isLf isCr
  have hclear := hs.1.clear_cursor
  refine ⟨fun hlf => ?_, fun hcr => ?_, fun hlf hcr hm => ?_, fun mt hlf hcr hm => ?_⟩
  · rw [execPutChar_printed hs.2 hf hfont (putCharCore_feeds hlf)]
    exact congrArg (fun t : State => (Host.Outcome.next (t.endCommand .ok 1 0 down 0) : Result)) (hclear 0 down)
  · rw [execPutChar_printed hs.2 hf hfont (putCharCore_returns hcr)]
    exact congrArg (fun t : State => (Host.Outcome.next (t.endCommand .ok 1 0 s.curY 0) : Result)) (hclear 0 s.curY)
  · rw [execPutChar_printed hs.2 hf hfont (putCharCore_skips hlf hcr hm), hs.1.clear]
  · intro wide room u
    have hu : u = { s with curX := u.curX, curY := u.curY } := by
      by_cases h : wide ∧ s.lf = true
      · rw [show u = nextLine from if_pos h]
      · rw [show u = s from if_neg h]
    have huc : u.clearScratch = u := by
      rw [hu]
      exact hclear _ _
    have hbottom : u.checkBottom mt = (decide (s16 u.curY + mt.rh ≤ s16 s.maxDispY) || s.partialY) := by
      rw [hu]
      rfl
    have hright (hgo : wide → s.lf = true ∨ room) : s.checkRight mt = some u := State.checkRight_goes hgo
    refine ⟨fun hwide hlf' hroom => ?_, fun hgo hlow hpart => ?_, fun hgo hrow => ?_⟩
    · rw [execPutChar_stopped hs.2 hf hfont
        (putCharCore_noColumn hlf hcr hm (State.checkRight_stops hwide hlf' hroom)), hs.1.clear]
    · have hb : u.checkBottom mt = false := by simp [hbottom, hpart, hlow]
      rw [execPutChar_stopped hs.2 hf hfont (putCharCore_noRow hlf hcr hm (hright hgo) hb), huc]
    · have hb : u.checkBottom mt = true := by simpa [hbottom] using hrow
      have hk : Kept s u := Kept.of_cursor hu
      have hq : u.xferBusy = false := by
        rw [hu]
        exact hs.1.quiet
      obtain ⟨hdraw, hframe, hquiet, hx, hy⟩ :=
        emitGlyph_clearScratch m cp (hk.drawable (hs.1.drawable hs.2)) hq huc
      refine ⟨_, ?_, hdraw, hframe, hquiet⟩
      rw [execPutChar_printed hs.2 hf hfont (putCharCore_draws hlf hcr hm (hright hgo) hb), ← hx, ← hy]
      rfl

end Sys2Proof.Machine

/-!
SUPPORT. Strings (42_font_glyph.md R198 to R200): the chain of the layout steps, PUT_STRING, PUT_STRING_XY, and property S4 (a
string wider than the room stops early).
-/
namespace Sys2Proof.Machine

/-! ### A string as the chain of its layout steps -/

/-- The state after the first `k` characters of a string, where the layout has not stopped before (R198). -/
def textAfter (m : Mode) (chars : List Word) (s : State) (k : Nat) : State := (emitString m (chars.take k) s).1

section

variable {s t : State} {m : Mode} {cp c : Word} {cs chars : List Word}

theorem textAfter_succ (h : putCharCore m c s = (t, .printed)) (k : Nat) :
    textAfter m (c :: cs) s (k + 1) = textAfter m cs t k := by
  rw [textAfter, List.take_succ_cons, emitString_printed _ h, textAfter]

/-- Each character before the stop is one layout step (R198). -/
theorem putCharCore_textAfter {k : Nat} (hk : k < (emitString m chars s).2) (hcp : chars[k]? = some cp) :
    putCharCore m cp (textAfter m chars s k) = (textAfter m chars s (k + 1), .printed) := by
  induction chars generalizing s k with
  | nil => exact absurd hk (Nat.not_lt_zero k)
  | cons c cs ih =>
    obtain ⟨t, l, hstep⟩ : ∃ t l, putCharCore m c s = (t, l) := ⟨_, _, rfl⟩
    cases l with
    | stopped =>
      rw [emitString_stopped cs hstep] at hk
      exact absurd hk (Nat.not_lt_zero k)
    | printed =>
      rw [emitString_printed cs hstep] at hk
      rw [textAfter_succ hstep]
      cases k with
      | zero =>
        obtain rfl : c = cp := by simpa using hcp
        exact hstep
      | succ k =>
        rw [textAfter_succ hstep]
        exact ih (Nat.lt_of_succ_lt_succ hk) hcp

/-- A string whose characters are all printed ends after the last (R198). -/
theorem emitString_all (h : (emitString m chars s).2 = chars.length) :
    (emitString m chars s).1 = textAfter m chars s (emitString m chars s).2 := by
  rw [h, textAfter, List.take_length]

/-- The character after those printed stops the layout, and there the string ends (R198). -/
theorem putCharCore_stop (hcp : chars[(emitString m chars s).2]? = some cp) :
    putCharCore m cp (textAfter m chars s (emitString m chars s).2) = ((emitString m chars s).1, .stopped) := by
  induction chars generalizing s with
  | nil => simp at hcp
  | cons c cs ih =>
    obtain ⟨t, l, hstep⟩ : ∃ t l, putCharCore m c s = (t, l) := ⟨_, _, rfl⟩
    cases l with
    | stopped =>
      rw [emitString_stopped cs hstep] at hcp ⊢
      obtain rfl : c = cp := by simpa using hcp
      exact hstep
    | printed =>
      rw [emitString_printed cs hstep] at hcp ⊢
      rw [textAfter_succ hstep]
      exact ih hcp

end

/-! ### The string commands -/

theorem layoutCode_beq (a b : Nat) : layoutCode (a == b) = if a = b then .ok else .errLayoutStop := by
  simp [layoutCode]

section

variable {s : State} {m : Mode} {j : Justify} {x y n : Word} {chars : List Word}

/-- PUT_STRING of a string that the part accepts (R198). -/
theorem execPutString_ends (hi : s.inited = true) (hf : m = .buffered → s.cfg.hasFb = true) (hfont : s.fontSel = true)
    (hn : n.toNat ≤ s.cfg.strCap) :
    let t := (emitString m chars s).1.clearScratch
    let cnt := (emitString m chars s).2
    exec (.putString m n chars) s =
      .next (t.endCommand (if cnt = n.toNat then .ok else .errLayoutStop) (BitVec.ofNat 16 cnt) t.curX t.curY 0) := by
  refine (((drawing_checks_pass hi hf _).trans (length_check_passes hn _)).trans (font_check_passes hfont _)).trans ?_
  simp only [layoutCode_beq, reg16, BitVec.ofInt_natCast, u16]
  rfl

/-- PUT_STRING_XY of a string that the part accepts (R200). -/
theorem execPutStringXy_ends (hi : s.inited = true) (hf : m = .buffered → s.cfg.hasFb = true) (hfont : s.fontSel = true)
    (hn : n.toNat ≤ s.cfg.strCap) {u : State}
    (hu : u = s.justified j (s16 x) (reg16 (max (justifiedStart j (s16 x) (s.stringWidth chars)) (s16 s.minTextX))) y) :
    let t := (emitString m chars u).1.clearScratch
    let cnt := (emitString m chars u).2
    exec (.putStringXy m j x y n chars) s =
      .next ({ t with maxTextX := s.maxTextX }.endCommand (if cnt = n.toNat then .ok else .errLayoutStop)
        (BitVec.ofNat 16 cnt) t.curX t.curY (reg16 (s.stringWidth chars))) := by
  intro t cnt
  subst hu
  refine (((drawing_checks_pass hi hf _).trans (length_check_passes hn _)).trans (font_check_passes hfont _)).trans ?_
  show (Host.Outcome.next ({ t with maxTextX := s.maxTextX }.endCommand (layoutCode (cnt == n.toNat)) (reg16 cnt) t.curX
    t.curY (reg16 (s.stringWidth chars))) : Result) = _
  rw [layoutCode_beq, reg16, BitVec.ofInt_natCast]

/-- The width of a character (R199). -/
theorem State.charWidth_eq (s : State) (cp : Word) :
    s.charWidth cp =
      if (cp = 0x000A ∧ s.lf = true) ∨ (cp = 0x000D ∧ s.cr = true) then 0 else ((s.measure cp).map Metrics.adv).getD 0 := by
  unfold State.charWidth
  cases s.measure cp with
  | none => rfl
  | some mt => rfl

/-- The state a justified string begins in, with the margin as it was but for RIGHT (R200). -/
theorem State.justified_eq (s : State) (j : Justify) (x : Int) (cx cy : Word) :
    s.justified j x cx cy =
      { s with
        curX := cx, curY := cy
        maxTextX := if j = .right then reg16 (clamp x 0 (s16 s.maxTextX)) else s.maxTextX } := by
  cases j
  case right => rfl
  case left | center =>
    simp only [State.justified, justifiedBound, reg16_s16]
    rfl

end

/-- Settles O53: the count and the states are those of `EmitString`, one layout step after the other. -/
theorem putStringCommand : Obligations.PutStringCommand := by
  intro s m n chars hs hf hfont hlen
  refine ⟨execPutString_tooLong hs.2 hf, fun hn => ?_⟩
  have hlaid := emitString_laidOut m chars (hs.1.drawable hs.2) hs.1.quiet
  refine ⟨_, _, textAfter m chars s, execPutString_ends hs.2 hf hfont hn, hlen ▸ emitString_count_le m chars s, rfl,
    fun k cp => putCharCore_textAfter, fun hall => ?_, fun cp _ hcp => ⟨_, putCharCore_stop hcp, rfl⟩,
    hlaid.clearScratch hs.1.clear, hlaid.quiet⟩
  rw [← emitString_all (hall.trans hlen.symm)]

/-- Settles O54: the string is laid out from the justified state (`State.justified`) as by PUT_STRING. -/
theorem putStringXyCommand : Obligations.PutStringXyCommand := by
  intro s m j x y n chars hs hf hfont hlen tw start
  refine ⟨execPutStringXy_tooLong hs.2 hf, fun hn => ?_⟩
  have htw : s.stringWidth chars = tw := congrArg List.sum (List.map_congr_left fun cp _ => s.charWidth_eq cp)
  have hstart : justifiedStart j (s16 x) tw = start := by
    cases j <;> rfl
  clear_value start tw
  obtain ⟨u, hu⟩ : ∃ u, u = s.justified j (s16 x) (reg16 (max (justifiedStart j (s16 x) (s.stringWidth chars))
    (s16 s.minTextX))) y := ⟨_, rfl⟩
  have hexec := execPutStringXy_ends (m := m) (chars := chars) hs.2 hf hfont hn hu
  rw [htw] at hexec
  have hdraw : u.Drawable := hu ▸ (hs.1.drawable hs.2).justified j (s16 x) _ y
  have hquiet : u.xferBusy = false := by
    rw [hu]
    exact hs.1.quiet
  have hclear : u.clearScratch = u := (State.clearScratch_eq_iff u).2 (by
    rw [hu]
    exact hs.1.scratch)
  have hlaid := emitString_laidOut m chars hdraw hquiet
  refine ⟨_, _, textAfter m chars u, hexec, hlen ▸ emitString_count_le m chars u, ?_,
    fun k cp => putCharCore_textAfter, fun hall => ?_, fun cp _ hcp => ⟨_, putCharCore_stop hcp, rfl⟩,
    hlaid.clearScratch hclear, hlaid.quiet⟩
  · rw [show textAfter m chars u 0 = u from rfl, hu, State.justified_eq, htw, hstart]
  · rw [← emitString_all (hall.trans hlen.symm)]

/-! ### A string wider than the room -/

/-- Every glyph of the string fits the line buffer, and its measured advance is neither negative nor more than its drawn
one (90_conflicts.md C9). -/
def State.GlyphsFit (s : State) (chars : List Word) : Prop :=
  ∀ cp ∈ chars, ∀ d g, s.resolveGlyph cp = some (d, g) →
    (s.glyphRec g).width ≤ s.cfg.lineCap ∧ 0 ≤ (s.glyphRec g).metrics.adv ∧
      (s.glyphRec g).metrics.adv ≤ (s.glyphRec g).advance

/-- The premises of property S4 that concern neither the cursor nor the room, of the part `chars` of the string that is
still to be laid out. -/
structure State.Confined (s : State) (chars : List Word) : Prop where
  drawable : s.Drawable
  quiet : s.xferBusy = false
  width : s.width ≤ 32256
  lf : s.lf = false
  cr : s.cr = false
  partialX : s.partialX = false
  glyphs : s.GlyphsFit chars

/-- A drawn advance exceeds the measured one by no more than a glyph offset and one column (R188, R189, R191). -/
theorem State.advance_le_metrics (s : State) (g : Word) :
    (s.glyphRec g).advance ≤ (s.glyphRec g).metrics.adv + 256 := by
  by_cases h : (s.glyphRec g).boff = spaceSentinel
  · have hxo : (s.glyphRec g).xo ≤ 255 := by
      unfold State.glyphRec offset8
      dsimp only
      generalize s.assetByte _ = b
      split
      · have := BitVec.toInt_lt (x := b)
        omega
      · have := b.isLt
        omega
    rw [Glyph.metrics_space h, Glyph.advance]
    dsimp only
    omega
  · rw [Glyph.metrics_drawn h]
    dsimp only
    omega

/-- Layout does not change how wide a character is (R199). -/
theorem Kept.charWidth {s t : State} (h : Kept s t) : t.charWidth = s.charWidth := by
  rw [h.frame]
  rfl

theorem State.charWidth_of_measure {s : State} (hlf : s.lf = false) (hcr : s.cr = false) (cp : Word) :
    s.charWidth cp = ((s.measure cp).map Metrics.adv).getD 0 := by
  rw [State.charWidth_eq, if_neg (by simp [hlf, hcr])]

section

variable {s t : State} {m : Mode} {cp : Word} {cps : List Word}

/-- The premises pass on to the rest of the string. -/
theorem State.Confined.next (h : s.Confined (cp :: cps)) (k : LaidOut m s t) : t.Confined cps where
  drawable := k.kept.drawable h.drawable
  quiet := k.quiet
  width := k.kept.width.trans_le h.width
  lf := (congrArg (BitVec.getLsbD · 1) k.kept.ctrl).trans h.lf
  cr := (congrArg (BitVec.getLsbD · 2) k.kept.ctrl).trans h.cr
  partialX := (congrArg (BitVec.getLsbD · 3) k.kept.ctrl).trans h.partialX
  glyphs := by
    have := h.glyphs
    rw [k.kept.frame]
    exact fun c hc => this c (List.mem_cons_of_mem _ hc)

/-- A character that is printed has no width, or it fits left of the right bound and moves the cursor by its measured
advance or more (R193). -/
theorem State.Confined.step (h : s.Confined (cp :: cps)) (hstep : putCharCore m cp s = (t, .printed)) :
    (s.charWidth cp = 0 ∧ t = s) ∨
      (s16 s.curX + s.charWidth cp ≤ s16 s.maxTextX ∧ s16 s.curX + s.charWidth cp ≤ s16 t.curX) := by
  rw [State.charWidth_of_measure h.lf h.cr]
  rcases putCharCore_printed_cases hstep with ⟨hlf, _⟩ | ⟨hcr, _⟩ | ⟨hm, rfl⟩ | ⟨mt, u, hm, hr, rfl⟩
  · exact absurd hlf.2 (by simp [h.lf])
  · exact absurd hcr.2 (by simp [h.cr])
  · rw [hm]
    exact .inl ⟨rfl, rfl⟩
  · right
    rw [hm]
    obtain ⟨rfl, hfit⟩ := State.checkRight_fits hr h.lf h.partialX
    refine ⟨hfit, ?_⟩
    obtain ⟨d, g, hres, rfl⟩ := State.measure_eq_some.1 hm
    obtain ⟨hcap, hpos, hadv⟩ := h.glyphs cp (List.mem_cons_self ..) d g hres
    have hmargin : s16 u.maxTextX ≤ 32256 := h.drawable.window.2.2.2.1.trans (by exact_mod_cast h.width)
    have hdrawn := u.advance_le_metrics g
    have hlow := s16_lower u.curX
    rw [emitGlyph_eq m cp h.drawable h.quiet, drawGlyphAt_adv m _ _ hres hcap]
    show s16 u.curX + _ ≤ s16 (reg16 _)
    rw [s16_reg16 (by omega) (by omega)]
    exact Int.add_le_add_left hadv _

theorem LaidOut.of_step {l : Layout} (hd : s.Drawable) (hq : s.xferBusy = false)
    (h : putCharCore m cp s = (t, l)) : LaidOut m s t := by
  have hl := putCharCore_laidOut m cp hd hq
  rw [h] at hl
  exact hl

/-- A string all of whose characters are printed has no width, or fits left of the right bound (R193, R198). -/
theorem State.Confined.all_printed {chars : List Word} (h : s.Confined chars)
    (hall : (emitString m chars s).2 = chars.length) :
    s.stringWidth chars ≤ 0 ∨ s16 s.curX + s.stringWidth chars ≤ s16 s.maxTextX := by
  induction chars generalizing s with
  | nil => exact .inl (le_refl _)
  | cons cp cps ih =>
    obtain ⟨t, l, hstep⟩ : ∃ t l, putCharCore m cp s = (t, l) := ⟨_, _, rfl⟩
    have hlaid := LaidOut.of_step h.drawable h.quiet hstep
    cases l with
    | stopped =>
      rw [emitString_stopped cps hstep] at hall
      cases hall
    | printed =>
      rw [emitString_printed cps hstep] at hall
      have hrest := ih (h.next hlaid) (Nat.succ.inj hall)
      have hwidth : t.stringWidth cps = s.stringWidth cps := by
        rw [State.stringWidth, hlaid.kept.charWidth, State.stringWidth]
      have hsum : s.stringWidth (cp :: cps) = s.charWidth cp + s.stringWidth cps := by
        rw [State.stringWidth, List.map_cons, List.sum_cons, State.stringWidth]
      rw [hwidth, hlaid.kept.maxTextX] at hrest
      rw [hsum]
      rcases h.step hstep with ⟨hw, rfl⟩ | ⟨hfit, hmoved⟩
      · rw [hw, Int.zero_add]
        exact hrest
      · right
        omega

end

/-- Settles O55: were all characters printed, the string would fit (`State.Confined.all_printed`). -/
theorem wideStringStops : Obligations.WideStringStops := by
  intro s t m n chars hs hf hfont hn hlen hwidth hlf hcr hpart hmin _ hroom hglyphs hwide hexec
  have hconf : s.Confined chars := ⟨hs.1.drawable hs.2, hs.1.quiet, hwidth, hlf, hcr, hpart, hglyphs⟩
  rw [execPutString_ends hs.2 hf hfont hn] at hexec
  have hne : (emitString m chars s).2 ≠ n.toNat := by
    intro hall
    rcases hconf.all_printed (hall.trans hlen.symm) with h | h
    · omega
    · omega
  have hle := emitString_count_le m chars s
  injection hexec with hexec
  rw [← hexec, if_neg hne]
  refine ⟨rfl, ?_⟩
  show (BitVec.ofNat 16 _).toNat < n.toNat
  have hlt := n.isLt
  rw [BitVec.toNat_ofNat, Nat.mod_eq_of_lt (by omega)]
  omega

end Sys2Proof.Machine

/-!
SUPPORT. The bus discipline of a command's events (20_memory.md R81, 43_dma_streamer.md R221, R225): what every operation
sends is a sequence of single bus events and whole bulk transfers, once the transfer it may leave in flight completes.
-/
namespace Sys2Proof.Machine

/-! ### Whole transfers -/

/-- The events are single ones and bulk transfers, each completed at once (R81, R225). -/
inductive WholeTransfers : List Event → Prop
  | nil : WholeTransfers []
  | single {e : Event} {es : List Event} : e.isBulk = false → WholeTransfers es → WholeTransfers (e :: es)
  | transfer {dest len trig : Nat} {src : XferSource} {es : List Event} :
      WholeTransfers es → WholeTransfers (.dmaStart dest src len trig :: .dmaDone :: es)

namespace WholeTransfers

variable {es fs : List Event}

theorem append (h : WholeTransfers es) (k : WholeTransfers fs) : WholeTransfers (es ++ fs) := by
  induction h with
  | nil => exact k
  | single he _ ih => exact .single he ih
  | transfer _ ih => exact .transfer ih

theorem of_singles (h : ∀ e ∈ es, e.isBulk = false) : WholeTransfers es := by
  induction es with
  | nil => exact .nil
  | cons e es ih => exact .single (h e (List.mem_cons_self ..)) (ih fun f hf => h f (List.mem_cons_of_mem _ hf))

/-- A transfer that starts is completed by the next event. -/
theorem start_then_done (h : WholeTransfers es) {k dest len trig : Nat} {src : XferSource}
    (hk : es[k]? = some (.dmaStart dest src len trig)) : es[k + 1]? = some .dmaDone := by
  induction h generalizing k with
  | nil => simp at hk
  | single he _ ih =>
    cases k with
    | zero => simp_all [Event.isBulk]
    | succ k => exact ih hk
  | transfer _ ih =>
    match k with
    | 0 => rfl
    | 1 => simp at hk
    | k + 2 => exact ih hk

/-- The event before a completion is the start of its transfer. -/
theorem done_after_start (h : WholeTransfers es) {k : Nat} (hk : es[k]? = some .dmaDone) :
    ∃ j dest src len trig, k = j + 1 ∧ es[j]? = some (.dmaStart dest src len trig) := by
  induction h generalizing k with
  | nil => simp at hk
  | single he _ ih =>
    cases k with
    | zero => simp_all [Event.isBulk]
    | succ k =>
      obtain ⟨j, dest, src, len, trig, rfl, hj⟩ := ih hk
      exact ⟨j + 1, dest, src, len, trig, rfl, hj⟩
  | @transfer dest len trig src es _ ih =>
    match k with
    | 0 => simp at hk
    | 1 => exact ⟨0, dest, src, len, trig, rfl, rfl⟩
    | k + 2 =>
      obtain ⟨j, dest', src', len', trig', rfl, hj⟩ := ih hk
      exact ⟨j + 2, dest', src', len', trig', rfl, hj⟩

end WholeTransfers

/-! ### The operations that send nothing but whole transfers -/

/-- Once complete, a bulk transfer at a byte column has recorded its addressing command, its start and its completion
(R79, R221). -/
theorem State.bulkWriteRun_dmaWait_trace (s : State) (y b : Nat) (src : XferSource) (len : Nat) :
    (s.bulkWriteRun y b src len).dmaWait.trace =
      s.dmaWait.trace ++ [.busCmd (addrCmds s.cfg y b), .dmaStart s.cfg.dmaDest src len s.cfg.dmaTrig, .dmaDone] := by
  rw [State.dmaWait_trace, if_pos (s.bulkWriteRun_xferBusy y b src len), s.bulkWriteRun_trace, List.append_assoc]
  rfl

/-- Once complete, a bulk transfer at the write pointer has recorded its start and its completion (R222). -/
theorem State.bulkContinue_dmaWait_trace (s : State) (src : XferSource) (len : Nat) :
    (s.bulkContinue src len).dmaWait.trace =
      s.dmaWait.trace ++ [.dmaStart s.cfg.dmaDest src len s.cfg.dmaTrig, .dmaDone] := by
  rw [State.dmaWait_trace, if_pos (s.bulkContinue_xferBusy src len), s.bulkContinue_trace, List.append_assoc]
  rfl

/-- Counting a transfer in flight as complete, what has been sent since `s` on the way to `t` is whole transfers. -/
def SendsWhole (s t : State) : Prop :=
  ∃ es : List Event, t.dmaWait.trace = s.dmaWait.trace ++ es ∧ WholeTransfers es

namespace SendsWhole

variable {s t u : State}

/-- An operation that records no event. -/
theorem silent (hx : t.xferBusy = s.xferBusy) (ht : t.trace = s.trace) : SendsWhole s t :=
  ⟨[], by simp [hx, ht], .nil⟩

theorem refl (s : State) : SendsWhole s s := silent rfl rfl

theorem trans (h : SendsWhole s t) (k : SendsWhole t u) : SendsWhole s u := by
  obtain ⟨es, hes, he⟩ := h
  obtain ⟨fs, hfs, hf⟩ := k
  exact ⟨es ++ fs, by rw [hfs, hes, List.append_assoc], he.append hf⟩

theorem foldl {α : Type} {f : State → α → State} (h : ∀ t x, SendsWhole t (f t x)) (l : List α) (s : State) :
    SendsWhole s (l.foldl f s) := by
  induction l generalizing s with
  | nil => exact refl s
  | cons x l ih => exact (h s x).trans (ih _)

/-- An operation that ends with a step it may leave out. -/
theorem thenIf {c : Prop} [Decidable c] (h : SendsWhole s t) (k : SendsWhole t u) :
    SendsWhole s (if c then u else t) := by
  split
  · exact h.trans k
  · exact h

theorem dmaWait (s : State) : SendsWhole s s.dmaWait := ⟨[], by simp, .nil⟩

/-- Outside a transfer, events of none. -/
theorem of_events (hq : s.xferBusy = false) (hx : t.xferBusy = false) {es : List Event} (ht : t.trace = s.trace ++ es)
    (he : ∀ e ∈ es, e.isBulk = false) : SendsWhole s t :=
  ⟨es, by simp [hq, hx, ht], .of_singles he⟩

theorem emit (hq : s.xferBusy = false) {e : Event} (he : e.isBulk = false) : SendsWhole s (s.emit e) :=
  of_events hq hq rfl (by simpa using he)

/-! #### The primitives -/

theorem busWriteRun (s : State) (y b : Nat) (bs : List Byte) : SendsWhole s (s.busWriteRun y b bs) :=
  (dmaWait s).trans (of_events s.dmaWait_xferBusy (s.busWriteRun_xferBusy y b bs) (s.busWriteRun_trace y b bs)
    (by simp [Event.isBulk]))

theorem bulkWriteRun (s : State) (y b : Nat) (src : XferSource) (len : Nat) :
    SendsWhole s (s.bulkWriteRun y b src len) :=
  ⟨_, s.bulkWriteRun_dmaWait_trace y b src len, .single rfl (.transfer .nil)⟩

theorem bulkContinue (s : State) (src : XferSource) (len : Nat) : SendsWhole s (s.bulkContinue src len) :=
  ⟨_, s.bulkContinue_dmaWait_trace src len, .transfer .nil⟩

theorem xferRun (s : State) (y b : Nat) (src : XferSource) (len : Nat) : SendsWhole s (s.xferRun y b src len) := by
  unfold State.xferRun
  split
  · exact bulkWriteRun s y b src len
  · exact busWriteRun s y b _

theorem setLine (s : State) (pix : List Nibble) : SendsWhole s (s.setLine pix) := silent rfl rfl

theorem setStage (s : State) (k : Nat) (bs : List Byte) : SendsWhole s (s.setStage k bs) := silent rfl rfl

theorem storeShadow (s : State) (y b : Nat) (v : Byte) : SendsWhole s (s.storeShadow y b v) := silent rfl rfl

/-! #### Flushes and transitions -/

theorem sendColumn (s : State) (c : Nat) : SendsWhole s (s.sendColumn c) :=
  foldl (fun t yy => xferRun t yy c _ 1) _ s

theorem sendDividerColumn (s : State) (c : Nat) : SendsWhole s (s.sendDividerColumn c) :=
  foldl (fun t yy => xferRun t yy c _ 1) _ s

theorem hWipe (forward : Bool) (s : State) : SendsWhole s (Machine.hWipe forward s) :=
  (setStage s 0 _).trans
    (foldl (fun t _ => (sendColumn t _).thenIf (sendDividerColumn _ _)) _ _)

theorem vWipe (downward : Bool) (s : State) : SendsWhole s (Machine.vWipe downward s) :=
  (setStage s 0 _).trans (foldl (fun t _ =>
    ((xferRun t _ _ _ _).thenIf (xferRun _ _ _ _ _)).trans ((dmaWait _).trans (emit (State.dmaWait_xferBusy _) rfl))) _ _)

theorem iris (outward : Bool) (s : State) : SendsWhole s (Machine.iris outward s) :=
  foldl (fun t _ => (sendColumn t _).thenIf (sendColumn _ _)) _ s

theorem runTransition (k : Transition) (s : State) : SendsWhole s (Machine.runTransition k s) := by
  cases k
  case none => exact xferRun s _ _ _ _
  case wipeLr | wipeRl => exact hWipe _ s
  case wipeTb | wipeBt => exact vWipe _ s
  case irisIn | irisOut => exact iris _ s

/-! #### Lines and blits -/

/-- The bytes of a direct run, outside a transfer (R156). -/
theorem streamBytes (y : Nat) (r : Run) (bs : List Nat) {s : State} (hq : s.xferBusy = false) :
    SendsWhole s (bs.foldl (streamByte y r) s) := by
  induction bs generalizing s with
  | nil => exact refl s
  | cons b bs ih =>
    have hbyte : SendsWhole s (streamByte y r s b) := (emit hq rfl).trans (silent rfl rfl)
    exact hbyte.trans (ih hq)

theorem streamRun (y : Nat) (s : State) (r : Run) : SendsWhole s (Machine.streamRun y s r) := by
  have haddr : SendsWhole s.dmaWait (s.dmaWait.dispAddr y (r.col / 2)) :=
    of_events (es := [.busCmd _]) s.dmaWait_xferBusy s.dmaWait_xferBusy rfl (by simp [Event.isBulk])
  exact (dmaWait s).trans (haddr.trans (streamBytes y r _ s.dmaWait_xferBusy))

theorem hLine (m : Mode) (x y : Int) (pix : List Nibble) (s : State) : SendsWhole s (Machine.hLine m x y pix s).1 := by
  unfold Machine.hLine
  split
  · cases m
    · simp only
      rw [hLineBuf_frame]
      exact silent rfl rfl
    · exact foldl (streamRun _) _ s
  · exact refl s

theorem hLineRows (m : Mode) (x y : Int) (pix : List Nibble) (h : Nat) (s : State) :
    SendsWhole s (Machine.hLineRows m x y pix h s).1 := by
  induction h with
  | zero => exact refl s
  | succ h ih =>
    rw [hLineRows_succ]
    exact ih.trans (hLine m x _ pix _)

theorem fullScreenChunk (p n : Nat) (s : State) (c : Nat) : SendsWhole s (Machine.fullScreenChunk p n s c) := by
  have hrun : SendsWhole s (if c = 0 then s.bulkWriteRun 0 0 (.stage 0) (s.chunkLength c)
      else s.bulkContinue (.stage (c % 2)) (s.chunkLength c)) := by
    split
    · exact bulkWriteRun s _ _ _ _
    · exact bulkContinue s _ _
  exact hrun.thenIf (setStage _ _ _)

theorem blitFullScreen (p : Nat) (s : State) : SendsWhole s (Machine.blitFullScreen p s) :=
  (setStage s 0 _).trans ((foldl (fullScreenChunk p _) _ _).trans
    ((dmaWait _).trans (foldl (fun t yy => storeShadow t yy _ _) _ _)))

theorem blitAlignedRow (x y : Int) (bw p : Nat) (acc : State × Nat) (r : Nat) :
    SendsWhole acc.1 (Machine.blitAlignedRow x y bw p acc r).1 := by
  have hline := setLine acc.1 (acc.1.streamRow p (r * bw) bw)
  unfold Machine.blitAlignedRow
  simp only
  split
  · exact hline.trans ((setStage _ _ _).trans ((bulkWriteRun _ _ _ _ _).trans (storeShadow _ _ _ _)))
  · exact hline

theorem blitAligned (x y : Int) (bw bh p : Nat) (s : State) : SendsWhole s (Machine.blitAligned x y bw bh p s) := by
  unfold Machine.blitAligned
  induction bh with
  | zero => exact refl s
  | succ n ih =>
    rw [List.range_succ, List.foldl_append]
    exact ih.trans (blitAlignedRow x y bw p _ n)

theorem blitGeneric (x y : Int) (bw bh p : Nat) (m : Mode) (s : State) :
    SendsWhole s (Machine.blitGeneric x y bw bh p m s) :=
  foldl (fun t _ => (setLine t _).trans (hLine m x _ _ _)) _ s

theorem blitStream (x y : Int) (bw bh p : Nat) (m : Mode) (s : State) :
    SendsWhole s (Machine.blitStream x y bw bh p m s).1 := by
  have hdrawn (st : Strategy) : SendsWhole s (blitBy st x y bw bh p m s) := by
    cases st with
    | fullScreen => exact blitFullScreen p s
    | aligned => exact blitAligned x y bw bh p s
    | generic => exact blitGeneric x y bw bh p m s
  exact (hdrawn _).trans (dmaWait _)

/-! #### Glyphs and text -/

theorem drawGlyphAt (m : Mode) (x y : Int) (cp : Word) (s : State) :
    SendsWhole s (Machine.drawGlyphAt m x y cp s).state := by
  unfold Machine.drawGlyphAt
  split
  · exact refl s
  · simp only
    split
    · exact refl s
    · split
      · exact refl s
      · exact blitStream _ _ _ _ _ m s

theorem checkRight {mt : Metrics} (h : s.checkRight mt = some t) : SendsWhole s t := by
  rw [State.checkRight_cases] at h
  split at h
  · exact Option.some.inj h ▸ refl s
  · split at h
    · exact Option.some.inj h ▸ silent rfl rfl
    · split at h
      · exact Option.some.inj h ▸ refl s
      · cases h

theorem putCharCore (m : Mode) (cp : Word) (s : State) : SendsWhole s (Machine.putCharCore m cp s).1 := by
  unfold Machine.putCharCore
  split
  · exact silent rfl rfl
  · split
    · exact silent rfl rfl
    · split
      · exact refl s
      · split
        · exact refl s
        · rename_i hr
          refine (checkRight hr).trans ?_
          split
          · exact (drawGlyphAt m _ _ cp _).trans (silent rfl rfl)
          · exact refl _

theorem emitString (m : Mode) (cps : List Word) (s : State) : SendsWhole s (Machine.emitString m cps s).1 := by
  induction cps generalizing s with
  | nil => exact refl s
  | cons cp cps ih =>
    have hchar := putCharCore m cp s
    unfold Machine.emitString
    split
    · rename_i t hp
      rw [hp] at hchar
      exact hchar
    · rename_i t hp
      rw [hp] at hchar
      exact hchar.trans (ih t)

end SendsWhole

/-! ### Commands -/

/-- The command answers a next state, and has sent whole transfers on the way to it. -/
def AnswersWhole (s : State) (r : Result) : Prop := ∃ t, r = .next t ∧ SendsWhole s t

namespace AnswersWhole

variable {s v t : State}

/-- The end of a command records no event, nor does it touch the guard (R271). -/
theorem ends (h : SendsWhole s v) (hx : t.xferBusy = v.xferBusy) (ht : t.trace = v.trace) : AnswersWhole s (.next t) :=
  ⟨t, rfl, h.trans (.silent hx ht)⟩

/-- A check that a command makes before it does anything (R276). -/
theorem guard {p : Prop} [Decidable p] {c : Code} {r0 r1 r2 r3 : Word} {r : Result} (h : AnswersWhole s r) :
    AnswersWhole s (if p then failWith c s r0 r1 r2 r3 else r) := by
  split
  · exact ends (.refl s) rfl rfl
  · exact h

theorem execInit (w h : Word) (hq : s.xferBusy = false) : AnswersWhole s (Machine.execInit w h s) := by
  cases hg : geometryBad s.cfg w h with
  | true =>
    unfold Machine.execInit
    rw [if_pos hg]
    exact ends (.refl s) rfl rfl
  | false =>
    have hinit : (s.initialised w h).xferBusy = s.xferBusy ∧
        (s.initialised w h).trace = s.trace ++ s.cfg.powerUpEvents := by
      unfold State.initialised
      rw [s.powerUp_eq]
      exact ⟨rfl, rfl⟩
    rw [execInit_accepted hg]
    exact ends (.of_events hq (hinit.1.trans hq) hinit.2 (powerUpEvents_isBulk s.cfg)) rfl rfl

/-- The commands that may send to the display, one by one (R61, R85). -/
theorem exec {i : Instr} (hw : i.WritesDisp) (hq : s.xferBusy = false) : AnswersWhole s (Machine.exec i s) := by
  cases i
  case init w h => exact execInit w h hq
  case flushWindow x y w h =>
    refine .guard (.guard ?_)
    simp only
    split
    · exact ends (.refl s) rfl rfl
    · exact ends ((SendsWhole.foldl (fun t _ => .xferRun t _ _ _ _) _ s).trans (.dmaWait _)) rfl rfl
  case flushFull => exact .guard (.guard (ends ((SendsWhole.runTransition s.trans s).trans (.dmaWait _)) rfl rfl))
  case writeHline m x y n payload =>
    exact .guard (.guard (.guard (ends ((SendsWhole.setLine s _).trans
      ((SendsWhole.hLine m _ _ _ _).trans (.dmaWait _))) rfl rfl)))
  case drawRect m x y w h c =>
    exact .guard (.guard (ends ((SendsWhole.hLineRows m _ _ _ _ s).trans (.dmaWait _)) rfl rfl))
  case drawImage m x y f =>
    refine .guard (.guard ?_)
    split
    · exact ends (.refl s) rfl rfl
    · exact .guard (ends (.blitStream _ _ _ _ _ m s) rfl rfl)
  case drawGlyph m x y c =>
    refine .guard (.guard (.guard ?_))
    simp only
    split
    · exact ends (.drawGlyphAt m _ _ c s) rfl rfl
    · exact ends (.refl s) rfl rfl
  case putChar m c => exact .guard (.guard (.guard (ends (.putCharCore m c s) rfl rfl)))
  case putString m n cs => exact .guard (.guard (.guard (.guard (ends (.emitString m cs s) rfl rfl))))
  case putStringXy m j x y n cs =>
    refine .guard (.guard (.guard (.guard ?_)))
    simp only
    generalize reg16 (max (justifiedStart j (s16 x) (s.stringWidth cs)) (s16 s.minTextX)) = sx
    have hbegin : SendsWhole s (s.justified j (s16 x) sx y) := .silent rfl rfl
    exact ends (hbegin.trans (.emitString m cs _)) rfl rfl
  all_goals exact absurd hw (by simp [Instr.opcode, drawingOpcodes])

end AnswersWhole

/-- Settles O15: a command that may send to the display begins and ends with no transfer in flight and sends whole transfers
(`AnswersWhole.exec`); any other records no event (`exec_frame`). -/
theorem busDiscipline : Obligations.BusDiscipline := by
  intro i s t hs h
  by_cases hw : i.WritesDisp
  · obtain ⟨u, hu, es, hes, hwhole⟩ := AnswersWhole.exec hw hs.quiet
    rw [h] at hu
    injection hu with hu
    subst hu
    rw [State.dmaWait_eq_of_quiet hs.quiet, State.dmaWait_eq_of_quiet ((exec_ends h).quiet hs)] at hes
    exact ⟨es, hes, fun _ _ _ _ _ => hwhole.start_then_done, fun _ => hwhole.done_after_start⟩
  · have ht : t.trace = s.trace := by
      rw [exec_frame hs h]
      exact if_neg hw
    exact ⟨[], by rw [ht, List.append_nil], by simp, by simp⟩

end Sys2Proof.Machine

/-!
SUPPORT. DRAW_IMAGE on the two paths of the Bulk Transfer Channel (43_dma_streamer.md R230, R233): what each leaves on the
screen and in the cache, and its bus traffic.
-/
namespace Sys2Proof.Machine

/-! ### Runs and rows of whole bytes -/

/-- The bytes of a run, read back (R79). -/
theorem State.read_writeRun (u : State) {y b : Nat} (bs : List Byte) (hb : b < u.bpr) (off : Nat) :
    Memory.read (u.writeRun y b bs).disp off =
      if u.offset y b ≤ off ∧ off < u.offset y b + bs.length then bs[off - u.offset y b]? else Memory.read u.disp off :=
  (State.sendBytes_spec (u.pointAt y b) bs hb).1 off

section

variable {u : State} {y b n : Nat} {pix : Nat → Nibble}

/-- A whole byte of a row, read back (R233). -/
theorem State.read_writeRow_at (hb : b < u.bpr) {j : Nat} (hj : j < n) :
    Memory.read (u.writeRow y b n pix).disp (u.offset y (b + j)) = some (pack (pix (2 * j)) (pix (2 * j + 1))) := by
  have hin : u.offset y b ≤ u.offset y (b + j) ∧ u.offset y (b + j) < u.offset y b + n := by
    unfold State.offset
    omega
  have hpos : u.offset y (b + j) - u.offset y b = j := by
    unfold State.offset
    omega
  refine (u.read_writeRun (wholeBytes pix n) hb _).trans ?_
  rw [length_wholeBytes, if_pos hin, hpos]
  simp [wholeBytes, hj]

/-- A row of whole bytes leaves every other byte of the display (R233). -/
theorem State.read_writeRow_other (hb : b < u.bpr) {off : Nat} (h : ∀ j, j < n → off ≠ u.offset y (b + j)) :
    Memory.read (u.writeRow y b n pix).disp off = Memory.read u.disp off := by
  refine (u.read_writeRun (wholeBytes pix n) hb off).trans (if_neg ?_)
  rintro ⟨h0, h1⟩
  rw [length_wholeBytes] at h1
  refine h (off - u.offset y b) (by omega) ?_
  unfold State.offset at *
  omega

/-- The shadow entry of a row of whole bytes is the last of them (R233). -/
theorem State.writeRow_shadow (hn : 0 < n) :
    (u.writeRow y b n pix).shadow = u.shadow.set y
      { col := BitVec.ofNat 16 (b + n - 1), byte := pack (pix (2 * (n - 1))) (pix (2 * (n - 1) + 1)) } := by
  have hlast : (wholeBytes pix n).getD (n - 1) 0 = pack (pix (2 * (n - 1))) (pix (2 * (n - 1) + 1)) := by
    simp [wholeBytes, hn]
  have hrun : (u.writeRun y b (wholeBytes pix n)).shadow = u.shadow := by
    rw [State.writeRun, State.sendBytes_frame]
    rfl
  rw [State.writeRow, State.storeShadow_shadow, hrun, hlast,
    show reg16 ((b + n - 1 : Nat) : Int) = BitVec.ofNat 16 (b + n - 1) from BitVec.ofInt_natCast ..]

end

/-! ### DRAW_IMAGE by a given strategy -/

/-- A byte of the display at the end of a direct draw that has left the state `v` (R61). -/
theorem State.dispAt_of_direct {s v : State} (h : v.dmaWait.clearScratch = s.withDirectOf v.dmaWait.clearScratch)
    (off : Nat) :
    v.dmaWait.clearScratch.dispAt off = (Memory.read v.disp off).getD (Config.dispFree s.epoch off) := by
  rw [h]
  rfl

theorem State.dispByte_of_direct {s t : State} (h : t = s.withDirectOf t) (y b : Nat) :
    t.dispByte y b = t.dispAt (s.offset y b) := by
  rw [h]
  rfl

/-- DRAW_IMAGE in direct mode by a given strategy (R165): its end, and what it may have changed. -/
theorem execDrawImage_direct {s : State} (hs : s.Ready) {x y fileId : Word} {a : Addr}
    (ha : s.assetAddr fileId s.cfg.typeBitmap = some a) (hw : (s.assetField16 a.toNat).toNat ≤ s.cfg.lineCap)
    {bw bh : Nat} (hbw : (s.assetField16 a.toNat).toNat = bw) (hbh : (s.assetField16 (a.toNat + 2)).toNat = bh)
    {st : Strategy} (hst : s.selectStrategy (s16 x) (s16 y) bw bh .direct = st) {v : State}
    (hv : blitBy st (s16 x) (s16 y) bw bh (a.toNat + 8) .direct s = v) :
    let t := v.dmaWait.clearScratch
    exec (.drawImage .direct x y fileId) s =
        .next (t.endCommand .ok (BitVec.ofNat 16 bw) (BitVec.ofNat 16 bh) st.number 0) ∧
      t = s.withDirectOf t ∧ t.xferBusy = false := by
  subst hbw hbh hst hv
  obtain ⟨t, hexec, rfl, _, hframe, hquiet⟩ :=
    ((drawImageCommand s .direct x y fileId hs (by simp)).2 a ha).2 hw
  refine ⟨?_, hframe, hquiet⟩
  rw [BitVec.ofNat_toNat, BitVec.ofNat_toNat, BitVec.setWidth_eq, BitVec.setWidth_eq]
  exact hexec

/-! ### The full-screen path -/

/-- The events of chunk `c` of a full-screen stream: its bulk transfer, and before the first the addressing command
(R230). -/
def State.chunkEvents (s : State) (c : Nat) : List Event :=
  (if c = 0 then [.busCmd (addrCmds s.cfg 0 0)] else []) ++
    [.dmaStart s.cfg.dmaDest (.stage (c % 2)) (s.chunkLength c) s.cfg.dmaTrig, .dmaDone]

theorem fullScreenChunk_dmaWait_trace (p n : Nat) (s : State) (c : Nat) :
    (fullScreenChunk p n s c).dmaWait.trace = s.dmaWait.trace ++ s.chunkEvents c := by
  have hrun : (if c = 0 then s.bulkWriteRun 0 0 (.stage 0) (s.chunkLength c)
      else s.bulkContinue (.stage (c % 2)) (s.chunkLength c)).dmaWait.trace = s.dmaWait.trace ++ s.chunkEvents c := by
    unfold State.chunkEvents
    split
    · rename_i h0
      subst h0
      exact s.bulkWriteRun_dmaWait_trace 0 0 (.stage 0) _
    · exact s.bulkContinue_dmaWait_trace _ _
  unfold fullScreenChunk
  simp only
  split
  · exact hrun
  · exact hrun

/-- The events of the first `n` chunks of a full-screen stream (R230). -/
theorem fullScreenChunks_dmaWait_trace (p m n : Nat) (s : State) :
    ((List.range n).foldl (fullScreenChunk p m) s).dmaWait.trace =
      s.dmaWait.trace ++ (List.range n).flatMap s.chunkEvents := by
  induction n with
  | zero => simp
  | succ n ih =>
    have hsame := (Polls.foldl (fullScreenChunk_polls p m) (List.range n) s).same
    have hevents := reads_same (fun v => v.chunkEvents n) hsame
    rw [List.range_succ, List.foldl_append, List.foldl_cons, List.foldl_nil, fullScreenChunk_dmaWait_trace, ih, hevents,
      List.flatMap_append, List.flatMap_singleton, List.append_assoc]

/-- A stream of one chunk or more has one addressing command, and then its transfers (R230, R231). -/
theorem State.chunkEvents_flatMap (s : State) {n : Nat} (hn : 0 < n) :
    (List.range n).flatMap s.chunkEvents = .busCmd (addrCmds s.cfg 0 0) ::
      (List.range n).flatMap fun c =>
        [.dmaStart s.cfg.dmaDest (.stage (c % 2)) (s.chunkLength c) s.cfg.dmaTrig, .dmaDone] := by
  induction n, hn using Nat.le_induction with
  | base => rfl
  | succ n hn ih =>
    rw [List.range_succ, List.flatMap_append, ih, List.flatMap_append, List.flatMap_singleton, List.flatMap_singleton,
      State.chunkEvents, if_neg (by omega)]
    rfl

/-- The bus traffic of the full-screen path: its chunks', each completed (R230). -/
theorem blitFullScreen_dmaWait_trace (p : Nat) (s : State) :
    (blitFullScreen p s).dmaWait.trace = s.dmaWait.trace ++ (List.range s.chunkCount).flatMap s.chunkEvents := by
  have hstores (f : State → Nat → Byte) (l : List Nat) (u : State) :
      (l.foldl (fun t yy => t.storeShadow yy (t.bpr - 1) (f t yy)) u).dmaWait.trace = u.dmaWait.trace := by
    induction l generalizing u with
    | nil => rfl
    | cons yy l ih => exact ih _
  exact (hstores _ _ _).trans (fullScreenChunks_dmaWait_trace p s.chunkCount s.chunkCount (fillStage p 0 s 0))

section

variable {s : State} (hs : s.Drawable) (hf : 0 < s.cfg.fsChunk) (p : Nat)
include hs hf

/-- The screen after the full-screen path shows the stream's bytes in order; every byte past them stays (R230). -/
theorem blitFullScreen_read (off : Nat) :
    Memory.read (blitFullScreen p s).disp off =
      if off < s.height * s.bpr then some (s.screenByte p off) else Memory.read s.disp off := by
  obtain ⟨t, hchunks, heq⟩ := blitFullScreen_eq p hs hf
  have hdisp : (blitFullScreen p s).disp =
      (s.offEvents.writeRun 0 0 (s.screenBytes p (s.height * s.bpr))).disp := by
    rw [← hchunks.offEvents (State.chunkCount_pos hs.geometry hf), heq]
    rfl
  have hzero : s.offEvents.offset 0 0 = 0 := by simp [State.offset]
  rw [hdisp, s.offEvents.read_writeRun _ hs.geometry.bpr_pos, hzero, State.length_screenBytes]
  by_cases hoff : off < s.height * s.bpr
  · simp [hoff, State.screenBytes]
  · simp [hoff]
    rfl

theorem blitFullScreen_shadow :
    (blitFullScreen p s).shadow =
      (List.range s.height).map fun yy => { col := BitVec.ofNat 16 (s.bpr - 1), byte := s.lastByte p yy } := by
  obtain ⟨t, _, heq⟩ := blitFullScreen_eq p hs hf
  rw [heq, show reg16 ((s.bpr - 1 : Nat) : Int) = BitVec.ofNat 16 (s.bpr - 1) from BitVec.ofInt_natCast ..]

end

/-- Settles O44: the screen, the cache and the events of the full-screen path are those of its chunks and its closing loop
over the rows (`blitFullScreen_read`, `blitFullScreen_shadow`, `blitFullScreen_dmaWait_trace`). -/
theorem fullScreenImage : Obligations.FullScreenImage := by
  intro s x y fileId a hs hf ha bw bh hw hst p total lastByte
  have hd := hs.1.drawable hs.2
  obtain ⟨hexec, hframe, hquiet⟩ := execDrawImage_direct (v := blitFullScreen p s) hs ha hw rfl rfl hst rfl
  have hread (off : Nat) : (blitFullScreen p s).dmaWait.clearScratch.dispAt off =
      if off < total then s.screenByte p off else s.dispAt off := by
    rw [State.dispAt_of_direct hframe, blitFullScreen_read hd hf]
    split <;> rfl
  refine ⟨(blitFullScreen p s).dmaWait.clearScratch, hexec, hframe, hquiet, fun yy b hy hb => ?_,
    fun off hoff => ?_, ?_, ?_⟩
  · have hpos : 2 * s.offset yy b = yy * s.width + 2 * b := by
      have hwidth : s.width = 2 * s.bpr := by
        have := hd.geometry.2.1
        unfold State.bpr
        omega
      unfold State.offset
      rw [hwidth]
      ring
    rw [State.dispByte_of_direct hframe, hread, if_pos (Kept.offset_lt hy hb), State.screenByte, hpos]
  · rw [hread, if_neg (by omega)]
  · rw [State.clearScratch_shadow, State.dmaWait_shadow]
    exact blitFullScreen_shadow hd hf p
  · rw [State.clearScratch_trace, blitFullScreen_dmaWait_trace, State.dmaWait_eq_of_quiet hs.1.quiet,
      s.chunkEvents_flatMap (State.chunkCount_pos hd.geometry hf)]
    rfl

/-! ### The aligned path -/

/-- Row `r` of an aligned bitmap is sent, to row `y'` of the screen, before row `n` is: it is visible and has a whole byte
left of the margin and the screen's edge (R233). -/
def State.SentRow (s : State) (x y : Int) (bw n r y' : Nat) : Prop :=
  r < n ∧ (y' : Int) = y + r ∧ s.rowVisible y' = true ∧ 0 < s.alignedBytes x bw

/-- The shadow entry that row `r` of an aligned bitmap leaves: its last whole byte (R233). -/
def State.alignedEntry (s : State) (x : Int) (bw p r : Nat) : ShadowEntry :=
  { col := BitVec.ofNat 16 ((x / 2).toNat + s.alignedBytes x bw - 1)
    byte := pack (s.pixelStream p (r * bw + 2 * (s.alignedBytes x bw - 1)))
      (s.pixelStream p (r * bw + (2 * (s.alignedBytes x bw - 1) + 1))) }

/-- What the first `n` rows of an aligned bitmap leave, of the display and the cache of `s`, in `t` (R233). -/
structure AlignedPicture (x y : Int) (bw p n : Nat) (s t : State) : Prop where
  shown : ∀ r y' j, s.SentRow x y bw n r y' → j < s.alignedBytes x bw →
    Memory.read t.disp (s.offset y' ((x / 2).toNat + j)) =
      some (pack (s.pixelStream p (r * bw + 2 * j)) (s.pixelStream p (r * bw + (2 * j + 1))))
  stays : ∀ off, (∀ r y' j, s.SentRow x y bw n r y' → j < s.alignedBytes x bw →
    off ≠ s.offset y' ((x / 2).toNat + j)) → Memory.read t.disp off = Memory.read s.disp off
  entry : ∀ r y', s.SentRow x y bw n r y' → t.shadow[y']? = some (s.alignedEntry x bw p r)
  entryStays : ∀ y', (∀ r, ¬s.SentRow x y bw n r y') → t.shadow[y']? = s.shadow[y']?

section

variable {s t u : State} {x y : Int} {bw p n r y' : Nat}

theorem State.SentRow.succ (h : s.SentRow x y bw n r y') : s.SentRow x y bw (n + 1) r y' :=
  ⟨Nat.lt_succ_of_lt h.1, h.2⟩

theorem State.sentRow_succ (h : s.SentRow x y bw (n + 1) r y') :
    s.SentRow x y bw n r y' ∨ (r = n ∧ s.SentRow x y bw (n + 1) n y') := by
  rcases Nat.lt_succ_iff_lt_or_eq.1 h.1 with hr | rfl
  · exact .inl ⟨hr, h.2⟩
  · exact .inr ⟨rfl, h⟩

/-- A row that is not sent leaves the picture. -/
theorem AlignedPicture.skip (h : AlignedPicture x y bw p n s t) (hd : u.disp = t.disp) (hs : u.shadow = t.shadow)
    (hn : ∀ y', ¬s.SentRow x y bw (n + 1) n y') : AlignedPicture x y bw p (n + 1) s u := by
  have hrow {r y' : Nat} : s.SentRow x y bw (n + 1) r y' ↔ s.SentRow x y bw n r y' :=
    ⟨fun k => (State.sentRow_succ k).resolve_right fun k => hn y' k.2, State.SentRow.succ⟩
  obtain ⟨h1, h2, h3, h4⟩ := h
  constructor
  all_goals
    simp only [hrow, hd, hs]
    assumption

/-- A row that is sent puts its whole bytes into the picture, on a row of the screen that no row before reached. -/
theorem AlignedPicture.send (h : AlignedPicture x y bw p n s t) (hk : Kept s t) (hs : s.Drawable) (hx : 0 ≤ x)
    {yn : Nat} (hn : s.SentRow x y bw (n + 1) n yn)
    (hu : u.offEvents =
      t.offEvents.writeRow yn (x / 2).toNat (s.alignedBytes x bw) fun i => s.pixelStream p (n * bw + i)) :
    AlignedPicture x y bw p (n + 1) s u := by
  obtain ⟨-, hyn, hvis, hnb⟩ := hn
  have hb := State.alignedBytes_bounds hx hs.geometry.2.1 hnb
  have hcol : (x / 2).toNat < t.offEvents.bpr := by
    show _ < t.bpr
    rw [hk.bpr]
    omega
  have hoff (y' b : Nat) : t.offEvents.offset y' b = s.offset y' b := by
    show y' * t.bpr + b = _
    rw [hk.bpr]
    rfl
  have hdisp : u.disp = _ := (congrArg State.disp hu :)
  have hshadow : u.shadow = _ := (congrArg State.shadow hu :).trans (State.writeRow_shadow hnb)
  have hlen : yn < t.shadow.length := by
    rw [(hk.shadow hs.shadow).1, hk.height]
    have := (State.rowVisible_bounds hs.window hvis).2.2
    omega
  have hrow {r y' : Nat} (k : s.SentRow x y bw (n + 1) r y') :
      s.SentRow x y bw n r y' ∧ y' ≠ yn ∨ r = n ∧ y' = yn := by
    rcases State.sentRow_succ k with k | ⟨rfl, k⟩
    · have hy' := k.2.1
      have hr := k.1
      exact .inl ⟨k, by omega⟩
    · have hy' := k.2.1
      exact .inr ⟨rfl, by omega⟩
  have hnew : s.SentRow x y bw (n + 1) n yn := ⟨Nat.lt_succ_self n, hyn, hvis, hnb⟩
  constructor
  · intro r y' j k hj
    rw [hdisp]
    rcases hrow k with ⟨k, hne⟩ | ⟨rfl, rfl⟩
    · rw [State.read_writeRow_other hcol fun i hi heq => ?_]
      · exact h.shown r y' j k hj
      · rw [hoff] at heq
        exact hne ((State.offset_inj (by omega) (by omega)).1 heq).1
    · rw [← hoff]
      exact State.read_writeRow_at hcol hj
  · intro off k
    rw [hdisp, State.read_writeRow_other hcol fun j hj => by rw [hoff]; exact k n yn j hnew hj]
    exact h.stays off fun r y' j kr => k r y' j kr.succ
  · intro r y' k
    rw [hshadow]
    rcases hrow k with ⟨k, hne⟩ | ⟨rfl, rfl⟩
    · rw [List.getElem?_set_ne hne.symm]
      exact h.entry r y' k
    · exact List.getElem?_set_self hlen
  · intro y' k
    rw [hshadow, List.getElem?_set_ne (by rintro rfl; exact k n hnew)]
    exact h.entryStays y' fun r kr => k r kr.succ

/-- What the aligned path leaves on the display and in the cache (R233). -/
theorem blitAligned_picture (hs : s.Drawable) (hx : 0 ≤ x) (y : Int) (bw bh p : Nat) :
    AlignedPicture x y bw p bh s (blitAligned x y bw bh p s) := by
  unfold blitAligned
  induction bh with
  | zero =>
    have hnone (r y' : Nat) : ¬s.SentRow x y bw 0 r y' := fun k => Nat.not_lt_zero r k.1
    exact ⟨fun r y' _ k => absurd k (hnone r y'), fun _ _ => rfl, fun r y' k => absurd k (hnone r y'), fun _ _ => rfl⟩
  | succ n ih =>
    have hk : Kept s ((List.range n).foldl (blitAlignedRow x y bw p) (s, 0)).1 := blitAligned_kept y bw n p hs hx
    rw [List.range_succ, List.foldl_append, List.foldl_cons, List.foldl_nil]
    generalize (List.range n).foldl (blitAlignedRow x y bw p) (s, 0) = acc at *
    obtain ⟨t, k⟩ := acc
    have hrow := blitAlignedRow_offEvents (y := y) (hk.drawable hs) hx bw p k n
    simp only [hk.rowVisible, hk.alignedBytes, hk.pixelStream] at hrow
    by_cases hv : s.rowVisible (y + n) = true ∧ 0 < s.alignedBytes x bw
    · have hy : ((y + n).toNat : Int) = y + n := Int.toNat_of_nonneg (State.rowVisible_bounds hs.window hv.1).1
      rw [if_pos hv] at hrow
      exact ih.send hk hs hx ⟨Nat.lt_succ_self n, hy, by rw [hy]; exact hv.1, hv.2⟩ hrow
    · rw [if_neg hv] at hrow
      refine ih.skip (congrArg State.disp hrow :) (congrArg State.shadow hrow :) ?_
      rintro y' ⟨-, hy, hvis, hnb⟩
      exact hv ⟨hy ▸ hvis, hnb⟩

end

/-- Settles O45: the display and the cache are those of the rows sent (`blitAligned_picture`), the events those of
`blitAligned_trace`. -/
theorem alignedImage : Obligations.AlignedImage := by
  intro s x y fileId a hs ha bw bh hw hst p nb b0 sent
  have hd := hs.1.drawable hs.2
  have hx : 0 ≤ s16 x := by
    rcases s.selectStrategy_cases (s16 x) (s16 y) bw bh .direct with ⟨h, _⟩ | ⟨_, _, _, _, _, _, _, _, hx, _⟩ | h
    · rw [h] at hst
      cases hst
    · exact hx
    · rw [h] at hst
      cases hst
  obtain ⟨hexec, hframe, hquiet⟩ :=
    execDrawImage_direct (v := blitAligned (s16 x) (s16 y) bw bh p s) hs ha hw rfl rfl hst rfl
  obtain ⟨hshown, hstays, hentry, hentryStays⟩ := blitAligned_picture hd hx (s16 y) bw bh p
  refine ⟨(blitAligned (s16 x) (s16 y) bw bh p s).dmaWait.clearScratch, hexec, hframe, hquiet, ?_, ?_, ?_, ?_, ?_⟩
  · intro r j y' hr hy hv hj
    have hsent : s.SentRow (s16 x) (s16 y) bw bh r y' := ⟨hr, hy, hv, Nat.zero_lt_of_lt hj⟩
    rw [State.dispByte_of_direct hframe, State.dispAt_of_direct hframe, hshown r y' j hsent hj]
    rfl
  · intro off hother
    rw [State.dispAt_of_direct hframe, hstays off fun r y' j ⟨hr, hy, hv, _⟩ hj => hother r j y' hr hy hv hj]
    rfl
  · rw [State.clearScratch_trace, blitAligned_trace (s16 y) bw bh p hd hx, State.dmaWait_eq_of_quiet hs.1.quiet]
    rfl
  · intro r y' hr hy hv hnb
    rw [State.clearScratch_shadow, State.dmaWait_shadow]
    exact hentry r y' ⟨hr, hy, hv, hnb⟩
  · intro y' hnone
    have hunsent (r : Nat) : ¬s.SentRow (s16 x) (s16 y) bw bh r y' := by
      rintro ⟨hr, hy, hv, hnb⟩
      rcases hnone with h | h | h
      · exact h r hr hy
      · exact absurd (hv.symm.trans h) (by simp)
      · exact hnb.ne' h
    rw [State.clearScratch_shadow, State.dmaWait_shadow]
    exact hentryStays y' hunsent

end Sys2Proof.Machine

/-!
SUPPORT. LOAD_TRANSITION and FLUSH_FULL (44_transition.md R250 to R258): which tag a kind names, what a flush of the whole
buffer leaves on the display and beside it, its delays, and the frames of the wipes and of the iris.
-/
namespace Sys2Proof.Machine

/-! ### LOAD_TRANSITION -/

/-- The numbers of the tags name the tags (R28, R250). -/
theorem transitionOf_number (k : Transition) : transitionOf k.number = some k := by
  cases k
  all_goals rfl

/-- The kinds up to 6 are the numbers of the tags (R28, R103). -/
theorem Transition.exists_number {kind : Word} (h : kind.toNat ≤ 6) : ∃ k : Transition, k.number = kind := by
  have hkind : kind = BitVec.ofNat 16 kind.toNat := by simp
  generalize kind.toNat = n at *
  subst hkind
  interval_cases n
  · exact ⟨.none, rfl⟩
  · exact ⟨.wipeLr, rfl⟩
  · exact ⟨.wipeRl, rfl⟩
  · exact ⟨.wipeTb, rfl⟩
  · exact ⟨.wipeBt, rfl⟩
  · exact ⟨.irisIn, rfl⟩
  · exact ⟨.irisOut, rfl⟩

theorem execLoadTransition_number {s : State} (hi : s.inited = true) (k : Transition) :
    execLoadTransition k.number s = .next ({ s with trans := k }.endCommand .ok k.number s.trans.number 0 0) := by
  simp only [execLoadTransition, hi, transitionOf_number]
  rfl

/-- Settles O56: a kind up to 6 is a tag's number (`Transition.exists_number`), the others are reserved
(`execLoadTransition_reserved`). -/
theorem loadTransitionCommand : Obligations.LoadTransitionCommand := by
  intro s kind hi
  refine ⟨fun hle => ?_, execLoadTransition_reserved hi⟩
  obtain ⟨k, rfl⟩ := Transition.exists_number hle
  exact ⟨{ s with trans := k }, execLoadTransition_number hi k, rfl, rfl⟩

/-! ### FLUSH_FULL -/

/-- An address that is not listed holds no value. -/
theorem Memory.read_eq_none {m : Memory} {a : Nat} (h : a ∉ Memory.addresses m) : Memory.read m a = none := by
  induction m with
  | nil => rfl
  | cons c m ih =>
    obtain ⟨ha, hm⟩ := not_or.1 (List.mem_cons.not.1 h)
    exact (if_neg ha).trans (ih hm)

theorem Flushing.epoch {s t : State} (h : Flushing s t) : t.epoch = s.epoch := by
  rw [h.frame]
  rfl

/-- A byte of the screen picked as shown is the framebuffer's (R252). -/
theorem Shown.dispByte {s t : State} {P : Nat → Nat → Prop} (h : Shown s t P) (hf : Flushing s t) {y b : Nat}
    (hy : y < s.height) (hb : b < s.bpr) (hp : P y b) : t.dispByte y b = s.fbByte y b := by
  unfold State.dispByte State.dispAt
  rw [hf.offset, h y b hy hb hp]
  rfl

/-- Off the screen nothing is ever sent, so a flush leaves `DISP` there as it is (R79). -/
theorem Flushing.dispAt_offScreen {s t : State} (h : Flushing s t) (hs : s.Sound) {off : Nat}
    (hoff : s.height * s.bpr ≤ off) : t.dispAt off = s.dispAt off := by
  have hnone (m : Memory) (hm : ∀ a ∈ Memory.addresses m, a < s.height * s.bpr) : Memory.read m off = none :=
    Memory.read_eq_none fun hmem => absurd (hm off hmem) (Nat.not_lt.2 hoff)
  unfold State.dispAt
  rw [hnone s.disp hs.dispRange, hnone t.disp (h.kept.dispRange hs.dispRange), h.epoch]

/-- With the scratch memories emptied, a flush that began with them empty has changed the display side alone (R34). -/
theorem Flushing.clearScratch_frame {s t : State} (h : Flushing s t) (hs : s.Sound) :
    t.clearScratch = s.withDispOf t.clearScratch :=
  calc t.clearScratch = ((s.withDispOf t).withScratchOf t).clearScratch := congrArg State.clearScratch h.frame
    _ = s.clearScratch.withDispOf t.clearScratch := rfl
    _ = s.withDispOf t.clearScratch := by rw [hs.clear]

theorem execFlushFull_unsupported {s : State} (hi : s.inited = true) (hf : s.cfg.hasFb = false) :
    execFlushFull s = .next (s.endCommand .errUnsupported 0 0 0 0) := by
  unfold execFlushFull
  rw [hi, hf]
  rfl

theorem execFlushFull_flushed {s : State} (hi : s.inited = true) (hf : s.cfg.hasFb = true) :
    execFlushFull s = .next ({ (runTransition s.trans s).dmaWait.clearScratch with trans := .none }.endCommand .ok
      s.trans.number 0 0 0) := by
  unfold execFlushFull
  rw [hi, hf]
  rfl

/-- Settles O57: what is shown is `runTransition_spec`, the bus traffic `runTransition_trace`. -/
theorem flushFullCommand : Obligations.FlushFullCommand := by
  intro s ⟨hs, hi⟩
  refine ⟨execFlushFull_unsupported hi, fun hf => ?_⟩
  have hg := hs.geometry hi
  obtain ⟨hflush, hshown⟩ := runTransition_spec s.trans hg.bpr_pos
  refine ⟨_, execFlushFull_flushed hi hf, rfl, hflush.dmaWait.clearScratch_frame hs, (runTransition s.trans s).dmaWait_xferBusy,
    runTransition_trace s.trans hg hs.quiet hs.scratch.1, fun y b hy hb => ?_, fun off hoff => ?_⟩
  · exact hshown.dispByte hflush hy hb trivial
  · exact hflush.dispAt_offScreen hs hoff

/-! ### The delays of a flush -/

/-- A run of bytes is sent without a delay (R79). -/
@[simp] theorem State.runEvents_delays (s : State) (y b : Nat) (src : XferSource) (bytes : List Byte) :
    (s.runEvents y b src bytes).filter Event.isDelay = [] := by
  unfold State.runEvents
  split
  · rfl
  · rfl

@[simp] theorem State.fbRunEvents_delays (s : State) (y b n : Nat) :
    (s.fbRunEvents y b n).filter Event.isDelay = [] := s.runEvents_delays ..

@[simp] theorem State.dividerEvents_delays (s : State) (y b n : Nat) :
    (s.dividerEvents y b n).filter Event.isDelay = [] := s.runEvents_delays ..

@[simp] theorem State.columnEvents_delays (s : State) (c : Nat) : (s.columnEvents c).filter Event.isDelay = [] := by
  simp [State.columnEvents, List.filter_flatMap]

/-- Events sent on a condition carry no delay where they carry none when sent. -/
theorem filter_delays_ite {p : Prop} [Decidable p] {es : List Event} (h : es.filter Event.isDelay = []) :
    (if p then es else []).filter Event.isDelay = [] := by
  split
  · exact h
  · rfl

/-- A horizontal wipe sends no delay (R254). -/
theorem State.hWipeEvents_delays (s : State) (forward : Bool) :
    (s.hWipeEvents forward).filter Event.isDelay = [] := by
  simp only [State.hWipeEvents, List.filter_flatMap, List.filter_append, State.columnEvents_delays, List.nil_append,
    List.flatMap_eq_nil_iff]
  exact fun i _ => filter_delays_ite (by simp [List.filter_flatMap])

/-- A vertical wipe waits once in each step (R256). -/
theorem State.vWipeEvents_delays (s : State) (downward : Bool) :
    (s.vWipeEvents downward).filter Event.isDelay = List.replicate s.height (.delay s.cfg.vwipeRowDelay) := by
  have hdivider (p : Prop) [Decidable p] (r : Nat) :
      (if p then s.dividerEvents r 0 s.bpr else []).filter Event.isDelay = [] :=
    filter_delays_ite (s.dividerEvents_delays ..)
  have hwait : [Event.delay s.cfg.vwipeRowDelay].filter Event.isDelay = [.delay s.cfg.vwipeRowDelay] := rfl
  simp only [State.vWipeEvents, List.filter_flatMap, List.filter_append, State.fbRunEvents_delays, hdivider, hwait,
    List.nil_append]
  rw [← List.map_eq_flatMap, List.map_const', List.length_range]

/-- An iris sends no delay (R257). -/
theorem State.irisEvents_delays (s : State) (outward : Bool) :
    (s.irisEvents outward).filter Event.isDelay = [] := by
  simp only [State.irisEvents, List.filter_flatMap, List.filter_append, State.columnEvents_delays, List.nil_append,
    List.flatMap_eq_nil_iff]
  exact fun i _ => filter_delays_ite (s.columnEvents_delays _)

theorem State.transitionEvents_delays (s : State) (k : Transition) :
    (s.transitionEvents k).filter Event.isDelay =
      List.replicate (if k = .wipeTb ∨ k = .wipeBt then s.height else 0) (.delay s.cfg.vwipeRowDelay) := by
  cases k
  case none => exact s.fbRunEvents_delays ..
  case wipeLr | wipeRl => exact s.hWipeEvents_delays _
  case wipeTb | wipeBt => exact s.vWipeEvents_delays _
  case irisIn | irisOut => exact s.irisEvents_delays _

/-- Settles O58: the delays among the events O57 names (`State.transitionEvents_delays`). -/
theorem transitionDelays : Obligations.TransitionDelays := by
  intro s t hs hf hexec
  obtain ⟨u, hnext, _, _, _, htrace, _⟩ := (flushFullCommand s hs).2 hf
  obtain rfl : t = _ := Host.Outcome.next.inj (hexec.symm.trans hnext)
  exact ⟨s.transitionEvents s.trans, htrace, s.transitionEvents_delays s.trans⟩

/-! ### The frames of the wipes and of the iris -/

/-- The screen of a flush in progress, byte by byte. -/
theorem Sending.dispByte {s t : State} {es : List Event} {pic : Nat → Nat → Option Byte} (h : Sending s t es pic)
    {y b : Nat} (hy : y < s.height) (hb : b < s.bpr) :
    t.dispByte y b = (pic y b).getD (Config.dispFree s.epoch (s.offset y b)) := by
  unfold State.dispByte State.dispAt
  rw [h.flushing.offset, h.shows y b hy hb, h.flushing.epoch]

/-- A byte sent on a condition, and what shows where it was not sent. -/
theorem getD_ite_sent {p : Prop} [Decidable p] (v d : Byte) (o : Option Byte) :
    (if p then some v else o).getD d = if p then v else o.getD d := apply_ite (Option.getD · d) ..

/-- Settles O59: the frames of `hWipe_sending`, `vWipe_sending` and `iris_sending` after `k + 1` steps, as bytes. -/
theorem transitionFrames : Obligations.TransitionFrames := by
  intro s dir k y b ⟨hs, hi⟩ hy hb
  have hdivider := State.stageDivider_stage0 (hs.geometry hi) hs.scratch.1
  refine ⟨?_, ?_, ?_⟩
  · intro hk t turn
    rw [(hWipe_sending dir hdivider hk).dispByte hy hb, getD_ite_sent, getD_ite_sent]
    exact if_congr Nat.lt_succ_iff rfl (if_congr (and_iff_left k.succ_pos) rfl rfl)
  · intro hk t turn
    rw [(vWipe_sending dir hdivider (Nat.zero_lt_of_lt hb) hk).dispByte hy hb, getD_ite_sent, getD_ite_sent]
    exact if_congr Nat.lt_succ_iff rfl
      (if_congr (or_congr (and_iff_left k.succ_pos) (and_congr_right' Nat.succ_lt_succ_iff)) rfl rfl)
  · intro hk t
    have hinner : (s.bpr + 1) / 2 - (k + 1) = (s.bpr + 1) / 2 - 1 - k := by omega
    rw [(iris_sending dir s hk).dispByte hy hb, getD_ite_sent, hinner]
    exact if_congr (by rw [Nat.lt_succ_iff]) rfl rfl

end Sys2Proof.Machine

/-!
SUPPORT. How a command fails (60_exceptions.md R272, R274 to R277): the checks it begins with, and the five ways it can
end, said once for each command.
-/
namespace Sys2Proof

open Machine

/-! ### Commands that need a framebuffer -/

/-- A drawing command needs a framebuffer in buffered mode and only then (R275). -/
theorem Instr.needsFb_drawing {i : Instr} (hd : i.opcode ∈ drawingOpcodes) : i.needsFb ↔ i.mode = .buffered := by
  have hother : ∀ o ∈ drawingOpcodes, o ∉ [Opcode.fill, .flushWindow, .flushFull] := by decide
  exact ⟨fun h => h.elim (absurd · (hother _ hd)) And.right, fun hm => .inr ⟨hd, hm⟩⟩

/-- `ERR_UNSUPPORTED` is listed for each command that needs a framebuffer (R277). -/
theorem Instr.errUnsupported_mem_ownCodes {i : Instr} (h : i.needsFb) : .errUnsupported ∈ i.ownCodes := by
  cases i
  case fill | flushWindow | flushFull => simp [Instr.ownCodes, Instr.opcode]
  case writeHline | drawRect | drawImage | drawGlyph | putChar | putString | putStringXy =>
    obtain rfl := (Instr.needsFb_drawing (by simp [Instr.opcode, drawingOpcodes])).1 h
    simp [Instr.ownCodes, Instr.opcode, Instr.mode]
  all_goals simp [Instr.needsFb, Instr.opcode, drawingOpcodes] at h

end Sys2Proof

namespace Sys2Proof.Machine

/-! ### The checks a command begins with -/

/-- Before an INIT a command ends at its first check (R274). -/
theorem init_check_fails {s : State} (hi : s.inited = false) (r : Result) :
    (if !s.inited then failZero .errNotInit s else r) = .next (s.endCommand .errNotInit 0 0 0 0) := by
  simp only [hi]
  rfl

/-- Without a framebuffer a command that needs one ends at its second check (R275). -/
theorem framebuffer_check_fails {s : State} (hf : s.cfg.hasFb = false) (r : Result) :
    (if !s.cfg.hasFb then failZero .errUnsupported s else r) = .next (s.endCommand .errUnsupported 0 0 0 0) := by
  simp only [hf]
  rfl

/-- Every command but INIT makes the first check first (R274). -/
theorem exec_notInit {i : Instr} {s : State} (hi : s.inited = false) (hn : i.opcode ≠ .init) :
    exec i s = .next (s.endCommand .errNotInit 0 0 0 0) := by
  cases i
  case init => exact absurd rfl hn
  all_goals exact init_check_fails hi _

/-- A command that needs a framebuffer checks for one next (R275, R276). -/
theorem exec_unsupported {i : Instr} {s : State} (hi : s.inited = true) (hf : s.cfg.hasFb = false) (h : i.needsFb) :
    exec i s = .next (s.endCommand .errUnsupported 0 0 0 0) := by
  cases i
  case fill | flushWindow | flushFull => exact (init_check_passes hi _).trans (framebuffer_check_fails hf _)
  case writeHline | drawRect | drawImage | drawGlyph | putChar | putString | putStringXy =>
    obtain rfl := (Instr.needsFb_drawing (by simp [Instr.opcode, drawingOpcodes])).1 h
    exact (init_check_passes hi _).trans (framebuffer_check_fails hf _)
  all_goals simp [Instr.needsFb, Instr.opcode, drawingOpcodes] at h

/-! ### The ways a command ends -/

/-- The five ways a command can end: refused before an INIT, refused for want of a framebuffer, failed by a check of its
own with nothing changed, completed, or stopped in the middle of its text (R271, R272, R274 to R277). -/
inductive Concludes (i : Instr) (s : State) : Result → Prop where
  | notInit (hi : s.inited = false) (hn : i.opcode ≠ .init) : Concludes i s (failZero .errNotInit s)
  | noFramebuffer (h : i.needsFb) : Concludes i s (failZero .errUnsupported s)
  | fails {c : Code} {r0 r1 r2 r3 : Word} (hc : c ∈ i.ownCodes := by simp [Instr.ownCodes, Instr.opcode])
      (hu : c ≠ .errUnsupported := by decide) : Concludes i s (failWith c s r0 r1 r2 r3)
  | completes {w : State} {r0 r1 r2 r3 : Word} : Concludes i s (done w r0 r1 r2 r3)
  | stops {w : State} {r0 r1 r2 r3 : Word} (hc : .errLayoutStop ∈ i.ownCodes) :
      Concludes i s (failWith .errLayoutStop w r0 r1 r2 r3)

namespace Concludes

variable {i : Instr} {s : State} {r : Result}

/-- The check that an INIT has succeeded (R274). -/
theorem guardInit (h : Concludes i s r) (hn : i.opcode ≠ .init := by simp [Instr.opcode]) :
    Concludes i s (if !s.inited then failZero .errNotInit s else r) := by
  split
  · rename_i hi
    exact .notInit (by simpa using hi) hn
  · exact h

/-- The check for a framebuffer, in the form a command makes it (R275). -/
theorem guardFramebuffer {p : Prop} [Decidable p] (hp : p → i.needsFb) (h : Concludes i s r) :
    Concludes i s (if p then failZero .errUnsupported s else r) := by
  split
  · exact .noFramebuffer (hp ‹_›)
  · exact h

/-- The checks of a command that flushes or fills (R274, R275). -/
theorem guardStorage (h : Concludes i s r)
    (ho : i.opcode ∈ [Opcode.fill, .flushWindow, .flushFull] := by simp [Instr.opcode]) :
    Concludes i s
      (if !s.inited then failZero .errNotInit s else if !s.cfg.hasFb then failZero .errUnsupported s else r) :=
  .guardInit (.guardFramebuffer (fun _ => .inl ho) h) fun e => absurd (e ▸ ho) (by decide)

/-- The checks of a drawing command (R274, R275). -/
theorem guardDrawing (h : Concludes i s r)
    (hd : i.opcode ∈ drawingOpcodes := by simp [Instr.opcode, drawingOpcodes]) :
    Concludes i s
      (if !s.inited then failZero .errNotInit s else if s.lacksFb i.mode then failZero .errUnsupported s else r) := by
  refine .guardInit (.guardFramebuffer (fun hl => ?_) h) fun e => absurd (e ▸ hd) (by decide)
  simp only [State.lacksFb, Bool.and_eq_true, beq_iff_eq] at hl
  exact (Instr.needsFb_drawing hd).2 hl.1

/-- Another check that a command makes before it does anything (R276). -/
theorem guard {p : Prop} [Decidable p] {c : Code} {r0 r1 r2 r3 : Word} (h : Concludes i s r)
    (hc : c ∈ i.ownCodes := by simp [Instr.ownCodes, Instr.opcode]) (hu : c ≠ .errUnsupported := by decide) :
    Concludes i s (if p then failWith c s r0 r1 r2 r3 else r) := by
  split
  · exact .fails hc hu
  · exact h

/-- The end of a text command (R196, R198, R200). -/
theorem layout {w : State} {r0 r1 r2 r3 : Word} (all : Bool)
    (hc : .errLayoutStop ∈ i.ownCodes := by simp [Instr.ownCodes, Instr.opcode]) :
    Concludes i s (.next (w.endCommand (layoutCode all) r0 r1 r2 r3)) := by
  cases all
  · exact .stops hc
  · exact .completes

end Concludes

/-- What drawing one glyph can report (R191). -/
theorem drawGlyphAt_code_mem (m : Mode) (x y : Int) (cp : Word) (s : State) :
    (drawGlyphAt m x y cp s).code ∈ [Code.ok, .notRenderable, .errTooWide] := by
  unfold drawGlyphAt
  split
  · simp
  · simp only
    split
    · simp
    · split
      · simp
      · simp

/-- DRAW_GLYPH fails with the code of the glyph it does not draw (R191, R272). -/
theorem execDrawGlyph_concludes (m : Mode) (x y cp : Word) (s : State) :
    Concludes (.drawGlyph m x y cp) s (execDrawGlyph m x y cp s) := by
  refine .guardDrawing (.guard ?_)
  have hcode := drawGlyphAt_code_mem m (s16 x) (s16 y) cp s
  simp only
  generalize drawGlyphAt m (s16 x) (s16 y) cp s = d at hcode
  split
  · rw [‹d.code = .ok›]
    exact .completes
  · have hown : d.code ∈ [Code.notRenderable, .errTooWide] := (List.mem_cons.1 hcode).resolve_left ‹_›
    exact .fails (.tail _ (List.mem_append_left _ hown)) fun e => absurd (e ▸ hown) (by decide)

/-- Every command ends in one of the five ways, by the checks it makes in their order (R276). -/
theorem exec_concludes (i : Instr) (s : State) : Concludes i s (exec i s) := by
  cases i
  case init => exact .guard .completes
  case setTextBounds | setDisplayWindow | clear | setCursor => exact .guardInit .completes
  case fill | flushFull => exact .guardStorage .completes
  case flushWindow =>
    refine .guardStorage ?_
    simp only
    split
    · exact .completes
    · exact .completes
  case setCtrl => exact .guardInit (.guard .completes)
  case writeHline => exact .guardDrawing (.guard .completes)
  case drawRect => exact .guardDrawing .completes
  case drawImage =>
    refine .guardDrawing ?_
    split
    · exact .fails
    · exact .guard .completes
  case selectFont | loadTransition =>
    refine .guardInit ?_
    split
    · exact .fails
    · exact .completes
  case glyphLookup | measure =>
    refine .guardInit (.guard ?_)
    split
    · exact .fails
    · exact .completes
  case drawGlyph m x y cp => exact execDrawGlyph_concludes m x y cp s
  case putChar => exact .guardDrawing (.guard (.layout _))
  case putString | putStringXy => exact .guardDrawing (.guard (.guard (.layout _)))

theorem concludes_of_exec {i : Instr} {s t : State} (h : exec i s = .next t) : Concludes i s (.next t) :=
  h ▸ exec_concludes i s

/-! ### The statements -/

/-- Settles O19: of the five ways a command ends, three change nothing else, and the other two have the codes
left out. -/
theorem failureAtomicity : Obligations.FailureAtomicity := by
  intro i s t h hok hstop
  cases concludes_of_exec h with
  | notInit | noFramebuffer | fails => rfl
  | completes => exact absurd rfl hok
  | stops => exact absurd rfl hstop

/-- Settles O23: the code of each of the five ways a command ends. -/
theorem codesByCommand : Obligations.CodesByCommand := by
  intro i s t h
  cases concludes_of_exec h with
  | notInit hi hn => exact .inr (.inl ⟨rfl, hi, hn⟩)
  | noFramebuffer hfb => exact .inr (.inr (Instr.errUnsupported_mem_ownCodes hfb))
  | fails hc => exact .inr (.inr hc)
  | completes => exact .inl rfl
  | stops hc => exact .inr (.inr hc)

/-- Settles O18: the first check fails (`exec_notInit`), and a step runs the command after it took the packet
(`stepRunsDecoded`). -/
theorem notInitialised : Obligations.NotInitialised := by
  intro i s hi hn
  exact ⟨exec_notInit hi hn, fun rest hs hdec =>
    (stepRunsDecoded s i rest hs hdec).2.trans (exec_notInit (s := s.takePacket rest) hi hn)⟩

/-- Settles O20: the framebuffer check fails (`exec_unsupported`), CLEAR makes none (`execClear_ready`), and of the five
ways a command ends only that check has the code. -/
theorem withoutFramebuffer : Obligations.WithoutFramebuffer := by
  intro s hi hf
  refine ⟨fun i => exec_unsupported hi hf, ?_, fun i t hn h => ?_⟩
  · have hfb : s.zeroStorage.fb = s.fb := by rw [s.zeroStorage_fb, if_neg (by simp [hf])]
    have hzero : s.zeroStorage = { s with shadow := List.replicate s.height { col := 0, byte := 0 } } := by
      rw [← hfb]
      rfl
    exact (execClear_ready hi).trans (by rw [hzero])
  · cases concludes_of_exec h with
    | notInit | completes | stops => simp
    | noFramebuffer hfb => exact absurd hfb hn
    | fails _ hu => exact hu

end Sys2Proof.Machine
